-- ==== Sys2Proof/Word.lean ====
section
/-! DEFINITION. The word types of the OPN-FM block: the byte of the register space, the 17-bit command word
(30_encoding.md R100) and the signed 16-bit sample of the host's buffer (20_memory.md R83). -/

namespace Sys2Proof

/-- One byte of the register space (20_memory.md R80). -/
abbrev Byte := BitVec 8

/-- A register write as a command word, bank then address then data (30_encoding.md R100). -/
abbrev CommandWord := BitVec 17

/-- One value of the host's PCM buffer, a signed 16-bit integer (20_memory.md R83). -/
abbrev Sample := BitVec 16

end Sys2Proof
end

