-- ==== Sys2Proof/Config.lean ====
section
/-! DEFINITION. What an instance is built with (00_scope.md R2, R5): the chip family, the frequency base and the
parameters the spec leaves OPEN. They are plain data, arguments of the model, so a statement about every state holds
for every choice (notes/assumptions/1.md). The one function among them, HOST_POST, is either the identity or an
uninterpreted constant (notes/assumptions/2.md). -/

namespace Sys2Proof

/-- The chip model an instance is built for (00_scope.md R2). -/
inductive Family where
  | ym2203
  | ym2608
  | ym2610
  | ym2610b
  | ym2612
deriving DecidableEq, Repr

/-- EG_SEL_VARIANT: which of the two increment-selector tables a family uses (40_tables.md R152). -/
inductive SelVariant where
  | a
  | b
deriving DecidableEq, Repr

/-- SSG_MUL, OPEN among 4 and 6 (00_scope.md R5). -/
inductive SsgMul where
  | four
  | six
deriving DecidableEq, Repr

/-- The parameters that are OPEN for a family (00_scope.md R5). -/
structure FamilyParams where
  /-- EG_SEL_VARIANT. -/
  egSel : SelVariant
  /-- SSG_MUL. -/
  ssgMul : SsgMul
  /-- ATTACK_SHORTCUT. -/
  attackShortcut : Bool
  /-- REL_MUL for an operator with SSG-EG off. -/
  relMul : Nat
  /-- REL_MUL for an operator with SSG-EG on. -/
  relMulSsg : Nat
deriving DecidableEq, Repr

/-- One record of OPEN parameters for each family. -/
structure FamilyTable where
  ym2203 : FamilyParams
  ym2608 : FamilyParams
  ym2610 : FamilyParams
  ym2610b : FamilyParams
  ym2612 : FamilyParams
deriving DecidableEq, Repr

/-- Which HOST_POST is in use (46_channel_mix.md R376): the default, the identity, or the open function number `k`. -/
inductive HostPost where
  | identity
  | open_ (k : Nat)
deriving DecidableEq, Repr

/-- A side of the stereo output. -/
inductive Side where
  | left
  | right
deriving DecidableEq, Repr

/-- HOST_POST when it is not the identity (46_channel_mix.md R376, OPEN in 00_scope.md R5): an uninterpreted function of
the side, the two host arguments, the state it keeps across samples and the sample, giving the new state and the sample
to add. It has no body: nothing can be proved about its values. -/
opaque hostPostOpen (k : Nat) (side : Side) (volumePercent loudnessBoost state sample : Int) : Int × Int

/-- The configuration of an instance, fixed at construction (10_state.md R30). FREQBASE is the rational
`freqNum / freqDen` (40_tables.md R167). -/
structure Config where
  family : Family
  freqNum : Nat
  freqDen : Nat
  params : FamilyParams
  post : HostPost
deriving DecidableEq, Repr

end Sys2Proof
end

