-- ==== Sys2Proof/Syntax.lean ====
section
/-! DEFINITION. The instructions: the rows of spec/opcode_table.json, one constructor each (30_encoding.md R105 to
R111), and the host's calls they are decoded from. A register write keeps its whole data byte, because the shadow
stores it (10_state.md R60); the fields are read from it by the accessors of Machine/Operands.lean. -/

namespace Sys2Proof

/-- A channel index `c` in 0..5 (00_scope.md R10). -/
inductive Chan where
  | ch0
  | ch1
  | ch2
  | ch3
  | ch4
  | ch5
deriving DecidableEq, Repr

/-- A logical operator number `n` in 1..4 (00_scope.md R10). -/
inductive OpNum where
  | op1
  | op2
  | op3
  | op4
deriving DecidableEq, Repr

/-- The index `k` in 0..2 of a 3-slot frequency entry (10_state.md R50). -/
inductive Slot3 where
  | k0
  | k1
  | k2
deriving DecidableEq, Repr

/-- The instructions of the block, one for each row of the opcode table. -/
inductive Instr where
  /-- LFO_CTRL, 0x22 (41_global_regs.md R180). -/
  | lfoCtrl (data : Byte)
  /-- TIMERA_HI, 0x24 (R181). -/
  | timerAHi (data : Byte)
  /-- TIMERA_LO, 0x25 (R182). -/
  | timerALo (data : Byte)
  /-- TIMERB, 0x26 (R183). -/
  | timerB (data : Byte)
  /-- MODE_TIMER, 0x27 (R184). -/
  | modeTimer (data : Byte)
  /-- KEY_ONOFF, 0x28 (R185). -/
  | keyOnOff (data : Byte)
  /-- DT_MUL, 0x30 group (42_operator_regs.md R210). -/
  | dtMul (c : Chan) (n : OpNum) (data : Byte)
  /-- TL, 0x40 group (R211). -/
  | tl (c : Chan) (n : OpNum) (data : Byte)
  /-- KS_AR, 0x50 group (R212). -/
  | ksAr (c : Chan) (n : OpNum) (data : Byte)
  /-- AM_D1R, 0x60 group (R213). -/
  | amD1r (c : Chan) (n : OpNum) (data : Byte)
  /-- D2R, 0x70 group (R214). -/
  | d2r (c : Chan) (n : OpNum) (data : Byte)
  /-- SL_RR, 0x80 group (R215). -/
  | slRr (c : Chan) (n : OpNum) (data : Byte)
  /-- SSG_EG, 0x90 group (R216). -/
  | ssgEg (c : Chan) (n : OpNum) (data : Byte)
  /-- FNUM_LO, 0xA0..0xA2 (43_channel_regs.md R240). -/
  | fnumLo (c : Chan) (data : Byte)
  /-- FNUM_HI_BLK, 0xA4..0xA6 (R241); the channel only says which address was written. -/
  | fnumHiBlk (c : Chan) (data : Byte)
  /-- SL3_FNUM_LO, 0xA8..0xAA, bank 0 (R242). -/
  | sl3FnumLo (k : Slot3) (data : Byte)
  /-- SL3_FNUM_HI_BLK, 0xAC..0xAE, bank 0 (R243); `k` only says which address was written. -/
  | sl3FnumHiBlk (k : Slot3) (data : Byte)
  /-- FB_ALGO, 0xB0..0xB2 (R245). -/
  | fbAlgo (c : Chan) (data : Byte)
  /-- PAN_AMS_PMS, 0xB4..0xB6 (R246). -/
  | panAmsPms (c : Chan) (data : Byte)
  /-- IGNORED, a write to an unmapped address (30_encoding.md R108). -/
  | ignored (bank : Bool) (addr data : Byte)
  /-- CONSTRUCT (70_reset_and_hazards.md R451). The family is which constructor the host calls; a callback is present
  or missing. -/
  | construct (family : Family) (chipCount clockHz sampleRateHz : Nat) (timerCallback irqCallback : Bool)
  /-- RESET (R450). -/
  | reset
  /-- GENERATE (46_channel_mix.md R372), with the contents of the buffer it is given. -/
  | generate (count volumePercent loudnessBoost : Int) (buf : List Sample)
  /-- READ_STATUS (R373). -/
  | readStatus (port : Int)
  /-- DUMP (R374). -/
  | dump
  /-- RESTORE (R375). -/
  | restore (bytes : List Byte)
deriving DecidableEq, Repr

/-- A host operation as the host calls it (30_encoding.md R111): the register write takes an address and a value, any
integers, and the decoder makes the command word of it. -/
inductive Call where
  | writeRegister (address value : Int)
  | construct (family : Family) (chipCount clockHz sampleRateHz : Nat) (timerCallback irqCallback : Bool)
  | reset
  | generate (count volumePercent loudnessBoost : Int) (buf : List Sample)
  | readStatus (port : Int)
  | dump
  | restore (bytes : List Byte)
deriving DecidableEq, Repr

end Sys2Proof
end

