-- ==== Sys2Proof/WellFormed.lean ====
section
/-! DEFINITION. When an instruction can be an operation of an instance: the register address exists on the family
(20_memory.md R80), a register write goes to a mapped address and an ignored one to an unmapped address (30_encoding.md
R107, R108), and the operands of a host operation lie in the ranges of 60_exceptions.md R410. `six` says that the family
has six channels (NUM_CH = 6) and `pan` that it has the LFO and pan registers (HAS_LFO_PAN). The definition of *mapped*
is written from the tables of R105 to R107, apart from the decoder. -/

namespace Sys2Proof

/-- Whether channel `c` exists: the upper three need six channels (30_encoding.md R102). -/
def Chan.present (six : Bool) : Chan → Bool
  | .ch0 => true
  | .ch1 => true
  | .ch2 => true
  | .ch3 => six
  | .ch4 => six
  | .ch5 => six

/-- The global registers of 30_encoding.md R105, bank 0 only. -/
def mappedGlobal (pan : Bool) (addr : Byte) : Bool :=
  addr == 0x24 || addr == 0x25 || addr == 0x26 || addr == 0x27 || addr == 0x28 || (addr == 0x22 && pan)

/-- The operator registers of 30_encoding.md R106. -/
def mappedOperator (addr : Byte) : Bool :=
  0x30 ≤ addr.toNat && addr.toNat ≤ 0x9F && addr.toNat % 4 != 3

/-- The channel registers of the table of 30_encoding.md R107. -/
def mappedChannel (pan bank : Bool) (addr : Byte) : Bool :=
  (0xA0 ≤ addr.toNat && addr.toNat ≤ 0xA2) || (0xA4 ≤ addr.toNat && addr.toNat ≤ 0xA6)
  || (0xA8 ≤ addr.toNat && addr.toNat ≤ 0xAA && !bank) || (0xAC ≤ addr.toNat && addr.toNat ≤ 0xAE && !bank)
  || (0xB0 ≤ addr.toNat && addr.toNat ≤ 0xB2) || (0xB4 ≤ addr.toNat && addr.toNat ≤ 0xB6 && pan)

/-- *Mapped* (30_encoding.md R107). -/
def mapped (six pan bank : Bool) (addr : Byte) : Bool :=
  if bank then six && (mappedOperator addr || mappedChannel pan bank addr)
  else mappedGlobal pan addr || mappedOperator addr || mappedChannel pan bank addr

/-- The well-formed instructions of a family. -/
def Instr.wf (six pan : Bool) : Instr → Bool
  | .lfoCtrl _ => pan
  | .timerAHi _ => true
  | .timerALo _ => true
  | .timerB _ => true
  | .modeTimer _ => true
  | .keyOnOff _ => true
  | .dtMul c _ _ => c.present six
  | .tl c _ _ => c.present six
  | .ksAr c _ _ => c.present six
  | .amD1r c _ _ => c.present six
  | .d2r c _ _ => c.present six
  | .slRr c _ _ => c.present six
  | .ssgEg c _ _ => c.present six
  | .fnumLo c _ => c.present six
  | .fnumHiBlk c _ => c.present six
  | .sl3FnumLo _ _ => true
  | .sl3FnumHiBlk _ _ => true
  | .fbAlgo c _ => c.present six
  | .panAmsPms c _ => pan && c.present six
  | .ignored bank addr _ => (six || !bank) && !mapped six pan bank addr
  | .construct _ chipCount clockHz sampleRateHz _ _ => 0 < chipCount && 0 < clockHz && 0 < sampleRateHz
  | .reset => true
  | .generate count _ _ buf => 0 ≤ count && 2 * count ≤ (buf.length : Int)
  | .readStatus port => 0 ≤ port && port ≤ 3
  | .dump => true
  | .restore bytes => bytes.length == (if six then 512 else 256)

end Sys2Proof
end

