-- ==== Sys2Proof/Decode.lean ====
section
/-! DEFINITION. Decoding the host's calls (30_encoding.md R100 to R110), total and rejecting by name, and the encoder
written from the same tables; the mask and pattern of each row of the opcode table; the assembler lines and
pseudo-instructions of R112 and R113. -/

namespace Sys2Proof

/-! ### The family's capabilities (00_scope.md R5, decision D2) -/

/-- NUM_CH = 6 (00_scope.md R5). -/
def Family.six : Family → Bool
  | .ym2203 => false
  | .ym2608 => true
  | .ym2610 => true
  | .ym2610b => true
  | .ym2612 => true

/-- NUM_CH (00_scope.md R5). -/
def Family.numCh (f : Family) : Nat :=
  if f.six then 6 else 3

/-- HAS_LFO_PAN (00_scope.md R5). -/
def Family.hasLfoPan : Family → Bool
  | .ym2203 => false
  | .ym2608 => true
  | .ym2610 => true
  | .ym2610b => true
  | .ym2612 => true

/-- PRESCALE (40_tables.md R167). -/
def Family.prescale : Family → Nat
  | .ym2203 => 72
  | .ym2608 => 144
  | .ym2610 => 144
  | .ym2610b => 144
  | .ym2612 => 144

/-! ### Channel, operator and entry numbers -/

/-- `c = chs + 3*bank`, none for `chs = 3` (30_encoding.md R102). -/
def Chan.ofBankChs (bank : Bool) (chs : BitVec 2) : Option Chan :=
  match bank, chs.toNat with
  | false, 0 => some .ch0
  | false, 1 => some .ch1
  | false, 2 => some .ch2
  | true, 0 => some .ch3
  | true, 1 => some .ch4
  | true, 2 => some .ch5
  | _, _ => none

/-- The bank whose registers reach channel `c` (30_encoding.md R102). -/
def Chan.bank : Chan → Bool
  | .ch0 => false
  | .ch1 => false
  | .ch2 => false
  | .ch3 => true
  | .ch4 => true
  | .ch5 => true

/-- The low two address bits that select channel `c` (30_encoding.md R102). -/
def Chan.chs : Chan → BitVec 2
  | .ch0 => 0
  | .ch1 => 1
  | .ch2 => 2
  | .ch3 => 0
  | .ch4 => 1
  | .ch5 => 2

/-- SLOT_TO_OP = [1, 3, 2, 4] (30_encoding.md R103). -/
def OpNum.ofSlot (slot : BitVec 2) : OpNum :=
  match slot.toNat with
  | 0 => .op1
  | 1 => .op3
  | 2 => .op2
  | _ => .op4

/-- OP_TO_SLOT, the inverse (30_encoding.md R114). -/
def OpNum.slot : OpNum → BitVec 2
  | .op1 => 0
  | .op2 => 2
  | .op3 => 1
  | .op4 => 3

/-- The 3-slot entry `k = addr[1:0]`, none for 3 (43_channel_regs.md R242). -/
def Slot3.ofBits (k : BitVec 2) : Option Slot3 :=
  match k.toNat with
  | 0 => some .k0
  | 1 => some .k1
  | 2 => some .k2
  | _ => none

/-- The address bits of a 3-slot entry. -/
def Slot3.bits : Slot3 → BitVec 2
  | .k0 => 0
  | .k1 => 1
  | .k2 => 2

/-! ### The decoder -/

/-- Why a call is no operation of the instance. -/
inductive Reject where
  /-- A register address outside 0..511, or outside 0..255 on three channels (20_memory.md R86). Safe: the spec gives it
  no meaning. -/
  | addressOutOfRange (address : Int)
deriving DecidableEq, Repr

/-- The GLOBAL registers, bank 0 (30_encoding.md R105). -/
def decodeGlobal (pan : Bool) (addr data : Byte) : Instr :=
  match addr.toNat with
  | 0x22 => if pan then .lfoCtrl data else .ignored false addr data
  | 0x24 => .timerAHi data
  | 0x25 => .timerALo data
  | 0x26 => .timerB data
  | 0x27 => .modeTimer data
  | 0x28 => .keyOnOff data
  | _ => .ignored false addr data

/-- The OPREG registers of group `grp` (30_encoding.md R106). -/
def decodeOperator (bank : Bool) (addr : Byte) (c : Chan) (n : OpNum) (data : Byte) : Instr :=
  match (addr.extractLsb' 4 4).toNat with
  | 0x3 => .dtMul c n data
  | 0x4 => .tl c n data
  | 0x5 => .ksAr c n data
  | 0x6 => .amD1r c n data
  | 0x7 => .d2r c n data
  | 0x8 => .slRr c n data
  | 0x9 => .ssgEg c n data
  | _ => .ignored bank addr data

/-- The 3-slot registers, bank 0 only (30_encoding.md R107). -/
def decodeSlot3 (bank : Bool) (addr data : Byte) (mk : Slot3 → Byte → Instr) : Instr :=
  if bank then .ignored bank addr data
  else
    match Slot3.ofBits (addr.extractLsb' 0 2) with
    | some k => mk k data
    | none => .ignored bank addr data

/-- The CHREG registers (30_encoding.md R107), by `addr[7:2]`. -/
def decodeChannel (pan bank : Bool) (addr : Byte) (c : Chan) (data : Byte) : Instr :=
  match (addr.extractLsb' 2 6).toNat with
  | 0x28 => .fnumLo c data
  | 0x29 => .fnumHiBlk c data
  | 0x2A => decodeSlot3 bank addr data .sl3FnumLo
  | 0x2B => decodeSlot3 bank addr data .sl3FnumHiBlk
  | 0x2C => .fbAlgo c data
  | 0x2D => if pan then .panAmsPms c data else .ignored bank addr data
  | _ => .ignored bank addr data

/-- A write to register `addr` of a bank that exists: by `addr` first, then `bank` (30_encoding.md R100, R101, R108). -/
def decodeRegister (pan bank : Bool) (addr data : Byte) : Instr :=
  if addr.toNat < 0x30 then
    if bank then .ignored bank addr data else decodeGlobal pan addr data
  else
    match Chan.ofBankChs bank (addr.extractLsb' 0 2) with
    | none => .ignored bank addr data
    | some c =>
      if addr.toNat < 0xA0 then
        decodeOperator bank addr c (OpNum.ofSlot (addr.extractLsb' 2 2)) data
      else decodeChannel pan bank addr c data

/-- A command word `{bank, addr, data}` (30_encoding.md R100). Bank 1 exists on six channels only (20_memory.md R80). -/
def decodeCommand (f : Family) (w : CommandWord) : Except Reject Instr :=
  let bank := w.getLsbD 16
  let addr : Byte := w.extractLsb' 8 8
  let data : Byte := w.extractLsb' 0 8
  if bank && !f.six then .error (.addressOutOfRange (256 + addr.toNat))
  else .ok (decodeRegister f.hasLfoPan bank addr data)

/-- The command word of `writeRegister(address, value)` for an address in 0..511, the value masked to its low 8 bits
(20_memory.md R86, 30_encoding.md R100). -/
def commandWord (address value : Int) : CommandWord :=
  BitVec.ofInt 9 address ++ BitVec.ofInt 8 value

/-- The instruction a host call stands for. -/
def decodeCall (f : Family) : Call → Except Reject Instr
  | .writeRegister address value =>
    if 0 ≤ address ∧ address < 512 then decodeCommand f (commandWord address value)
    else .error (.addressOutOfRange address)
  | .construct family chipCount clockHz sampleRateHz timerCallback irqCallback =>
    .ok (.construct family chipCount clockHz sampleRateHz timerCallback irqCallback)
  | .reset => .ok .reset
  | .generate count volumePercent loudnessBoost buf => .ok (.generate count volumePercent loudnessBoost buf)
  | .readStatus port => .ok (.readStatus port)
  | .dump => .ok .dump
  | .restore bytes => .ok (.restore bytes)

/-! ### The encoder -/

/-- The address of an operator register: group, slot and `chs` (30_encoding.md R101, R106). -/
def operatorAddr (grp : BitVec 4) (c : Chan) (n : OpNum) : BitVec 9 :=
  BitVec.ofBool c.bank ++ grp ++ n.slot ++ c.chs

/-- The address of a channel register: `addr[7:2]` and `chs` (30_encoding.md R107). -/
def channelAddr (top : BitVec 6) (c : Chan) : BitVec 9 :=
  BitVec.ofBool c.bank ++ top ++ c.chs

/-- The address of a 3-slot register, bank 0 (30_encoding.md R107). -/
def slot3Addr (top : BitVec 6) (k : Slot3) : BitVec 9 :=
  BitVec.ofBool false ++ top ++ k.bits

/-- The 9-bit register address and the data byte of a register write; none for a host operation without bits. -/
def Instr.addressData : Instr → Option (BitVec 9 × Byte)
  | .lfoCtrl data => some (0x022, data)
  | .timerAHi data => some (0x024, data)
  | .timerALo data => some (0x025, data)
  | .timerB data => some (0x026, data)
  | .modeTimer data => some (0x027, data)
  | .keyOnOff data => some (0x028, data)
  | .dtMul c n data => some (operatorAddr 0x3 c n, data)
  | .tl c n data => some (operatorAddr 0x4 c n, data)
  | .ksAr c n data => some (operatorAddr 0x5 c n, data)
  | .amD1r c n data => some (operatorAddr 0x6 c n, data)
  | .d2r c n data => some (operatorAddr 0x7 c n, data)
  | .slRr c n data => some (operatorAddr 0x8 c n, data)
  | .ssgEg c n data => some (operatorAddr 0x9 c n, data)
  | .fnumLo c data => some (channelAddr 0x28 c, data)
  | .fnumHiBlk c data => some (channelAddr 0x29 c, data)
  | .sl3FnumLo k data => some (slot3Addr 0x2A k, data)
  | .sl3FnumHiBlk k data => some (slot3Addr 0x2B k, data)
  | .fbAlgo c data => some (channelAddr 0x2C c, data)
  | .panAmsPms c data => some (channelAddr 0x2D c, data)
  | .ignored bank addr data => some (BitVec.ofBool bank ++ addr, data)
  | .construct _ _ _ _ _ _ => none
  | .reset => none
  | .generate _ _ _ _ => none
  | .readStatus _ => none
  | .dump => none
  | .restore _ => none

/-- The command word of a register write (30_encoding.md R100); a host operation has none (R111). -/
def encode (i : Instr) : Option CommandWord :=
  i.addressData.map fun (address, data) => address ++ data

/-- The host call of an instruction. -/
def encodeCall (i : Instr) : Call :=
  match i.addressData with
  | some (address, data) => .writeRegister address.toNat data.toNat
  | none =>
    match i with
    | .construct family chipCount clockHz sampleRateHz timerCallback irqCallback =>
      .construct family chipCount clockHz sampleRateHz timerCallback irqCallback
    | .generate count volumePercent loudnessBoost buf => .generate count volumePercent loudnessBoost buf
    | .readStatus port => .readStatus port
    | .dump => .dump
    | .restore bytes => .restore bytes
    | _ => .reset

/-! ### The opcode table -/

/-- The bits of a row of spec/opcode_table.json: a command word `w` is the row's when `w &&& mask = pattern`. -/
structure OpcodeRow where
  pattern : CommandWord
  mask : CommandWord
deriving DecidableEq, Repr

/-- The table's row of an instruction; none for a host operation (match null). -/
def Instr.row : Instr → Option OpcodeRow
  | .lfoCtrl _ => some ⟨0x02200, 0x1FF00⟩
  | .timerAHi _ => some ⟨0x02400, 0x1FF00⟩
  | .timerALo _ => some ⟨0x02500, 0x1FF00⟩
  | .timerB _ => some ⟨0x02600, 0x1FF00⟩
  | .modeTimer _ => some ⟨0x02700, 0x1FF00⟩
  | .keyOnOff _ => some ⟨0x02800, 0x1FF00⟩
  | .dtMul _ _ _ => some ⟨0x03000, 0x0F000⟩
  | .tl _ _ _ => some ⟨0x04000, 0x0F000⟩
  | .ksAr _ _ _ => some ⟨0x05000, 0x0F000⟩
  | .amD1r _ _ _ => some ⟨0x06000, 0x0F000⟩
  | .d2r _ _ _ => some ⟨0x07000, 0x0F000⟩
  | .slRr _ _ _ => some ⟨0x08000, 0x0F000⟩
  | .ssgEg _ _ _ => some ⟨0x09000, 0x0F000⟩
  | .fnumLo _ _ => some ⟨0x0A000, 0x0FC00⟩
  | .fnumHiBlk _ _ => some ⟨0x0A400, 0x0FC00⟩
  | .sl3FnumLo _ _ => some ⟨0x0A800, 0x1FC00⟩
  | .sl3FnumHiBlk _ _ => some ⟨0x0AC00, 0x1FC00⟩
  | .fbAlgo _ _ => some ⟨0x0B000, 0x0FC00⟩
  | .panAmsPms _ _ => some ⟨0x0B400, 0x0FC00⟩
  | .ignored _ _ _ => some ⟨0x00000, 0x00000⟩
  | .construct _ _ _ _ _ _ => none
  | .reset => none
  | .generate _ _ _ _ => none
  | .readStatus _ => none
  | .dump => none
  | .restore _ => none

/-- The family of the machine after reset (notes/assumptions/1.md), the one the host's table words are read for. -/
def resetFamily : Family := .ym2612

/-- The host call of a table word. A command word has 17 bits, three whole bytes. The one other row to which the table
gives bits is READ_STATUS, a port in one byte; the other host operations have none (notes/assumptions/9.md). -/
def tableCall (nbits w : Nat) : Option Call :=
  if 1 ≤ nbits ∧ nbits ≤ 8 then some (.readStatus (w % 16))
  else if w < 131072 then some (.writeRegister (w / 256) (w % 256))
  else none

/-- The instruction the decoder reads from a table word, on the family of the machine after reset. -/
def decodeTableWord (nbits w : Nat) : Option Instr :=
  match tableCall nbits w with
  | none => none
  | some c =>
    match decodeCall resetFamily c with
    | .ok i => some i
    | .error _ => none

/-! ### Assembler lines and pseudo-instructions -/

/-- A line of a host program (30_encoding.md R112, R113). -/
inductive AsmLine where
  | wr (address data : Nat)
  | gen (n : Nat)
  | st (port : Nat)
  | reset
  | dump
  | restore (bytes : List Byte)
  | keyon (c : Chan) (m : BitVec 4)
  | keyoff (c : Chan)
  | freq (c : Chan) (b : BitVec 3) (f : BitVec 11)
  | opreg (g : BitVec 4) (c : Chan) (n : OpNum) (d : Byte)
  | timera (t : BitVec 10)
deriving DecidableEq, Repr

/-- The register 0x28 channel bits of channel `c`: `(C mod 3) | ((C >= 3) << 2)` (30_encoding.md R113). -/
def Chan.keyBits (c : Chan) : Nat :=
  c.chs.toNat + if c.bank then 4 else 0

/-- The calls of a line, in order (30_encoding.md R112, R113). `gen N` passes a buffer of `2*N` zeros and host arguments
that the identity HOST_POST does not read. -/
def AsmLine.expand : AsmLine → List Call
  | .wr address data => [.writeRegister address data]
  | .gen n => [.generate n 100 0 (List.replicate (2 * n) 0)]
  | .st port => [.readStatus port]
  | .reset => [.reset]
  | .dump => [.dump]
  | .restore bytes => [.restore bytes]
  | .keyon c m => [.writeRegister 0x28 (m.toNat * 16 + c.keyBits)]
  | .keyoff c => [.writeRegister 0x28 c.keyBits]
  | .freq c b f =>
    [.writeRegister (channelAddr 0x29 c).toNat (b.toNat * 8 + f.toNat / 256),
     .writeRegister (channelAddr 0x28 c).toNat (f.toNat % 256)]
  | .opreg g c n d => [.writeRegister (operatorAddr g c n).toNat d.toNat]
  | .timera t => [.writeRegister 0x24 (t.toNat / 4), .writeRegister 0x25 (t.toNat % 4)]

end Sys2Proof
end

