-- ==== Sys2Proof/Machine/State.lean ====
section
/-! DEFINITION. The state of the machine as plain data (10_state.md R30 to R61), the reasons a step can stop, and the
state after reset (70_reset_and_hazards.md R450 to R455). -/

namespace Sys2Proof.Machine

/-! ### Containers -/

/-- Six like things, one for each channel index. -/
structure Six (α : Type) where
  ch0 : α
  ch1 : α
  ch2 : α
  ch3 : α
  ch4 : α
  ch5 : α
deriving DecidableEq, Repr

/-- Four like things, one for each logical operator number. -/
structure Quad (α : Type) where
  op1 : α
  op2 : α
  op3 : α
  op4 : α
deriving DecidableEq, Repr

/-- The register shadow `Reg` (10_state.md R60): cells with addresses strictly rising and no entry that holds 0, which
is what an unlisted address reads as (R60: "Reset: every byte 0"). -/
abbrev Memory := List Host.Cell

/-! ### Operator record (10_state.md R32 to R39) -/

/-- The envelope states (10_state.md R36). -/
inductive EgState where
  | off
  | rel
  | sus
  | dec
  | att
deriving DecidableEq, Repr

/-- `op[c][n]`. -/
structure Operator where
  dt : BitVec 3
  mul : BitVec 4
  tl : BitVec 7
  ks : BitVec 2
  ar : BitVec 5
  am : Bool
  d1r : BitVec 5
  d2r : BitVec 5
  sl : BitVec 4
  rr : BitVec 4
  ssg : BitVec 4
  /-- The phase accumulator (R33). -/
  phase : BitVec 20
  /-- The cached phase increment (R34). -/
  incr : Nat
  /-- The latched key-scale value (R35). -/
  ksrVal : BitVec 5
  state : EgState
  /-- The envelope attenuation, 0..1023 (R37). -/
  volume : Nat
  /-- The cached output attenuation, 0..2039 (R38). -/
  volOut : Nat
  key : Bool
  ssgInv : Bool
  ssgSwapped : Bool
deriving DecidableEq, Repr

/-! ### Channel record (10_state.md R40 to R42) -/

/-- `ch[c]` together with its four operators `op[c][1..4]`. -/
structure Channel where
  ops : Quad Operator
  algo : BitVec 3
  fb : BitVec 3
  fnum : BitVec 11
  blk : BitVec 3
  kcode : BitVec 5
  pms : BitVec 3
  ams : BitVec 2
  panL : Bool
  panR : Bool
  /-- `op1Out[0]`, the older output of operator 1 (R41). -/
  op1Out0 : Int
  /-- `op1Out[1]`, the newest (R41). -/
  op1Out1 : Int
  memValue : Int
  dirty : Bool
deriving DecidableEq, Repr

/-! ### Chip record (10_state.md R50 to R55) -/

/-- One 3-slot override frequency `sl3[k]` (R50). -/
structure Slot3Freq where
  fnum : BitVec 11
  blk : BitVec 3
  kcode : BitVec 5
deriving DecidableEq, Repr

/-- `chip`. -/
structure Chip where
  fnH : BitVec 6
  sl3FnH : BitVec 6
  sl3k0 : Slot3Freq
  sl3k1 : Slot3Freq
  sl3k2 : Slot3Freq
  mode : BitVec 8
  ta : BitVec 10
  tb : BitVec 8
  taCnt : Int
  tbCnt : Int
  status : BitVec 8
  irq : Bool
  egTimer : Nat
  egCnt : BitVec 32
  lfoCnt : BitVec 32
  lfoInc : Nat
  lfoAm : Nat
  lfoPm : Nat
deriving DecidableEq, Repr

/-! ### Events, instance, machine -/

/-- A timer. -/
inductive Timer where
  | a
  | b
deriving DecidableEq, Repr

/-- The events of 00_scope.md R11. -/
inductive Event where
  | timerReload (t : Timer) (period : Nat)
  | timerStop (t : Timer)
  | irqLevel (level : Bool)
deriving DecidableEq, Repr

/-- One instance of the block (10_state.md R30): its configuration, channels, chip record, shadow and event list; and
the state HOST_POST keeps across samples on each side (46_channel_mix.md R376, notes/assumptions/2.md). -/
structure Instance where
  cfg : Config
  chans : Six Channel
  chip : Chip
  reg : Memory
  events : List Event
  postL : Int
  postR : Int
deriving DecidableEq, Repr

/-- What an operation returns to the host (notes/assumptions/5.md). -/
inductive Result where
  | none
  /-- The status byte (46_channel_mix.md R373). -/
  | status (b : Byte)
  /-- The dump (46_channel_mix.md R374). -/
  | bytes (l : List Byte)
  /-- The handles of constructed instances (70_reset_and_hazards.md R451). -/
  | handles (l : List Nat)
deriving DecidableEq, Repr

/-- A host operation not yet taken, with the handle of the instance it is called on (notes/assumptions/3.md and 4.md). -/
structure Request where
  handle : Nat
  call : Call
deriving DecidableEq, Repr

/-- The machine: the instance operated on, the instances before and after it (a handle is a position among all of
them), the family parameters and HOST_POST a construction uses, the host operations still to come, what the last
value-returning operation returned, and the host buffer as the last GENERATE left it. -/
structure State where
  earlier : List Instance
  self : Instance
  later : List Instance
  params : FamilyTable
  post : HostPost
  pending : List Request
  result : Result
  buf : List Sample
deriving DecidableEq, Repr

/-! ### How a step can stop -/

/-- The faults: none. The block raises no exception and has no fault mechanism (60_exceptions.md R411), so no step of
the model can end in one. -/
inductive Fault where
deriving DecidableEq, Repr

/-- The refusals. All but the first and the last are those of 60_exceptions.md R410, which changes no state, no event and
no buffer value. -/
inductive Refusal where
  /-- An instruction without a meaning yet, raised by exec's arm; safe. No arm uses it. -/
  | notModelled (mnemonic : String)
  /-- A register write outside the family's address space, raised by decoding and by every write to an upper channel
  (R410); safe. -/
  | addressOutOfRange (address : Int)
  /-- GENERATE with a negative count, raised by execGenerate (R410); safe. -/
  | negativeCount (count : Int)
  /-- GENERATE with a buffer shorter than twice its count, raised by execGenerate (R410); safe. -/
  | bufferTooShort (count : Int) (length : Nat)
  /-- READ_STATUS with a port outside 0..3, raised by execReadStatus (R410); safe. -/
  | portOutOfRange (port : Int)
  /-- RESTORE with an array of the wrong length, raised by execRestore (R410); safe. -/
  | restoreLength (length : Nat)
  /-- CONSTRUCT with an operand outside the ranges of 70_reset_and_hazards.md R451, raised by execConstruct (R410);
  safe. -/
  | constructFailed
  /-- An operation called on a handle that no construction returned, raised by step (notes/assumptions/3.md); safe. -/
  | noSuchInstance (handle : Nat)
deriving DecidableEq, Repr

/-! ### The state after reset -/

/-- The same thing for every channel. -/
def Six.fill {α : Type} (a : α) : Six α := ⟨a, a, a, a, a, a⟩

/-- The same thing for every operator. -/
def Quad.fill {α : Type} (a : α) : Quad α := ⟨a, a, a, a⟩

/-- An operator after reset (70_reset_and_hazards.md R450). -/
def Operator.initial : Operator where
  dt := 0
  mul := 0
  tl := 0
  ks := 0
  ar := 0
  am := false
  d1r := 0
  d2r := 0
  sl := 0
  rr := 0
  ssg := 0
  phase := 0
  incr := 0
  ksrVal := 0
  state := .off
  volume := 1023
  volOut := 1023
  key := false
  ssgInv := false
  ssgSwapped := false

/-- A channel after reset (70_reset_and_hazards.md R450). -/
def Channel.initial : Channel where
  ops := Quad.fill Operator.initial
  algo := 0
  fb := 0
  fnum := 0
  blk := 0
  kcode := 0
  pms := 0
  ams := 0
  panL := true
  panR := true
  op1Out0 := 0
  op1Out1 := 0
  memValue := 0
  dirty := true

/-- The chip record as part 1 of R450 leaves it, before the reset writes. -/
def Chip.cleared : Chip where
  fnH := 0
  sl3FnH := 0
  sl3k0 := ⟨0, 0, 0⟩
  sl3k1 := ⟨0, 0, 0⟩
  sl3k2 := ⟨0, 0, 0⟩
  mode := 0
  ta := 0
  tb := 0
  taCnt := 0
  tbCnt := 0
  status := 0
  irq := false
  egTimer := 0
  egCnt := 0
  lfoCnt := 0
  lfoInc := 0
  lfoAm := 0
  lfoPm := 0

/-- The shadow after reset (70_reset_and_hazards.md R454). -/
def regAfterReset (f : Family) : Memory :=
  (if f.hasLfoPan then [(0x27, 0x30), (0xB4, 0xC0), (0xB5, 0xC0), (0xB6, 0xC0)] else [(0x27, 0x30)])
    ++ (if f.six && f.hasLfoPan then [(0x1B4, 0xC0), (0x1B5, 0xC0), (0x1B6, 0xC0)] else [])

/-- An instance of configuration `cfg` right after its reset (70_reset_and_hazards.md R450 to R455). -/
def Instance.afterReset (cfg : Config) : Instance where
  cfg := cfg
  chans := Six.fill Channel.initial
  chip := { Chip.cleared with mode := 0x30 }
  reg := regAfterReset cfg.family
  events := []
  postL := 0
  postR := 0

/-- The OPEN parameters of the test configuration (95_test_vectors.md, Configuration; notes/assumptions/1.md). -/
def testParams : FamilyParams where
  egSel := .a
  ssgMul := .four
  attackShortcut := true
  relMul := 1
  relMulSsg := 1

/-- The configuration of 95_test_vectors.md (notes/assumptions/1.md). -/
def testConfig : Config where
  family := resetFamily
  freqNum := 1
  freqDen := 1
  params := testParams
  post := .identity

/-- The machine right after reset: one instance, just reset, in the test configuration, and nothing pending. -/
def State.reset : State where
  earlier := []
  self := Instance.afterReset testConfig
  later := []
  params := ⟨testParams, testParams, testParams, testParams, testParams⟩
  post := .identity
  pending := []
  result := .none
  buf := []

end Sys2Proof.Machine
end

