-- ==== Sys2Proof/Machine/Ops.lean ====
section
/-! DEFINITION. The named operations over the state: the register shadow, channels and operators, events, and the write
path every register write goes through.

TAKING AN EXCEPTION: the block has none. It records no cause, saves no state, changes no mode, jumps nowhere and has no
return operation (60_exceptions.md R411, R424). Its one interrupt is an output, the IRQ level, reported as an event by
`Instance.irqUpdate` in Machine/Flags.lean (R421). So there is no entry and no return here. -/

namespace Sys2Proof.Machine

/-! ### The register shadow -/

/-- What an unlisted address of the shadow reads as (10_state.md R60: "Reset: every byte 0"). -/
def Memory.unlisted : Byte := 0

/-- The shadow byte of an address. -/
def Memory.read : Memory → Nat → Byte
  | [], _ => Memory.unlisted
  | (a, b) :: m, x => if x = a then b else Memory.read m x

/-- Store a shadow byte, keeping the canonical form: storing what an unlisted address reads as removes the cell. -/
def Memory.write : Memory → Nat → Byte → Memory
  | [], x, v => if v = Memory.unlisted then [] else [(x, v)]
  | (a, b) :: m, x, v =>
    if x < a then
      if v = Memory.unlisted then (a, b) :: m else (x, v) :: (a, b) :: m
    else if x = a then
      if v = Memory.unlisted then m else (x, v) :: m
    else (a, b) :: Memory.write m x v

/-- The canonical form from address `lo` on: addresses strictly rising, none holding the unlisted value. -/
def Memory.wfFrom : Nat → Memory → Bool
  | _, [] => true
  | lo, (a, b) :: m => lo ≤ a && b != Memory.unlisted && Memory.wfFrom (a + 1) m

/-- The canonical form of the shadow. -/
def Memory.wf (m : Memory) : Bool :=
  Memory.wfFrom 0 m

/-! ### Channels and operators -/

/-- The component of channel `c`. -/
def Six.get {α : Type} (x : Six α) : Chan → α
  | .ch0 => x.ch0
  | .ch1 => x.ch1
  | .ch2 => x.ch2
  | .ch3 => x.ch3
  | .ch4 => x.ch4
  | .ch5 => x.ch5

/-- Replace the component of channel `c`. -/
def Six.set {α : Type} (x : Six α) (c : Chan) (a : α) : Six α :=
  match c with
  | .ch0 => { x with ch0 := a }
  | .ch1 => { x with ch1 := a }
  | .ch2 => { x with ch2 := a }
  | .ch3 => { x with ch3 := a }
  | .ch4 => { x with ch4 := a }
  | .ch5 => { x with ch5 := a }

/-- The six values of a function of the channel. -/
def Six.tabulate {α : Type} (f : Chan → α) : Six α :=
  ⟨f .ch0, f .ch1, f .ch2, f .ch3, f .ch4, f .ch5⟩

/-- The component of operator `n`. -/
def Quad.get {α : Type} (x : Quad α) : OpNum → α
  | .op1 => x.op1
  | .op2 => x.op2
  | .op3 => x.op3
  | .op4 => x.op4

/-- Replace the component of operator `n`. -/
def Quad.set {α : Type} (x : Quad α) (n : OpNum) (a : α) : Quad α :=
  match n with
  | .op1 => { x with op1 := a }
  | .op2 => { x with op2 := a }
  | .op3 => { x with op3 := a }
  | .op4 => { x with op4 := a }

/-- The four values of a function of the operator number. -/
def Quad.tabulate {α : Type} (f : OpNum → α) : Quad α :=
  ⟨f .op1, f .op2, f .op3, f .op4⟩

/-- `ch[c]`. -/
def Instance.ch (x : Instance) (c : Chan) : Channel :=
  x.chans.get c

/-- `op[c][n]`. -/
def Instance.op (x : Instance) (c : Chan) (n : OpNum) : Operator :=
  (x.ch c).ops.get n

/-- Whether channel `c` is one of `0..NUM_CH-1` of the instance's family (10_state.md R30). -/
def Instance.live (x : Instance) (c : Chan) : Bool :=
  c.present x.cfg.family.six

/-- Change `ch[c]`. -/
def Instance.updCh (x : Instance) (c : Chan) (f : Channel → Channel) : Instance :=
  { x with chans := x.chans.set c (f (x.ch c)) }

/-- Change `op[c][n]` in its channel. -/
def Channel.updOp (h : Channel) (n : OpNum) (f : Operator → Operator) : Channel :=
  { h with ops := h.ops.set n (f (h.ops.get n)) }

/-- Change `op[c][n]`. -/
def Instance.updOp (x : Instance) (c : Chan) (n : OpNum) (f : Operator → Operator) : Instance :=
  x.updCh c fun h => h.updOp n f

/-- `ch[c].dirty <- true` (10_state.md R42). -/
def Channel.markDirty (h : Channel) : Channel :=
  { h with dirty := true }

/-! ### Events and the shadow of an instance -/

/-- `emit E` (00_scope.md R11). -/
def Instance.emit (x : Instance) (e : Event) : Instance :=
  { x with events := x.events ++ [e] }

/-- `Reg(a)` (10_state.md R60). -/
def Instance.shadow (x : Instance) (a : BitVec 9) : Byte :=
  x.reg.read a.toNat

/-- `Reg(a) <- data`, the first effect of every mapped write (10_state.md R60). -/
def Instance.store (x : Instance) (a : BitVec 9) (data : Byte) : Instance :=
  { x with reg := x.reg.write a.toNat data }

/-! ### The machine's operations -/

/-- The handle of the instance operated on: its position among all instances (notes/assumptions/3.md). -/
def State.handle (s : State) : Nat :=
  s.earlier.length

/-- Every instance, in the order of the handles. -/
def State.instances (s : State) : List Instance :=
  s.earlier ++ s.self :: s.later

/-- Turn to the instance with a handle; none if there is no such instance. -/
def State.focus (s : State) (handle : Nat) : Option State :=
  match s.instances.drop handle with
  | [] => none
  | x :: rest => some { s with earlier := s.instances.take handle, self := x, later := rest }

/-- A register write that reaches channel `c`: its effect on the instance, or the refusal of an address the family does
not have (60_exceptions.md R410). -/
def State.writeChannel (s : State) (c : Chan) (address : BitVec 9) (effect : Instance → Instance) :
    Host.Outcome State Fault Refusal :=
  if s.self.live c then .next { s with self := effect s.self }
  else .refused (.addressOutOfRange address.toNat)

/-- A register write in bank 0, which every family has. -/
def State.writeGlobal (s : State) (effect : Instance → Instance) : Host.Outcome State Fault Refusal :=
  .next { s with self := effect s.self }

end Sys2Proof.Machine
end

