-- ==== Sys2Proof/Machine/Operands.lean ====
section
/-! DEFINITION. The fields of a data byte, each an unsigned slice with no scaling (30_encoding.md R104 to R107), and the
latched values assembled from them (20_memory.md R84). -/

namespace Sys2Proof.Machine

/-- `a >> n` on integers: the floor of `a / 2^n` (00_scope.md R9). -/
def asr (a : Int) (n : Nat) : Int := a / 2 ^ n

/-! ### GLOBAL (30_encoding.md R105) -/

/-- 0x22: enable. -/
def lfoEnableField (data : Byte) : Bool := data.getLsbD 3

/-- 0x22: speed. -/
def lfoSpeedField (data : Byte) : BitVec 3 := data.extractLsb' 0 3

/-- 0x25: `ta[1:0]`. -/
def timerALoField (data : Byte) : BitVec 2 := data.extractLsb' 0 2

/-- 0x28: the gate bit of operator `n`, bit `3 + n`. -/
def keyGateField (data : Byte) : OpNum → Bool
  | .op1 => data.getLsbD 4
  | .op2 => data.getLsbD 5
  | .op3 => data.getLsbD 6
  | .op4 => data.getLsbD 7

/-- 0x28: channel high. -/
def keyHighField (data : Byte) : Bool := data.getLsbD 2

/-- 0x28: channel low. -/
def keyLowField (data : Byte) : BitVec 2 := data.extractLsb' 0 2

/-! ### OPREG (30_encoding.md R106) -/

def dtField (data : Byte) : BitVec 3 := data.extractLsb' 4 3
def mulField (data : Byte) : BitVec 4 := data.extractLsb' 0 4
def tlField (data : Byte) : BitVec 7 := data.extractLsb' 0 7
def ksField (data : Byte) : BitVec 2 := data.extractLsb' 6 2
def arField (data : Byte) : BitVec 5 := data.extractLsb' 0 5
def amField (data : Byte) : Bool := data.getLsbD 7
def d1rField (data : Byte) : BitVec 5 := data.extractLsb' 0 5
def d2rField (data : Byte) : BitVec 5 := data.extractLsb' 0 5
def slField (data : Byte) : BitVec 4 := data.extractLsb' 4 4
def rrField (data : Byte) : BitVec 4 := data.extractLsb' 0 4
def ssgField (data : Byte) : BitVec 4 := data.extractLsb' 0 4

/-! ### CHREG (30_encoding.md R107) -/

/-- 0xA4, 0xAC groups: the latch, block above `fnum[10:8]`. -/
def latchField (data : Byte) : BitVec 6 := data.extractLsb' 0 6

def fbField (data : Byte) : BitVec 3 := data.extractLsb' 3 3
def algoField (data : Byte) : BitVec 3 := data.extractLsb' 0 3
def panLField (data : Byte) : Bool := data.getLsbD 7
def panRField (data : Byte) : Bool := data.getLsbD 6
def amsField (data : Byte) : BitVec 2 := data.extractLsb' 4 2
def pmsField (data : Byte) : BitVec 3 := data.extractLsb' 0 3

/-! ### Latches and split registers (20_memory.md R84) -/

/-- The block of a latch, bits [5:3] (10_state.md R50). -/
def latchBlk (latch : BitVec 6) : BitVec 3 := latch.extractLsb' 3 3

/-- The 11-bit frequency number of a latch and a low byte (43_channel_regs.md R240, R242). -/
def latchFnum (latch : BitVec 6) (low : Byte) : BitVec 11 := latch.extractLsb' 0 3 ++ low

/-! ### SSG bits and mode bits (10_state.md R32, R51) -/

/-- SSG-EG enable. -/
def Operator.ssgOn (o : Operator) : Bool := o.ssg.getLsbD 3

/-- SSG-EG attack, the initial inversion. -/
def Operator.ssgAttack (o : Operator) : Bool := o.ssg.getLsbD 2

/-- SSG-EG alternate. -/
def Operator.ssgAlternate (o : Operator) : Bool := o.ssg.getLsbD 1

/-- SSG-EG hold. -/
def Operator.ssgHold (o : Operator) : Bool := o.ssg.getLsbD 0

/-- CSM, `mode[7]`. -/
def Chip.csm (k : Chip) : Bool := k.mode.getLsbD 7

/-- 3-slot mode is active: `mode[7:6] ≠ 0` (10_state.md R51). -/
def Chip.slot3Active (k : Chip) : Bool := k.mode.extractLsb' 6 2 != 0

/-- The flag enable of a timer, `mode[2]` for A and `mode[3]` for B. -/
def Chip.flagEnabled (k : Chip) : Timer → Bool
  | .a => k.mode.getLsbD 2
  | .b => k.mode.getLsbD 3

/-- `sl3[k]` (10_state.md R50). -/
def Chip.sl3 (c : Chip) : Slot3 → Slot3Freq
  | .k0 => c.sl3k0
  | .k1 => c.sl3k1
  | .k2 => c.sl3k2

/-- `sl3[k] <- f`. -/
def Chip.setSl3 (c : Chip) (k : Slot3) (f : Slot3Freq) : Chip :=
  match k with
  | .k0 => { c with sl3k0 := f }
  | .k1 => { c with sl3k1 := f }
  | .k2 => { c with sl3k2 := f }

/-- The channel a 0x28 byte selects: `cl + 3` only with `data[2]` on six channels; none for `cl = 3`
(41_global_regs.md R185). -/
def keyChannel (six : Bool) (data : Byte) : Option Chan :=
  Chan.ofBankChs (keyHighField data && six) (keyLowField data)

end Sys2Proof.Machine
end

