-- ==== Sys2Proof/Machine/Flags.lean ====
section
/-! DEFINITION. The status flags and the IRQ level (60_exceptions.md R420 to R422). -/

namespace Sys2Proof.Machine

/-- IRQ_MASK (00_scope.md R5). -/
def irqMask : Byte := 0x03

/-- The bit of `chip.status` that is a timer's overflow flag (10_state.md R53). -/
def flagBit : Timer → Byte
  | .a => 0x01
  | .b => 0x02

/-- A timer's overflow flag. -/
def Chip.flag (k : Chip) (t : Timer) : Bool :=
  k.status &&& flagBit t != 0

/-- The IRQ level the status asks for (60_exceptions.md R420). -/
def Chip.level (k : Chip) : Bool :=
  k.status &&& irqMask != 0

/-- `IrqUpdate()`: report the level on a transition only (60_exceptions.md R421). -/
def Instance.irqUpdate (x : Instance) : Instance :=
  if x.chip.level = x.chip.irq then x
  else { x with chip := { x.chip with irq := x.chip.level }, events := x.events ++ [.irqLevel x.chip.level] }

/-- Set a timer's flag, then `IrqUpdate()` (60_exceptions.md R431, R432). -/
def Instance.setFlag (x : Instance) (t : Timer) : Instance :=
  { x with chip := { x.chip with status := x.chip.status ||| flagBit t } }.irqUpdate

/-- Clear a timer's flag, then `IrqUpdate()` (41_global_regs.md R184). -/
def Instance.clearFlag (x : Instance) (t : Timer) : Instance :=
  { x with chip := { x.chip with status := x.chip.status &&& ~~~flagBit t } }.irqUpdate

end Sys2Proof.Machine
end

