-- ==== Sys2Proof/Machine/Tables.lean ====
section
/-! DEFINITION. The constant tables and the log/sine pipeline (40_tables.md). The data are the spec's, entry for entry;
the clock-scaled values are the floor of the exact rational product (decision D4). -/

namespace Sys2Proof.Machine

/-! ### Sine and attenuation -/

/-- SIN_Q (40_tables.md R141). -/
def sinQ : List Nat :=
  [4274, 3462, 3086, 2838, 2652, 2504, 2380, 2274, 2182, 2100, 2026, 1958, 1898, 1840, 1788, 1738]
    ++ [1692, 1650, 1608, 1570, 1534, 1498, 1464, 1434, 1402, 1374, 1344, 1318, 1292, 1266, 1242, 1218]
    ++ [1196, 1174, 1152, 1132, 1112, 1092, 1072, 1054, 1036, 1018, 1002, 984, 968, 952, 936, 922]
    ++ [906, 892, 878, 864, 850, 836, 822, 810, 798, 784, 772, 760, 750, 738, 726, 716]
    ++ [704, 694, 682, 672, 662, 652, 642, 632, 622, 614, 604, 594, 586, 578, 568, 560]
    ++ [552, 542, 534, 526, 518, 510, 502, 496, 488, 480, 472, 466, 458, 452, 444, 438]
    ++ [430, 424, 418, 410, 404, 398, 392, 386, 380, 374, 368, 362, 356, 350, 344, 338]
    ++ [334, 328, 322, 318, 312, 306, 302, 296, 292, 286, 282, 276, 272, 268, 262, 258]
    ++ [254, 250, 244, 240, 236, 232, 228, 224, 220, 216, 212, 208, 204, 200, 196, 192]
    ++ [188, 184, 182, 178, 174, 170, 166, 164, 160, 156, 154, 150, 148, 144, 140, 138]
    ++ [134, 132, 128, 126, 124, 120, 118, 114, 112, 110, 106, 104, 102, 98, 96, 94]
    ++ [92, 90, 86, 84, 82, 80, 78, 76, 74, 72, 70, 68, 66, 64, 62, 60]
    ++ [58, 56, 54, 52, 50, 48, 46, 46, 44, 42, 40, 40, 38, 36, 34, 34]
    ++ [32, 30, 30, 28, 26, 26, 24, 24, 22, 20, 20, 18, 18, 16, 16, 14]
    ++ [14, 14, 12, 12, 10, 10, 10, 8, 8, 8, 6, 6, 6, 4, 4, 4]
    ++ [4, 2, 2, 2, 2, 2, 2, 2, 0, 0, 0, 0, 0, 0, 0, 0]

/-- SIN, the full wave from one quarter; an odd value is the negative half (40_tables.md R142). -/
def sinWave (i : BitVec 10) : Nat :=
  let j := i.toNat % 256
  let mag := if i.getLsbD 8 then sinQ.getD (255 - j) 0 else sinQ.getD j 0
  mag + if i.getLsbD 9 then 1 else 0

/-- TL_BASE (40_tables.md R143). -/
def tlBase : List Nat :=
  [8168, 8148, 8124, 8104, 8080, 8060, 8040, 8016, 7996, 7972, 7952, 7932, 7908, 7888, 7864, 7844]
    ++ [7824, 7804, 7780, 7760, 7740, 7720, 7696, 7676, 7656, 7636, 7616, 7592, 7572, 7552, 7532, 7512]
    ++ [7492, 7472, 7452, 7432, 7412, 7392, 7372, 7352, 7332, 7312, 7292, 7272, 7252, 7232, 7212, 7192]
    ++ [7176, 7156, 7136, 7116, 7096, 7076, 7060, 7040, 7020, 7000, 6984, 6964, 6944, 6928, 6908, 6888]
    ++ [6868, 6852, 6832, 6816, 6796, 6776, 6760, 6740, 6724, 6704, 6688, 6668, 6652, 6632, 6616, 6596]
    ++ [6580, 6560, 6544, 6524, 6508, 6492, 6472, 6456, 6436, 6420, 6404, 6384, 6368, 6352, 6336, 6316]
    ++ [6300, 6284, 6264, 6248, 6232, 6216, 6200, 6180, 6164, 6148, 6132, 6116, 6100, 6080, 6064, 6048]
    ++ [6032, 6016, 6000, 5984, 5968, 5952, 5936, 5920, 5904, 5888, 5872, 5856, 5840, 5824, 5808, 5792]
    ++ [5776, 5760, 5744, 5732, 5716, 5700, 5684, 5668, 5652, 5636, 5624, 5608, 5592, 5576, 5564, 5548]
    ++ [5532, 5516, 5504, 5488, 5472, 5456, 5444, 5428, 5412, 5400, 5384, 5368, 5356, 5340, 5328, 5312]
    ++ [5296, 5284, 5268, 5256, 5240, 5228, 5212, 5200, 5184, 5168, 5156, 5144, 5128, 5116, 5100, 5088]
    ++ [5072, 5060, 5044, 5032, 5020, 5004, 4992, 4976, 4964, 4952, 4936, 4924, 4912, 4896, 4884, 4872]
    ++ [4856, 4844, 4832, 4820, 4804, 4792, 4780, 4768, 4752, 4740, 4728, 4716, 4704, 4688, 4676, 4664]
    ++ [4652, 4640, 4628, 4616, 4600, 4588, 4576, 4564, 4552, 4540, 4528, 4516, 4504, 4492, 4480, 4468]
    ++ [4456, 4444, 4432, 4420, 4408, 4396, 4384, 4372, 4360, 4348, 4336, 4324, 4312, 4300, 4288, 4276]
    ++ [4264, 4256, 4244, 4232, 4220, 4208, 4196, 4184, 4176, 4164, 4152, 4140, 4128, 4120, 4108, 4096]

/-- TL_TAB_LEN (40_tables.md R144). -/
def tlTabLen : Nat := 6656

/-- TL, the log-to-linear lookup (40_tables.md R144). -/
def tlLookup (p : Nat) : Int :=
  if tlTabLen ≤ p then 0
  else
    let v : Nat := tlBase.getD (p / 2 % 256) 0 >>> (p / 512)
    if p % 2 = 1 then -(v : Int) else v

/-- ENV_QUIET (40_tables.md R145). -/
def envQuiet : Nat := 832

/-- SSG_QUIET (00_scope.md R5). -/
def ssgQuiet : Nat := 832

/-- OPOUT, the sample of one operator (40_tables.md R146). -/
def opOut (env : Nat) (i : Int) : Int :=
  tlLookup (env * 8 + sinWave (BitVec.ofInt 10 i))

/-! ### Envelope tables -/

/-- EG_INC (40_tables.md R150). -/
def egInc : List (List Nat) :=
  [[0, 1, 0, 1, 0, 1, 0, 1], [0, 1, 0, 1, 1, 1, 0, 1], [0, 1, 1, 1, 0, 1, 1, 1]]
    ++ [[0, 1, 1, 1, 1, 1, 1, 1], [1, 1, 1, 1, 1, 1, 1, 1], [1, 1, 1, 2, 1, 1, 1, 2]]
    ++ [[1, 2, 1, 2, 1, 2, 1, 2], [1, 2, 2, 2, 1, 2, 2, 2], [2, 2, 2, 2, 2, 2, 2, 2]]
    ++ [[2, 2, 2, 4, 2, 2, 2, 4], [2, 4, 2, 4, 2, 4, 2, 4], [2, 4, 4, 4, 2, 4, 4, 4]]
    ++ [[4, 4, 4, 4, 4, 4, 4, 4], [4, 4, 4, 8, 4, 4, 4, 8], [4, 8, 4, 8, 4, 8, 4, 8]]
    ++ [[4, 8, 8, 8, 4, 8, 8, 8], [8, 8, 8, 8, 8, 8, 8, 8], [16, 16, 16, 16, 16, 16, 16, 16]]
    ++ [[0, 0, 0, 0, 0, 0, 0, 0]]

/-- EG_SEL_A (40_tables.md R151). -/
def egSelA (idx : Nat) : Nat :=
  if idx < 32 then 18
  else if idx < 80 then (idx - 32) % 4
  else if idx < 92 then idx - 76
  else 16

/-- EG_SEL_B, the spec's default content (40_tables.md R152, notes/assumptions/7.md). -/
def egSelB (idx : Nat) : Nat :=
  if 32 ≤ idx ∧ idx < 40 then [18, 18, 0, 0, 0, 0, 2, 2].getD (idx - 32) 18
  else egSelA idx

/-- EG_SEL by the family's variant (40_tables.md R152). -/
def egSel (p : FamilyParams) (idx : Nat) : Nat :=
  match p.egSel with
  | .a => egSelA idx
  | .b => egSelB idx

/-- EG_SH (40_tables.md R153). -/
def egShift (idx : Nat) : Nat :=
  if idx < 32 then 0
  else if idx < 80 then 11 - (idx - 32) / 4
  else 0

/-- SL_ATT (40_tables.md R154). -/
def slAtt (s : BitVec 4) : Nat :=
  if s.toNat = 15 then 992 else 32 * s.toNat

/-- SSG_MUL as a number (00_scope.md R5). -/
def ssgMulValue (p : FamilyParams) : Nat :=
  match p.ssgMul with
  | .four => 4
  | .six => 6

/-- REL_MUL (00_scope.md R5). -/
def relMulValue (p : FamilyParams) (ssgOn : Bool) : Nat :=
  if ssgOn then p.relMulSsg else p.relMul

/-! ### Clock scaling (40_tables.md R157, R165 to R167) -/

/-- `floor(n * FREQBASE)` (decision D4). -/
def scaled (g : Config) (n : Nat) : Nat :=
  n * g.freqNum / g.freqDen

/-- FN_TABLE (40_tables.md R157). -/
def fnTable (g : Config) (i : Nat) : Nat :=
  scaled g (i * 32)

/-- FN_MAX (40_tables.md R157). -/
def fnMax (g : Config) : Nat :=
  scaled g 131072

/-- EG_ADD (40_tables.md R165). -/
def egAdd (g : Config) : Nat :=
  scaled g 65536

/-- EG_OVF (40_tables.md R165). -/
def egOvf : Nat := 196608

/-- TA_STEP (40_tables.md R166). -/
def taStep (g : Config) : Nat :=
  scaled g 4096

/-- TB_STEP(n) (40_tables.md R166). -/
def tbStep (g : Config) (n : Nat) : Nat :=
  scaled g (4096 * n)

/-! ### Phase tables -/

/-- DT_MAG (40_tables.md R156). -/
def dtMag : List (List Nat) :=
  [List.replicate 32 0]
    ++ [[0, 0, 0, 0, 1, 1, 1, 1, 1, 1, 1, 1, 2, 2, 2, 2] ++ [2, 3, 3, 3, 4, 4, 4, 5, 5, 6, 6, 7, 8, 8, 8, 8]]
    ++ [[1, 1, 1, 1, 2, 2, 2, 2, 2, 3, 3, 3, 4, 4, 4, 5] ++ [5, 6, 6, 7, 8, 8, 9, 10, 11, 12, 13, 14, 16, 16, 16, 16]]
    ++ [[2, 2, 2, 2, 2, 3, 3, 3, 4, 4, 4, 5, 5, 6, 6, 7] ++ [8, 8, 9, 10, 11, 12, 13, 14, 16, 17, 19, 20, 22, 22, 22, 22]]

/-- DT, the signed detune correction (40_tables.md R159). -/
def detune (g : Config) (d : BitVec 3) (kc : BitVec 5) : Int :=
  let mag : Nat := scaled g ((dtMag.getD (d.toNat % 4) []).getD kc.toNat 0)
  if d.toNat < 4 then mag else -(mag : Int)

/-- FKTABLE (40_tables.md R158). -/
def fkTable (h : BitVec 4) : BitVec 2 :=
  [0, 0, 0, 0, 0, 0, 0, 1, 2, 3, 3, 3, 3, 3, 3, 3].getD h.toNat 0

/-- KC, the keycode of a block and a frequency number (40_tables.md R158). -/
def keycode (b : BitVec 3) (f : BitVec 11) : BitVec 5 :=
  b ++ fkTable (f.extractLsb' 7 4)

/-! ### LFO tables -/

/-- LFO_SPS (40_tables.md R160). -/
def lfoSps (k : BitVec 3) : Nat :=
  [108, 77, 71, 67, 62, 44, 8, 5].getD k.toNat 1

/-- LFO_STEP (40_tables.md R160). -/
def lfoStep (g : Config) (k : BitVec 3) : Nat :=
  16777216 * g.freqNum / (g.freqDen * lfoSps k)

/-- AMS_SHIFT (40_tables.md R161). -/
def amsShift (a : BitVec 2) : Nat :=
  [8, 3, 1, 0].getD a.toNat 0

/-- PM_SEED for frequency-number bit 4 (40_tables.md R162). -/
def pmSeed4 : List (List Nat) :=
  [[0, 0, 0, 0, 0, 0, 0, 0],
   [0, 0, 0, 0, 0, 0, 0, 0],
   [0, 0, 0, 0, 0, 0, 0, 0],
   [0, 0, 0, 0, 0, 0, 0, 0],
   [0, 0, 0, 0, 0, 0, 0, 0],
   [0, 0, 0, 0, 0, 0, 0, 0],
   [0, 0, 0, 0, 0, 0, 0, 0],
   [0, 0, 0, 0, 1, 1, 1, 1]]

/-- PM_SEED for frequency-number bit 5 (40_tables.md R162). -/
def pmSeed5 : List (List Nat) :=
  [[0, 0, 0, 0, 0, 0, 0, 0],
   [0, 0, 0, 0, 0, 0, 0, 0],
   [0, 0, 0, 0, 0, 0, 0, 0],
   [0, 0, 0, 0, 0, 0, 0, 0],
   [0, 0, 0, 0, 0, 0, 0, 0],
   [0, 0, 0, 0, 0, 0, 0, 0],
   [0, 0, 0, 0, 1, 1, 1, 1],
   [0, 0, 1, 1, 2, 2, 2, 3]]

/-- PM_SEED for frequency-number bit 6 (40_tables.md R162). -/
def pmSeed6 : List (List Nat) :=
  [[0, 0, 0, 0, 0, 0, 0, 0],
   [0, 0, 0, 0, 0, 0, 0, 0],
   [0, 0, 0, 0, 0, 0, 0, 0],
   [0, 0, 0, 0, 0, 0, 0, 0],
   [0, 0, 0, 0, 0, 0, 0, 1],
   [0, 0, 0, 0, 1, 1, 1, 1],
   [0, 0, 1, 1, 2, 2, 2, 3],
   [0, 0, 2, 3, 4, 4, 5, 6]]

/-- PM_SEED for frequency-number bit 7 (40_tables.md R162). -/
def pmSeed7 : List (List Nat) :=
  [[0, 0, 0, 0, 0, 0, 0, 0],
   [0, 0, 0, 0, 0, 0, 0, 0],
   [0, 0, 0, 0, 0, 0, 1, 1],
   [0, 0, 0, 0, 1, 1, 1, 1],
   [0, 0, 0, 1, 1, 1, 1, 2],
   [0, 0, 1, 1, 2, 2, 2, 3],
   [0, 0, 2, 3, 4, 4, 5, 6],
   [0, 0, 4, 6, 8, 8, 10, 12]]

/-- PM_SEED for frequency-number bit 8 (40_tables.md R162). -/
def pmSeed8 : List (List Nat) :=
  [[0, 0, 0, 0, 0, 0, 0, 0],
   [0, 0, 0, 0, 1, 1, 1, 1],
   [0, 0, 0, 1, 1, 1, 2, 2],
   [0, 0, 1, 1, 2, 2, 3, 3],
   [0, 0, 1, 2, 2, 2, 3, 4],
   [0, 0, 2, 3, 4, 4, 5, 6],
   [0, 0, 4, 6, 8, 8, 10, 12],
   [0, 0, 8, 12, 16, 16, 20, 24]]

/-- PM_SEED for frequency-number bit 9 (40_tables.md R162). -/
def pmSeed9 : List (List Nat) :=
  [[0, 0, 0, 0, 0, 0, 0, 0],
   [0, 0, 0, 0, 2, 2, 2, 2],
   [0, 0, 0, 2, 2, 2, 4, 4],
   [0, 0, 2, 2, 4, 4, 6, 6],
   [0, 0, 2, 4, 4, 4, 6, 8],
   [0, 0, 4, 6, 8, 8, 10, 12],
   [0, 0, 8, 12, 16, 16, 20, 24],
   [0, 0, 16, 24, 32, 32, 40, 48]]

/-- PM_SEED for frequency-number bit 10 (40_tables.md R162). -/
def pmSeed10 : List (List Nat) :=
  [[0, 0, 0, 0, 0, 0, 0, 0],
   [0, 0, 0, 0, 4, 4, 4, 4],
   [0, 0, 0, 4, 4, 4, 8, 8],
   [0, 0, 4, 4, 8, 8, 12, 12],
   [0, 0, 4, 8, 8, 8, 12, 16],
   [0, 0, 8, 12, 16, 16, 20, 24],
   [0, 0, 16, 24, 32, 32, 40, 48],
   [0, 0, 32, 48, 64, 64, 80, 96]]

/-- An entry of one bit's seed. -/
def seedAt (seed : List (List Nat)) (d : BitVec 3) (s : Nat) : Nat :=
  (seed.getD d.toNat []).getD s 0

/-- The sum of the seeds over the set bits of `f` (40_tables.md R163). -/
def pmSum (f : BitVec 7) (d : BitVec 3) (s : Nat) : Nat :=
  (if f.getLsbD 0 then seedAt pmSeed4 d s else 0) + (if f.getLsbD 1 then seedAt pmSeed5 d s else 0)
    + (if f.getLsbD 2 then seedAt pmSeed6 d s else 0) + (if f.getLsbD 3 then seedAt pmSeed7 d s else 0)
    + (if f.getLsbD 4 then seedAt pmSeed8 d s else 0) + (if f.getLsbD 5 then seedAt pmSeed9 d s else 0)
    + (if f.getLsbD 6 then seedAt pmSeed10 d s else 0)

/-- PM_TAB, mirrored and negated from the seed (40_tables.md R163). -/
def pmTab (f : BitVec 7) (d : BitVec 3) (t : Nat) : Int :=
  if t < 8 then pmSum f d t
  else if t < 16 then pmSum f d (15 - t)
  else if t < 24 then -(pmSum f d (t - 16) : Int)
  else -(pmSum f d (31 - t) : Int)

end Sys2Proof.Machine
end

