-- ==== Sys2Proof/Machine/Envelope.lean ====
section
/-! DEFINITION. The envelope generator (44_envelope.md): rates, the tick gate, key-on and key-off, the step of each
state, the SSG-EG event, and the cached output attenuation. -/

namespace Sys2Proof.Machine

/-! ### Rates -/

/-- The number of an envelope state, `OFF=0` to `ATT=4` (10_state.md R36). -/
def EgState.rank : EgState → Nat
  | .off => 0
  | .rel => 1
  | .sus => 2
  | .dec => 3
  | .att => 4

/-- "Past REL": ATT, DEC or SUS (10_state.md R36, conflict C14). -/
def EgState.pastRel (s : EgState) : Bool :=
  EgState.rel.rank < s.rank

/-- `idx(R, k)` (44_envelope.md R276). -/
def rateIndex (r : Nat) (k : BitVec 5) : Nat :=
  if r = 0 then k.toNat else 32 + 2 * r + k.toNat

/-- The rate register a state uses, 0 in OFF, which uses none (44_envelope.md R271). -/
def Operator.rate (o : Operator) : EgState → Nat
  | .att => o.ar.toNat
  | .dec => o.d1r.toNat
  | .sus => o.d2r.toNat
  | .rel => 2 * o.rr.toNat + 1
  | .off => 0

/-- The rate index of a state (44_envelope.md R271, R272, R276). -/
def Operator.index (o : Operator) (s : EgState) : Nat :=
  rateIndex (o.rate s) o.ksrVal

/-- `gate(i)` at envelope tick `t` (44_envelope.md R277). -/
def egGate (i : Nat) (t : BitVec 32) : Bool :=
  t.toNat % (1 <<< egShift i) == 0

/-- `inc(i)` at envelope tick `t` (44_envelope.md R277). -/
def egIncrement (p : FamilyParams) (i : Nat) (t : BitVec 32) : Nat :=
  (egInc.getD (egSel p i) []).getD ((t.toNat >>> egShift i) % 8) 0

/-- The rate index from which the attack is "infinite" (44_envelope.md R276, R282; conflict C6). -/
def attackInfinite : Nat := 94

/-! ### Key-on and key-off -/

/-- `KeyOn` (44_envelope.md R278). -/
def Operator.keyOn (p : FamilyParams) (o : Operator) : Operator :=
  if o.key then o
  else if p.attackShortcut && attackInfinite ≤ o.index .att then
    { o with key := true, phase := 0, ssgInv := o.ssgAttack, ssgSwapped := false, volume := 0, state := .dec }
  else
    { o with key := true, phase := 0, ssgInv := o.ssgAttack, ssgSwapped := false, state := .att }

/-- `KeyOff` (44_envelope.md R279). -/
def Operator.keyOff (o : Operator) : Operator :=
  if o.key then { o with key := false, state := if o.state.pastRel then .rel else o.state } else o

/-! ### The step of each state -/

/-- A volume raised and clamped at 1023 (44_envelope.md R283, conflict C3). -/
def raise (volume amount : Nat) : Nat :=
  min 1023 (volume + amount)

/-- ATT (44_envelope.md R281, R282). -/
def Operator.attackStep (p : FamilyParams) (t : BitVec 32) (o : Operator) : Operator :=
  let i := o.index .att
  if attackInfinite ≤ i then { o with volume := 0, state := .dec }
  else if egGate i t then
    let v : Int := o.volume + asr (-(o.volume + 1 : Int) * egIncrement p i t) 4
    if v ≤ 0 then { o with volume := 0, state := .dec } else { o with volume := v.toNat }
  else o

/-- DEC (44_envelope.md R283). -/
def Operator.decayStep (p : FamilyParams) (t : BitVec 32) (o : Operator) : Operator :=
  let i := o.index .dec
  let m := if o.ssgOn then ssgMulValue p else 1
  let v := if egGate i t then raise o.volume (m * egIncrement p i t) else o.volume
  { o with volume := v, state := if slAtt o.sl ≤ v then .sus else .dec }

/-- `SsgEvent`, the hold or the loop (44_envelope.md R286). -/
def Operator.ssgEvent (o : Operator) : Operator :=
  if o.ssgHold then
    { o with
      ssgInv := if !o.ssgSwapped && o.ssgAlternate then !o.ssgInv else o.ssgInv
      ssgSwapped := true
      volume := 1023 }
  else
    { o with
      phase := 0
      ssgInv := if o.ssgAlternate then !o.ssgInv else o.ssgInv
      state := if o.sl = 0 then .sus else .att }

/-- SUS with SSG-EG off (44_envelope.md R284). -/
def Operator.sustainStep (p : FamilyParams) (t : BitVec 32) (o : Operator) : Operator :=
  let i := o.index .sus
  if egGate i t then { o with volume := raise o.volume (egIncrement p i t) } else o

/-- SUS with SSG-EG on (44_envelope.md R285). -/
def Operator.sustainSsgStep (p : FamilyParams) (t : BitVec 32) (o : Operator) : Operator :=
  let i := o.index .sus
  let v := if egGate i t then raise o.volume (ssgMulValue p * egIncrement p i t) else o.volume
  if ssgQuiet ≤ v then { o with volume := v }.ssgEvent else { o with volume := v }

/-- REL (44_envelope.md R288). -/
def Operator.releaseStep (p : FamilyParams) (t : BitVec 32) (o : Operator) : Operator :=
  let i := o.index .rel
  if egGate i t then
    let v := raise o.volume (relMulValue p o.ssgOn * egIncrement p i t)
    { o with volume := v, state := if 1023 ≤ v then .off else .rel }
  else o

/-- The branch of the state the operator is in (44_envelope.md R280). -/
def Operator.egBranch (p : FamilyParams) (t : BitVec 32) (o : Operator) : Operator :=
  match o.state with
  | .att => o.attackStep p t
  | .dec => o.decayStep p t
  | .sus => if o.ssgOn then o.sustainSsgStep p t else o.sustainStep p t
  | .rel => o.releaseStep p t
  | .off => o

/-- The output attenuation of the fields as they stand (44_envelope.md R291). -/
def Operator.attenuation (o : Operator) : Nat :=
  (if o.ssgOn && o.ssgInv && o.state.pastRel then o.volume ^^^ 0x3FF else o.volume) + o.tl.toNat * 8

/-- One EG step: the branch, then `volOut` (44_envelope.md R280, R291). -/
def Operator.egStep (p : FamilyParams) (t : BitVec 32) (o : Operator) : Operator :=
  let o' := o.egBranch p t
  { o' with volOut := o'.attenuation }

/-- One EG step of every operator of a channel (44_envelope.md R270). -/
def Channel.egStep (p : FamilyParams) (t : BitVec 32) (h : Channel) : Channel :=
  { h with ops := Quad.tabulate fun n => (h.ops.get n).egStep p t }

end Sys2Proof.Machine
end

