-- ==== Sys2Proof/Machine/Phase.lean ====
section
/-! DEFINITION. The phase generator, 3-slot mode, detune and the LFO (45_phase_lfo.md). -/

namespace Sys2Proof.Machine

/-- The frequency an operator uses: `(fnum, blk, kc)` (45_phase_lfo.md R326). -/
structure Freq where
  fnum : BitVec 11
  blk : BitVec 3
  kc : BitVec 5
deriving DecidableEq, Repr

/-- The 3-slot entry of an operator of channel 2; operator 4 has none (45_phase_lfo.md R326). -/
def slot3Entry : OpNum → Option Slot3
  | .op1 => some .k1
  | .op2 => some .k2
  | .op3 => some .k0
  | .op4 => none

/-- `Freq(c, n)` (45_phase_lfo.md R326). -/
def Chip.freq (k : Chip) (c : Chan) (h : Channel) (n : OpNum) : Freq :=
  match slot3Entry n with
  | some e =>
    if c = Chan.ch2 && k.slot3Active then ⟨(k.sl3 e).fnum, (k.sl3 e).blk, (k.sl3 e).kcode⟩
    else ⟨h.fnum, h.blk, h.kcode⟩
  | none => ⟨h.fnum, h.blk, h.kcode⟩

/-- `mul2`, twice the multiplier (45_phase_lfo.md R321). -/
def Operator.mul2 (o : Operator) : Nat :=
  if o.mul.toNat = 0 then 1 else 2 * o.mul.toNat

/-- The detuned base increment, with the overflow correction of a negative one (45_phase_lfo.md R328). -/
def detuned (g : Config) (d : BitVec 3) (fc : Nat) (kc : BitVec 5) : Int :=
  let f : Int := fc + detune g d kc
  if f < 0 then f + fnMax g else f

/-- `Incr(o, fc, kc)` (45_phase_lfo.md R328). -/
def Operator.increment (g : Config) (o : Operator) (fc : Nat) (kc : BitVec 5) : Nat :=
  (asr (detuned g o.dt fc kc * o.mul2) 1).toNat

/-- The block-shifted base increment of a frequency: `FN_TABLE[2*fn] >> (7 - blk)` (45_phase_lfo.md R327). -/
def Freq.base (g : Config) (q : Freq) : Nat :=
  fnTable g (2 * q.fnum.toNat) >>> (7 - q.blk.toNat)

/-- `kc >> (3 - ks)` (44_envelope.md R272). -/
def keyScale (kc : BitVec 5) (ks : BitVec 2) : BitVec 5 :=
  kc >>> (3 - ks.toNat)

/-- An operator's part of the refresh (45_phase_lfo.md R327). -/
def Operator.refresh (g : Config) (q : Freq) (o : Operator) : Operator :=
  { o with incr := o.increment g (q.base g) q.kc, ksrVal := keyScale q.kc o.ks }

/-- The dirty refresh of a channel (45_phase_lfo.md R327). -/
def Channel.refresh (g : Config) (k : Chip) (c : Chan) (h : Channel) : Channel :=
  if h.dirty then
    { h with ops := Quad.tabulate fun n => (h.ops.get n).refresh g (k.freq c h n), dirty := false }
  else h

/-- The LFO position, 7 bits (45_phase_lfo.md R330). -/
def lfoPosition (cnt : BitVec 32) : Nat :=
  cnt.toNat >>> 24 % 128

/-- The AM triangle of a position (45_phase_lfo.md R330). -/
def lfoTriangle (pos : Nat) : Nat :=
  if pos < 64 then 2 * pos else 126 - 2 * (pos - 64)

/-- `LfoAdvance()` (45_phase_lfo.md R330). -/
def Chip.lfoAdvance (k : Chip) : Chip :=
  if k.lfoInc ≠ 0 then
    let cnt := k.lfoCnt + BitVec.ofNat 32 k.lfoInc
    { k with lfoCnt := cnt, lfoAm := lfoTriangle (lfoPosition cnt), lfoPm := lfoPosition cnt / 4 }
  else { k with lfoAm := 0, lfoPm := 0 }

/-- The PM offset of a frequency, in half units of the block/fnum value (45_phase_lfo.md R334). -/
def pmOffset (q : Freq) (pms : BitVec 3) (lfoPm : Nat) : Int :=
  pmTab (q.fnum.extractLsb' 4 7) pms lfoPm

/-- `bf2`, the doubled block/fnum value with the offset (45_phase_lfo.md R334); it keeps 15 bits (R335). -/
def pmFrequency (q : Freq) (off : Int) : BitVec 15 :=
  BitVec.ofInt 15 (2 * (q.blk.toNat * 2048 + q.fnum.toNat : Int) + off)

/-- `PmIncr(c, n)` (45_phase_lfo.md R334). -/
def Operator.pmIncrement (g : Config) (q : Freq) (pms : BitVec 3) (lfoPm : Nat) (o : Operator) : Nat :=
  let off := pmOffset q pms lfoPm
  if off = 0 then o.incr
  else
    let bf2 := pmFrequency q off
    let b2 : BitVec 3 := bf2.extractLsb' 12 3
    let f2 : BitVec 12 := bf2.extractLsb' 0 12
    o.increment g (fnTable g f2.toNat >>> (7 - b2.toNat)) (b2 ++ fkTable (f2.extractLsb' 8 4))

/-- The increment a sample step adds to the phase (45_phase_lfo.md R333). -/
def Operator.stepIncrement (g : Config) (q : Freq) (pms : BitVec 3) (lfoPm : Nat) (o : Operator) : Nat :=
  if pms ≠ 0 then o.pmIncrement g q pms lfoPm else o.incr

/-- The phase advance of an operator, mod 2^20 (45_phase_lfo.md R333). -/
def Operator.advance (inc : Nat) (o : Operator) : Operator :=
  { o with phase := o.phase + BitVec.ofNat 20 inc }

/-- `PhaseAdvance(c)` (45_phase_lfo.md R333). -/
def Channel.phaseAdvance (g : Config) (k : Chip) (c : Chan) (h : Channel) : Channel :=
  { h with
    ops := Quad.tabulate fun n =>
      (h.ops.get n).advance ((h.ops.get n).stepIncrement g (k.freq c h n) h.pms k.lfoPm) }

end Sys2Proof.Machine
end

