-- ==== Sys2Proof/Machine/Timers.lean ====
section
/-! DEFINITION. Timers A and B and CSM auto key-on (60_exceptions.md R430 to R433), and the load and stop of a timer by
register 0x27 (41_global_regs.md R184). -/

namespace Sys2Proof.Machine

/-- A timer's running counter (10_state.md R52). -/
def Chip.count (k : Chip) : Timer → Int
  | .a => k.taCnt
  | .b => k.tbCnt

/-- Replace a timer's counter. -/
def Chip.setCount (k : Chip) (t : Timer) (v : Int) : Chip :=
  match t with
  | .a => { k with taCnt := v }
  | .b => { k with tbCnt := v }

/-- A timer's period in timer A ticks, as its events report it (41_global_regs.md R184; 60_exceptions.md R432). -/
def Chip.period (k : Chip) : Timer → Nat
  | .a => 1024 - k.ta.toNat
  | .b => (256 - k.tb.toNat) * 16

/-- A timer's period in counter units, 1/4096 of a timer A tick (10_state.md R52). -/
def Chip.periodUnits (k : Chip) (t : Timer) : Int :=
  k.period t * 4096

/-- The load bit of a timer in a 0x27 byte: bit 0 for A, bit 1 for B (41_global_regs.md R184). -/
def loadField (data : Byte) : Timer → Bool
  | .a => data.getLsbD 0
  | .b => data.getLsbD 1

/-- The flag-reset bit of a timer in a 0x27 byte: bit 4 for A, bit 5 for B (41_global_regs.md R184). -/
def resetField (data : Byte) : Timer → Bool
  | .a => data.getLsbD 4
  | .b => data.getLsbD 5

/-- Load a stopped timer, or stop a running one, by its load bit (41_global_regs.md R184). -/
def Instance.loadTimer (x : Instance) (t : Timer) (load : Bool) : Instance :=
  if load then
    if x.chip.count t = 0 then
      { x with chip := x.chip.setCount t (x.chip.periodUnits t) }.emit (.timerReload t (x.chip.period t))
    else x
  else if x.chip.count t ≠ 0 then { x with chip := x.chip.setCount t 0 }.emit (.timerStop t)
  else x

/-- Clear a timer's flag if its reset bit is set (41_global_regs.md R184). -/
def Instance.resetFlag (x : Instance) (t : Timer) (data : Byte) : Instance :=
  if resetField data t then x.clearFlag t else x

/-- The reload of a counter that ran out: the remainder is kept, or the period taken if that is not positive
(60_exceptions.md R431, R432). -/
def reloaded (cnt period : Int) : Int :=
  if cnt + period ≤ 0 then period else cnt + period

/-- The overflow of a timer whose counter stands at `cnt ≤ 0`: the flag if enabled, the reload and its event
(60_exceptions.md R431, R432). -/
def Instance.overflow (x : Instance) (t : Timer) (cnt : Int) : Instance :=
  let y := if x.chip.flagEnabled t then x.setFlag t else x
  { y with chip := y.chip.setCount t (reloaded cnt (y.chip.periodUnits t)) }.emit (.timerReload t (y.chip.period t))

/-- An operator's part of `CsmKey()`: key-on then key-off unless its key is held (60_exceptions.md R433). -/
def Operator.csmKey (p : FamilyParams) (o : Operator) : Operator :=
  if o.key then o else (o.keyOn p).keyOff

/-- `CsmKey()` (60_exceptions.md R433). -/
def Instance.csmKey (x : Instance) : Instance :=
  x.updCh .ch2 fun h => { h with ops := Quad.tabulate fun n => (h.ops.get n).csmKey x.cfg.params }

/-- `TimerAStep()` (60_exceptions.md R430, R431). -/
def Instance.timerAStep (x : Instance) : Instance :=
  if x.chip.taCnt = 0 then x
  else
    let cnt := x.chip.taCnt - taStep x.cfg
    if cnt ≤ 0 then
      let y := x.overflow .a cnt
      if y.chip.csm then y.csmKey else y
    else { x with chip := x.chip.setCount .a cnt }

/-- `TimerBStep(n)` (60_exceptions.md R432). -/
def Instance.timerBStep (n : Nat) (x : Instance) : Instance :=
  if x.chip.tbCnt = 0 then x
  else
    let cnt := x.chip.tbCnt - tbStep x.cfg n
    if cnt ≤ 0 then x.overflow .b cnt
    else { x with chip := x.chip.setCount .b cnt }

end Sys2Proof.Machine
end

