-- ==== Sys2Proof/Machine/Mix.lean ====
section
/-! DEFINITION. Operator output, the eight routings of a channel, the sample step and the buffer add
(46_channel_mix.md R360 to R372, R376). -/

namespace Sys2Proof.Machine

/-! ### Operator output -/

/-- `eg(c, n)`, the envelope input of an operator (46_channel_mix.md R360; 45_phase_lfo.md R331). -/
def Channel.envInput (lfoAm : Nat) (h : Channel) (n : OpNum) : Nat :=
  let o := h.ops.get n
  o.volOut + if o.am then lfoAm >>> amsShift h.ams else 0

/-- The sine index of a phase, `phase[19:10]` (45_phase_lfo.md R320). -/
def sineIndex (phase : BitVec 20) : Int :=
  (phase.extractLsb' 10 10).toNat

/-- An operator's sample for an index offset, 0 when it is quiet (46_channel_mix.md R362, R364). -/
def Channel.opSample (lfoAm : Nat) (h : Channel) (n : OpNum) (offset : Int) : Int :=
  let env := h.envInput lfoAm n
  if env < envQuiet then opOut env (sineIndex (h.ops.get n).phase + offset) else 0

/-- `fbShift` (43_channel_regs.md R245). -/
def Channel.fbShift (h : Channel) : Nat :=
  if h.fb.toNat = 0 then 0 else h.fb.toNat + 6

/-- The self-feedback offset of operator 1, from its two previous outputs (46_channel_mix.md R363). -/
def Channel.feedback (h : Channel) : Int :=
  let fsum := h.op1Out0 + h.op1Out1
  let fbmod : Int := if h.fbShift = 0 then 0 else fsum * 2 ^ h.fbShift
  asr fbmod 16

/-! ### Routing -/

/-- The accumulators of a channel's evaluation (10_state.md R62). -/
inductive Acc where
  | m2
  | c1
  | c2
  | mem
  | out
deriving DecidableEq, Repr

/-- The values of the accumulators. -/
structure Accs where
  m2 : Int
  c1 : Int
  c2 : Int
  mem : Int
  out : Int
deriving DecidableEq, Repr

/-- `[a] <- v`. -/
def Accs.set (x : Accs) (a : Acc) (v : Int) : Accs :=
  match a with
  | .m2 => { x with m2 := v }
  | .c1 => { x with c1 := v }
  | .c2 => { x with c2 := v }
  | .mem => { x with mem := v }
  | .out => { x with out := v }

/-- `[a]`. -/
def Accs.get (x : Accs) : Acc → Int
  | .m2 => x.m2
  | .c1 => x.c1
  | .c2 => x.c2
  | .mem => x.mem
  | .out => x.out

/-- `[a] <- [a] + v`. -/
def Accs.add (x : Accs) (a : Acc) (v : Int) : Accs :=
  x.set a (x.get a + v)

/-- A row of the routing table: where the outputs of operators 1, 3 and 2 go and where the delay is loaded. Operator 1's
is none for algorithm 5, whose output goes to `mem`, `c1` and `c2` at once (46_channel_mix.md R365). -/
structure Route where
  op1 : Option Acc
  op3 : Acc
  op2 : Acc
  memc : Acc
deriving DecidableEq, Repr

/-- ROUTE (46_channel_mix.md R365). -/
def route (algo : BitVec 3) : Route :=
  match algo.toNat with
  | 0 => ⟨some .c1, .c2, .mem, .m2⟩
  | 1 => ⟨some .mem, .c2, .mem, .m2⟩
  | 2 => ⟨some .c2, .c2, .mem, .m2⟩
  | 3 => ⟨some .c1, .c2, .mem, .c2⟩
  | 4 => ⟨some .c1, .c2, .out, .mem⟩
  | 5 => ⟨none, .out, .out, .m2⟩
  | 6 => ⟨some .c1, .out, .out, .mem⟩
  | _ => ⟨some .out, .out, .out, .mem⟩

/-- Steps 3 and 4: route operator 1's previous output (46_channel_mix.md R366). -/
def Accs.routeOp1 (x : Accs) (d : Option Acc) (v : Int) : Accs :=
  match d with
  | some a => x.add a v
  | none => { x with mem := v, c1 := v, c2 := v }

/-- The accumulators at the end of a channel's evaluation (46_channel_mix.md R366, steps 1 and 3 to 7): operator 1's
output of the previous sample step, then operators 3, 2 and 4, each reading its modulator after the earlier ones have
added to it. -/
def Channel.accumulate (lfoAm : Nat) (h : Channel) : Accs :=
  let r := route h.algo
  let a0 := (Accs.mk 0 0 0 0 0).set r.memc h.memValue
  let a1 := a0.routeOp1 r.op1 h.op1Out1
  let a2 := a1.add r.op3 (h.opSample lfoAm .op3 (asr a1.m2 1))
  let a3 := a2.add r.op2 (h.opSample lfoAm .op2 (asr a2.c1 1))
  a3.add .out (h.opSample lfoAm .op4 (asr a3.c2 1))

/-- The output `out` of `ChanCalc(c)` (46_channel_mix.md R366). -/
def Channel.output (lfoAm : Nat) (h : Channel) : Int :=
  (h.accumulate lfoAm).out

/-- The state after `ChanCalc(c)` but for the phases: the feedback history and the delay (46_channel_mix.md R366,
R367). -/
def Channel.afterCalc (lfoAm : Nat) (h : Channel) : Channel :=
  { h with
    op1Out0 := h.op1Out1
    op1Out1 := h.opSample lfoAm .op1 h.feedback
    memValue := (h.accumulate lfoAm).mem }

/-! ### The sample step -/

/-- Change every channel of `0..NUM_CH-1`. -/
def Instance.mapLive (x : Instance) (f : Chan → Channel → Channel) : Instance :=
  { x with chans := Six.tabulate fun c => if x.live c then f c (x.ch c) else x.ch c }

/-- Step 1: the dirty refreshes (46_channel_mix.md R370). -/
def Instance.refresh (x : Instance) : Instance :=
  x.mapLive fun c h => h.refresh x.cfg x.chip c

/-- Step 2: the LFO (46_channel_mix.md R370). -/
def Instance.lfoAdvance (x : Instance) : Instance :=
  { x with chip := x.chip.lfoAdvance }

/-- The channel outputs `out[c]`, 0 for a channel that does not exist. -/
def Instance.outputs (x : Instance) : Six Int :=
  Six.tabulate fun c => if x.live c then (x.ch c).output x.chip.lfoAm else 0

/-- Step 3: every channel's evaluation and phase advance (46_channel_mix.md R370). -/
def Instance.chanCalc (x : Instance) : Instance :=
  x.mapLive fun c h => (h.afterCalc x.chip.lfoAm).phaseAdvance x.cfg x.chip c

/-- One envelope tick: the counter, then every operator's EG step (46_channel_mix.md R370, step 4). -/
def Instance.egTick (x : Instance) : Instance :=
  let y := { x with chip := { x.chip with egCnt := x.chip.egCnt + 1 } }
  y.mapLive fun _ h => h.egStep y.cfg.params y.chip.egCnt

/-- `n` envelope ticks. -/
def Instance.egTicks : Nat → Instance → Instance
  | 0, x => x
  | n + 1, x => Instance.egTicks n x.egTick

/-- Step 4: the envelope clock. The loop of R370 subtracts EG_OVF once a tick, so it takes
`floor((egTimer + EG_ADD) / EG_OVF)` ticks and leaves the remainder (46_channel_mix.md R370, R371). -/
def Instance.egClock (x : Instance) : Instance :=
  let timer := x.chip.egTimer + egAdd x.cfg
  Instance.egTicks (timer / egOvf) { x with chip := { x.chip with egTimer := timer % egOvf } }

/-- The sum of the outputs of the channels that `sel` selects (46_channel_mix.md R370, step 5). -/
def sumOver (sel : Chan → Bool) (out : Six Int) : Int :=
  (if sel .ch0 then out.ch0 else 0) + (if sel .ch1 then out.ch1 else 0) + (if sel .ch2 then out.ch2 else 0)
    + (if sel .ch3 then out.ch3 else 0) + (if sel .ch4 then out.ch4 else 0) + (if sel .ch5 then out.ch5 else 0)

/-- The instance just before its channels are evaluated: steps 1 and 2 (46_channel_mix.md R370). -/
def Instance.prepared (x : Instance) : Instance :=
  x.refresh.lfoAdvance

/-- The instance after `SampleStep()` (46_channel_mix.md R370). -/
def Instance.sampleStep (x : Instance) : Instance :=
  x.prepared.chanCalc.egClock.timerAStep

/-- `L` of `SampleStep()` (46_channel_mix.md R370). -/
def Instance.sampleL (x : Instance) : Int :=
  sumOver (fun c => (x.ch c).panL) x.prepared.outputs

/-- `R` of `SampleStep()` (46_channel_mix.md R370). -/
def Instance.sampleR (x : Instance) : Int :=
  sumOver (fun c => (x.ch c).panR) x.prepared.outputs

/-! ### The buffer add -/

/-- `clip16` (46_channel_mix.md R376). -/
def clip16 (v : Int) : Int :=
  max (-32768) (min 32767 v)

/-- `Buf[k] <- clip16(Buf[k] + v)` (46_channel_mix.md R372, R376). -/
def addClipped (b : Sample) (v : Int) : Sample :=
  BitVec.ofInt 16 (clip16 (b.toInt + v))

/-- HOST_POST of one side: the new state it keeps and the sample to add (46_channel_mix.md R376). -/
def hostPost (p : HostPost) (side : Side) (volumePercent loudnessBoost state sample : Int) : Int × Int :=
  match p with
  | .identity => (state, sample)
  | .open_ k => hostPostOpen k side volumePercent loudnessBoost state sample

/-- One sample step of GENERATE with its two buffer values (46_channel_mix.md R372). -/
def Instance.mixStep (volumePercent loudnessBoost : Int) (x : Instance) (bl br : Sample) : Instance × Sample × Sample :=
  let l := hostPost x.cfg.post .left volumePercent loudnessBoost x.postL x.sampleL
  let r := hostPost x.cfg.post .right volumePercent loudnessBoost x.postR x.sampleR
  ({ x.sampleStep with postL := l.1, postR := r.1 }, addClipped bl l.2, addClipped br r.2)

/-- The loop of GENERATE over a buffer of at least `2*n` values: the instance and the buffer after `n` sample steps
(46_channel_mix.md R372). -/
def Instance.mixSteps (volumePercent loudnessBoost : Int) : Nat → Instance → List Sample → Instance × List Sample
  | n + 1, x, bl :: br :: buf =>
    let one := x.mixStep volumePercent loudnessBoost bl br
    let rest := Instance.mixSteps volumePercent loudnessBoost n one.1 buf
    (rest.1, one.2.1 :: one.2.2 :: rest.2)
  | _, x, buf => (x, buf)

end Sys2Proof.Machine
end

