-- ==== Sys2Proof/Machine/GlobalRegs.lean ====
section
/-! DEFINITION. The global register writes 0x22 to 0x28 (41_global_regs.md R180 to R185): the effect of each on an
instance, the shadow byte first (10_state.md R60), and the meaning of each instruction. -/

namespace Sys2Proof.Machine

/-! ### Effects on an instance -/

/-- LFO_CTRL, mapped only with HAS_LFO_PAN (41_global_regs.md R180; 30_encoding.md R108). -/
def Instance.writeLfoCtrl (x : Instance) (data : Byte) : Instance :=
  if x.cfg.family.hasLfoPan then
    let y := x.store 0x022 data
    { y with
      chip := { y.chip with lfoInc := if lfoEnableField data then lfoStep x.cfg (lfoSpeedField data) else 0 } }
  else x

/-- TIMERA_HI: `ta <- {data, ta[1:0]}` (41_global_regs.md R181). -/
def Instance.writeTimerAHi (x : Instance) (data : Byte) : Instance :=
  let y := x.store 0x024 data
  { y with chip := { y.chip with ta := data ++ y.chip.ta.extractLsb' 0 2 } }

/-- TIMERA_LO: `ta <- {ta[9:2], data[1:0]}` (41_global_regs.md R182). -/
def Instance.writeTimerALo (x : Instance) (data : Byte) : Instance :=
  let y := x.store 0x025 data
  { y with chip := { y.chip with ta := y.chip.ta.extractLsb' 2 8 ++ timerALoField data } }

/-- TIMERB (41_global_regs.md R183). -/
def Instance.writeTimerB (x : Instance) (data : Byte) : Instance :=
  let y := x.store 0x026 data
  { y with chip := { y.chip with tb := data } }

/-- The first two lines of R184: channel 2 is dirty if `mode[7:6]` changes, then the mode is stored. -/
def Instance.setMode (x : Instance) (data : Byte) : Instance :=
  let y := if (x.chip.mode ^^^ data).extractLsb' 6 2 ≠ 0 then x.updCh .ch2 Channel.markDirty else x
  { y with chip := { y.chip with mode := data } }

/-- MODE_TIMER: the mode, the B and A flag resets, the B and A loads or stops (41_global_regs.md R184;
60_exceptions.md R423). -/
def Instance.writeModeTimer (x : Instance) (data : Byte) : Instance :=
  (((((x.store 0x027 data).setMode data).resetFlag .b data).resetFlag .a data).loadTimer .b (loadField data .b)).loadTimer
    .a (loadField data .a)

/-- Key an operator on or off by its gate bit (41_global_regs.md R185). -/
def Operator.gate (p : FamilyParams) (on : Bool) (o : Operator) : Operator :=
  if on then o.keyOn p else o.keyOff

/-- KEY_ONOFF: the four operators of the selected channel, none for channel bits 3 (41_global_regs.md R185). -/
def Instance.writeKeyOnOff (x : Instance) (data : Byte) : Instance :=
  let y := x.store 0x028 data
  match keyChannel x.cfg.family.six data with
  | none => y
  | some c =>
    y.updCh c fun h =>
      { h with ops := Quad.tabulate fun n => (h.ops.get n).gate x.cfg.params (keyGateField data n) }

/-! ### Meanings -/

/-- LFO_CTRL (41_global_regs.md R180). -/
def execLfoCtrl (data : Byte) (s : State) : Host.Outcome State Fault Refusal :=
  s.writeGlobal fun x => x.writeLfoCtrl data

/-- TIMERA_HI (41_global_regs.md R181). -/
def execTimerAHi (data : Byte) (s : State) : Host.Outcome State Fault Refusal :=
  s.writeGlobal fun x => x.writeTimerAHi data

/-- TIMERA_LO (41_global_regs.md R182). -/
def execTimerALo (data : Byte) (s : State) : Host.Outcome State Fault Refusal :=
  s.writeGlobal fun x => x.writeTimerALo data

/-- TIMERB (41_global_regs.md R183). -/
def execTimerB (data : Byte) (s : State) : Host.Outcome State Fault Refusal :=
  s.writeGlobal fun x => x.writeTimerB data

/-- MODE_TIMER (41_global_regs.md R184). -/
def execModeTimer (data : Byte) (s : State) : Host.Outcome State Fault Refusal :=
  s.writeGlobal fun x => x.writeModeTimer data

/-- KEY_ONOFF (41_global_regs.md R185). -/
def execKeyOnOff (data : Byte) (s : State) : Host.Outcome State Fault Refusal :=
  s.writeGlobal fun x => x.writeKeyOnOff data

end Sys2Proof.Machine
end

