-- ==== Sys2Proof/Machine/OperatorRegs.lean ====
section
/-! DEFINITION. The operator register writes 0x30 to 0x9F (42_operator_regs.md R210 to R216): the effect of each on an
instance, the shadow byte first (10_state.md R60), and the meaning of each instruction. -/

namespace Sys2Proof.Machine

/-! ### Effects on an instance -/

/-- DT_MUL: detune and multiplier; the channel is dirty (42_operator_regs.md R210). -/
def Instance.writeDtMul (x : Instance) (c : Chan) (n : OpNum) (data : Byte) : Instance :=
  (x.store (operatorAddr 0x3 c n) data).updCh c fun h =>
    (h.updOp n fun o => { o with dt := dtField data, mul := mulField data }).markDirty

/-- TL: total level; the channel is not marked dirty (42_operator_regs.md R211). -/
def Instance.writeTl (x : Instance) (c : Chan) (n : OpNum) (data : Byte) : Instance :=
  (x.store (operatorAddr 0x4 c n) data).updOp c n fun o => { o with tl := tlField data }

/-- KS_AR: key-scale selector and attack rate; the channel is dirty if the selector changes (42_operator_regs.md
R212). -/
def Instance.writeKsAr (x : Instance) (c : Chan) (n : OpNum) (data : Byte) : Instance :=
  (x.store (operatorAddr 0x5 c n) data).updCh c fun h =>
    let h' := h.updOp n fun o => { o with ks := ksField data, ar := arField data }
    if ksField data ≠ (h.ops.get n).ks then h'.markDirty else h'

/-- AM_D1R: AM enable and decay-1 rate (42_operator_regs.md R213). -/
def Instance.writeAmD1r (x : Instance) (c : Chan) (n : OpNum) (data : Byte) : Instance :=
  (x.store (operatorAddr 0x6 c n) data).updOp c n fun o => { o with am := amField data, d1r := d1rField data }

/-- D2R: decay-2 rate (42_operator_regs.md R214). -/
def Instance.writeD2r (x : Instance) (c : Chan) (n : OpNum) (data : Byte) : Instance :=
  (x.store (operatorAddr 0x7 c n) data).updOp c n fun o => { o with d2r := d2rField data }

/-- SL_RR: sustain level and release rate (42_operator_regs.md R215). -/
def Instance.writeSlRr (x : Instance) (c : Chan) (n : OpNum) (data : Byte) : Instance :=
  (x.store (operatorAddr 0x8 c n) data).updOp c n fun o => { o with sl := slField data, rr := rrField data }

/-- SSG_EG: the SSG field; the invert flags are not touched (42_operator_regs.md R216). -/
def Instance.writeSsgEg (x : Instance) (c : Chan) (n : OpNum) (data : Byte) : Instance :=
  (x.store (operatorAddr 0x9 c n) data).updOp c n fun o => { o with ssg := ssgField data }

/-! ### Meanings -/

/-- DT_MUL (42_operator_regs.md R210). -/
def execDtMul (c : Chan) (n : OpNum) (data : Byte) (s : State) : Host.Outcome State Fault Refusal :=
  s.writeChannel c (operatorAddr 0x3 c n) fun x => x.writeDtMul c n data

/-- TL (42_operator_regs.md R211). -/
def execTl (c : Chan) (n : OpNum) (data : Byte) (s : State) : Host.Outcome State Fault Refusal :=
  s.writeChannel c (operatorAddr 0x4 c n) fun x => x.writeTl c n data

/-- KS_AR (42_operator_regs.md R212). -/
def execKsAr (c : Chan) (n : OpNum) (data : Byte) (s : State) : Host.Outcome State Fault Refusal :=
  s.writeChannel c (operatorAddr 0x5 c n) fun x => x.writeKsAr c n data

/-- AM_D1R (42_operator_regs.md R213). -/
def execAmD1r (c : Chan) (n : OpNum) (data : Byte) (s : State) : Host.Outcome State Fault Refusal :=
  s.writeChannel c (operatorAddr 0x6 c n) fun x => x.writeAmD1r c n data

/-- D2R (42_operator_regs.md R214). -/
def execD2r (c : Chan) (n : OpNum) (data : Byte) (s : State) : Host.Outcome State Fault Refusal :=
  s.writeChannel c (operatorAddr 0x7 c n) fun x => x.writeD2r c n data

/-- SL_RR (42_operator_regs.md R215). -/
def execSlRr (c : Chan) (n : OpNum) (data : Byte) (s : State) : Host.Outcome State Fault Refusal :=
  s.writeChannel c (operatorAddr 0x8 c n) fun x => x.writeSlRr c n data

/-- SSG_EG (42_operator_regs.md R216). -/
def execSsgEg (c : Chan) (n : OpNum) (data : Byte) (s : State) : Host.Outcome State Fault Refusal :=
  s.writeChannel c (operatorAddr 0x9 c n) fun x => x.writeSsgEg c n data

end Sys2Proof.Machine
end

