-- ==== Sys2Proof/Machine/ChannelRegs.lean ====
section
/-! DEFINITION. The channel register writes 0xA0 to 0xB6 (43_channel_regs.md R240 to R246) and the ignored write
(30_encoding.md R108): the effect of each on an instance, the shadow byte first (10_state.md R60), and the meaning of
each instruction. -/

namespace Sys2Proof.Machine

/-! ### Effects on an instance -/

/-- FNUM_LO: the latch and the low byte become the channel's frequency (43_channel_regs.md R240). -/
def Instance.writeFnumLo (x : Instance) (c : Chan) (data : Byte) : Instance :=
  let f := latchFnum x.chip.fnH data
  let b := latchBlk x.chip.fnH
  (x.store (channelAddr 0x28 c) data).updCh c fun h =>
    { h with fnum := f, blk := b, kcode := keycode b f, dirty := true }

/-- FNUM_HI_BLK: only the latch, one for all channels and both banks (43_channel_regs.md R241). -/
def Instance.writeFnumHiBlk (x : Instance) (c : Chan) (data : Byte) : Instance :=
  let y := x.store (channelAddr 0x29 c) data
  { y with chip := { y.chip with fnH := latchField data } }

/-- SL3_FNUM_LO: entry `k` takes the 3-slot latch and the low byte; channel 2 is dirty (43_channel_regs.md R242). -/
def Instance.writeSl3FnumLo (x : Instance) (k : Slot3) (data : Byte) : Instance :=
  let f := latchFnum x.chip.sl3FnH data
  let b := latchBlk x.chip.sl3FnH
  let y := x.store (slot3Addr 0x2A k) data
  { y with chip := y.chip.setSl3 k ⟨f, b, keycode b f⟩ }.updCh .ch2 Channel.markDirty

/-- SL3_FNUM_HI_BLK: only the 3-slot latch (43_channel_regs.md R243). -/
def Instance.writeSl3FnumHiBlk (x : Instance) (k : Slot3) (data : Byte) : Instance :=
  let y := x.store (slot3Addr 0x2B k) data
  { y with chip := { y.chip with sl3FnH := latchField data } }

/-- FB_ALGO: algorithm and feedback; the history and the delay stay (43_channel_regs.md R245). -/
def Instance.writeFbAlgo (x : Instance) (c : Chan) (data : Byte) : Instance :=
  (x.store (channelAddr 0x2C c) data).updCh c fun h => { h with algo := algoField data, fb := fbField data }

/-- PAN_AMS_PMS, mapped only with HAS_LFO_PAN (43_channel_regs.md R246; 30_encoding.md R108). -/
def Instance.writePanAmsPms (x : Instance) (c : Chan) (data : Byte) : Instance :=
  if x.cfg.family.hasLfoPan then
    (x.store (channelAddr 0x2D c) data).updCh c fun h =>
      { h with panL := panLField data, panR := panRField data, ams := amsField data, pms := pmsField data }
  else x

/-! ### Meanings -/

/-- FNUM_LO (43_channel_regs.md R240). -/
def execFnumLo (c : Chan) (data : Byte) (s : State) : Host.Outcome State Fault Refusal :=
  s.writeChannel c (channelAddr 0x28 c) fun x => x.writeFnumLo c data

/-- FNUM_HI_BLK (43_channel_regs.md R241). -/
def execFnumHiBlk (c : Chan) (data : Byte) (s : State) : Host.Outcome State Fault Refusal :=
  s.writeChannel c (channelAddr 0x29 c) fun x => x.writeFnumHiBlk c data

/-- SL3_FNUM_LO (43_channel_regs.md R242). -/
def execSl3FnumLo (k : Slot3) (data : Byte) (s : State) : Host.Outcome State Fault Refusal :=
  s.writeGlobal fun x => x.writeSl3FnumLo k data

/-- SL3_FNUM_HI_BLK (43_channel_regs.md R243). -/
def execSl3FnumHiBlk (k : Slot3) (data : Byte) (s : State) : Host.Outcome State Fault Refusal :=
  s.writeGlobal fun x => x.writeSl3FnumHiBlk k data

/-- FB_ALGO (43_channel_regs.md R245). -/
def execFbAlgo (c : Chan) (data : Byte) (s : State) : Host.Outcome State Fault Refusal :=
  s.writeChannel c (channelAddr 0x2C c) fun x => x.writeFbAlgo c data

/-- PAN_AMS_PMS (43_channel_regs.md R246). -/
def execPanAmsPms (c : Chan) (data : Byte) (s : State) : Host.Outcome State Fault Refusal :=
  s.writeChannel c (channelAddr 0x2D c) fun x => x.writePanAmsPms c data

/-- IGNORED: no field and no shadow byte changes (30_encoding.md R108). In bank 1 the address exists on six channels
only; elsewhere the write is refused (60_exceptions.md R410). -/
def execIgnored (bank : Bool) (addr data : Byte) (s : State) : Host.Outcome State Fault Refusal :=
  let _ := data
  if bank && !s.self.cfg.family.six then .refused (.addressOutOfRange (256 + addr.toNat)) else .next s

end Sys2Proof.Machine
end

