-- ==== Sys2Proof/Machine/HostOps.lean ====
section
/-! DEFINITION. The host operations (30_encoding.md R111): the normal write path by address, which RESET and RESTORE
replay, and the meanings of RESET and CONSTRUCT (70_reset_and_hazards.md R450 to R452) and of GENERATE, READ_STATUS, DUMP
and RESTORE (46_channel_mix.md R372 to R375). -/

namespace Sys2Proof.Machine

/-! ### The normal write path -/

/-- The effect of a register write on an instance; a host operation is none. -/
def Instance.applyWrite (x : Instance) : Instr → Instance
  | .lfoCtrl data => x.writeLfoCtrl data
  | .timerAHi data => x.writeTimerAHi data
  | .timerALo data => x.writeTimerALo data
  | .timerB data => x.writeTimerB data
  | .modeTimer data => x.writeModeTimer data
  | .keyOnOff data => x.writeKeyOnOff data
  | .dtMul c n data => x.writeDtMul c n data
  | .tl c n data => x.writeTl c n data
  | .ksAr c n data => x.writeKsAr c n data
  | .amD1r c n data => x.writeAmD1r c n data
  | .d2r c n data => x.writeD2r c n data
  | .slRr c n data => x.writeSlRr c n data
  | .ssgEg c n data => x.writeSsgEg c n data
  | .fnumLo c data => x.writeFnumLo c data
  | .fnumHiBlk c data => x.writeFnumHiBlk c data
  | .sl3FnumLo k data => x.writeSl3FnumLo k data
  | .sl3FnumHiBlk k data => x.writeSl3FnumHiBlk k data
  | .fbAlgo c data => x.writeFbAlgo c data
  | .panAmsPms c data => x.writePanAmsPms c data
  | .ignored _ _ _ => x
  | .construct _ _ _ _ _ _ => x
  | .reset => x
  | .generate _ _ _ _ => x
  | .readStatus _ => x
  | .dump => x
  | .restore _ => x

/-- The instruction a write to a 9-bit address is on the instance's family. -/
def Instance.decodeAt (x : Instance) (a : BitVec 9) (data : Byte) : Instr :=
  decodeRegister x.cfg.family.hasLfoPan (a.getLsbD 8) (a.extractLsb' 0 8) data

/-- `Write(a, data)`, the normal write path (41 to 43). -/
def Instance.write (x : Instance) (a : BitVec 9) (data : Byte) : Instance :=
  x.applyWrite (x.decodeAt a data)

/-- Whether an instruction is the ignored write. -/
def isIgnored : Instr → Bool
  | .ignored _ _ _ => true
  | _ => false

/-- Whether an address of the family's space is mapped (30_encoding.md R107). -/
def Instance.isMapped (x : Instance) (a : BitVec 9) : Bool :=
  !isIgnored (x.decodeAt a 0)

/-- The addresses of the register space, in ascending order (20_memory.md R80). -/
def registerSpace (f : Family) : List (BitVec 9) :=
  (List.range (if f.six then 512 else 256)).map (BitVec.ofNat 9)

/-! ### RESET and CONSTRUCT -/

/-- A reset write, in bank 0 and on six channels in bank 1 too (70_reset_and_hazards.md R452). -/
def bothBanks (f : Family) (a : BitVec 9) (data : Byte) : List (BitVec 9 × Byte) :=
  (a, data) :: if f.six then [(0x100 + a, data)] else []

/-- The writes of `ResetWrites()`, in order (70_reset_and_hazards.md R452). -/
def resetWrites (f : Family) : List (BitVec 9 × Byte) :=
  [0x0B6, 0x0B5, 0x0B4].flatMap (fun a => bothBanks f a 0xC0)
    ++ (List.range 0x83).flatMap (fun i => bothBanks f (BitVec.ofNat 9 (0xB2 - i)) 0x00)
    ++ [(0x027, 0x30), (0x026, 0x00), (0x025, 0x00), (0x024, 0x00), (0x022, 0x00)]

/-- A list of writes through the normal write path, in order. -/
def Instance.writes (x : Instance) (l : List (BitVec 9 × Byte)) : Instance :=
  l.foldl (fun y w => y.write w.1 w.2) x

/-- Part 1 of RESET: every field to its initial value (70_reset_and_hazards.md R450). -/
def Instance.clear (x : Instance) : Instance :=
  { x with chans := Six.fill Channel.initial, chip := Chip.cleared, reg := [] }

/-- `RESET()` on an instance (70_reset_and_hazards.md R450). -/
def Instance.reset (x : Instance) : Instance :=
  { x.clear.writes (resetWrites x.cfg.family) with events := [] }

/-- RESET (70_reset_and_hazards.md R450). -/
def execReset (s : State) : Host.Outcome State Fault Refusal :=
  .next { s with self := s.self.reset }

/-- The OPEN parameters of a family (00_scope.md R5). -/
def paramsOf (t : FamilyTable) : Family → FamilyParams
  | .ym2203 => t.ym2203
  | .ym2608 => t.ym2608
  | .ym2610 => t.ym2610
  | .ym2610b => t.ym2610b
  | .ym2612 => t.ym2612

/-- The configuration of a constructed instance: `FREQBASE = clockHz / (sampleRateHz * PRESCALE)`
(40_tables.md R167; 70_reset_and_hazards.md R451). -/
def State.newConfig (s : State) (family : Family) (clockHz sampleRateHz : Nat) : Config where
  family := family
  freqNum := clockHz
  freqDen := sampleRateHz * family.prescale
  params := paramsOf s.params family
  post := s.post

/-- CONSTRUCT: `chipCount` new instances, each reset, and their handles (70_reset_and_hazards.md R451). A callback that is
present or missing changes nothing in the model. -/
def execConstruct (family : Family) (chipCount clockHz sampleRateHz : Nat) (timerCallback irqCallback : Bool) (s : State) :
    Host.Outcome State Fault Refusal :=
  let _ := (timerCallback, irqCallback)
  if chipCount = 0 ∨ clockHz = 0 ∨ sampleRateHz = 0 then .refused .constructFailed
  else
    .next { s with
      later :=
        s.later
          ++ List.replicate chipCount (Instance.afterReset (s.newConfig family clockHz sampleRateHz)).reset
      result := .handles (List.range' s.instances.length chipCount) }

/-! ### GENERATE, READ_STATUS, DUMP -/

/-- GENERATE (46_channel_mix.md R372). -/
def execGenerate (count volumePercent loudnessBoost : Int) (buf : List Sample) (s : State) :
    Host.Outcome State Fault Refusal :=
  if count < 0 then .refused (.negativeCount count)
  else if (buf.length : Int) < 2 * count then .refused (.bufferTooShort count buf.length)
  else
    let r := Instance.mixSteps volumePercent loudnessBoost count.toNat s.self buf
    .next { s with self := r.1.timerBStep count.toNat, buf := r.2 }

/-- READ_STATUS: every port 0..3 returns the status byte (46_channel_mix.md R373; 60_exceptions.md R422). -/
def execReadStatus (port : Int) (s : State) : Host.Outcome State Fault Refusal :=
  if 0 ≤ port ∧ port ≤ 3 then .next { s with result := .status s.self.chip.status }
  else .refused (.portOutOfRange port)

/-- The bytes of a dump (46_channel_mix.md R374). -/
def Instance.dump (x : Instance) : List Byte :=
  (registerSpace x.cfg.family).map x.shadow

/-- DUMP (46_channel_mix.md R374). -/
def execDump (s : State) : Host.Outcome State Fault Refusal :=
  .next { s with result := .bytes s.self.dump }

/-! ### RESTORE -/

/-- The byte of a restore array for an address. -/
def byteAt (bytes : List Byte) (a : BitVec 9) : Byte :=
  bytes.getD a.toNat 0

/-- The first loop of RESTORE: the shadow takes every mapped byte (46_channel_mix.md R375). -/
def Instance.restoreShadow (x : Instance) (bytes : List Byte) : Instance :=
  ((registerSpace x.cfg.family).filter x.isMapped).foldl (fun y a => y.store a (byteAt bytes a)) x

/-- Whether an address is a low-byte frequency register, whose latch is replayed first (46_channel_mix.md R375). -/
def isFnumLow (a : BitVec 9) : Bool :=
  (0xA0 ≤ a.toNat % 256 && a.toNat % 256 ≤ 0xA2) || (0xA8 ≤ a.toNat % 256 && a.toNat % 256 ≤ 0xAA)

/-- The writes that replay one mapped address (46_channel_mix.md R375). -/
def replayAt (bytes : List Byte) (a : BitVec 9) : List (BitVec 9 × Byte) :=
  (if isFnumLow a then [(a + 4, byteAt bytes (a + 4))] else []) ++ [(a, byteAt bytes a)]

/-- The addresses RESTORE replays: mapped, from 0x20 on in each bank, without 0x28 (46_channel_mix.md R375). -/
def Instance.replayed (x : Instance) : List (BitVec 9) :=
  (registerSpace x.cfg.family).filter fun a =>
    x.isMapped a && 0x20 ≤ a.toNat % 256 && a.toNat % 256 != 0x28

/-- RESTORE on an instance (46_channel_mix.md R375). -/
def Instance.restore (x : Instance) (bytes : List Byte) : Instance :=
  (x.restoreShadow bytes).writes (x.replayed.flatMap (replayAt bytes))

/-- RESTORE (46_channel_mix.md R375). -/
def execRestore (bytes : List Byte) (s : State) : Host.Outcome State Fault Refusal :=
  if bytes.length = (registerSpace s.self.cfg.family).length then .next { s with self := s.self.restore bytes }
  else .refused (.restoreLength bytes.length)

end Sys2Proof.Machine
end

