-- ==== Sys2Proof/Machine/Dispatch.lean ====
section
/-! DEFINITION. One arm for each instruction. -/

namespace Sys2Proof.Machine

/-- The meaning of an instruction on the instance operated on. -/
def exec (i : Instr) (s : State) : Host.Outcome State Fault Refusal :=
  match i with
  -- GLOBAL
  | .lfoCtrl data => Sys2Proof.Machine.execLfoCtrl data s
  | .timerAHi data => Sys2Proof.Machine.execTimerAHi data s
  | .timerALo data => Sys2Proof.Machine.execTimerALo data s
  | .timerB data => Sys2Proof.Machine.execTimerB data s
  | .modeTimer data => Sys2Proof.Machine.execModeTimer data s
  | .keyOnOff data => Sys2Proof.Machine.execKeyOnOff data s
  -- OPREG
  | .dtMul c n data => Sys2Proof.Machine.execDtMul c n data s
  | .tl c n data => Sys2Proof.Machine.execTl c n data s
  | .ksAr c n data => Sys2Proof.Machine.execKsAr c n data s
  | .amD1r c n data => Sys2Proof.Machine.execAmD1r c n data s
  | .d2r c n data => Sys2Proof.Machine.execD2r c n data s
  | .slRr c n data => Sys2Proof.Machine.execSlRr c n data s
  | .ssgEg c n data => Sys2Proof.Machine.execSsgEg c n data s
  -- CHREG
  | .fnumLo c data => Sys2Proof.Machine.execFnumLo c data s
  | .fnumHiBlk c data => Sys2Proof.Machine.execFnumHiBlk c data s
  | .sl3FnumLo k data => Sys2Proof.Machine.execSl3FnumLo k data s
  | .sl3FnumHiBlk k data => Sys2Proof.Machine.execSl3FnumHiBlk k data s
  | .fbAlgo c data => Sys2Proof.Machine.execFbAlgo c data s
  | .panAmsPms c data => Sys2Proof.Machine.execPanAmsPms c data s
  -- IGNORED
  | .ignored bank addr data => Sys2Proof.Machine.execIgnored bank addr data s
  -- HOSTOP
  | .construct family chipCount clockHz sampleRateHz timerCallback irqCallback => Sys2Proof.Machine.execConstruct family chipCount clockHz sampleRateHz timerCallback irqCallback s
  | .reset => Sys2Proof.Machine.execReset s
  | .generate count volumePercent loudnessBoost buf => Sys2Proof.Machine.execGenerate count volumePercent loudnessBoost buf s
  | .readStatus port => Sys2Proof.Machine.execReadStatus port s
  | .dump => Sys2Proof.Machine.execDump s
  | .restore bytes => Sys2Proof.Machine.execRestore bytes s

end Sys2Proof.Machine
end

