-- ==== Sys2Proof/Machine/Request.lean ====
section
/-! DEFINITION. Taking the host's next operation: turning to its instance and decoding its call. -/

namespace Sys2Proof.Machine

/-- The refusal of a rejected call (60_exceptions.md R410). -/
def rejected : Reject → Refusal
  | .addressOutOfRange address => .addressOutOfRange address

/-- The instruction of a request and the state it runs on: the request's instance is turned to and its call decoded for
that instance's family. -/
def State.take (s : State) (q : Request) : Except Refusal (Instr × State) :=
  match s.focus q.handle with
  | none => .error (.noSuchInstance q.handle)
  | some t =>
    match decodeCall t.self.cfg.family q.call with
    | .ok i => .ok (i, t)
    | .error e => .error (rejected e)

/-- Put a call in front of the pending operations, on the instance operated on. -/
def State.withCall (s : State) (call : Call) : State :=
  { s with pending := ⟨s.handle, call⟩ :: s.pending }

end Sys2Proof.Machine
end

