-- ==== Sys2Proof/Machine/Step.lean ====
section
/-! DEFINITION. One step: the oldest pending host operation is taken and run as one atomic transition (00_scope.md R14;
20_memory.md R87, R88). With nothing pending the block keeps all its state (60_exceptions.md R444). -/

namespace Sys2Proof.Machine

/-- One step of the machine. -/
def step (s : State) : Host.Outcome State Fault Refusal :=
  match s.pending with
  | [] => .next s
  | q :: rest =>
    match { s with pending := rest }.take q with
    | .ok (i, t) => exec i t
    | .error r => .refused r

/-- The machine with the operation of a table word as the next one to be taken; a word that is none leaves it as it
is. -/
def State.withFetchWord (s : State) (nbits w : Nat) : State :=
  match tableCall nbits w with
  | some call => s.withCall call
  | none => s

end Sys2Proof.Machine
end

