-- ==== Sys2Proof/Safety.lean ====
section
/-! DEFINITION. The terms claims use: safe runs, the invariant of the machine, and what an operation leaves unchanged. -/

namespace Sys2Proof.Machine

/-! ### Safe runs -/

/-- `k` steps, each of which answers a next state: no operation of the run is refused. -/
def SafeRun : Nat → State → Prop
  | 0, _ => True
  | k + 1, s => ∃ t, step s = .next t ∧ SafeRun k t

/-! ### The invariant -/

/-- What every operator record keeps. -/
structure Operator.Inv (o : Operator) : Prop where
  /-- 10_state.md R37, 44_envelope.md R295. -/
  volume_le : o.volume ≤ 1023
  /-- 10_state.md R38. -/
  volOut_le : o.volOut ≤ 2039
  /-- 44_envelope.md R298. -/
  key_iff : o.key = o.state.pastRel
  /-- 44_envelope.md R289. -/
  off_quiet : o.state = .off → o.volume = 1023

/-- What every channel record keeps. -/
structure Channel.Inv (h : Channel) : Prop where
  ops : ∀ n, (h.ops.get n).Inv
  /-- 10_state.md R40. -/
  kcode_eq : h.kcode = keycode h.blk h.fnum
  /-- 10_state.md R41. -/
  op1Out0_le : -8168 ≤ h.op1Out0 ∧ h.op1Out0 ≤ 8168
  /-- 10_state.md R41. -/
  op1Out1_le : -8168 ≤ h.op1Out1 ∧ h.op1Out1 ≤ 8168

/-- What the chip record keeps. -/
structure Chip.Inv (k : Chip) : Prop where
  /-- 10_state.md R50. -/
  sl3_kcode : ∀ e, (k.sl3 e).kcode = keycode (k.sl3 e).blk (k.sl3 e).fnum
  /-- 10_state.md R52: a counter is running or at 0. -/
  taCnt_nonneg : 0 ≤ k.taCnt
  tbCnt_nonneg : 0 ≤ k.tbCnt
  /-- 10_state.md R53: the other status bits read 0. -/
  status_bits : k.status &&& 0xFC = 0
  /-- 60_exceptions.md R421. -/
  irq_eq : k.irq = k.level
  /-- 10_state.md R54. -/
  egTimer_lt : k.egTimer < egOvf
  /-- 10_state.md R55. -/
  lfoAm_le : k.lfoAm ≤ 126
  lfoPm_le : k.lfoPm ≤ 31

/-- The OPEN parameters lie in their ranges (00_scope.md R5). -/
def paramsOk (p : FamilyParams) : Prop :=
  1 ≤ p.relMul ∧ 1 ≤ p.relMulSsg

/-- What every instance keeps. -/
structure Instance.Inv (x : Instance) : Prop where
  /-- FREQBASE is positive (00_scope.md R5). -/
  freq_pos : 0 < x.cfg.freqNum ∧ 0 < x.cfg.freqDen
  params_ok : paramsOk x.cfg.params
  chans : ∀ c, (x.ch c).Inv
  chip : x.chip.Inv
  /-- The shadow is in canonical form. -/
  reg_wf : x.reg.wf = true
  /-- A shadow byte other than 0 is at a mapped address (10_state.md R60; 46_channel_mix.md R374). -/
  reg_mapped : ∀ n, x.reg.read n ≠ 0 →
    ∃ a : BitVec 9, n = a.toNat
      ∧ mapped x.cfg.family.six x.cfg.family.hasLfoPan (a.getLsbD 8) (a.extractLsb' 0 8) = true
  /-- Channels that do not exist stay as reset left them (10_state.md R30). -/
  absent : ∀ c, x.live c = false → x.ch c = Channel.initial

/-- The invariant of the machine: every instance keeps its own, and the parameters a construction uses are in range. -/
structure State.Inv (s : State) : Prop where
  instances : ∀ x ∈ s.instances, x.Inv
  params_ok : ∀ f, paramsOk (paramsOf s.params f)

/-! ### What an operation leaves unchanged -/

/-- The machine around the instance operated on is unchanged. -/
structure SameAround (s t : State) : Prop where
  earlier : t.earlier = s.earlier
  later : t.later = s.later
  params : t.params = s.params
  post : t.post = s.post
  pending : t.pending = s.pending
  result : t.result = s.result
  buf : t.buf = s.buf

/-- The shadow byte of address `a` is `data` and every other shadow byte is unchanged (10_state.md R60). -/
def StoredAt (x y : Instance) (a : BitVec 9) (data : Byte) : Prop :=
  y.reg.read a.toNat = data ∧ ∀ n, n ≠ a.toNat → y.reg.read n = x.reg.read n

/-- Outside the channels, the chip record and the shadow, nothing of the instance changes but the events. -/
structure SameOutside (x y : Instance) : Prop where
  cfg : y.cfg = x.cfg
  postL : y.postL = x.postL
  postR : y.postR = x.postR

/-- Every channel but `c` is unchanged. -/
def SameOtherChannels (x y : Instance) (c : Chan) : Prop :=
  ∀ d, d ≠ c → y.ch d = x.ch d

/-- A channel's own fields, its operators left out, are unchanged. -/
def SameOwnFields (h k : Channel) : Prop :=
  { k with ops := h.ops } = h

/-- The frame of a write to operator `n` of channel `c`: all but that operator, the channel's dirty marker and the
shadow. -/
structure OnlyOperator (x y : Instance) (c : Chan) (n : OpNum) : Prop where
  outside : SameOutside x y
  chip : y.chip = x.chip
  events : y.events = x.events
  others : SameOtherChannels x y c
  operators : ∀ m, m ≠ n → y.op c m = x.op c m
  own : SameOwnFields (x.ch c) { y.ch c with dirty := (x.ch c).dirty }

/-- The frame of a write to the fields of channel `c`: all but those fields and the shadow. -/
structure OnlyChannel (x y : Instance) (c : Chan) : Prop where
  outside : SameOutside x y
  chip : y.chip = x.chip
  events : y.events = x.events
  others : SameOtherChannels x y c
  operators : (y.ch c).ops = (x.ch c).ops

/-- The frame of a write to the chip record: all but that record and the shadow. -/
structure OnlyChip (x y : Instance) : Prop where
  outside : SameOutside x y
  events : y.events = x.events
  chans : y.chans = x.chans

/-- The fields of an operator that only register writes change (10_state.md R32). -/
structure SameOperatorRegisters (o p : Operator) : Prop where
  dt : p.dt = o.dt
  mul : p.mul = o.mul
  tl : p.tl = o.tl
  ks : p.ks = o.ks
  ar : p.ar = o.ar
  am : p.am = o.am
  d1r : p.d1r = o.d1r
  d2r : p.d2r = o.d2r
  sl : p.sl = o.sl
  rr : p.rr = o.rr
  ssg : p.ssg = o.ssg

/-- The fields of a channel that only register writes change (10_state.md R40). -/
structure SameChannelRegisters (h k : Channel) : Prop where
  algo : k.algo = h.algo
  fb : k.fb = h.fb
  fnum : k.fnum = h.fnum
  blk : k.blk = h.blk
  kcode : k.kcode = h.kcode
  pms : k.pms = h.pms
  ams : k.ams = h.ams
  panL : k.panL = h.panL
  panR : k.panR = h.panR

/-- The fields of the chip record that only register writes change (10_state.md R50 to R52, R55). -/
structure SameChipRegisters (k l : Chip) : Prop where
  fnH : l.fnH = k.fnH
  sl3FnH : l.sl3FnH = k.sl3FnH
  sl3 : ∀ e, l.sl3 e = k.sl3 e
  mode : l.mode = k.mode
  ta : l.ta = k.ta
  tb : l.tb = k.tb
  lfoInc : l.lfoInc = k.lfoInc

/-- The running state of an operator that a register write through RESTORE leaves alone (46_channel_mix.md R375). -/
structure SameOperatorMotion (o p : Operator) : Prop where
  phase : p.phase = o.phase
  incr : p.incr = o.incr
  ksrVal : p.ksrVal = o.ksrVal
  state : p.state = o.state
  volume : p.volume = o.volume
  volOut : p.volOut = o.volOut
  key : p.key = o.key
  ssgInv : p.ssgInv = o.ssgInv
  ssgSwapped : p.ssgSwapped = o.ssgSwapped

/-! ### Numbers and records the rules use -/

/-- The channel index `c` as a number (00_scope.md R10). -/
def chanIndex (c : Chan) : Nat :=
  c.chs.toNat + if c.bank then 3 else 0

/-- The logical operator number `n` (00_scope.md R10). -/
def opNumber : OpNum → Nat
  | .op1 => 1
  | .op2 => 2
  | .op3 => 3
  | .op4 => 4

/-- The number of a 3-slot entry (10_state.md R50). -/
def slot3Number (k : Slot3) : Nat :=
  k.bits.toNat

/-- What a key-on does to an operator (44_envelope.md R278): nothing if its key is held; otherwise phase 0, the SSG
seed, and DEC at volume 0 or ATT from the volume it has. Every other field stays, `volOut` among them. -/
def KeyedOn (p : FamilyParams) (o o' : Operator) : Prop :=
  if o.key then o' = o
  else
    o'.key = true ∧ o'.phase = 0 ∧ o'.ssgInv = o.ssg.getLsbD 2 ∧ o'.ssgSwapped = false
      ∧ (if p.attackShortcut = true
            ∧ 94 ≤ (if o.ar.toNat = 0 then o.ksrVal.toNat else 32 + 2 * o.ar.toNat + o.ksrVal.toNat)
          then o'.volume = 0 ∧ o'.state = .dec
          else o'.volume = o.volume ∧ o'.state = .att)
      ∧ { o' with
          key := o.key, phase := o.phase, ssgInv := o.ssgInv, ssgSwapped := o.ssgSwapped, volume := o.volume
          state := o.state } = o

/-- What a key-off does to an operator (44_envelope.md R279): nothing if its key is not held; otherwise REL from ATT, DEC
or SUS, and nothing else but the key. -/
def KeyedOff (o o' : Operator) : Prop :=
  if o.key then
    o'.key = false ∧ o'.state = (if o.state = .off then .off else .rel) ∧ { o' with key := true, state := o.state } = o
  else o' = o

/-- The IRQ levels an event list reports, each a transition from the one before, end in `now` (60_exceptions.md R421);
`was` is the level before the list. -/
def IrqLog : Bool → List Event → Bool → Prop
  | was, [], now => was = now
  | was, .irqLevel level :: l, now => level ≠ was ∧ IrqLog level l now
  | was, _ :: l, now => IrqLog was l now

/-- The events an IRQ transition emits (60_exceptions.md R421). -/
def transition (was now : Bool) : List Event :=
  if now = was then [] else [.irqLevel now]

/-- `floor(n * FREQBASE)` written with the rational (decision D4). -/
def timesFreqBase (g : Config) (n : Nat) : Nat :=
  n * g.freqNum / g.freqDen

/-- Bit `k` of a byte. -/
def bitOf (data : Byte) (k : Nat) : Bool :=
  data.toNat / 2 ^ k % 2 = 1

/-- `f` applied `n` times. -/
def iterate {α : Type} (f : α → α) : Nat → α → α
  | 0, a => a
  | n + 1, a => iterate f n (f a)

/-- The rate index of a rate and a key-scale value (44_envelope.md R276). -/
def idx (r k : Nat) : Nat :=
  if r = 0 then k else 32 + 2 * r + k

/-- The gate of an index at a tick (44_envelope.md R277). -/
def gateOpen (i : Nat) (t : BitVec 32) : Prop :=
  t.toNat % 2 ^ egShift i = 0

/-- The increment of an index at a tick (44_envelope.md R277). -/
def tickIncrement (p : FamilyParams) (i : Nat) (t : BitVec 32) : Nat :=
  (egInc.getD (egSel p i) []).getD (t.toNat / 2 ^ egShift i % 8) 0

/-- An operator but for its volume, its state and its cached attenuation. -/
def SameButEnvelope (o p : Operator) : Prop :=
  { p with volume := o.volume, state := o.state, volOut := o.volOut } = o

/-- What an operator adds for a modulation offset, in numbers (46_channel_mix.md R360, R362, R364): nothing from the quiet
threshold on, else the sample of its attenuation and its shifted phase. -/
def heardSample (lfoAm : Nat) (h : Channel) (n : OpNum) (offset : Int) : Int :=
  let o := h.ops.get n
  let env := o.volOut + if o.am then lfoAm / 2 ^ amsShift h.ams else 0
  if 832 ≤ env then 0
  else tlLookup (env * 8 + sinWave (BitVec.ofInt 10 ((o.phase.toNat / 1024 : Nat) + offset)))

/-- One sample step of GENERATE as the instance goes through it; the buffer does not matter to it (46_channel_mix.md
R372, R376). -/
def mixedInstance (volumePercent loudnessBoost : Int) (x : Instance) : Instance :=
  (x.mixStep volumePercent loudnessBoost 0 0).1

/-- The two values HOST_POST adds in the next sample step of an instance (46_channel_mix.md R376). -/
def mixedValue (volumePercent loudnessBoost : Int) (x : Instance) : Side → Int
  | .left => (hostPost x.cfg.post .left volumePercent loudnessBoost x.postL x.sampleL).2
  | .right => (hostPost x.cfg.post .right volumePercent loudnessBoost x.postR x.sampleR).2

/-- Instructions run one after another, each from the state before; none if one of them stops. -/
def execAll : List Instr → State → Option State
  | [], s => some s
  | i :: rest, s =>
    match exec i s with
    | .next t => execAll rest t
    | _ => none

/-- Whether an instruction can key an operator on: a KEY_ONOFF with a gate bit set, or a mode byte, written or restored,
that turns CSM on with timer A running (46_channel_mix.md R377). -/
def canKeyOn : Instr → Bool
  | .keyOnOff data => 16 ≤ data.toNat
  | .modeTimer data => bitOf data 7 && bitOf data 0
  | .restore bytes => bitOf (bytes.getD 0x27 0) 7 && bitOf (bytes.getD 0x27 0) 0
  | _ => false

/-- Whether an instruction runs sample steps. -/
def isGenerate : Instr → Bool
  | .generate _ _ _ _ => true
  | _ => false

/-- What CSM does to an operator (60_exceptions.md R433): nothing if its key is held, else a key-on and a key-off. -/
def CsmKeyed (p : FamilyParams) (o o' : Operator) : Prop :=
  if o.key then o' = o else ∃ m, KeyedOn p o m ∧ KeyedOff m o'

/-- The events of a timer's load bit in a 0x27 write (41_global_regs.md R184). -/
def loadEvents (t : Timer) (load : Bool) (count : Int) (period : Nat) : List Event :=
  if load then (if count = 0 then [.timerReload t period] else [])
  else if count ≠ 0 then [.timerStop t]
  else []

/-- A timer's counter after a 0x27 write (41_global_regs.md R184). -/
def loadedCount (load : Bool) (count : Int) (period : Nat) : Int :=
  if load then (if count = 0 then (period * 4096 : Nat) else count) else 0

/-- The overflow of a timer in numbers (60_exceptions.md R431, R432): its flag if enabled and the IRQ level, the reload
and the events. -/
structure Overflowed (x y : Instance) (t : Timer) (enabled : Bool) (flag : Byte) (period : Nat) (count : Int) :
    Prop where
  status : y.chip.status = if enabled then x.chip.status ||| flag else x.chip.status
  irq : y.chip.irq = decide (y.chip.status.toNat % 4 ≠ 0)
  count : y.chip.count t = if count + period * 4096 ≤ 0 then (period * 4096 : Int) else count + period * 4096
  events : y.events = x.events ++ transition x.chip.irq y.chip.irq ++ [.timerReload t period]
  /-- Nothing else of the chip record changes. -/
  chip : ({ y.chip with status := x.chip.status, irq := x.chip.irq }).setCount t (x.chip.count t) = x.chip
  reg : y.reg = x.reg
  outside : SameOutside x y

end Sys2Proof.Machine
end

