-- ==== Sys2Proof/Certificates/Slice0/Obligations.lean ====
section
/-! DEFINITION. The statements for the provers, from the numbered rules of spec/. The premise `s.self.reg.wf = true` is
the canonical form of the shadow, `s.self.live c = true` that the family has channel `c`; both are about the state alone.
Statements hold for every configuration: the family, FREQBASE and the OPEN parameters are those of the instance. -/

section Statements

open Sys2Proof Sys2Proof.Machine

/-! ### Encoding -/

/-- Words written out from 30_encoding.md R100 to R108 and the examples of 41 to 43. -/
def Obligations.DecodesWordsOfTheSpec : Prop :=
  decodeCommand .ym2612 0x0220B = .ok (.lfoCtrl 0x0B)
    ∧ decodeCommand .ym2203 0x0220B = .ok (.ignored false 0x22 0x0B)
    ∧ decodeCommand .ym2612 0x02715 = .ok (.modeTimer 0x15)
    ∧ decodeCommand .ym2612 0x028F4 = .ok (.keyOnOff 0xF4)
    ∧ decodeCommand .ym2612 0x03871 = .ok (.dtMul .ch0 .op2 0x71)
    ∧ decodeCommand .ym2612 0x03371 = .ok (.ignored false 0x33 0x71)
    ∧ decodeCommand .ym2612 0x04C7F = .ok (.tl .ch0 .op4 0x7F)
    ∧ decodeCommand .ym2612 0x06185 = .ok (.amD1r .ch1 .op1 0x85)
    ∧ decodeCommand .ym2608 0x15605 = .ok (.ksAr .ch5 .op3 0x05)
    ∧ decodeCommand .ym2612 0x0A422 = .ok (.fnumHiBlk .ch0 0x22)
    ∧ decodeCommand .ym2612 0x0A900 = .ok (.sl3FnumLo .k1 0x00)
    ∧ decodeCommand .ym2612 0x1A900 = .ok (.ignored true 0xA9 0x00)
    ∧ decodeCommand .ym2612 0x1B03F = .ok (.fbAlgo .ch3 0x3F)
    ∧ decodeCommand .ym2203 0x0B4C0 = .ok (.ignored false 0xB4 0xC0)
    ∧ decodeCommand .ym2203 0x1B03F = .error (.addressOutOfRange 0x1B0)

/-- 30_encoding.md R102 and R103: the channel from `chs` and the bank, the operator from the slot in the order 1, 3, 2,
4; with `chs = 3` the write is ignored. -/
def Obligations.ChannelAndOperatorSelection : Prop :=
  ∀ (pan bank : Bool) (addr data : Byte), 0x30 ≤ addr.toNat →
    (addr.toNat % 4 = 3 → decodeRegister pan bank addr data = .ignored bank addr data)
    ∧ (addr.toNat % 4 ≠ 3 → addr.toNat ≤ 0x9F →
        ∃ c n, chanIndex c = addr.toNat % 4 + (if bank then 3 else 0)
          ∧ opNumber n = [1, 3, 2, 4].getD (addr.toNat / 4 % 4) 0
          ∧ ([Instr.dtMul, .tl, .ksAr, .amD1r, .d2r, .slRr, .ssgEg].map fun mk => mk c n data)[addr.toNat / 16 - 3]?
            = some (decodeRegister pan bank addr data))
    ∧ (addr.toNat % 4 ≠ 3 →
        ∃ c, chanIndex c = addr.toNat % 4 + (if bank then 3 else 0)
          ∧ (addr.toNat / 4 = 0x28 → decodeRegister pan bank addr data = .fnumLo c data)
          ∧ (addr.toNat / 4 = 0x29 → decodeRegister pan bank addr data = .fnumHiBlk c data)
          ∧ (addr.toNat / 4 = 0x2C → decodeRegister pan bank addr data = .fbAlgo c data)
          ∧ (addr.toNat / 4 = 0x2D → pan = true → decodeRegister pan bank addr data = .panAmsPms c data))

/-- The decoder reads back every well-formed instruction of a family from its call. -/
def Obligations.DecodeOfEncodeIsTheInstruction : Prop :=
  ∀ (f : Family) (i : Instr), i.wf f.six f.hasLfoPan = true → decodeCall f (encodeCall i) = .ok i

/-- Every command word has one meaning: what it decodes to is well-formed and encodes to it. -/
def Obligations.EncodeOfDecodeIsTheWord : Prop :=
  ∀ (f : Family) (w : CommandWord) (i : Instr), decodeCommand f w = .ok i →
    i.wf f.six f.hasLfoPan = true ∧ encode i = some w

/-- 30_encoding.md R109: every command word of the family's space is a mapped or an ignored write, and every one runs. -/
def Obligations.EveryCommandWordIsMappedOrIgnored : Prop :=
  ∀ (f : Family) (w : CommandWord), (w.getLsbD 16 = true → f.six = true) →
    ∃ i, decodeCommand f w = .ok i
      ∧ isIgnored i = !mapped f.six f.hasLfoPan (w.getLsbD 16) (w.extractLsb' 8 8)
      ∧ ∀ s : State, s.self.cfg.family = f → ∃ t, exec i s = .next t

/-- A mapped command word matches the mask and pattern of its own row of the opcode table and of no other. -/
def Obligations.TableRowsPickOneInstruction : Prop :=
  ∀ (f : Family) (w : CommandWord) (i j : Instr) (r : OpcodeRow),
    decodeCommand f w = .ok i → isIgnored i = false → isIgnored j = false → j.row = some r →
      (w &&& r.mask = r.pattern ↔ i.row = some r)

/-- 30_encoding.md R108: the ignored addresses are those listed, and an ignored write changes nothing. -/
def Obligations.IgnoredWritesChangeNothing : Prop :=
  ∀ (f : Family) (bank : Bool) (addr data : Byte), (bank = true → f.six = true) →
    (decodeRegister f.hasLfoPan bank addr data = .ignored bank addr data ↔
      addr.toNat ≤ 0x1F
        ∨ addr.toNat = 0x20 ∨ addr.toNat = 0x21 ∨ addr.toNat = 0x23 ∨ (0x29 ≤ addr.toNat ∧ addr.toNat ≤ 0x2F)
        ∨ (bank = true ∧ 0x20 ≤ addr.toNat ∧ addr.toNat ≤ 0x2F)
        ∨ (0x30 ≤ addr.toNat ∧ addr.toNat % 4 = 3)
        ∨ (bank = true ∧ 0xA8 ≤ addr.toNat ∧ addr.toNat ≤ 0xAF)
        ∨ (0xB8 ≤ addr.toNat ∧ addr.toNat ≤ 0xBF)
        ∨ 0xC0 ≤ addr.toNat
        ∨ (f.hasLfoPan = false ∧ (0xB4 ≤ addr.toNat ∧ addr.toNat ≤ 0xB6 ∨ addr.toNat = 0x22)))
    ∧ ∀ s : State, s.self.cfg.family = f → exec (.ignored bank addr data) s = .next s

/-- 20_memory.md R86: a register write to an address in range runs, its value masked to the low 8 bits; outside, it is
refused. -/
def Obligations.RegisterWritesAreMaskedAndBounded : Prop :=
  ∀ (s : State) (address value : Int) (rest : List Request),
    s.pending = ⟨s.handle, .writeRegister address value⟩ :: rest →
      if 0 ≤ address ∧ address < (if s.self.cfg.family.six then 512 else 256) then
        (∃ t, step s = .next t)
          ∧ step s = step { s with pending := ⟨s.handle, .writeRegister address (value % 256)⟩ :: rest }
      else step s = .refused (.addressOutOfRange address)

/-! ### The machine -/

/-- A step takes the oldest pending operation, turns to its instance and runs the decoded instruction there. A handle no
construction returned is refused, which is the model's choice (notes/assumptions/3.md). -/
def Obligations.StepRunsTheDecodedInstruction : Prop :=
  (∀ (s : State) (q : Request) (rest : List Request), s.pending = q :: rest →
    (q.handle < s.instances.length →
      ∃ t, ({ s with pending := rest }).focus q.handle = some t
        ∧ s.instances[q.handle]? = some t.self ∧ t.instances = s.instances ∧ t.pending = rest
        ∧ ∀ i, decodeCall t.self.cfg.family q.call = .ok i → step s = exec i t)
    ∧ (s.instances.length ≤ q.handle → step s = .refused (.noSuchInstance q.handle)))
  ∧ (∀ (s : State) (call : Call) (i : Instr),
    decodeCall s.self.cfg.family call = .ok i → step (s.withCall call) = exec i s)

/-- 60_exceptions.md R444: with no operation to take the block keeps all its state, and `GENERATE(0)` changes nothing. -/
def Obligations.NothingHappensBetweenOperations : Prop :=
  (∀ s : State, s.pending = [] → step s = .next s)
  ∧ (∀ (s : State) (volumePercent loudnessBoost : Int) (buf : List Sample), 0 ≤ s.self.chip.tbCnt →
    exec (.generate 0 volumePercent loudnessBoost buf) s = .next { s with buf := buf })

/-- 60_exceptions.md R410: the operations without a meaning are refused, and a construction that does not succeed is. A
refusal carries no state. -/
def Obligations.MeaninglessOperationsAreRefused : Prop :=
  (∀ (s : State) (address value : Int) (rest : List Request),
    s.pending = ⟨s.handle, .writeRegister address value⟩ :: rest →
    ¬(0 ≤ address ∧ address < (if s.self.cfg.family.six then 512 else 256)) →
      step s = .refused (.addressOutOfRange address))
  ∧ (∀ (s : State) (count volumePercent loudnessBoost : Int) (buf : List Sample),
    count < 0 ∨ (buf.length : Int) < 2 * count →
      ∃ r, exec (.generate count volumePercent loudnessBoost buf) s = .refused r)
  ∧ (∀ (s : State) (port : Int), port < 0 ∨ 3 < port → exec (.readStatus port) s = .refused (.portOutOfRange port))
  ∧ (∀ (s : State) (bytes : List Byte), bytes.length ≠ (if s.self.cfg.family.six then 512 else 256) →
    exec (.restore bytes) s = .refused (.restoreLength bytes.length))
  ∧ (∀ (s : State) (family : Family) (chipCount clockHz sampleRateHz : Nat) (tcb icb : Bool),
    (∃ t, exec (.construct family chipCount clockHz sampleRateHz tcb icb) s = .next t)
      ∨ exec (.construct family chipCount clockHz sampleRateHz tcb icb) s = .refused .constructFailed)

/-- A register write to a channel the family does not have is refused by exec too, and so is a construction with an
operand of zero (notes/assumptions/8.md). -/
def Obligations.OperandsTheFamilyLacksAreRefused : Prop :=
  (∀ (s : State) (c : Chan) (n : OpNum) (data : Byte) (i : Instr), s.self.live c = false →
    i ∈ [Instr.dtMul c n data, .tl c n data, .ksAr c n data, .amD1r c n data, .d2r c n data, .slRr c n data,
        .ssgEg c n data, .fnumLo c data, .fnumHiBlk c data, .fbAlgo c data, .panAmsPms c data] →
      ∃ a : BitVec 9, i.addressData = some (a, data) ∧ exec i s = .refused (.addressOutOfRange a.toNat))
  ∧ (∀ (s : State) (addr data : Byte), s.self.cfg.family.six = false →
    exec (.ignored true addr data) s = .refused (.addressOutOfRange (256 + addr.toNat)))
  ∧ (∀ (s : State) (family : Family) (chipCount clockHz sampleRateHz : Nat) (tcb icb : Bool),
    chipCount = 0 ∨ clockHz = 0 ∨ sampleRateHz = 0 →
      exec (.construct family chipCount clockHz sampleRateHz tcb icb) s = .refused .constructFailed)

/-- 20_memory.md R93: a step changes no instance but the one operated on, and that one's new state depends on it alone. -/
def Obligations.InstancesDoNotInteract : Prop :=
  (∀ (s t : State) (q : Request) (rest : List Request), s.pending = q :: rest → step s = .next t →
    ∀ k, k ≠ q.handle → k < s.instances.length → t.instances[k]? = s.instances[k]?)
  ∧ (∀ (i : Instr) (s t u : State), s.self = u.self → exec i s = .next t →
    ∃ v, exec i u = .next v ∧ v.self = t.self)

/-- The invariant is kept by every step from every state that meets it (10_state.md R37, R38, R40, R41, R50, R53 to R55;
44_envelope.md R289, R295, R298). -/
def Obligations.StepKeepsTheInvariant : Prop :=
  ∀ s t : State, s.Inv → step s = .next t → t.Inv

/-- The machine after reset meets the invariant, and so does a freshly reset instance of every configuration. -/
def Obligations.ResetMeetsTheInvariant : Prop :=
  State.reset.Inv
    ∧ ∀ cfg : Config, 0 < cfg.freqNum → 0 < cfg.freqDen → paramsOk cfg.params → (Instance.afterReset cfg).Inv

/-! ### GLOBAL -/

/-- 41_global_regs.md R180. -/
def Obligations.LfoCtrlWrite : Prop :=
  ∀ (s : State) (data : Byte), s.self.reg.wf = true →
    ∃ t, exec (.lfoCtrl data) s = .next t
      ∧ if s.self.cfg.family.hasLfoPan then
          SameAround s t ∧ OnlyChip s.self t.self ∧ StoredAt s.self t.self 0x022 data
            ∧ t.self.chip = { s.self.chip with
                lfoInc :=
                  if bitOf data 3 then
                    16777216 * s.self.cfg.freqNum
                      / (s.self.cfg.freqDen * [108, 77, 71, 67, 62, 44, 8, 5].getD (data.toNat % 8) 0)
                  else 0 }
        else t = s

/-- 41_global_regs.md R181 to R183: the period registers; a running counter does not change. -/
def Obligations.TimerPeriodWrites : Prop :=
  ∀ (s : State) (data : Byte), s.self.reg.wf = true →
    (∃ t, exec (.timerAHi data) s = .next t ∧ SameAround s t ∧ OnlyChip s.self t.self
      ∧ StoredAt s.self t.self 0x024 data
      ∧ t.self.chip = { s.self.chip with ta := BitVec.ofNat 10 (data.toNat * 4 + s.self.chip.ta.toNat % 4) })
    ∧ (∃ t, exec (.timerALo data) s = .next t ∧ SameAround s t ∧ OnlyChip s.self t.self
      ∧ StoredAt s.self t.self 0x025 data
      ∧ t.self.chip = { s.self.chip with ta := BitVec.ofNat 10 (s.self.chip.ta.toNat / 4 * 4 + data.toNat % 4) })
    ∧ (∃ t, exec (.timerB data) s = .next t ∧ SameAround s t ∧ OnlyChip s.self t.self
      ∧ StoredAt s.self t.self 0x026 data ∧ t.self.chip = { s.self.chip with tb := data })

/-- 41_global_regs.md R184, in the event order of 60_exceptions.md R423: channel 2's marker, the mode, the flags, the
counters, and the IRQ, B and A events. The premise on the IRQ level is part of the invariant. -/
def Obligations.ModeTimerWrite : Prop :=
  ∀ (s : State) (data : Byte), s.self.reg.wf = true → s.self.chip.irq = s.self.chip.level →
    ∃ t, exec (.modeTimer data) s = .next t ∧ SameAround s t ∧ SameOutside s.self t.self
      ∧ StoredAt s.self t.self 0x027 data ∧ SameOtherChannels s.self t.self .ch2
      ∧ t.self.ch .ch2 = { s.self.ch .ch2 with
          dirty := (s.self.ch .ch2).dirty || s.self.chip.mode.toNat / 64 != data.toNat / 64 }
      ∧ t.self.chip = { s.self.chip with
          mode := data
          status := s.self.chip.status &&& (if bitOf data 5 then 0xFD else 0xFF) &&& (if bitOf data 4 then 0xFE else 0xFF)
          irq := t.self.chip.status.toNat % 4 != 0
          tbCnt := loadedCount (bitOf data 1) s.self.chip.tbCnt ((256 - s.self.chip.tb.toNat) * 16)
          taCnt := loadedCount (bitOf data 0) s.self.chip.taCnt (1024 - s.self.chip.ta.toNat) }
      ∧ t.self.events = s.self.events ++ transition s.self.chip.irq t.self.chip.irq
          ++ loadEvents .b (bitOf data 1) s.self.chip.tbCnt ((256 - s.self.chip.tb.toNat) * 16)
          ++ loadEvents .a (bitOf data 0) s.self.chip.taCnt (1024 - s.self.chip.ta.toNat)

/-- 41_global_regs.md R185 with 44_envelope.md R278 and R279: each operator of the selected channel is keyed on or off by
its gate bit; with channel bits 3 only the shadow changes. -/
def Obligations.KeyOnOffWrite : Prop :=
  ∀ (s : State) (data : Byte), s.self.reg.wf = true →
    ∃ t, exec (.keyOnOff data) s = .next t ∧ SameAround s t ∧ SameOutside s.self t.self
      ∧ t.self.chip = s.self.chip ∧ t.self.events = s.self.events ∧ StoredAt s.self t.self 0x028 data
      ∧ (data.toNat % 4 = 3 → t.self.chans = s.self.chans)
      ∧ ∀ c, data.toNat % 4 ≠ 3 →
          chanIndex c = data.toNat % 4 + (if bitOf data 2 && s.self.cfg.family.six then 3 else 0) →
          SameOtherChannels s.self t.self c ∧ SameOwnFields (s.self.ch c) (t.self.ch c)
            ∧ ∀ n, if bitOf data (3 + opNumber n) then KeyedOn s.self.cfg.params (s.self.op c n) (t.self.op c n)
                else KeyedOff (s.self.op c n) (t.self.op c n)

/-! ### OPREG -/

/-- 42_operator_regs.md R210: detune and multiplier, the channel dirty; the multiplier 0 is a half and a detune field of 4
or more the negated one. -/
def Obligations.DetuneMultiplierWrite : Prop :=
  (∀ (s : State) (c : Chan) (n : OpNum) (data : Byte), s.self.live c = true → s.self.reg.wf = true →
    ∃ t, exec (.dtMul c n data) s = .next t ∧ SameAround s t ∧ OnlyOperator s.self t.self c n
      ∧ StoredAt s.self t.self (operatorAddr 0x3 c n) data ∧ (t.self.ch c).dirty = true
      ∧ t.self.op c n = { s.self.op c n with
          dt := BitVec.ofNat 3 (data.toNat / 16 % 8), mul := BitVec.ofNat 4 (data.toNat % 16) })
  ∧ (∀ o : Operator, o.mul2 = if o.mul.toNat = 0 then 1 else 2 * o.mul.toNat)
  ∧ (∀ (g : Config) (d : BitVec 3) (kc : BitVec 5),
    d.toNat < 4 → detune g (d + 4) kc = -detune g d kc ∧ detune g 4 kc = detune g 0 kc)

/-- 42_operator_regs.md R211: the total level; neither the cached attenuation nor the dirty marker changes. -/
def Obligations.TotalLevelWrite : Prop :=
  ∀ (s : State) (c : Chan) (n : OpNum) (data : Byte), s.self.live c = true → s.self.reg.wf = true →
    ∃ t, exec (.tl c n data) s = .next t ∧ SameAround s t ∧ OnlyOperator s.self t.self c n
      ∧ StoredAt s.self t.self (operatorAddr 0x4 c n) data ∧ (t.self.ch c).dirty = (s.self.ch c).dirty
      ∧ t.self.op c n = { s.self.op c n with tl := BitVec.ofNat 7 (data.toNat % 128) }

/-- 42_operator_regs.md R212: key-scale selector and attack rate; the channel is dirty if the selector changes. -/
def Obligations.KeyScaleAttackWrite : Prop :=
  ∀ (s : State) (c : Chan) (n : OpNum) (data : Byte), s.self.live c = true → s.self.reg.wf = true →
    ∃ t, exec (.ksAr c n data) s = .next t ∧ SameAround s t ∧ OnlyOperator s.self t.self c n
      ∧ StoredAt s.self t.self (operatorAddr 0x5 c n) data
      ∧ (t.self.ch c).dirty = ((s.self.ch c).dirty || data.toNat / 64 != (s.self.op c n).ks.toNat)
      ∧ t.self.op c n = { s.self.op c n with
          ks := BitVec.ofNat 2 (data.toNat / 64), ar := BitVec.ofNat 5 (data.toNat % 32) }

/-- 42_operator_regs.md R213 to R215: AM enable and decay-1 rate; decay-2 rate; sustain level and release rate. -/
def Obligations.DecayAndReleaseWrites : Prop :=
  ∀ (s : State) (c : Chan) (n : OpNum) (data : Byte), s.self.live c = true → s.self.reg.wf = true →
    (∃ t, exec (.amD1r c n data) s = .next t ∧ SameAround s t ∧ OnlyOperator s.self t.self c n
      ∧ StoredAt s.self t.self (operatorAddr 0x6 c n) data ∧ (t.self.ch c).dirty = (s.self.ch c).dirty
      ∧ t.self.op c n = { s.self.op c n with am := bitOf data 7, d1r := BitVec.ofNat 5 (data.toNat % 32) })
    ∧ (∃ t, exec (.d2r c n data) s = .next t ∧ SameAround s t ∧ OnlyOperator s.self t.self c n
      ∧ StoredAt s.self t.self (operatorAddr 0x7 c n) data ∧ (t.self.ch c).dirty = (s.self.ch c).dirty
      ∧ t.self.op c n = { s.self.op c n with d2r := BitVec.ofNat 5 (data.toNat % 32) })
    ∧ (∃ t, exec (.slRr c n data) s = .next t ∧ SameAround s t ∧ OnlyOperator s.self t.self c n
      ∧ StoredAt s.self t.self (operatorAddr 0x8 c n) data ∧ (t.self.ch c).dirty = (s.self.ch c).dirty
      ∧ t.self.op c n = { s.self.op c n with
          sl := BitVec.ofNat 4 (data.toNat / 16), rr := BitVec.ofNat 4 (data.toNat % 16) })

/-- 42_operator_regs.md R216: the SSG field; the inversion flags do not change. -/
def Obligations.SsgEgWrite : Prop :=
  ∀ (s : State) (c : Chan) (n : OpNum) (data : Byte), s.self.live c = true → s.self.reg.wf = true →
    ∃ t, exec (.ssgEg c n data) s = .next t ∧ SameAround s t ∧ OnlyOperator s.self t.self c n
      ∧ StoredAt s.self t.self (operatorAddr 0x9 c n) data ∧ (t.self.ch c).dirty = (s.self.ch c).dirty
      ∧ t.self.op c n = { s.self.op c n with ssg := BitVec.ofNat 4 (data.toNat % 16) }

/-! ### CHREG -/

/-- 43_channel_regs.md R240 with 40_tables.md R158: the latch and the low byte become the frequency, its keycode is
derived, the channel is dirty, and the latch stays. -/
def Obligations.FrequencyLowWrite : Prop :=
  (∀ (s : State) (c : Chan) (data : Byte), s.self.live c = true → s.self.reg.wf = true →
    ∃ t, exec (.fnumLo c data) s = .next t ∧ SameAround s t ∧ OnlyChannel s.self t.self c
      ∧ StoredAt s.self t.self (channelAddr 0x28 c) data
      ∧ (t.self.ch c).fnum.toNat = s.self.chip.fnH.toNat % 8 * 256 + data.toNat
      ∧ (t.self.ch c).blk.toNat = s.self.chip.fnH.toNat / 8
      ∧ t.self.ch c = { s.self.ch c with
          fnum := (t.self.ch c).fnum, blk := (t.self.ch c).blk
          kcode := keycode (t.self.ch c).blk (t.self.ch c).fnum, dirty := true })
  ∧ (∀ (b : BitVec 3) (f : BitVec 11),
    (keycode b f).toNat = b.toNat * 4 + [0, 0, 0, 0, 0, 0, 0, 1, 2, 3, 3, 3, 3, 3, 3, 3].getD (f.toNat / 128) 0)

/-- 43_channel_regs.md R241: the one latch takes the byte's low six bits, whichever address it was written to. -/
def Obligations.FrequencyHighWrite : Prop :=
  ∀ (s : State) (c : Chan) (data : Byte), s.self.live c = true → s.self.reg.wf = true →
    ∃ t, exec (.fnumHiBlk c data) s = .next t ∧ SameAround s t ∧ OnlyChip s.self t.self
      ∧ StoredAt s.self t.self (channelAddr 0x29 c) data
      ∧ t.self.chip = { s.self.chip with fnH := BitVec.ofNat 6 (data.toNat % 64) }

/-- 43_channel_regs.md R242 and R243: the 3-slot entries and their latch. -/
def Obligations.Slot3FrequencyWrites : Prop :=
  ∀ (s : State) (k : Slot3) (data : Byte), s.self.reg.wf = true →
    (∃ t, exec (.sl3FnumLo k data) s = .next t ∧ SameAround s t ∧ SameOutside s.self t.self
      ∧ t.self.events = s.self.events ∧ StoredAt s.self t.self (slot3Addr 0x2A k) data
      ∧ SameOtherChannels s.self t.self .ch2 ∧ t.self.ch .ch2 = { s.self.ch .ch2 with dirty := true }
      ∧ (t.self.chip.sl3 k).fnum.toNat = s.self.chip.sl3FnH.toNat % 8 * 256 + data.toNat
      ∧ (t.self.chip.sl3 k).blk.toNat = s.self.chip.sl3FnH.toNat / 8
      ∧ (t.self.chip.sl3 k).kcode = keycode (t.self.chip.sl3 k).blk (t.self.chip.sl3 k).fnum
      ∧ (∀ e, e ≠ k → t.self.chip.sl3 e = s.self.chip.sl3 e)
      ∧ { t.self.chip with sl3k0 := s.self.chip.sl3k0, sl3k1 := s.self.chip.sl3k1, sl3k2 := s.self.chip.sl3k2 }
        = s.self.chip)
    ∧ (∃ t, exec (.sl3FnumHiBlk k data) s = .next t ∧ SameAround s t ∧ OnlyChip s.self t.self
      ∧ StoredAt s.self t.self (slot3Addr 0x2B k) data
      ∧ t.self.chip = { s.self.chip with sl3FnH := BitVec.ofNat 6 (data.toNat % 64) })

/-- 43_channel_regs.md R245: algorithm and feedback, with the feedback shift they give; the history and the delay stay. -/
def Obligations.FeedbackAlgorithmWrite : Prop :=
  ∀ (s : State) (c : Chan) (data : Byte), s.self.live c = true → s.self.reg.wf = true →
    ∃ t, exec (.fbAlgo c data) s = .next t ∧ SameAround s t ∧ OnlyChannel s.self t.self c
      ∧ StoredAt s.self t.self (channelAddr 0x2C c) data
      ∧ t.self.ch c = { s.self.ch c with
          algo := BitVec.ofNat 3 (data.toNat % 8), fb := BitVec.ofNat 3 (data.toNat / 8 % 8) }
      ∧ (t.self.ch c).fbShift = if data.toNat / 8 % 8 = 0 then 0 else data.toNat / 8 % 8 + 6

/-- 43_channel_regs.md R246: pan and modulation depths where the family has them; elsewhere the write is ignored. -/
def Obligations.PanDepthWrite : Prop :=
  ∀ (s : State) (c : Chan) (data : Byte), s.self.live c = true → s.self.reg.wf = true →
    ∃ t, exec (.panAmsPms c data) s = .next t
      ∧ if s.self.cfg.family.hasLfoPan then
          SameAround s t ∧ OnlyChannel s.self t.self c ∧ StoredAt s.self t.self (channelAddr 0x2D c) data
            ∧ t.self.ch c = { s.self.ch c with
                panL := bitOf data 7, panR := bitOf data 6
                ams := BitVec.ofNat 2 (data.toNat / 16 % 4), pms := BitVec.ofNat 3 (data.toNat % 8) }
        else t = s

/-! ### HOSTOP -/

/-- 70_reset_and_hazards.md R451: new instances of the family, at the frequency base of the clock and the rate, each reset;
the handles returned find them. -/
def Obligations.ConstructMakesResetInstances : Prop :=
  ∀ (s : State) (family : Family) (chipCount clockHz sampleRateHz : Nat) (tcb icb : Bool),
    0 < chipCount → 0 < clockHz → 0 < sampleRateHz →
      ∃ t hs, exec (.construct family chipCount clockHz sampleRateHz tcb icb) s = .next t
        ∧ t = { s with later := t.later, result := .handles hs }
        ∧ t.instances = s.instances ++ List.replicate chipCount (Instance.afterReset
            { family := family, freqNum := clockHz
              freqDen := sampleRateHz * (if family = .ym2203 then 72 else 144)
              params := paramsOf s.params family, post := s.post })
        ∧ hs.length = chipCount ∧ hs.Nodup ∧ ∀ h ∈ hs, s.instances.length ≤ h ∧ h < t.instances.length

/-- 70_reset_and_hazards.md R450, R453, R454: from every state, RESET leaves the same instance but for its configuration
and the state of HOST_POST, which R450 does not name (notes/assumptions/2.md). -/
def Obligations.ResetFromEveryState : Prop :=
  ∀ s : State, ∃ t, exec .reset s = .next t ∧ SameAround s t ∧ SameOutside s.self t.self
    ∧ (∀ c, t.self.ch c = Channel.initial) ∧ t.self.chip = { Chip.cleared with mode := 0x30 } ∧ t.self.events = []
    ∧ ∀ n, t.self.reg.read n =
        if n = 0x27 then 0x30
        else if s.self.cfg.family.hasLfoPan = true
            ∧ (0xB4 ≤ n ∧ n ≤ 0xB6 ∨ s.self.cfg.family.six = true ∧ 0x1B4 ≤ n ∧ n ≤ 0x1B6) then 0xC0
        else 0

/-- 46_channel_mix.md R372 and R376: one sample step a pair, each side's value added to what the buffer holds and clipped,
then one step of timer B; the rest of the buffer stays. With the identity HOST_POST the values are the samples. -/
def Obligations.GenerateAddsClippedSamples : Prop :=
  (∀ (s : State) (count volumePercent loudnessBoost : Int) (buf : List Sample),
    0 ≤ count → 2 * count ≤ (buf.length : Int) →
      ∃ t, exec (.generate count volumePercent loudnessBoost buf) s = .next t
        ∧ t = { s with self := t.self, buf := t.buf }
        ∧ t.self = (iterate (mixedInstance volumePercent loudnessBoost) count.toNat s.self).timerBStep count.toNat
        ∧ t.buf.length = buf.length
        ∧ (∀ k b, k < count.toNat → buf[2 * k]? = some b →
            t.buf[2 * k]? = some (BitVec.ofInt 16 (max (-32768) (min 32767 (b.toInt
              + mixedValue volumePercent loudnessBoost
                  (iterate (mixedInstance volumePercent loudnessBoost) k s.self) .left)))))
        ∧ (∀ k b, k < count.toNat → buf[2 * k + 1]? = some b →
            t.buf[2 * k + 1]? = some (BitVec.ofInt 16 (max (-32768) (min 32767 (b.toInt
              + mixedValue volumePercent loudnessBoost
                  (iterate (mixedInstance volumePercent loudnessBoost) k s.self) .right)))))
        ∧ ∀ k, 2 * count.toNat ≤ k → t.buf[k]? = buf[k]?)
  ∧ (∀ (volumePercent loudnessBoost : Int) (x : Instance), x.cfg.post = .identity →
    mixedInstance volumePercent loudnessBoost x = x.sampleStep
      ∧ mixedValue volumePercent loudnessBoost x .left = x.sampleL
      ∧ mixedValue volumePercent loudnessBoost x .right = x.sampleR)

/-- What GENERATE leaves unchanged: every register field, the shadow, the configuration, the channels the family does not
have, and the events before it (10_state.md R30, R32, R40; 20_memory.md R81). -/
def Obligations.GenerateFrame : Prop :=
  ∀ (s t : State) (count volumePercent loudnessBoost : Int) (buf : List Sample),
    exec (.generate count volumePercent loudnessBoost buf) s = .next t →
      t = { s with self := t.self, buf := t.buf } ∧ t.self.cfg = s.self.cfg ∧ t.self.reg = s.self.reg
        ∧ (∀ c n, SameOperatorRegisters (s.self.op c n) (t.self.op c n))
        ∧ (∀ c, SameChannelRegisters (s.self.ch c) (t.self.ch c))
        ∧ SameChipRegisters s.self.chip t.self.chip
        ∧ (∀ c, s.self.live c = false → t.self.ch c = s.self.ch c)
        ∧ ∃ l, t.self.events = s.self.events ++ l

/-- 46_channel_mix.md R373 with 60_exceptions.md R422: every port returns the status byte, whose upper six bits read 0,
and nothing else changes. -/
def Obligations.ReadStatusReturnsTheFlags : Prop :=
  ∀ (s : State) (port : Int), 0 ≤ port → port ≤ 3 →
    exec (.readStatus port) s = .next { s with result := .status s.self.chip.status }
      ∧ (s.Inv → s.self.chip.status.toNat < 4)

/-- 46_channel_mix.md R374: the dump is the shadow of the family's whole space, 0 at every unmapped address, and no state
changes. -/
def Obligations.DumpReturnsTheShadow : Prop :=
  ∀ s : State, ∃ l, exec .dump s = .next { s with result := .bytes l }
    ∧ l.length = (if s.self.cfg.family.six then 512 else 256)
    ∧ (∀ n, n < l.length → l[n]? = some (s.self.reg.read n))
    ∧ (s.Inv → ∀ a : BitVec 9, a.toNat < l.length →
        mapped s.self.cfg.family.six s.self.cfg.family.hasLfoPan (a.getLsbD 8) (a.extractLsb' 0 8) = false →
        l[a.toNat]? = some 0)

/-- RESTORE completes, its shadow is the bytes at every mapped address and unchanged at every other, and nothing the
dump does not hold is restored (46_channel_mix.md R375). -/
def Obligations.RestoreTakesTheShadow : Prop :=
  ∀ (s : State) (bytes : List Byte), s.self.reg.wf = true →
    bytes.length = (if s.self.cfg.family.six then 512 else 256) →
      ∃ t, exec (.restore bytes) s = .next t ∧ SameAround s t ∧ SameOutside s.self t.self
        ∧ (∀ n, (∀ a : BitVec 9, n ≠ a.toNat) → t.self.reg.read n = s.self.reg.read n)
        ∧ (∀ a : BitVec 9, t.self.reg.read a.toNat =
            if mapped s.self.cfg.family.six s.self.cfg.family.hasLfoPan (a.getLsbD 8) (a.extractLsb' 0 8)
            then bytes.getD a.toNat 0 else s.self.reg.read a.toNat)
        ∧ (∀ c n, SameOperatorMotion (s.self.op c n) (t.self.op c n))
        ∧ (∀ c, (t.self.ch c).op1Out0 = (s.self.ch c).op1Out0 ∧ (t.self.ch c).op1Out1 = (s.self.ch c).op1Out1
            ∧ (t.self.ch c).memValue = (s.self.ch c).memValue)
        ∧ (∀ c, s.self.live c = false → t.self.ch c = s.self.ch c)
        ∧ t.self.chip.egTimer = s.self.chip.egTimer ∧ t.self.chip.egCnt = s.self.chip.egCnt
        ∧ t.self.chip.lfoCnt = s.self.chip.lfoCnt ∧ t.self.chip.lfoAm = s.self.chip.lfoAm
        ∧ t.self.chip.lfoPm = s.self.chip.lfoPm

/-- RESTORE sets every register field from the bytes, as live writes in ascending order would, each latch before its low
byte; the timers take the replayed 0x27 byte (46_channel_mix.md R375). -/
def Obligations.RestoreSetsTheRegisterFields : Prop :=
  ∀ (s t : State) (bytes : List Byte), s.self.chip.irq = s.self.chip.level → exec (.restore bytes) s = .next t →
    (∀ c n, s.self.live c = true →
      let at_ (g : BitVec 4) : Byte := bytes.getD (operatorAddr g c n).toNat 0
      t.self.op c n = { s.self.op c n with
        dt := BitVec.ofNat 3 ((at_ 3).toNat / 16), mul := BitVec.ofNat 4 (at_ 3).toNat
        tl := BitVec.ofNat 7 (at_ 4).toNat
        ks := BitVec.ofNat 2 ((at_ 5).toNat / 64), ar := BitVec.ofNat 5 (at_ 5).toNat
        am := bitOf (at_ 6) 7, d1r := BitVec.ofNat 5 (at_ 6).toNat
        d2r := BitVec.ofNat 5 (at_ 7).toNat
        sl := BitVec.ofNat 4 ((at_ 8).toNat / 16), rr := BitVec.ofNat 4 (at_ 8).toNat
        ssg := BitVec.ofNat 4 (at_ 9).toNat })
    ∧ (∀ c, s.self.live c = true →
      let at_ (top : BitVec 6) : Byte := bytes.getD (channelAddr top c).toNat 0
      let fnum := BitVec.ofNat 11 ((at_ 0x29).toNat * 256 + (at_ 0x28).toNat)
      let blk := BitVec.ofNat 3 ((at_ 0x29).toNat / 8)
      { t.self.ch c with ops := (s.self.ch c).ops } = { s.self.ch c with
        algo := BitVec.ofNat 3 (at_ 0x2C).toNat, fb := BitVec.ofNat 3 ((at_ 0x2C).toNat / 8)
        fnum := fnum, blk := blk, kcode := keycode blk fnum, dirty := true
        pms := if s.self.cfg.family.hasLfoPan then BitVec.ofNat 3 (at_ 0x2D).toNat else (s.self.ch c).pms
        ams := if s.self.cfg.family.hasLfoPan then BitVec.ofNat 2 ((at_ 0x2D).toNat / 16) else (s.self.ch c).ams
        panL := if s.self.cfg.family.hasLfoPan then bitOf (at_ 0x2D) 7 else (s.self.ch c).panL
        panR := if s.self.cfg.family.hasLfoPan then bitOf (at_ 0x2D) 6 else (s.self.ch c).panR })
    ∧ (∀ e,
      let at_ (top : BitVec 6) : Byte := bytes.getD (slot3Addr top e).toNat 0
      let fnum := BitVec.ofNat 11 ((at_ 0x2B).toNat * 256 + (at_ 0x2A).toNat)
      let blk := BitVec.ofNat 3 ((at_ 0x2B).toNat / 8)
      t.self.chip.sl3 e = ⟨fnum, blk, keycode blk fnum⟩)
    ∧ (let at_ (n : Nat) : Byte := bytes.getD n 0
      let ta := BitVec.ofNat 10 ((at_ 0x24).toNat * 4 + (at_ 0x25).toNat % 4)
      let status := s.self.chip.status &&& (if bitOf (at_ 0x27) 5 then 0xFD else 0xFF)
        &&& (if bitOf (at_ 0x27) 4 then 0xFE else 0xFF)
      { t.self.chip with sl3k0 := s.self.chip.sl3k0, sl3k1 := s.self.chip.sl3k1, sl3k2 := s.self.chip.sl3k2 }
        = { s.self.chip with
          fnH := BitVec.ofNat 6 (if s.self.cfg.family.six then at_ 0x1A6 else at_ 0xA6).toNat
          sl3FnH := BitVec.ofNat 6 (at_ 0xAE).toNat
          mode := at_ 0x27, ta := ta, tb := at_ 0x26
          taCnt := loadedCount (bitOf (at_ 0x27) 0) s.self.chip.taCnt (1024 - ta.toNat)
          tbCnt := loadedCount (bitOf (at_ 0x27) 1) s.self.chip.tbCnt ((256 - (at_ 0x26).toNat) * 16)
          status := status, irq := status.toNat % 4 != 0
          lfoInc :=
            if s.self.cfg.family.hasLfoPan then
              (if bitOf (at_ 0x22) 3 then lfoStep s.self.cfg (BitVec.ofNat 3 (at_ 0x22).toNat) else 0)
            else s.self.chip.lfoInc }
      ∧ t.self.events = s.self.events ++ transition s.self.chip.irq t.self.chip.irq
          ++ loadEvents .b (bitOf (at_ 0x27) 1) s.self.chip.tbCnt ((256 - (at_ 0x26).toNat) * 16)
          ++ loadEvents .a (bitOf (at_ 0x27) 0) s.self.chip.taCnt (1024 - ta.toNat))

/-! ### The envelope generator -/

/-- 44_envelope.md R270 and R289: at a tick the counter advances and every operator of every channel the family has takes
exactly one step; a step in OFF changes only the cached attenuation. -/
def Obligations.EveryTickStepsEveryOperator : Prop :=
  (∀ x : Instance,
    x.egTick.chip = { x.chip with egCnt := x.chip.egCnt + 1 } ∧ SameOutside x x.egTick
      ∧ x.egTick.reg = x.reg ∧ x.egTick.events = x.events ∧ (∀ c, SameOwnFields (x.ch c) (x.egTick.ch c))
      ∧ ∀ c n, x.egTick.op c n =
          if x.live c then (x.op c n).egStep x.cfg.params (x.chip.egCnt + 1) else x.op c n)
  ∧ (∀ (p : FamilyParams) (t : BitVec 32) (o : Operator), o.state = .off →
    { o.egStep p t with volOut := o.volOut } = o)

/-- 44_envelope.md R281 and R282: the attack. The last clause, that a nonzero increment lowers a positive volume, is the
sentence of R281 that the spec marks as its own derivation: "every tick with a nonzero increment lowers the volume by at
least one unit [derived: from this rule]". -/
def Obligations.AttackStep : Prop :=
  ∀ (p : FamilyParams) (t : BitVec 32) (o : Operator), o.state = .att → o.volume ≤ 1023 →
    let i := idx o.ar.toNat o.ksrVal.toNat
    let v : Int := o.volume + (-((o.volume : Int) + 1) * tickIncrement p i t) / 16
    SameButEnvelope o (o.egStep p t)
      ∧ (94 ≤ i → (o.egStep p t).volume = 0 ∧ (o.egStep p t).state = .dec)
      ∧ (i < 94 → ¬gateOpen i t → (o.egStep p t).volume = o.volume ∧ (o.egStep p t).state = .att)
      ∧ (i < 94 → gateOpen i t → v ≤ 0 → (o.egStep p t).volume = 0 ∧ (o.egStep p t).state = .dec)
      ∧ (i < 94 → gateOpen i t → 0 < v → ((o.egStep p t).volume : Int) = v ∧ (o.egStep p t).state = .att)
      ∧ (i < 94 → gateOpen i t → 1 ≤ tickIncrement p i t → 0 < o.volume → (o.egStep p t).volume < o.volume)

/-- 44_envelope.md R283 and R284: the decay, and the sustain with SSG-EG disabled. -/
def Obligations.DecayAndSustainSteps : Prop :=
  ∀ (p : FamilyParams) (t : BitVec 32) (o : Operator),
    (o.state = .dec →
      let i := idx o.d1r.toNat o.ksrVal.toNat
      let m := if 8 ≤ o.ssg.toNat then (if p.ssgMul = .four then 4 else 6) else 1
      SameButEnvelope o (o.egStep p t)
        ∧ (gateOpen i t → (o.egStep p t).volume = min 1023 (o.volume + m * tickIncrement p i t))
        ∧ (¬gateOpen i t → (o.egStep p t).volume = o.volume)
        ∧ (o.egStep p t).state =
            if (if o.sl.toNat = 15 then 992 else 32 * o.sl.toNat) ≤ (o.egStep p t).volume then .sus else .dec)
    ∧ (o.state = .sus → o.ssg.toNat < 8 →
      let i := idx o.d2r.toNat o.ksrVal.toNat
      SameButEnvelope o (o.egStep p t)
        ∧ (gateOpen i t → (o.egStep p t).volume = min 1023 (o.volume + tickIncrement p i t))
        ∧ (¬gateOpen i t → (o.egStep p t).volume = o.volume)
        ∧ (o.egStep p t).state = .sus)

/-- 44_envelope.md R285 and R286: the sustain with SSG-EG enabled, and its hold or loop from the quiet threshold on. -/
def Obligations.SsgSustainStep : Prop :=
  ∀ (p : FamilyParams) (t : BitVec 32) (o : Operator), o.state = .sus → 8 ≤ o.ssg.toNat →
    let i := idx o.d2r.toNat o.ksrVal.toNat
    let v :=
      if t.toNat % 2 ^ egShift i = 0 then
        min 1023 (o.volume + (if p.ssgMul = .four then 4 else 6) * tickIncrement p i t)
      else o.volume
    let o' := o.egStep p t
    if v < 832 then o'.volume = v ∧ o'.state = .sus ∧ SameButEnvelope o o'
    else if o.ssg.toNat % 2 = 1 then
      o'.volume = 1023 ∧ o'.state = .sus ∧ o'.ssgSwapped = true
        ∧ o'.ssgInv = (if o.ssgSwapped = false ∧ o.ssg.toNat / 2 % 2 = 1 then !o.ssgInv else o.ssgInv)
        ∧ SameButEnvelope o { o' with ssgInv := o.ssgInv, ssgSwapped := o.ssgSwapped }
    else
      o'.volume = v ∧ o'.phase = 0 ∧ o'.state = (if o.sl.toNat = 0 then .sus else .att)
        ∧ o'.ssgInv = (if o.ssg.toNat / 2 % 2 = 1 then !o.ssgInv else o.ssgInv)
        ∧ SameButEnvelope o { o' with ssgInv := o.ssgInv, phase := o.phase }

/-- 44_envelope.md R288: the release. -/
def Obligations.ReleaseStep : Prop :=
  ∀ (p : FamilyParams) (t : BitVec 32) (o : Operator), o.state = .rel →
    let i := idx (2 * o.rr.toNat + 1) o.ksrVal.toNat
    let v := min 1023 (o.volume + (if 8 ≤ o.ssg.toNat then p.relMulSsg else p.relMul) * tickIncrement p i t)
    SameButEnvelope o (o.egStep p t)
      ∧ (gateOpen i t → (o.egStep p t).volume = v ∧ (o.egStep p t).state = if 1023 ≤ v then .off else .rel)
      ∧ (¬gateOpen i t → (o.egStep p t).volume = o.volume ∧ (o.egStep p t).state = .rel)

/-- 44_envelope.md R291: the cached attenuation after a step, inverted only with SSG-EG enabled, the flag set and the
state past REL; and no operation but GENERATE and RESET changes it. -/
def Obligations.OutputAttenuation : Prop :=
  (∀ (p : FamilyParams) (t : BitVec 32) (o : Operator), o.volume ≤ 1023 →
    let o' := o.egStep p t
    (o'.volOut : Int) =
      (if 8 ≤ o'.ssg.toNat ∧ o'.ssgInv = true ∧ (o'.state = .att ∨ o'.state = .dec ∨ o'.state = .sus)
        then 1023 - (o'.volume : Int) else o'.volume) + 8 * o'.tl.toNat)
  ∧ (∀ (i : Instr) (s t : State) (c : Chan) (n : OpNum), isGenerate i = false → i ≠ .reset → exec i s = .next t →
    (t.self.op c n).volOut = (s.self.op c n).volOut)

/-- 44_envelope.md R296 with R295: the volume never rises in a step from ATT, never falls in a step from another state,
and stays at most 1023. -/
def Obligations.VolumeIsMonotone : Prop :=
  ∀ (p : FamilyParams) (t : BitVec 32) (o : Operator), o.volume ≤ 1023 →
    (o.egStep p t).volume ≤ 1023
      ∧ (o.state = .att → (o.egStep p t).volume ≤ o.volume)
      ∧ (o.state ≠ .att → o.volume ≤ (o.egStep p t).volume)
      ∧ (o.state = .sus → (o.egStep p t).state = .att → 832 ≤ (o.egStep p t).volume)

/-- 44_envelope.md R297: the only state transitions, by an envelope step, by a key-on or a key-off, and by an instruction
other than GENERATE and RESET. -/
def Obligations.StateTransitions : Prop :=
  (∀ (p : FamilyParams) (t : BitVec 32) (o : Operator), (o.egStep p t).state ≠ o.state →
    (o.state, (o.egStep p t).state) ∈
      [(EgState.att, EgState.dec), (.dec, .sus), (.sus, .att), (.rel, .off)])
  ∧ (∀ (p : FamilyParams) (o : Operator), o.Inv →
    ((o.keyOn p).state ≠ o.state →
      (o.state, (o.keyOn p).state) ∈ [(EgState.rel, EgState.att), (.off, .att), (.rel, .dec), (.off, .dec)])
    ∧ (o.keyOff.state ≠ o.state → (o.state, o.keyOff.state) ∈ [(EgState.att, EgState.rel), (.dec, .rel), (.sus, .rel)]))
  ∧ (∀ (i : Instr) (s t : State) (c : Chan) (n : OpNum), isGenerate i = false → i ≠ .reset →
    exec i s = .next t → (t.self.op c n).state ≠ (s.self.op c n).state →
      ∃ data, i = .keyOnOff data
        ∧ ((t.self.op c n) = (s.self.op c n).keyOn s.self.cfg.params ∨ (t.self.op c n) = (s.self.op c n).keyOff))

/-! ### Phase and LFO -/

/-- 45_phase_lfo.md R326 to R328: the refresh of a dirty channel computes each operator's increment and key-scale value
from the frequency it uses; a channel that is not dirty keeps its own. -/
def Obligations.RefreshComputesTheIncrements : Prop :=
  ∀ (x : Instance) (c : Chan),
    (x.live c = true → (x.ch c).dirty = true →
      { x.refresh.ch c with ops := (x.ch c).ops, dirty := true } = x.ch c ∧ (x.refresh.ch c).dirty = false
        ∧ ∀ n,
          let o := x.op c n
          let own := c = .ch2 ∧ 64 ≤ x.chip.mode.toNat
          let q : Slot3Freq :=
            if own ∧ n = .op1 then x.chip.sl3k1
            else if own ∧ n = .op2 then x.chip.sl3k2
            else if own ∧ n = .op3 then x.chip.sl3k0
            else ⟨(x.ch c).fnum, (x.ch c).blk, (x.ch c).kcode⟩
          let fc : Int := (timesFreqBase x.cfg (2 * q.fnum.toNat * 32) / 2 ^ (7 - q.blk.toNat) : Nat)
          let f := fc + detune x.cfg o.dt q.kcode
          let f' := if f < 0 then f + timesFreqBase x.cfg 131072 else f
          ((x.refresh.op c n).incr : Int) = f' * (if o.mul.toNat = 0 then 1 else 2 * o.mul.toNat : Nat) / 2
            ∧ (x.refresh.op c n).ksrVal.toNat = q.kcode.toNat / 2 ^ (3 - o.ks.toNat)
            ∧ { x.refresh.op c n with incr := o.incr, ksrVal := o.ksrVal } = o)
    ∧ (x.live c = false ∨ (x.ch c).dirty = false → x.refresh.ch c = x.ch c)

/-- 45_phase_lfo.md R329: the refresh depends only on the register fields, the 3-slot entries and the mode, so a channel
marked dirty again without a change recomputes the same values. -/
def Obligations.RefreshDependsOnRegistersOnly : Prop :=
  ∀ (g : Config) (k l : Chip) (c : Chan) (h m : Channel), h.dirty = true → m.dirty = true →
    SameChannelRegisters h m → (∀ n, SameOperatorRegisters (h.ops.get n) (m.ops.get n)) → l.mode = k.mode →
    (∀ e, l.sl3 e = k.sl3 e) →
      (∀ n, ((m.refresh g l c).ops.get n).incr = ((h.refresh g k c).ops.get n).incr
        ∧ ((m.refresh g l c).ops.get n).ksrVal = ((h.refresh g k c).ops.get n).ksrVal)
      ∧ ((h.refresh g k c).markDirty).refresh g k c = h.refresh g k c

/-- 45_phase_lfo.md R333 and R334: after the outputs, every phase advances mod 2^20, by the cached increment or, with a PM
depth, by one recomputed from the offset frequency; the cached increment stays. -/
def Obligations.PhaseAdvance : Prop :=
  ∀ (x : Instance) (c : Chan) (n : OpNum), x.live c = true →
    let o := x.op c n
    let q := x.chip.freq c (x.ch c) n
    let off := pmTab (BitVec.ofNat 7 (q.fnum.toNat / 16)) (x.ch c).pms x.chip.lfoPm
    let bf2 : Int := 2 * (q.blk.toNat * 2048 + q.fnum.toNat : Nat) + off
    let b2 := (bf2 / 4096 % 8).toNat
    let f2 := (bf2 % 4096).toNat
    let kc2 := b2 * 4 + [0, 0, 0, 0, 0, 0, 0, 1, 2, 3, 3, 3, 3, 3, 3, 3].getD (f2 / 256) 0
    let f : Int := (timesFreqBase x.cfg (f2 * 32) / 2 ^ (7 - b2) : Nat) + detune x.cfg o.dt (BitVec.ofNat 5 kc2)
    let f' := if f < 0 then f + timesFreqBase x.cfg 131072 else f
    let inc := if (x.ch c).pms = 0 ∨ off = 0 then (o.incr : Int)
      else f' * (if o.mul.toNat = 0 then 1 else 2 * o.mul.toNat : Nat) / 2
    ((x.chanCalc.op c n).phase.toNat : Int) = (o.phase.toNat + inc) % 1048576
      ∧ { x.chanCalc.op c n with phase := o.phase } = o

/-- 45_phase_lfo.md R330: the LFO advance. -/
def Obligations.LfoAdvance : Prop :=
  ∀ k : Chip,
    (k.lfoInc ≠ 0 →
      let cnt := (k.lfoCnt.toNat + k.lfoInc) % 4294967296
      let pos := cnt / 16777216 % 128
      k.lfoAdvance = { k with
        lfoCnt := BitVec.ofNat 32 cnt
        lfoAm := if pos < 64 then 2 * pos else 126 - 2 * (pos - 64)
        lfoPm := pos / 4 }
      ∧ k.lfoAdvance.lfoAm ≤ 126 ∧ k.lfoAdvance.lfoPm ≤ 31)
    ∧ (k.lfoInc = 0 → k.lfoAdvance = { k with lfoAm := 0, lfoPm := 0 })

/-- 45_phase_lfo.md R335 and 40_tables.md R164: where the PM offset is 0, its symmetry, its range, that the offset
frequency is never negative and below 2^16, and the carry that is lost. -/
def Obligations.PmOffsetProperties : Prop :=
  (∀ (f : BitVec 7) (d : BitVec 3) (t : Nat), t < 16 → pmTab f d t = -pmTab f d (t + 16))
  ∧ (∀ (f : BitVec 7) (d : BitVec 3) (t : Nat), t ∈ [0, 1, 14, 15, 16, 17, 30, 31] → pmTab f d t = 0)
  ∧ (∀ (f : BitVec 7) (d : BitVec 3) (t : Nat), t < 32 → -190 ≤ pmTab f d t ∧ pmTab f d t ≤ 190)
  ∧ (∀ (q : Freq) (pms : BitVec 3) (t : Nat), t < 32 →
    (pmOffset q pms t ≠ 0 → 16 ≤ q.fnum.toNat)
      ∧ 0 ≤ 2 * (q.blk.toNat * 2048 + q.fnum.toNat : Int) + pmOffset q pms t
      ∧ 2 * (q.blk.toNat * 2048 + q.fnum.toNat : Int) + pmOffset q pms t < 65536)
  ∧ (∀ kc : BitVec 5, pmFrequency ⟨2047, 7, kc⟩ 190 = BitVec.ofNat 15 0x0BC)

/-! ### Routing and mix -/

/-- 46_channel_mix.md R362 to R366: the output of a channel under each of the eight algorithms, operators in the order 1, 3,
2, 4, operator 1 by its previous output; and the feedback history and the delay after it. -/
def Obligations.AlgorithmRouting : Prop :=
  ∀ (x : Instance) (c : Chan), x.live c = true →
    let h := x.ch c
    let am := x.chip.lfoAm
    let p := h.op1Out1
    let s3 := heardSample am h .op3
    let s2 := heardSample am h .op2
    let s4 := heardSample am h .op4
    let out := x.outputs.get c
    let mem := (x.chanCalc.ch c).memValue
    (h.algo.toNat = 0 → mem = s2 (p / 2) ∧ out = s4 (s3 (h.memValue / 2) / 2))
      ∧ (h.algo.toNat = 1 → mem = p + s2 0 ∧ out = s4 (s3 (h.memValue / 2) / 2))
      ∧ (h.algo.toNat = 2 → mem = s2 0 ∧ out = s4 ((p + s3 (h.memValue / 2)) / 2))
      ∧ (h.algo.toNat = 3 → mem = s2 (p / 2) ∧ out = s4 ((h.memValue + s3 0) / 2))
      ∧ (h.algo.toNat = 4 → mem = h.memValue ∧ out = s2 (p / 2) + s4 (s3 0 / 2))
      ∧ (h.algo.toNat = 5 → mem = p ∧ out = s3 (h.memValue / 2) + s2 (p / 2) + s4 (p / 2))
      ∧ (h.algo.toNat = 6 → mem = h.memValue ∧ out = s3 0 + s2 (p / 2) + s4 0)
      ∧ (h.algo.toNat = 7 → mem = h.memValue ∧ out = p + s3 0 + s2 0 + s4 0)
      ∧ (x.chanCalc.ch c).op1Out0 = p
      ∧ (x.chanCalc.ch c).op1Out1 =
          heardSample am h .op1
            (if h.fb.toNat = 0 then 0 else (h.op1Out0 + h.op1Out1) * 2 ^ (h.fb.toNat + 6) / 65536)
      ∧ { x.chanCalc.ch c with
          ops := h.ops, op1Out0 := h.op1Out0, op1Out1 := h.op1Out1, memValue := h.memValue } = h

/-- 40_tables.md R145, with the ranges of R144 and 46_channel_mix.md R366: from the quiet threshold on the sample is 0; a
sample lies in -8168..8168 and a channel's output within four times that. -/
def Obligations.QuietOperatorsAreSilent : Prop :=
  (∀ (env : Nat) (i : Int), 832 ≤ env → opOut env i = 0)
  ∧ (∀ p : Nat, -8168 ≤ tlLookup p ∧ tlLookup p ≤ 8168)
  ∧ (∀ (x : Instance) (c : Chan), -8168 ≤ (x.ch c).op1Out1 → (x.ch c).op1Out1 ≤ 8168 →
    -32672 ≤ x.outputs.get c ∧ x.outputs.get c ≤ 32672)

/-- 46_channel_mix.md R378: with algorithm 7 and operators 2 to 4 at total level 127, a channel's output is operator 1's
sample of the step before. -/
def Obligations.AlgorithmIsolation : Prop :=
  ∀ (x : Instance) (c : Chan), x.live c = true → (x.ch c).algo.toNat = 7 →
    (∀ n, n ≠ .op1 → (x.op c n).tl = 127 ∧ 1016 ≤ (x.op c n).volOut) →
      ∀ k,
        let y := (iterate Instance.sampleStep k x).prepared
        let z := (iterate Instance.sampleStep (k + 1) x).prepared
        z.outputs.get c =
          heardSample y.chip.lfoAm (y.ch c) .op1
            (if (x.ch c).fb.toNat = 0 then 0
            else ((y.ch c).op1Out0 + (y.ch c).op1Out1) * 2 ^ ((x.ch c).fb.toNat + 6) / 65536)

/-- 46_channel_mix.md R370: the sample step. The refreshes, the LFO, the channels, the envelope ticks as the loop that
subtracts EG_OVF once a tick, timer A; and each side is the sum of the outputs of the channels whose pan bit is set. -/
def Obligations.SampleStepOrder : Prop :=
  let ticksFrom (x : Instance) : Instance :=
    Instance.egTicks (x.chip.egTimer / 196608) { x with chip := { x.chip with egTimer := x.chip.egTimer % 196608 } }
  (∀ x : Instance,
    let z := { x.refresh with chip := x.refresh.chip.lfoAdvance }
    let w := z.chanCalc
    let heard (pan : Channel → Bool) : Int :=
      (([Chan.ch0, .ch1, .ch2, .ch3, .ch4, .ch5].filter fun c => x.live c && pan (x.ch c)).map z.outputs.get).sum
    x.sampleStep
        = (ticksFrom { w with chip := { w.chip with
            egTimer := w.chip.egTimer + timesFreqBase x.cfg 65536 } }).timerAStep
      ∧ x.sampleL = heard Channel.panL ∧ x.sampleR = heard Channel.panR)
  ∧ (∀ x : Instance, x.chip.egTimer < 196608 → ticksFrom x = x)
  ∧ (∀ x : Instance, 196608 ≤ x.chip.egTimer →
    ticksFrom x = ticksFrom ({ x with chip := { x.chip with egTimer := x.chip.egTimer - 196608 } }).egTick)

/-- The envelope clock in 46_channel_mix.md R371: at FREQBASE at most 3 a step takes at most one tick, and at FREQBASE 1
one at every third. -/
def Obligations.EnvelopeClock : Prop :=
  (∀ x : Instance, x.chip.egTimer < 196608 → 0 < x.cfg.freqDen → x.cfg.freqNum ≤ 3 * x.cfg.freqDen →
    x.egClock.chip.egCnt = x.chip.egCnt ∨ x.egClock.chip.egCnt = x.chip.egCnt + 1)
  ∧ (∀ (x : Instance) (k : Nat), 0 < x.cfg.freqDen → x.cfg.freqNum = x.cfg.freqDen → x.chip.egTimer = 0 →
    (iterate Instance.sampleStep k x).chip.egCnt = x.chip.egCnt + BitVec.ofNat 32 (k / 3))

/-- 46_channel_mix.md R377: after RESET, with no key-on issued and CSM not turned on with timer A running, GENERATE leaves
every buffer as it was. The spec's default HOST_POST, the identity. -/
def Obligations.SilenceAfterReset : Prop :=
  ∀ (s t : State) (l : List Instr) (count volumePercent loudnessBoost : Int) (buf : List Sample),
    s.self.cfg.post = .identity → execAll (.reset :: l) s = some t → (∀ i ∈ l, canKeyOn i = false) →
    0 ≤ count → 2 * count ≤ (buf.length : Int) →
      ∃ u, exec (.generate count volumePercent loudnessBoost buf) t = .next u ∧ u.buf = buf

/-- 00_scope.md R15: splitting a GENERATE gives the same samples and leaves the same instance but for timer B, its flag, the
IRQ level and the events. -/
def Obligations.SplittingKeepsTheSamples : Prop :=
  ∀ (s : State) (m n : Nat) (volumePercent loudnessBoost : Int) (b1 b2 : List Sample),
    b1.length = 2 * m → b2.length = 2 * n →
      ∃ t u v, exec (.generate (m + n : Nat) volumePercent loudnessBoost (b1 ++ b2)) s = .next t
        ∧ exec (.generate m volumePercent loudnessBoost b1) s = .next u
        ∧ exec (.generate n volumePercent loudnessBoost b2) u = .next v
        ∧ t.buf = u.buf ++ v.buf
        ∧ v.self.chans = t.self.chans ∧ v.self.reg = t.self.reg ∧ SameOutside t.self v.self
        ∧ v.self.chip.status.toNat % 2 = t.self.chip.status.toNat % 2
        ∧ { v.self.chip with
            tbCnt := t.self.chip.tbCnt, status := t.self.chip.status, irq := t.self.chip.irq } = t.self.chip

/-! ### Timers and IRQ -/

/-- 60_exceptions.md R430 to R433: the steps of timers A and B, their overflows, and the CSM key events of an overflow of
timer A. The premise on the IRQ level is part of the invariant. -/
def Obligations.TimerSteps : Prop :=
  ∀ (x : Instance) (n : Nat), x.chip.irq = x.chip.level →
    (x.chip.taCnt = 0 → x.timerAStep = x)
    ∧ (let cnt := x.chip.taCnt - timesFreqBase x.cfg 4096
      let y := x.timerAStep
      (x.chip.taCnt ≠ 0 → 0 < cnt → y = { x with chip := { x.chip with taCnt := cnt } })
      ∧ (x.chip.taCnt ≠ 0 → cnt ≤ 0 →
        Overflowed x y .a (bitOf x.chip.mode 2) 0x01 (1024 - x.chip.ta.toNat) cnt
          ∧ (bitOf x.chip.mode 7 = false → y.chans = x.chans)
          ∧ (bitOf x.chip.mode 7 = true → SameOtherChannels x y .ch2 ∧ SameOwnFields (x.ch .ch2) (y.ch .ch2)
            ∧ ∀ m, CsmKeyed x.cfg.params (x.op .ch2 m) (y.op .ch2 m))))
    ∧ (x.chip.tbCnt = 0 → x.timerBStep n = x)
    ∧ (let cnt := x.chip.tbCnt - timesFreqBase x.cfg (4096 * n)
      let y := x.timerBStep n
      (x.chip.tbCnt ≠ 0 → 0 < cnt → y = { x with chip := { x.chip with tbCnt := cnt } })
      ∧ (x.chip.tbCnt ≠ 0 → cnt ≤ 0 →
        Overflowed x y .b (bitOf x.chip.mode 3) 0x02 ((256 - x.chip.tb.toNat) * 16) cnt ∧ y.chans = x.chans))

/-- 60_exceptions.md R434: a counter that stands at `C` overflows first at sample step `ceil(C / TA_STEP)`, and from a
reload the next overflow comes the floor or the ceiling of the period over TA_STEP later; at FREQBASE 1 that is the
period exactly. -/
def Obligations.TimerATiming : Prop :=
  ∀ (x : Instance) (C : Nat), 0 < C → x.chip.taCnt = C → 0 < timesFreqBase x.cfg 4096 →
    let d := timesFreqBase x.cfg 4096
    let K := (C + d - 1) / d
    let P := (1024 - x.chip.ta.toNat) * 4096
    let y := iterate Instance.sampleStep K x
    (∀ k, k < K → (iterate Instance.sampleStep k x).events = x.events
      ∧ (iterate Instance.sampleStep k x).chip.status = x.chip.status)
    ∧ (∃ l, y.events = x.events ++ l ∧ l.filter (fun e => e = .timerReload .a (1024 - x.chip.ta.toNat))
        = [.timerReload .a (1024 - x.chip.ta.toNat)] ∧ l.length ≤ 2)
    ∧ (y.chip.status.toNat % 2 = 1 ↔ bitOf x.chip.mode 2 = true ∨ x.chip.status.toNat % 2 = 1)
    ∧ (∃ C' : Nat, 0 < C' ∧ y.chip.taCnt = C'
      ∧ ((C' + d - 1) / d = P / d ∨ (C' + d - 1) / d = (P + d - 1) / d)
      ∧ (C = P → x.cfg.freqNum = x.cfg.freqDen → C' = P ∧ K = 1024 - x.chip.ta.toNat))

/-- 60_exceptions.md R421: whatever runs, the reported level is the one the status asks for, and the events report it on
transitions only. -/
def Obligations.IrqEventsAreTransitions : Prop :=
  ∀ (i : Instr) (s t : State), s.self.chip.irq = s.self.chip.level → i ≠ .reset → exec i s = .next t →
    t.self.chip.irq = t.self.chip.level
      ∧ ∃ l, t.self.events = s.self.events ++ l ∧ IrqLog s.self.chip.irq l t.self.chip.irq

end Statements
end

