-- ==== Sys2Proof/Laws/State.lean ====
section
/-! SUPPORT. One lemma for each field of each update of the state, true by rfl, so that no later proof unfolds a record
update. -/

namespace Sys2Proof.Machine

/-! ### Shadow store -/

@[simp] theorem Instance.store_cfg (x : Instance) (a : BitVec 9) (data : Byte) :
    (x.store a data).cfg = x.cfg := rfl

@[simp] theorem Instance.store_chans (x : Instance) (a : BitVec 9) (data : Byte) :
    (x.store a data).chans = x.chans := rfl

@[simp] theorem Instance.store_chip (x : Instance) (a : BitVec 9) (data : Byte) :
    (x.store a data).chip = x.chip := rfl

@[simp] theorem Instance.store_reg (x : Instance) (a : BitVec 9) (data : Byte) :
    (x.store a data).reg = x.reg.write a.toNat data := rfl

@[simp] theorem Instance.store_events (x : Instance) (a : BitVec 9) (data : Byte) :
    (x.store a data).events = x.events := rfl

@[simp] theorem Instance.store_postL (x : Instance) (a : BitVec 9) (data : Byte) :
    (x.store a data).postL = x.postL := rfl

@[simp] theorem Instance.store_postR (x : Instance) (a : BitVec 9) (data : Byte) :
    (x.store a data).postR = x.postR := rfl

/-! ### Event -/

@[simp] theorem Instance.emit_cfg (x : Instance) (e : Event) :
    (x.emit e).cfg = x.cfg := rfl

@[simp] theorem Instance.emit_chans (x : Instance) (e : Event) :
    (x.emit e).chans = x.chans := rfl

@[simp] theorem Instance.emit_chip (x : Instance) (e : Event) :
    (x.emit e).chip = x.chip := rfl

@[simp] theorem Instance.emit_reg (x : Instance) (e : Event) :
    (x.emit e).reg = x.reg := rfl

@[simp] theorem Instance.emit_events (x : Instance) (e : Event) :
    (x.emit e).events = x.events ++ [e] := rfl

@[simp] theorem Instance.emit_postL (x : Instance) (e : Event) :
    (x.emit e).postL = x.postL := rfl

@[simp] theorem Instance.emit_postR (x : Instance) (e : Event) :
    (x.emit e).postR = x.postR := rfl

/-! ### Channel update -/

@[simp] theorem Instance.updCh_cfg (x : Instance) (c : Chan) (f : Channel → Channel) :
    (x.updCh c f).cfg = x.cfg := rfl

@[simp] theorem Instance.updCh_chans (x : Instance) (c : Chan) (f : Channel → Channel) :
    (x.updCh c f).chans = x.chans.set c (f (x.ch c)) := rfl

@[simp] theorem Instance.updCh_chip (x : Instance) (c : Chan) (f : Channel → Channel) :
    (x.updCh c f).chip = x.chip := rfl

@[simp] theorem Instance.updCh_reg (x : Instance) (c : Chan) (f : Channel → Channel) :
    (x.updCh c f).reg = x.reg := rfl

@[simp] theorem Instance.updCh_events (x : Instance) (c : Chan) (f : Channel → Channel) :
    (x.updCh c f).events = x.events := rfl

@[simp] theorem Instance.updCh_postL (x : Instance) (c : Chan) (f : Channel → Channel) :
    (x.updCh c f).postL = x.postL := rfl

@[simp] theorem Instance.updCh_postR (x : Instance) (c : Chan) (f : Channel → Channel) :
    (x.updCh c f).postR = x.postR := rfl

/-! ### Live channels -/

@[simp] theorem Instance.mapLive_cfg (x : Instance) (f : Chan → Channel → Channel) :
    (x.mapLive f).cfg = x.cfg := rfl

@[simp] theorem Instance.mapLive_chans (x : Instance) (f : Chan → Channel → Channel) :
    (x.mapLive f).chans = Six.tabulate fun c => if x.live c then f c (x.ch c) else x.ch c := rfl

@[simp] theorem Instance.mapLive_chip (x : Instance) (f : Chan → Channel → Channel) :
    (x.mapLive f).chip = x.chip := rfl

@[simp] theorem Instance.mapLive_reg (x : Instance) (f : Chan → Channel → Channel) :
    (x.mapLive f).reg = x.reg := rfl

@[simp] theorem Instance.mapLive_events (x : Instance) (f : Chan → Channel → Channel) :
    (x.mapLive f).events = x.events := rfl

@[simp] theorem Instance.mapLive_postL (x : Instance) (f : Chan → Channel → Channel) :
    (x.mapLive f).postL = x.postL := rfl

@[simp] theorem Instance.mapLive_postR (x : Instance) (f : Chan → Channel → Channel) :
    (x.mapLive f).postR = x.postR := rfl

/-! ### LFO -/

@[simp] theorem Instance.lfoAdvance_cfg (x : Instance) :
    (x.lfoAdvance).cfg = x.cfg := rfl

@[simp] theorem Instance.lfoAdvance_chans (x : Instance) :
    (x.lfoAdvance).chans = x.chans := rfl

@[simp] theorem Instance.lfoAdvance_chip (x : Instance) :
    (x.lfoAdvance).chip = x.chip.lfoAdvance := rfl

@[simp] theorem Instance.lfoAdvance_reg (x : Instance) :
    (x.lfoAdvance).reg = x.reg := rfl

@[simp] theorem Instance.lfoAdvance_events (x : Instance) :
    (x.lfoAdvance).events = x.events := rfl

@[simp] theorem Instance.lfoAdvance_postL (x : Instance) :
    (x.lfoAdvance).postL = x.postL := rfl

@[simp] theorem Instance.lfoAdvance_postR (x : Instance) :
    (x.lfoAdvance).postR = x.postR := rfl

/-! ### Part 1 of RESET -/

@[simp] theorem Instance.clear_cfg (x : Instance) :
    (x.clear).cfg = x.cfg := rfl

@[simp] theorem Instance.clear_chans (x : Instance) :
    (x.clear).chans = Six.fill Channel.initial := rfl

@[simp] theorem Instance.clear_chip (x : Instance) :
    (x.clear).chip = Chip.cleared := rfl

@[simp] theorem Instance.clear_reg (x : Instance) :
    (x.clear).reg = [] := rfl

@[simp] theorem Instance.clear_events (x : Instance) :
    (x.clear).events = x.events := rfl

@[simp] theorem Instance.clear_postL (x : Instance) :
    (x.clear).postL = x.postL := rfl

@[simp] theorem Instance.clear_postR (x : Instance) :
    (x.clear).postR = x.postR := rfl

/-! ### Operator update in a channel -/

@[simp] theorem Channel.updOp_ops (x : Channel) (n : OpNum) (f : Operator → Operator) :
    (x.updOp n f).ops = x.ops.set n (f (x.ops.get n)) := rfl

@[simp] theorem Channel.updOp_algo (x : Channel) (n : OpNum) (f : Operator → Operator) :
    (x.updOp n f).algo = x.algo := rfl

@[simp] theorem Channel.updOp_fb (x : Channel) (n : OpNum) (f : Operator → Operator) :
    (x.updOp n f).fb = x.fb := rfl

@[simp] theorem Channel.updOp_fnum (x : Channel) (n : OpNum) (f : Operator → Operator) :
    (x.updOp n f).fnum = x.fnum := rfl

@[simp] theorem Channel.updOp_blk (x : Channel) (n : OpNum) (f : Operator → Operator) :
    (x.updOp n f).blk = x.blk := rfl

@[simp] theorem Channel.updOp_kcode (x : Channel) (n : OpNum) (f : Operator → Operator) :
    (x.updOp n f).kcode = x.kcode := rfl

@[simp] theorem Channel.updOp_pms (x : Channel) (n : OpNum) (f : Operator → Operator) :
    (x.updOp n f).pms = x.pms := rfl

@[simp] theorem Channel.updOp_ams (x : Channel) (n : OpNum) (f : Operator → Operator) :
    (x.updOp n f).ams = x.ams := rfl

@[simp] theorem Channel.updOp_panL (x : Channel) (n : OpNum) (f : Operator → Operator) :
    (x.updOp n f).panL = x.panL := rfl

@[simp] theorem Channel.updOp_panR (x : Channel) (n : OpNum) (f : Operator → Operator) :
    (x.updOp n f).panR = x.panR := rfl

@[simp] theorem Channel.updOp_op1Out0 (x : Channel) (n : OpNum) (f : Operator → Operator) :
    (x.updOp n f).op1Out0 = x.op1Out0 := rfl

@[simp] theorem Channel.updOp_op1Out1 (x : Channel) (n : OpNum) (f : Operator → Operator) :
    (x.updOp n f).op1Out1 = x.op1Out1 := rfl

@[simp] theorem Channel.updOp_memValue (x : Channel) (n : OpNum) (f : Operator → Operator) :
    (x.updOp n f).memValue = x.memValue := rfl

@[simp] theorem Channel.updOp_dirty (x : Channel) (n : OpNum) (f : Operator → Operator) :
    (x.updOp n f).dirty = x.dirty := rfl

/-! ### Dirty marker -/

@[simp] theorem Channel.markDirty_ops (x : Channel) :
    (x.markDirty).ops = x.ops := rfl

@[simp] theorem Channel.markDirty_algo (x : Channel) :
    (x.markDirty).algo = x.algo := rfl

@[simp] theorem Channel.markDirty_fb (x : Channel) :
    (x.markDirty).fb = x.fb := rfl

@[simp] theorem Channel.markDirty_fnum (x : Channel) :
    (x.markDirty).fnum = x.fnum := rfl

@[simp] theorem Channel.markDirty_blk (x : Channel) :
    (x.markDirty).blk = x.blk := rfl

@[simp] theorem Channel.markDirty_kcode (x : Channel) :
    (x.markDirty).kcode = x.kcode := rfl

@[simp] theorem Channel.markDirty_pms (x : Channel) :
    (x.markDirty).pms = x.pms := rfl

@[simp] theorem Channel.markDirty_ams (x : Channel) :
    (x.markDirty).ams = x.ams := rfl

@[simp] theorem Channel.markDirty_panL (x : Channel) :
    (x.markDirty).panL = x.panL := rfl

@[simp] theorem Channel.markDirty_panR (x : Channel) :
    (x.markDirty).panR = x.panR := rfl

@[simp] theorem Channel.markDirty_op1Out0 (x : Channel) :
    (x.markDirty).op1Out0 = x.op1Out0 := rfl

@[simp] theorem Channel.markDirty_op1Out1 (x : Channel) :
    (x.markDirty).op1Out1 = x.op1Out1 := rfl

@[simp] theorem Channel.markDirty_memValue (x : Channel) :
    (x.markDirty).memValue = x.memValue := rfl

@[simp] theorem Channel.markDirty_dirty (x : Channel) :
    (x.markDirty).dirty = true := rfl

/-! ### Evaluation of a channel -/

@[simp] theorem Channel.afterCalc_ops (x : Channel) (am : Nat) :
    (x.afterCalc am).ops = x.ops := rfl

@[simp] theorem Channel.afterCalc_algo (x : Channel) (am : Nat) :
    (x.afterCalc am).algo = x.algo := rfl

@[simp] theorem Channel.afterCalc_fb (x : Channel) (am : Nat) :
    (x.afterCalc am).fb = x.fb := rfl

@[simp] theorem Channel.afterCalc_fnum (x : Channel) (am : Nat) :
    (x.afterCalc am).fnum = x.fnum := rfl

@[simp] theorem Channel.afterCalc_blk (x : Channel) (am : Nat) :
    (x.afterCalc am).blk = x.blk := rfl

@[simp] theorem Channel.afterCalc_kcode (x : Channel) (am : Nat) :
    (x.afterCalc am).kcode = x.kcode := rfl

@[simp] theorem Channel.afterCalc_pms (x : Channel) (am : Nat) :
    (x.afterCalc am).pms = x.pms := rfl

@[simp] theorem Channel.afterCalc_ams (x : Channel) (am : Nat) :
    (x.afterCalc am).ams = x.ams := rfl

@[simp] theorem Channel.afterCalc_panL (x : Channel) (am : Nat) :
    (x.afterCalc am).panL = x.panL := rfl

@[simp] theorem Channel.afterCalc_panR (x : Channel) (am : Nat) :
    (x.afterCalc am).panR = x.panR := rfl

@[simp] theorem Channel.afterCalc_op1Out0 (x : Channel) (am : Nat) :
    (x.afterCalc am).op1Out0 = x.op1Out1 := rfl

@[simp] theorem Channel.afterCalc_op1Out1 (x : Channel) (am : Nat) :
    (x.afterCalc am).op1Out1 = x.opSample am .op1 x.feedback := rfl

@[simp] theorem Channel.afterCalc_memValue (x : Channel) (am : Nat) :
    (x.afterCalc am).memValue = (x.accumulate am).mem := rfl

@[simp] theorem Channel.afterCalc_dirty (x : Channel) (am : Nat) :
    (x.afterCalc am).dirty = x.dirty := rfl

/-! ### Phase advance -/

@[simp] theorem Channel.phaseAdvance_ops (x : Channel) (g : Config) (k : Chip) (c : Chan) :
    (x.phaseAdvance g k c).ops = Quad.tabulate fun n =>
      (x.ops.get n).advance ((x.ops.get n).stepIncrement g (k.freq c x n) x.pms k.lfoPm) := rfl

@[simp] theorem Channel.phaseAdvance_algo (x : Channel) (g : Config) (k : Chip) (c : Chan) :
    (x.phaseAdvance g k c).algo = x.algo := rfl

@[simp] theorem Channel.phaseAdvance_fb (x : Channel) (g : Config) (k : Chip) (c : Chan) :
    (x.phaseAdvance g k c).fb = x.fb := rfl

@[simp] theorem Channel.phaseAdvance_fnum (x : Channel) (g : Config) (k : Chip) (c : Chan) :
    (x.phaseAdvance g k c).fnum = x.fnum := rfl

@[simp] theorem Channel.phaseAdvance_blk (x : Channel) (g : Config) (k : Chip) (c : Chan) :
    (x.phaseAdvance g k c).blk = x.blk := rfl

@[simp] theorem Channel.phaseAdvance_kcode (x : Channel) (g : Config) (k : Chip) (c : Chan) :
    (x.phaseAdvance g k c).kcode = x.kcode := rfl

@[simp] theorem Channel.phaseAdvance_pms (x : Channel) (g : Config) (k : Chip) (c : Chan) :
    (x.phaseAdvance g k c).pms = x.pms := rfl

@[simp] theorem Channel.phaseAdvance_ams (x : Channel) (g : Config) (k : Chip) (c : Chan) :
    (x.phaseAdvance g k c).ams = x.ams := rfl

@[simp] theorem Channel.phaseAdvance_panL (x : Channel) (g : Config) (k : Chip) (c : Chan) :
    (x.phaseAdvance g k c).panL = x.panL := rfl

@[simp] theorem Channel.phaseAdvance_panR (x : Channel) (g : Config) (k : Chip) (c : Chan) :
    (x.phaseAdvance g k c).panR = x.panR := rfl

@[simp] theorem Channel.phaseAdvance_op1Out0 (x : Channel) (g : Config) (k : Chip) (c : Chan) :
    (x.phaseAdvance g k c).op1Out0 = x.op1Out0 := rfl

@[simp] theorem Channel.phaseAdvance_op1Out1 (x : Channel) (g : Config) (k : Chip) (c : Chan) :
    (x.phaseAdvance g k c).op1Out1 = x.op1Out1 := rfl

@[simp] theorem Channel.phaseAdvance_memValue (x : Channel) (g : Config) (k : Chip) (c : Chan) :
    (x.phaseAdvance g k c).memValue = x.memValue := rfl

@[simp] theorem Channel.phaseAdvance_dirty (x : Channel) (g : Config) (k : Chip) (c : Chan) :
    (x.phaseAdvance g k c).dirty = x.dirty := rfl

/-! ### Envelope step of a channel -/

@[simp] theorem Channel.egStep_ops (x : Channel) (p : FamilyParams) (t : BitVec 32) :
    (x.egStep p t).ops = Quad.tabulate fun n => (x.ops.get n).egStep p t := rfl

@[simp] theorem Channel.egStep_algo (x : Channel) (p : FamilyParams) (t : BitVec 32) :
    (x.egStep p t).algo = x.algo := rfl

@[simp] theorem Channel.egStep_fb (x : Channel) (p : FamilyParams) (t : BitVec 32) :
    (x.egStep p t).fb = x.fb := rfl

@[simp] theorem Channel.egStep_fnum (x : Channel) (p : FamilyParams) (t : BitVec 32) :
    (x.egStep p t).fnum = x.fnum := rfl

@[simp] theorem Channel.egStep_blk (x : Channel) (p : FamilyParams) (t : BitVec 32) :
    (x.egStep p t).blk = x.blk := rfl

@[simp] theorem Channel.egStep_kcode (x : Channel) (p : FamilyParams) (t : BitVec 32) :
    (x.egStep p t).kcode = x.kcode := rfl

@[simp] theorem Channel.egStep_pms (x : Channel) (p : FamilyParams) (t : BitVec 32) :
    (x.egStep p t).pms = x.pms := rfl

@[simp] theorem Channel.egStep_ams (x : Channel) (p : FamilyParams) (t : BitVec 32) :
    (x.egStep p t).ams = x.ams := rfl

@[simp] theorem Channel.egStep_panL (x : Channel) (p : FamilyParams) (t : BitVec 32) :
    (x.egStep p t).panL = x.panL := rfl

@[simp] theorem Channel.egStep_panR (x : Channel) (p : FamilyParams) (t : BitVec 32) :
    (x.egStep p t).panR = x.panR := rfl

@[simp] theorem Channel.egStep_op1Out0 (x : Channel) (p : FamilyParams) (t : BitVec 32) :
    (x.egStep p t).op1Out0 = x.op1Out0 := rfl

@[simp] theorem Channel.egStep_op1Out1 (x : Channel) (p : FamilyParams) (t : BitVec 32) :
    (x.egStep p t).op1Out1 = x.op1Out1 := rfl

@[simp] theorem Channel.egStep_memValue (x : Channel) (p : FamilyParams) (t : BitVec 32) :
    (x.egStep p t).memValue = x.memValue := rfl

@[simp] theorem Channel.egStep_dirty (x : Channel) (p : FamilyParams) (t : BitVec 32) :
    (x.egStep p t).dirty = x.dirty := rfl

/-! ### Phase advance of an operator -/

@[simp] theorem Operator.advance_dt (x : Operator) (inc : Nat) :
    (x.advance inc).dt = x.dt := rfl

@[simp] theorem Operator.advance_mul (x : Operator) (inc : Nat) :
    (x.advance inc).mul = x.mul := rfl

@[simp] theorem Operator.advance_tl (x : Operator) (inc : Nat) :
    (x.advance inc).tl = x.tl := rfl

@[simp] theorem Operator.advance_ks (x : Operator) (inc : Nat) :
    (x.advance inc).ks = x.ks := rfl

@[simp] theorem Operator.advance_ar (x : Operator) (inc : Nat) :
    (x.advance inc).ar = x.ar := rfl

@[simp] theorem Operator.advance_am (x : Operator) (inc : Nat) :
    (x.advance inc).am = x.am := rfl

@[simp] theorem Operator.advance_d1r (x : Operator) (inc : Nat) :
    (x.advance inc).d1r = x.d1r := rfl

@[simp] theorem Operator.advance_d2r (x : Operator) (inc : Nat) :
    (x.advance inc).d2r = x.d2r := rfl

@[simp] theorem Operator.advance_sl (x : Operator) (inc : Nat) :
    (x.advance inc).sl = x.sl := rfl

@[simp] theorem Operator.advance_rr (x : Operator) (inc : Nat) :
    (x.advance inc).rr = x.rr := rfl

@[simp] theorem Operator.advance_ssg (x : Operator) (inc : Nat) :
    (x.advance inc).ssg = x.ssg := rfl

@[simp] theorem Operator.advance_phase (x : Operator) (inc : Nat) :
    (x.advance inc).phase = x.phase + BitVec.ofNat 20 inc := rfl

@[simp] theorem Operator.advance_incr (x : Operator) (inc : Nat) :
    (x.advance inc).incr = x.incr := rfl

@[simp] theorem Operator.advance_ksrVal (x : Operator) (inc : Nat) :
    (x.advance inc).ksrVal = x.ksrVal := rfl

@[simp] theorem Operator.advance_state (x : Operator) (inc : Nat) :
    (x.advance inc).state = x.state := rfl

@[simp] theorem Operator.advance_volume (x : Operator) (inc : Nat) :
    (x.advance inc).volume = x.volume := rfl

@[simp] theorem Operator.advance_volOut (x : Operator) (inc : Nat) :
    (x.advance inc).volOut = x.volOut := rfl

@[simp] theorem Operator.advance_key (x : Operator) (inc : Nat) :
    (x.advance inc).key = x.key := rfl

@[simp] theorem Operator.advance_ssgInv (x : Operator) (inc : Nat) :
    (x.advance inc).ssgInv = x.ssgInv := rfl

@[simp] theorem Operator.advance_ssgSwapped (x : Operator) (inc : Nat) :
    (x.advance inc).ssgSwapped = x.ssgSwapped := rfl

/-! ### Refresh of an operator -/

@[simp] theorem Operator.refresh_dt (x : Operator) (g : Config) (q : Freq) :
    (x.refresh g q).dt = x.dt := rfl

@[simp] theorem Operator.refresh_mul (x : Operator) (g : Config) (q : Freq) :
    (x.refresh g q).mul = x.mul := rfl

@[simp] theorem Operator.refresh_tl (x : Operator) (g : Config) (q : Freq) :
    (x.refresh g q).tl = x.tl := rfl

@[simp] theorem Operator.refresh_ks (x : Operator) (g : Config) (q : Freq) :
    (x.refresh g q).ks = x.ks := rfl

@[simp] theorem Operator.refresh_ar (x : Operator) (g : Config) (q : Freq) :
    (x.refresh g q).ar = x.ar := rfl

@[simp] theorem Operator.refresh_am (x : Operator) (g : Config) (q : Freq) :
    (x.refresh g q).am = x.am := rfl

@[simp] theorem Operator.refresh_d1r (x : Operator) (g : Config) (q : Freq) :
    (x.refresh g q).d1r = x.d1r := rfl

@[simp] theorem Operator.refresh_d2r (x : Operator) (g : Config) (q : Freq) :
    (x.refresh g q).d2r = x.d2r := rfl

@[simp] theorem Operator.refresh_sl (x : Operator) (g : Config) (q : Freq) :
    (x.refresh g q).sl = x.sl := rfl

@[simp] theorem Operator.refresh_rr (x : Operator) (g : Config) (q : Freq) :
    (x.refresh g q).rr = x.rr := rfl

@[simp] theorem Operator.refresh_ssg (x : Operator) (g : Config) (q : Freq) :
    (x.refresh g q).ssg = x.ssg := rfl

@[simp] theorem Operator.refresh_phase (x : Operator) (g : Config) (q : Freq) :
    (x.refresh g q).phase = x.phase := rfl

@[simp] theorem Operator.refresh_incr (x : Operator) (g : Config) (q : Freq) :
    (x.refresh g q).incr = x.increment g (q.base g) q.kc := rfl

@[simp] theorem Operator.refresh_ksrVal (x : Operator) (g : Config) (q : Freq) :
    (x.refresh g q).ksrVal = keyScale q.kc x.ks := rfl

@[simp] theorem Operator.refresh_state (x : Operator) (g : Config) (q : Freq) :
    (x.refresh g q).state = x.state := rfl

@[simp] theorem Operator.refresh_volume (x : Operator) (g : Config) (q : Freq) :
    (x.refresh g q).volume = x.volume := rfl

@[simp] theorem Operator.refresh_volOut (x : Operator) (g : Config) (q : Freq) :
    (x.refresh g q).volOut = x.volOut := rfl

@[simp] theorem Operator.refresh_key (x : Operator) (g : Config) (q : Freq) :
    (x.refresh g q).key = x.key := rfl

@[simp] theorem Operator.refresh_ssgInv (x : Operator) (g : Config) (q : Freq) :
    (x.refresh g q).ssgInv = x.ssgInv := rfl

@[simp] theorem Operator.refresh_ssgSwapped (x : Operator) (g : Config) (q : Freq) :
    (x.refresh g q).ssgSwapped = x.ssgSwapped := rfl

/-! ### A pending call -/

@[simp] theorem State.withCall_earlier (x : State) (call : Call) :
    (x.withCall call).earlier = x.earlier := rfl

@[simp] theorem State.withCall_self (x : State) (call : Call) :
    (x.withCall call).self = x.self := rfl

@[simp] theorem State.withCall_later (x : State) (call : Call) :
    (x.withCall call).later = x.later := rfl

@[simp] theorem State.withCall_params (x : State) (call : Call) :
    (x.withCall call).params = x.params := rfl

@[simp] theorem State.withCall_post (x : State) (call : Call) :
    (x.withCall call).post = x.post := rfl

@[simp] theorem State.withCall_pending (x : State) (call : Call) :
    (x.withCall call).pending = ⟨x.handle, call⟩ :: x.pending := rfl

@[simp] theorem State.withCall_result (x : State) (call : Call) :
    (x.withCall call).result = x.result := rfl

@[simp] theorem State.withCall_buf (x : State) (call : Call) :
    (x.withCall call).buf = x.buf := rfl

/-! ### Timer counters -/

@[simp] theorem Chip.setCount_fnH (x : Chip) (t : Timer) (v : Int) :
    (x.setCount t v).fnH = x.fnH := by cases t <;> rfl

@[simp] theorem Chip.setCount_sl3FnH (x : Chip) (t : Timer) (v : Int) :
    (x.setCount t v).sl3FnH = x.sl3FnH := by cases t <;> rfl

@[simp] theorem Chip.setCount_sl3k0 (x : Chip) (t : Timer) (v : Int) :
    (x.setCount t v).sl3k0 = x.sl3k0 := by cases t <;> rfl

@[simp] theorem Chip.setCount_sl3k1 (x : Chip) (t : Timer) (v : Int) :
    (x.setCount t v).sl3k1 = x.sl3k1 := by cases t <;> rfl

@[simp] theorem Chip.setCount_sl3k2 (x : Chip) (t : Timer) (v : Int) :
    (x.setCount t v).sl3k2 = x.sl3k2 := by cases t <;> rfl

@[simp] theorem Chip.setCount_mode (x : Chip) (t : Timer) (v : Int) :
    (x.setCount t v).mode = x.mode := by cases t <;> rfl

@[simp] theorem Chip.setCount_ta (x : Chip) (t : Timer) (v : Int) :
    (x.setCount t v).ta = x.ta := by cases t <;> rfl

@[simp] theorem Chip.setCount_tb (x : Chip) (t : Timer) (v : Int) :
    (x.setCount t v).tb = x.tb := by cases t <;> rfl

@[simp] theorem Chip.setCount_status (x : Chip) (t : Timer) (v : Int) :
    (x.setCount t v).status = x.status := by cases t <;> rfl

@[simp] theorem Chip.setCount_irq (x : Chip) (t : Timer) (v : Int) :
    (x.setCount t v).irq = x.irq := by cases t <;> rfl

@[simp] theorem Chip.setCount_egTimer (x : Chip) (t : Timer) (v : Int) :
    (x.setCount t v).egTimer = x.egTimer := by cases t <;> rfl

@[simp] theorem Chip.setCount_egCnt (x : Chip) (t : Timer) (v : Int) :
    (x.setCount t v).egCnt = x.egCnt := by cases t <;> rfl

@[simp] theorem Chip.setCount_lfoCnt (x : Chip) (t : Timer) (v : Int) :
    (x.setCount t v).lfoCnt = x.lfoCnt := by cases t <;> rfl

@[simp] theorem Chip.setCount_lfoInc (x : Chip) (t : Timer) (v : Int) :
    (x.setCount t v).lfoInc = x.lfoInc := by cases t <;> rfl

@[simp] theorem Chip.setCount_lfoAm (x : Chip) (t : Timer) (v : Int) :
    (x.setCount t v).lfoAm = x.lfoAm := by cases t <;> rfl

@[simp] theorem Chip.setCount_lfoPm (x : Chip) (t : Timer) (v : Int) :
    (x.setCount t v).lfoPm = x.lfoPm := by cases t <;> rfl

@[simp] theorem Chip.setCount_count (x : Chip) (t u : Timer) (v : Int) :
    (x.setCount t v).count u = if u = t then v else x.count u := by
  cases t <;> cases u <;> rfl

@[simp] theorem Chip.setCount_period (x : Chip) (t u : Timer) (v : Int) :
    (x.setCount t v).period u = x.period u := by
  cases t <;> cases u <;> rfl

@[simp] theorem Chip.setCount_a_taCnt (x : Chip) (v : Int) : (x.setCount .a v).taCnt = v := rfl

@[simp] theorem Chip.setCount_a_tbCnt (x : Chip) (v : Int) : (x.setCount .a v).tbCnt = x.tbCnt := rfl

@[simp] theorem Chip.setCount_b_taCnt (x : Chip) (v : Int) : (x.setCount .b v).taCnt = x.taCnt := rfl

@[simp] theorem Chip.setCount_b_tbCnt (x : Chip) (v : Int) : (x.setCount .b v).tbCnt = v := rfl

/-! ### 3-slot entries -/

@[simp] theorem Chip.setSl3_fnH (x : Chip) (k : Slot3) (v : Slot3Freq) :
    (x.setSl3 k v).fnH = x.fnH := by cases k <;> rfl

@[simp] theorem Chip.setSl3_sl3FnH (x : Chip) (k : Slot3) (v : Slot3Freq) :
    (x.setSl3 k v).sl3FnH = x.sl3FnH := by cases k <;> rfl

@[simp] theorem Chip.setSl3_mode (x : Chip) (k : Slot3) (v : Slot3Freq) :
    (x.setSl3 k v).mode = x.mode := by cases k <;> rfl

@[simp] theorem Chip.setSl3_ta (x : Chip) (k : Slot3) (v : Slot3Freq) :
    (x.setSl3 k v).ta = x.ta := by cases k <;> rfl

@[simp] theorem Chip.setSl3_tb (x : Chip) (k : Slot3) (v : Slot3Freq) :
    (x.setSl3 k v).tb = x.tb := by cases k <;> rfl

@[simp] theorem Chip.setSl3_taCnt (x : Chip) (k : Slot3) (v : Slot3Freq) :
    (x.setSl3 k v).taCnt = x.taCnt := by cases k <;> rfl

@[simp] theorem Chip.setSl3_tbCnt (x : Chip) (k : Slot3) (v : Slot3Freq) :
    (x.setSl3 k v).tbCnt = x.tbCnt := by cases k <;> rfl

@[simp] theorem Chip.setSl3_status (x : Chip) (k : Slot3) (v : Slot3Freq) :
    (x.setSl3 k v).status = x.status := by cases k <;> rfl

@[simp] theorem Chip.setSl3_irq (x : Chip) (k : Slot3) (v : Slot3Freq) :
    (x.setSl3 k v).irq = x.irq := by cases k <;> rfl

@[simp] theorem Chip.setSl3_egTimer (x : Chip) (k : Slot3) (v : Slot3Freq) :
    (x.setSl3 k v).egTimer = x.egTimer := by cases k <;> rfl

@[simp] theorem Chip.setSl3_egCnt (x : Chip) (k : Slot3) (v : Slot3Freq) :
    (x.setSl3 k v).egCnt = x.egCnt := by cases k <;> rfl

@[simp] theorem Chip.setSl3_lfoCnt (x : Chip) (k : Slot3) (v : Slot3Freq) :
    (x.setSl3 k v).lfoCnt = x.lfoCnt := by cases k <;> rfl

@[simp] theorem Chip.setSl3_lfoInc (x : Chip) (k : Slot3) (v : Slot3Freq) :
    (x.setSl3 k v).lfoInc = x.lfoInc := by cases k <;> rfl

@[simp] theorem Chip.setSl3_lfoAm (x : Chip) (k : Slot3) (v : Slot3Freq) :
    (x.setSl3 k v).lfoAm = x.lfoAm := by cases k <;> rfl

@[simp] theorem Chip.setSl3_lfoPm (x : Chip) (k : Slot3) (v : Slot3Freq) :
    (x.setSl3 k v).lfoPm = x.lfoPm := by cases k <;> rfl

@[simp] theorem Chip.setSl3_sl3 (x : Chip) (k e : Slot3) (v : Slot3Freq) :
    (x.setSl3 k v).sl3 e = if e = k then v else x.sl3 e := by
  cases k <;> cases e <;> rfl

/-! ### The LFO changes only its own fields -/

@[simp] theorem Chip.lfoAdvance_fnH (x : Chip) : x.lfoAdvance.fnH = x.fnH := by
  unfold Chip.lfoAdvance; split <;> rfl

@[simp] theorem Chip.lfoAdvance_sl3FnH (x : Chip) : x.lfoAdvance.sl3FnH = x.sl3FnH := by
  unfold Chip.lfoAdvance; split <;> rfl

@[simp] theorem Chip.lfoAdvance_sl3k0 (x : Chip) : x.lfoAdvance.sl3k0 = x.sl3k0 := by
  unfold Chip.lfoAdvance; split <;> rfl

@[simp] theorem Chip.lfoAdvance_sl3k1 (x : Chip) : x.lfoAdvance.sl3k1 = x.sl3k1 := by
  unfold Chip.lfoAdvance; split <;> rfl

@[simp] theorem Chip.lfoAdvance_sl3k2 (x : Chip) : x.lfoAdvance.sl3k2 = x.sl3k2 := by
  unfold Chip.lfoAdvance; split <;> rfl

@[simp] theorem Chip.lfoAdvance_mode (x : Chip) : x.lfoAdvance.mode = x.mode := by
  unfold Chip.lfoAdvance; split <;> rfl

@[simp] theorem Chip.lfoAdvance_ta (x : Chip) : x.lfoAdvance.ta = x.ta := by
  unfold Chip.lfoAdvance; split <;> rfl

@[simp] theorem Chip.lfoAdvance_tb (x : Chip) : x.lfoAdvance.tb = x.tb := by
  unfold Chip.lfoAdvance; split <;> rfl

@[simp] theorem Chip.lfoAdvance_taCnt (x : Chip) : x.lfoAdvance.taCnt = x.taCnt := by
  unfold Chip.lfoAdvance; split <;> rfl

@[simp] theorem Chip.lfoAdvance_tbCnt (x : Chip) : x.lfoAdvance.tbCnt = x.tbCnt := by
  unfold Chip.lfoAdvance; split <;> rfl

@[simp] theorem Chip.lfoAdvance_status (x : Chip) : x.lfoAdvance.status = x.status := by
  unfold Chip.lfoAdvance; split <;> rfl

@[simp] theorem Chip.lfoAdvance_irq (x : Chip) : x.lfoAdvance.irq = x.irq := by
  unfold Chip.lfoAdvance; split <;> rfl

@[simp] theorem Chip.lfoAdvance_egTimer (x : Chip) : x.lfoAdvance.egTimer = x.egTimer := by
  unfold Chip.lfoAdvance; split <;> rfl

@[simp] theorem Chip.lfoAdvance_egCnt (x : Chip) : x.lfoAdvance.egCnt = x.egCnt := by
  unfold Chip.lfoAdvance; split <;> rfl

@[simp] theorem Chip.lfoAdvance_lfoInc (x : Chip) : x.lfoAdvance.lfoInc = x.lfoInc := by
  unfold Chip.lfoAdvance; split <;> rfl

end Sys2Proof.Machine
end

