-- ==== Sys2Proof/Laws/Containers.lean ====
section
/-! SUPPORT. Reading a channel or an operator after an update of one of them, and after a function of all of them. -/

namespace Sys2Proof.Machine

@[simp] theorem Six.get_set {α : Type} (x : Six α) (c d : Chan) (a : α) :
    (x.set c a).get d = if d = c then a else x.get d := by
  cases c <;> cases d <;> rfl

@[simp] theorem Six.get_tabulate {α : Type} (f : Chan → α) (c : Chan) : (Six.tabulate f).get c = f c := by
  cases c <;> rfl

@[simp] theorem Six.get_fill {α : Type} (a : α) (c : Chan) : (Six.fill a).get c = a := by
  cases c <;> rfl

/-- Six things are known by their components. -/
theorem Six.ext_get {α : Type} {x y : Six α} (h : ∀ c, x.get c = y.get c) : x = y := by
  cases x; cases y
  simp only [Six.mk.injEq]
  exact ⟨h .ch0, h .ch1, h .ch2, h .ch3, h .ch4, h .ch5⟩

@[simp] theorem Quad.get_set {α : Type} (x : Quad α) (n m : OpNum) (a : α) :
    (x.set n a).get m = if m = n then a else x.get m := by
  cases n <;> cases m <;> rfl

@[simp] theorem Quad.get_tabulate {α : Type} (f : OpNum → α) (n : OpNum) : (Quad.tabulate f).get n = f n := by
  cases n <;> rfl

@[simp] theorem Quad.get_fill {α : Type} (a : α) (n : OpNum) : (Quad.fill a).get n = a := by
  cases n <;> rfl

/-- Four things are known by their components. -/
theorem Quad.ext_get {α : Type} {x y : Quad α} (h : ∀ n, x.get n = y.get n) : x = y := by
  cases x; cases y
  simp only [Quad.mk.injEq]
  exact ⟨h .op1, h .op2, h .op3, h .op4⟩

/-! ### Channels and operators of an instance -/

@[simp] theorem Instance.ch_updCh (x : Instance) (c d : Chan) (f : Channel → Channel) :
    (x.updCh c f).ch d = if d = c then f (x.ch c) else x.ch d := by
  simp [Instance.ch]

@[simp] theorem Instance.ch_mapLive (x : Instance) (f : Chan → Channel → Channel) (c : Chan) :
    (x.mapLive f).ch c = if x.live c then f c (x.ch c) else x.ch c := by
  simp [Instance.ch]

@[simp] theorem Instance.ch_store (x : Instance) (a : BitVec 9) (data : Byte) (c : Chan) :
    (x.store a data).ch c = x.ch c := rfl

@[simp] theorem Instance.ch_emit (x : Instance) (e : Event) (c : Chan) : (x.emit e).ch c = x.ch c := rfl

@[simp] theorem Instance.ch_lfoAdvance (x : Instance) (c : Chan) : x.lfoAdvance.ch c = x.ch c := rfl

/-- Reading operator `m` of channel `d` after operator `n` of channel `c` was changed. -/
theorem Instance.op_updOp (x : Instance) (c d : Chan) (n m : OpNum) (f : Operator → Operator) :
    (x.updOp c n f).op d m = if d = c ∧ m = n then f (x.op c n) else x.op d m := by
  unfold Instance.op Instance.updOp
  rw [Instance.ch_updCh]
  by_cases hd : d = c
  · subst hd; by_cases hm : m = n <;> simp [hm]
  · simp [hd]

@[simp] theorem Instance.updOp_chip (x : Instance) (c : Chan) (n : OpNum) (f : Operator → Operator) :
    (x.updOp c n f).chip = x.chip := rfl

@[simp] theorem Instance.updOp_cfg (x : Instance) (c : Chan) (n : OpNum) (f : Operator → Operator) :
    (x.updOp c n f).cfg = x.cfg := rfl

@[simp] theorem Instance.updOp_reg (x : Instance) (c : Chan) (n : OpNum) (f : Operator → Operator) :
    (x.updOp c n f).reg = x.reg := rfl

@[simp] theorem Instance.updOp_events (x : Instance) (c : Chan) (n : OpNum) (f : Operator → Operator) :
    (x.updOp c n f).events = x.events := rfl

/-- An instance is known by its fields and its channels one by one. -/
theorem Instance.ext_ch {x y : Instance} (hcfg : x.cfg = y.cfg) (hch : ∀ c, x.ch c = y.ch c) (hchip : x.chip = y.chip)
    (hreg : x.reg = y.reg) (hev : x.events = y.events) (hl : x.postL = y.postL) (hr : x.postR = y.postR) : x = y := by
  cases x; cases y
  simp only [Instance.mk.injEq]
  exact ⟨hcfg, Six.ext_get hch, hchip, hreg, hev, hl, hr⟩

end Sys2Proof.Machine
end

