-- ==== Sys2Proof/Laws/Decode.lean ====
section
/-! SUPPORT. The decoder and the encoder: decoding looks at the address only, and every address decodes to a well-formed
instruction that encodes to it. -/

namespace Sys2Proof
/-- A register write with another data byte. -/
def Instr.withData (i : Instr) (data : Byte) : Instr :=
  match i with
  | .lfoCtrl _ => .lfoCtrl data
  | .timerAHi _ => .timerAHi data
  | .timerALo _ => .timerALo data
  | .timerB _ => .timerB data
  | .modeTimer _ => .modeTimer data
  | .keyOnOff _ => .keyOnOff data
  | .dtMul c n _ => .dtMul c n data
  | .tl c n _ => .tl c n data
  | .ksAr c n _ => .ksAr c n data
  | .amD1r c n _ => .amD1r c n data
  | .d2r c n _ => .d2r c n data
  | .slRr c n _ => .slRr c n data
  | .ssgEg c n _ => .ssgEg c n data
  | .fnumLo c _ => .fnumLo c data
  | .fnumHiBlk c _ => .fnumHiBlk c data
  | .sl3FnumLo k _ => .sl3FnumLo k data
  | .sl3FnumHiBlk k _ => .sl3FnumHiBlk k data
  | .fbAlgo c _ => .fbAlgo c data
  | .panAmsPms c _ => .panAmsPms c data
  | .ignored bank addr _ => .ignored bank addr data
  | i => i

/-- Decoding looks at the address only; the data byte is carried over. -/
theorem decodeRegister_withData (pan bank : Bool) (addr data : Byte) :
    decodeRegister pan bank addr data = (decodeRegister pan bank addr 0).withData data := by
  unfold decodeRegister
  split
  · split
    · rfl
    · unfold decodeGlobal; split <;> (try split) <;> rfl
  · split
    · rfl
    · split
      · unfold decodeOperator; split <;> rfl
      · unfold decodeChannel decodeSlot3; split <;> (try split) <;> (try split) <;> rfl

/-- The command word of an address and a byte in range is the two side by side. -/
theorem commandWord_natCast (x : BitVec 9) (d : Byte) : commandWord x.toNat d.toNat = x ++ d := by
  unfold commandWord
  congr 1 <;> simp [BitVec.ofInt_natCast]

/-- A claim about every bit vector of a width is one about its values. -/
theorem bitVec_forall {w : Nat} {P : BitVec w → Prop} (h : ∀ n : Fin (2 ^ w), P (BitVec.ofFin n)) (a : BitVec w) : P a :=
  h a.toFin

set_option maxRecDepth 10000 in
/-- Every address decodes to a well-formed instruction that encodes to it. -/
theorem decodeRegister_address (six pan bank : Bool) (addr : Byte) (h : bank = true → six = true) :
    (decodeRegister pan bank addr 0).wf six pan = true ∧
    (decodeRegister pan bank addr 0).addressData = some (BitVec.ofBool bank ++ addr, 0) := by
  revert addr
  refine bitVec_forall ?_
  revert six pan bank
  decide +kernel
end Sys2Proof
end

