-- ==== Sys2Proof/Laws/Envelope.lean ====
section
/-! SUPPORT. What the envelope's shared operations can do, one lemma each. -/

namespace Sys2Proof.Machine

@[simp] theorem EgState.pastRel_off : EgState.off.pastRel = false := rfl
@[simp] theorem EgState.pastRel_rel : EgState.rel.pastRel = false := rfl
@[simp] theorem EgState.pastRel_sus : EgState.sus.pastRel = true := rfl
@[simp] theorem EgState.pastRel_dec : EgState.dec.pastRel = true := rfl
@[simp] theorem EgState.pastRel_att : EgState.att.pastRel = true := rfl

/-- A raised volume is clamped at 1023 and, within the range, not lowered. -/
theorem raise_bounds (v amount : Nat) (h : v ≤ 1023) : v ≤ raise v amount ∧ raise v amount ≤ 1023 := by
  unfold raise; omega

/-- A shifted integer that is not positive is not positive. -/
theorem asr_nonpos (a : Int) (n : Nat) (h : a ≤ 0) : asr a n ≤ 0 := by
  unfold asr
  exact Int.ediv_nonpos_of_nonpos_of_neg h (by positivity)

/-- A key-on of an operator whose key is held changes nothing (44_envelope.md R278). -/
theorem Operator.keyOn_held (p : FamilyParams) (o : Operator) (h : o.key = true) : o.keyOn p = o := by
  simp [Operator.keyOn, h]

/-- A key-on of an operator whose key is not held: the attack shortcut or the attack (44_envelope.md R278). -/
theorem Operator.keyOn_cases (p : FamilyParams) (o : Operator) (h : o.key = false) :
    ((p.attackShortcut = true ∧ 94 ≤ o.index .att) ∧ o.keyOn p =
        { o with key := true, phase := 0, ssgInv := o.ssgAttack, ssgSwapped := false, volume := 0, state := .dec })
      ∨ (¬ (p.attackShortcut = true ∧ 94 ≤ o.index .att) ∧ o.keyOn p =
        { o with key := true, phase := 0, ssgInv := o.ssgAttack, ssgSwapped := false, state := .att }) := by
  unfold Operator.keyOn attackInfinite
  simp only [h, Bool.false_eq_true, if_false, Bool.and_eq_true, decide_eq_true_eq]
  split
  · exact .inl ⟨by assumption, rfl⟩
  · exact .inr ⟨by assumption, rfl⟩

/-- A key-off of an operator whose key is not held changes nothing (44_envelope.md R279). -/
theorem Operator.keyOff_free (o : Operator) (h : o.key = false) : o.keyOff = o := by
  simp [Operator.keyOff, h]

/-- A key-off of an operator whose key is held (44_envelope.md R279). -/
theorem Operator.keyOff_held (o : Operator) (h : o.key = true) :
    o.keyOff = { o with key := false, state := if o.state.pastRel then .rel else o.state } := by
  simp [Operator.keyOff, h]

/-- The attack step: nothing, a lower volume that is still positive, or the end of the attack (44_envelope.md R281,
R282). -/
theorem Operator.attackStep_cases (p : FamilyParams) (t : BitVec 32) (o : Operator) :
    (o.attackStep p t = { o with volume := 0, state := .dec })
      ∨ (o.attackStep p t = o)
      ∨ (o.index .att < 94 ∧ ∃ v : Nat, 0 < v ∧ v ≤ o.volume ∧ o.attackStep p t = { o with volume := v }) := by
  unfold Operator.attackStep attackInfinite
  dsimp only
  split
  · exact .inl rfl
  · rename_i hi
    split
    · split
      · exact .inl rfl
      · rename_i hv
        have hle := asr_nonpos (-(o.volume + 1 : Int) * egIncrement p (o.index .att) t) 4
          (Int.mul_nonpos_of_nonpos_of_nonneg (by omega) (by omega))
        exact .inr (.inr ⟨by omega, _, by omega, by omega, rfl⟩)
    · exact .inr (.inl rfl)

/-- The decay step changes only the volume, never down, and the state, to SUS or not at all (44_envelope.md R283). -/
theorem Operator.decayStep_cases (p : FamilyParams) (t : BitVec 32) (o : Operator) (h : o.volume ≤ 1023) :
    ∃ v s, o.volume ≤ v ∧ v ≤ 1023 ∧ (s = .sus ∨ s = .dec) ∧ (s = .sus ↔ slAtt o.sl ≤ v)
      ∧ o.decayStep p t = { o with volume := v, state := s } := by
  unfold Operator.decayStep
  dsimp only
  generalize (if o.ssgOn then ssgMulValue p else 1) * egIncrement p (o.index .dec) t = amount
  have hr := raise_bounds o.volume amount h
  generalize hv : (if egGate (o.index .dec) t then raise o.volume amount else o.volume) = v
  refine ⟨v, _, ?_, ?_, ?_, ?_, rfl⟩
  · rw [← hv]; split <;> omega
  · rw [← hv]; split <;> omega
  · by_cases hs : slAtt o.sl ≤ v <;> simp [hs]
  · by_cases hs : slAtt o.sl ≤ v <;> simp [hs]

/-- The sustain step with SSG-EG off changes only the volume, never down (44_envelope.md R284). -/
theorem Operator.sustainStep_cases (p : FamilyParams) (t : BitVec 32) (o : Operator) (h : o.volume ≤ 1023) :
    ∃ v, o.volume ≤ v ∧ v ≤ 1023 ∧ o.sustainStep p t = { o with volume := v } := by
  have hr := raise_bounds o.volume (egIncrement p (o.index .sus) t) h
  unfold Operator.sustainStep
  dsimp only
  split
  · exact ⟨_, hr.1, hr.2, rfl⟩
  · exact ⟨o.volume, le_refl _, h, rfl⟩

/-- The SSG event: the hold at 1023 in the same state, or the loop with the volume kept (44_envelope.md R286). -/
theorem Operator.ssgEvent_cases (o : Operator) :
    (o.ssgHold = true ∧ ∃ inv, o.ssgEvent = { o with ssgInv := inv, ssgSwapped := true, volume := 1023 })
      ∨ (o.ssgHold = false ∧ ∃ inv, o.ssgEvent =
          { o with phase := 0, ssgInv := inv, state := if o.sl = 0 then .sus else .att }) := by
  unfold Operator.ssgEvent
  split
  · exact .inl ⟨by assumption, _, rfl⟩
  · exact .inr ⟨by simp_all, _, rfl⟩

/-- The sustain step with SSG-EG on: a higher volume below the threshold, or the SSG event at or above it
(44_envelope.md R285). -/
theorem Operator.sustainSsgStep_cases (p : FamilyParams) (t : BitVec 32) (o : Operator) (h : o.volume ≤ 1023) :
    ∃ v, o.volume ≤ v ∧ v ≤ 1023
      ∧ ((v < 832 ∧ o.sustainSsgStep p t = { o with volume := v })
        ∨ (832 ≤ v ∧ o.sustainSsgStep p t = { o with volume := v }.ssgEvent)) := by
  have hr := raise_bounds o.volume (ssgMulValue p * egIncrement p (o.index .sus) t) h
  refine ⟨if egGate (o.index .sus) t then raise o.volume (ssgMulValue p * egIncrement p (o.index .sus) t)
    else o.volume, by split <;> omega, by split <;> omega, ?_⟩
  unfold Operator.sustainSsgStep ssgQuiet
  dsimp only
  by_cases hv : 832 ≤ (if egGate (o.index .sus) t then
      raise o.volume (ssgMulValue p * egIncrement p (o.index .sus) t) else o.volume)
  · exact .inr ⟨hv, if_pos hv⟩
  · exact .inl ⟨by omega, if_neg hv⟩

/-- The release step changes only the volume, never down, and the state, to OFF exactly at 1023 (44_envelope.md
R288). -/
theorem Operator.releaseStep_cases (p : FamilyParams) (t : BitVec 32) (o : Operator) (h : o.volume ≤ 1023) :
    o.releaseStep p t = o
      ∨ ∃ v, o.volume ≤ v ∧ v ≤ 1023
        ∧ o.releaseStep p t = { o with volume := v, state := if v = 1023 then .off else .rel } := by
  have hr := raise_bounds o.volume (relMulValue p o.ssgOn * egIncrement p (o.index .rel) t) h
  unfold Operator.releaseStep
  dsimp only
  split
  · refine .inr ⟨_, hr.1, hr.2, ?_⟩
    have : (1023 ≤ raise o.volume (relMulValue p o.ssgOn * egIncrement p (o.index .rel) t))
        ↔ (raise o.volume (relMulValue p o.ssgOn * egIncrement p (o.index .rel) t) = 1023) := by omega
    simp only [this]
  · exact .inl rfl

/-- The output attenuation of a volume in range is at most 2039 (44_envelope.md R291). -/
theorem Operator.attenuation_le (o : Operator) (h : o.volume ≤ 1023) : o.attenuation ≤ 2039 := by
  have hx : o.volume ^^^ 0x3FF ≤ 1023 :=
    Nat.lt_succ_iff.mp (Nat.xor_lt_two_pow (n := 10) (by omega) (by omega))
  have ht := o.tl.isLt
  unfold Operator.attenuation
  split <;> omega

/-- The branch of a state changes only the phase, the state, the volume and the SSG flags (44_envelope.md R280 to
R289). -/
theorem Operator.egBranch_form (p : FamilyParams) (t : BitVec 32) (o : Operator) :
    ∃ ph s v inv sw, o.egBranch p t =
      { o with phase := ph, state := s, volume := v, ssgInv := inv, ssgSwapped := sw } := by
  unfold Operator.egBranch
  split
  · rcases o.attackStep_cases p t with h | h | ⟨_, _, _, _, h⟩ <;> rw [h] <;> exact ⟨_, _, _, _, _, rfl⟩
  · exact ⟨_, _, _, _, _, rfl⟩
  · split
    · unfold Operator.sustainSsgStep
      dsimp only
      generalize (if egGate (o.index .sus) t then _ else o.volume) = v
      split
      · rcases Operator.ssgEvent_cases { o with volume := v } with ⟨_, inv, h⟩ | ⟨_, inv, h⟩ <;> rw [h]
        · exact ⟨_, _, _, _, _, rfl⟩
        · exact ⟨_, _, _, _, _, rfl⟩
      · exact ⟨_, _, _, _, _, rfl⟩
    · unfold Operator.sustainStep
      dsimp only
      split <;> exact ⟨_, _, _, _, _, rfl⟩
  · unfold Operator.releaseStep
    dsimp only
    split <;> exact ⟨_, _, _, _, _, rfl⟩
  · exact ⟨_, _, _, _, _, rfl⟩

/-- An EG step changes no register field, key, increment or key scale (44_envelope.md R280 to R291). -/
theorem Operator.egStep_form (p : FamilyParams) (t : BitVec 32) (o : Operator) :
    ∃ ph s v out inv sw, o.egStep p t =
      { o with phase := ph, state := s, volume := v, volOut := out, ssgInv := inv, ssgSwapped := sw } := by
  obtain ⟨ph, s, v, inv, sw, h⟩ := o.egBranch_form p t
  exact ⟨ph, s, v, (o.egBranch p t).attenuation, inv, sw, by unfold Operator.egStep; simp [h]⟩

end Sys2Proof.Machine
end

