-- ==== Sys2Proof/Laws/Memory.lean ====
section
/-! SUPPORT. The register shadow: a read after a write, and the canonical form that every write keeps. -/

namespace Sys2Proof.Machine

@[simp] theorem Memory.read_nil (n : Nat) : Memory.read [] n = 0 := rfl

/-- In a shadow whose cells start at `lo`, nothing stands below `lo`. -/
theorem Memory.read_below {m : Memory} {lo n : Nat} (h : Memory.wfFrom lo m = true) (hn : n < lo) :
    m.read n = 0 := by
  induction m generalizing lo with
  | nil => rfl
  | cons c m ih =>
    obtain ⟨a, b⟩ := c
    simp only [Memory.wfFrom, Bool.and_eq_true, decide_eq_true_eq, bne_iff_ne] at h
    have hne : n ≠ a := by omega
    simp only [Memory.read, hne, if_false]
    exact ih h.2 (by omega)

/-- A canonical form that starts at `lo` starts anywhere before. -/
theorem Memory.wfFrom_mono {m : Memory} {lo lo' : Nat} (h : Memory.wfFrom lo m = true) (hl : lo' ≤ lo) :
    Memory.wfFrom lo' m = true := by
  cases m with
  | nil => rfl
  | cons c m =>
    simp only [Memory.wfFrom, Bool.and_eq_true, decide_eq_true_eq] at h ⊢
    exact ⟨⟨by omega, h.1.2⟩, h.2⟩

/-- A write at or above `lo` keeps the canonical form from `lo` on. -/
theorem Memory.write_wfFrom {m : Memory} {lo x : Nat} {v : Byte} (h : Memory.wfFrom lo m = true) (hx : lo ≤ x) :
    Memory.wfFrom lo (m.write x v) = true := by
  induction m generalizing lo with
  | nil => unfold Memory.write; split <;> simp_all [Memory.wfFrom]
  | cons c m ih =>
    obtain ⟨a, b⟩ := c
    simp only [Memory.wfFrom, Bool.and_eq_true, decide_eq_true_eq, bne_iff_ne] at h
    unfold Memory.write
    split
    · split
      · simp [Memory.wfFrom, h]
      · simp only [Memory.wfFrom, Bool.and_eq_true, decide_eq_true_eq, bne_iff_ne]
        exact ⟨⟨hx, by assumption⟩, ⟨by omega, h.1.2⟩, h.2⟩
    · split
      · split
        · exact Memory.wfFrom_mono h.2 (by omega)
        · subst_vars
          simp only [Memory.wfFrom, Bool.and_eq_true, decide_eq_true_eq, bne_iff_ne]
          exact ⟨⟨hx, by assumption⟩, h.2⟩
      · simp only [Memory.wfFrom, Bool.and_eq_true, decide_eq_true_eq, bne_iff_ne]
        exact ⟨h.1, ih h.2 (by omega)⟩

/-- Every write keeps the canonical form. -/
theorem Memory.write_wf {m : Memory} {x : Nat} {v : Byte} (h : m.wf = true) : (m.write x v).wf = true :=
  Memory.write_wfFrom h (Nat.zero_le x)

/-- A read after a write, in a shadow whose cells start at `lo`. -/
theorem Memory.read_write_from {m : Memory} {lo x n : Nat} {v : Byte} (h : Memory.wfFrom lo m = true) :
    (m.write x v).read n = if n = x then v else m.read n := by
  induction m generalizing lo with
  | nil =>
    unfold Memory.write
    split
    · by_cases hn : n = x <;> simp_all [Memory.unlisted]
    · by_cases hn : n = x <;> simp [Memory.read, Memory.unlisted, hn]
  | cons c m ih =>
    obtain ⟨a, b⟩ := c
    have hw := h
    simp only [Memory.wfFrom, Bool.and_eq_true, decide_eq_true_eq, bne_iff_ne] at h
    unfold Memory.write
    by_cases hxa : x < a
    · by_cases hv : v = Memory.unlisted
      · simp only [hxa, hv, if_true]
        by_cases hn : n = x
        · subst hn
          rw [if_pos rfl]
          exact Memory.read_below (lo := a) (by simp [Memory.wfFrom, h]) hxa
        · simp [hn]
      · by_cases hn : n = x
        · simp [hxa, hv, Memory.read, hn]
        · simp [hxa, hv, Memory.read, hn]
    · by_cases hxe : x = a
      · subst hxe
        by_cases hv : v = Memory.unlisted
        · by_cases hn : n = x
          · subst hn
            simp only [hv, lt_irrefl, if_false, if_true]
            exact Memory.read_below h.2 (by omega)
          · simp [hv, Memory.read, hn]
        · by_cases hn : n = x <;> simp [hv, Memory.read, hn]
      · simp only [hxa, hxe, if_false, Memory.read]
        rw [ih h.2]
        by_cases hna : n = a
        · subst hna
          have : n ≠ x := fun e => hxe e.symm
          simp [this]
        · simp [hna]

/-- A read after a write: the written byte at its address, every other byte as before. -/
theorem Memory.read_write {m : Memory} {x n : Nat} {v : Byte} (h : m.wf = true) :
    (m.write x v).read n = if n = x then v else m.read n :=
  Memory.read_write_from h

/-- Canonical shadows that read the same from `lo` on are the same list. -/
theorem Memory.eq_of_read {m k : Memory} {lo : Nat} (hm : Memory.wfFrom lo m = true) (hk : Memory.wfFrom lo k = true)
    (h : ∀ n, m.read n = k.read n) : m = k := by
  induction m generalizing lo k with
  | nil =>
    cases k with
    | nil => rfl
    | cons c k =>
      obtain ⟨a, b⟩ := c
      simp only [Memory.wfFrom, Bool.and_eq_true, decide_eq_true_eq, bne_iff_ne] at hk
      have := h a
      simp only [Memory.read, if_true] at this
      exact absurd this.symm hk.1.2
  | cons c m ih =>
    obtain ⟨a, b⟩ := c
    cases k with
    | nil =>
      simp only [Memory.wfFrom, Bool.and_eq_true, decide_eq_true_eq, bne_iff_ne] at hm
      have := h a
      simp only [Memory.read, if_true] at this
      exact absurd this hm.1.2
    | cons d k =>
      obtain ⟨a', b'⟩ := d
      have hm' := hm
      have hk' := hk
      simp only [Memory.wfFrom, Bool.and_eq_true, decide_eq_true_eq, bne_iff_ne] at hm hk
      have haa : a = a' := by
        rcases Nat.lt_trichotomy a a' with hlt | heq | hgt
        · have h1 := h a
          rw [Memory.read_below (m := (a', b') :: k) (lo := a') (by simp [Memory.wfFrom, hk]) hlt] at h1
          simp only [Memory.read, if_true] at h1
          exact absurd h1 hm.1.2
        · exact heq
        · have h1 := h a'
          rw [Memory.read_below (m := (a, b) :: m) (lo := a) (by simp [Memory.wfFrom, hm]) hgt] at h1
          simp only [Memory.read, if_true] at h1
          exact absurd h1.symm hk.1.2
      subst haa
      have hb : b = b' := by simpa [Memory.read] using h a
      subst hb
      congr 1
      refine ih hm.2 hk.2 fun n => ?_
      by_cases hn : n = a
      · subst hn
        rw [Memory.read_below hm.2 (by omega), Memory.read_below hk.2 (by omega)]
      · simpa [Memory.read, hn] using h n

/-- The shadow after reset is in canonical form. -/
theorem regAfterReset_wf (f : Family) : (regAfterReset f).wf = true := by
  cases f <;> decide

end Sys2Proof.Machine
end

