-- ==== Sys2Proof/Laws/Timers.lean ====
section
/-! SUPPORT. What the flag, IRQ and timer operations do, one equation each. -/

namespace Sys2Proof.Machine

/-- `IrqUpdate()` makes the reported level the level of the status and emits the event of a transition
(60_exceptions.md R421). -/
theorem Instance.irqUpdate_eq (x : Instance) :
    x.irqUpdate = { x with
      chip := { x.chip with irq := x.chip.level }
      events := x.events ++ transition x.chip.irq x.chip.level } := by
  unfold Instance.irqUpdate transition
  by_cases h : x.chip.level = x.chip.irq
  · rw [if_pos h, if_pos h, h, List.append_nil]
  · rw [if_neg h, if_neg h]

/-- Setting a flag (60_exceptions.md R431, R432). -/
theorem Instance.setFlag_eq (x : Instance) (t : Timer) :
    x.setFlag t = { x with
      chip := { x.chip with
        status := x.chip.status ||| flagBit t
        irq := (x.chip.status ||| flagBit t) &&& irqMask != 0 }
      events := x.events ++ transition x.chip.irq ((x.chip.status ||| flagBit t) &&& irqMask != 0) } := by
  unfold Instance.setFlag
  rw [Instance.irqUpdate_eq]
  rfl

/-- Clearing a flag (41_global_regs.md R184). -/
theorem Instance.clearFlag_eq (x : Instance) (t : Timer) :
    x.clearFlag t = { x with
      chip := { x.chip with
        status := x.chip.status &&& ~~~flagBit t
        irq := (x.chip.status &&& ~~~flagBit t) &&& irqMask != 0 }
      events := x.events ++ transition x.chip.irq ((x.chip.status &&& ~~~flagBit t) &&& irqMask != 0) } := by
  unfold Instance.clearFlag
  rw [Instance.irqUpdate_eq]
  rfl

@[simp] theorem transition_self (b : Bool) : transition b b = [] := by
  simp [transition]

/-- Two transitions of which one changes nothing are one. -/
theorem transition_append (a b c : Bool) (h : b = a ∨ b = c) : transition a b ++ transition b c = transition a c := by
  rcases h with rfl | rfl <;> simp

/-- The level after some status bits are cleared: it does not rise. -/
theorem level_and (b m : Byte) : ((b &&& m) &&& irqMask != 0) = true → (b &&& irqMask != 0) = true := by
  intro h
  by_contra hc
  have hz : b &&& irqMask = 0 := by simpa using hc
  have : (b &&& m) &&& irqMask = 0 := by
    rw [BitVec.and_assoc, BitVec.and_comm m, ← BitVec.and_assoc, hz]; simp
  simp [this] at h

/-- The mask of a flag reset: the timer's bit cleared, or nothing (41_global_regs.md R184). -/
def resetMask (data : Byte) (t : Timer) : Byte :=
  if resetField data t then ~~~flagBit t else 0xFF

/-- A flag reset where the reported level is the level of the status (41_global_regs.md R184). -/
theorem Instance.resetFlag_eq (x : Instance) (t : Timer) (data : Byte) (h : x.chip.irq = x.chip.level) :
    x.resetFlag t data = { x with
      chip := { x.chip with
        status := x.chip.status &&& resetMask data t
        irq := (x.chip.status &&& resetMask data t) &&& irqMask != 0 }
      events := x.events ++ transition x.chip.irq ((x.chip.status &&& resetMask data t) &&& irqMask != 0) } := by
  unfold Instance.resetFlag resetMask
  split
  · rw [Instance.clearFlag_eq]
  · have hs : x.chip.status &&& (0xFF : Byte) = x.chip.status := BitVec.and_allOnes
    have hl : (x.chip.status &&& irqMask != 0) = x.chip.irq := h.symm
    rw [hs, hl, transition_self, List.append_nil]

@[simp] theorem Chip.setCount_self (k : Chip) (t : Timer) : k.setCount t (k.count t) = k := by
  cases t <;> rfl

/-- A load bit changes the timer's counter and the events, nothing else (41_global_regs.md R184). -/
theorem Instance.loadTimer_eq (x : Instance) (t : Timer) (load : Bool) :
    x.loadTimer t load = { x with
      chip := x.chip.setCount t (loadedCount load (x.chip.count t) (x.chip.period t))
      events := x.events ++ loadEvents t load (x.chip.count t) (x.chip.period t) } := by
  unfold Instance.loadTimer loadedCount loadEvents Instance.emit
  cases load
  · by_cases h : x.chip.count t = 0
    · have hs : x.chip.setCount t 0 = x.chip := by rw [← h]; simp
      simp [h, hs]
    · simp [h]
  · by_cases h : x.chip.count t = 0
    · simp [h, Chip.periodUnits]
    · simp [h]

/-- The reload leaves a running counter (60_exceptions.md R431, R432). -/
theorem reloaded_pos (cnt period : Int) (h : 0 < period) : 0 < reloaded cnt period := by
  unfold reloaded; split <;> omega

/-- A timer's period is at least one tick (10_state.md R52). -/
theorem Chip.period_pos (k : Chip) (t : Timer) : 0 < k.period t := by
  cases t
  · have := k.ta.isLt; simp only [Chip.period]; omega
  · have := k.tb.isLt; simp only [Chip.period]; omega

/-- An overflow changes the flag, the IRQ level, the timer's counter and the events, nothing else (60_exceptions.md R431,
R432). -/
theorem Instance.overflow_eq (x : Instance) (t : Timer) (cnt : Int) :
    x.overflow t cnt =
      let y := if x.chip.flagEnabled t then x.setFlag t else x
      { x with
        chip := y.chip.setCount t (reloaded cnt (x.chip.periodUnits t))
        events := y.events ++ [.timerReload t (x.chip.period t)] } := by
  unfold Instance.overflow Instance.emit
  by_cases h : x.chip.flagEnabled t = true
  · simp only [h, if_true]
    rw [Instance.setFlag_eq]
    cases t <;> rfl
  · simp [h]

/-- What `TimerAStep()` can do: nothing to a stopped timer, count down, or overflow, then CSM if it is on
(60_exceptions.md R430, R431). -/
theorem Instance.timerAStep_cases (x : Instance) :
    (x.chip.taCnt = 0 ∧ x.timerAStep = x)
      ∨ (x.chip.taCnt ≠ 0 ∧ 0 < x.chip.taCnt - taStep x.cfg
          ∧ x.timerAStep = { x with chip := { x.chip with taCnt := x.chip.taCnt - taStep x.cfg } })
      ∨ (x.chip.taCnt ≠ 0 ∧ x.chip.taCnt - taStep x.cfg ≤ 0
          ∧ x.timerAStep =
            if x.chip.csm then (x.overflow .a (x.chip.taCnt - taStep x.cfg)).csmKey
            else x.overflow .a (x.chip.taCnt - taStep x.cfg)) := by
  unfold Instance.timerAStep
  dsimp only
  by_cases h0 : x.chip.taCnt = 0
  · exact .inl ⟨h0, if_pos h0⟩
  · rw [if_neg h0]
    by_cases h1 : x.chip.taCnt - taStep x.cfg ≤ 0
    · refine .inr (.inr ⟨h0, h1, ?_⟩)
      rw [if_pos h1]
      have hm : (x.overflow .a (x.chip.taCnt - taStep x.cfg)).chip.csm = x.chip.csm := by
        rw [Instance.overflow_eq]
        by_cases he : x.chip.flagEnabled .a = true
        · simp only [he, if_true]
          rw [Instance.setFlag_eq]
          rfl
        · simp only [he, Bool.false_eq_true, if_false]
          rfl
      rw [hm]
    · refine .inr (.inl ⟨h0, by omega, ?_⟩)
      rw [if_neg h1]
      rfl

/-- What `TimerBStep(n)` can do (60_exceptions.md R432). -/
theorem Instance.timerBStep_cases (n : Nat) (x : Instance) :
    (x.chip.tbCnt = 0 ∧ x.timerBStep n = x)
      ∨ (x.chip.tbCnt ≠ 0 ∧ 0 < x.chip.tbCnt - tbStep x.cfg n
          ∧ x.timerBStep n = { x with chip := { x.chip with tbCnt := x.chip.tbCnt - tbStep x.cfg n } })
      ∨ (x.chip.tbCnt ≠ 0 ∧ x.chip.tbCnt - tbStep x.cfg n ≤ 0
          ∧ x.timerBStep n = x.overflow .b (x.chip.tbCnt - tbStep x.cfg n)) := by
  unfold Instance.timerBStep
  dsimp only
  by_cases h0 : x.chip.tbCnt = 0
  · exact .inl ⟨h0, if_pos h0⟩
  · rw [if_neg h0]
    by_cases h1 : x.chip.tbCnt - tbStep x.cfg n ≤ 0
    · exact .inr (.inr ⟨h0, h1, if_pos h1⟩)
    · exact .inr (.inl ⟨h0, by omega, if_neg h1⟩)

end Sys2Proof.Machine
end

