-- ==== Sys2Proof/Laws/Machine.lean ====
section
/-! SUPPORT. What the machine's own operations can do: turning to an instance, the write path, taking a request, a
step. -/

namespace Sys2Proof.Machine

/-- A register write to a channel that exists always answers a next state. -/
theorem State.writeChannel_live {s : State} {c : Chan} {a : BitVec 9} {f : Instance → Instance} (h : s.self.live c = true) :
    s.writeChannel c a f = .next { s with self := f s.self } := by
  simp [State.writeChannel, h]

/-- A register write that answers a next state went to a channel that exists. -/
theorem State.writeChannel_next {s t : State} {c : Chan} {a : BitVec 9} {f : Instance → Instance}
    (h : s.writeChannel c a f = .next t) : s.self.live c = true ∧ t = { s with self := f s.self } := by
  unfold State.writeChannel at h
  split at h
  · exact ⟨by assumption, by simpa using h.symm⟩
  · cases h

/-- Turning to an instance: it is the one at that position, and the instances stay the same list. -/
theorem State.focus_some {s t : State} {k : Nat} (h : s.focus k = some t) :
    s.instances[k]? = some t.self ∧ t.instances = s.instances ∧ t.handle = k
      ∧ t.params = s.params ∧ t.post = s.post ∧ t.pending = s.pending ∧ t.result = s.result ∧ t.buf = s.buf := by
  unfold State.focus at h
  cases hd : s.instances.drop k with
  | nil => rw [hd] at h; cases h
  | cons x rest =>
    rw [hd] at h
    simp only [Option.some.injEq] at h
    subst h
    have hk : k < s.instances.length := by
      by_contra hc
      rw [List.drop_eq_nil_of_le (by omega)] at hd
      cases hd
    refine ⟨?_, ?_, ?_, rfl, rfl, rfl, rfl, rfl⟩
    · have := List.getElem?_drop (xs := s.instances) (i := k) (j := 0)
      rw [hd] at this
      simpa using this.symm
    · unfold State.instances at hd ⊢
      dsimp only
      rw [← hd]
      exact List.take_append_drop k _
    · simp only [State.handle, List.length_take]
      omega

/-- There is an instance to turn to exactly at the positions of the list. -/
theorem State.focus_isSome {s : State} {k : Nat} (h : k < s.instances.length) : ∃ t, s.focus k = some t := by
  unfold State.focus
  cases hd : s.instances.drop k with
  | nil => rw [List.drop_eq_nil_iff] at hd; omega
  | cons x rest => exact ⟨_, rfl⟩

/-- Turning to the instance operated on changes nothing. -/
theorem State.focus_handle (s : State) : s.focus s.handle = some s := by
  have hd : s.instances.drop s.handle = s.self :: s.later := by
    simp [State.instances, State.handle]
  have ht : s.instances.take s.handle = s.earlier := by
    simp [State.instances, State.handle]
  unfold State.focus
  rw [hd]
  simp only [ht]

/-- With nothing pending a step keeps the state (60_exceptions.md R444). -/
theorem step_idle {s : State} (h : s.pending = []) : step s = .next s := by
  simp [step, h]

/-- A step that answers a next state with an operation pending ran the decoded instruction on its instance. -/
theorem step_next {s u : State} {q : Request} {rest : List Request} (h : s.pending = q :: rest)
    (hs : step s = .next u) :
    ∃ t i, { s with pending := rest }.focus q.handle = some t ∧ decodeCall t.self.cfg.family q.call = .ok i
      ∧ exec i t = .next u := by
  unfold step at hs
  rw [h] at hs
  dsimp only at hs
  unfold State.take at hs
  cases hf : { s with pending := rest }.focus q.handle with
  | none => rw [hf] at hs; cases hs
  | some t =>
    rw [hf] at hs
    dsimp only at hs
    cases hd : decodeCall t.self.cfg.family q.call with
    | error e => rw [hd] at hs; cases hs
    | ok i => rw [hd] at hs; exact ⟨t, i, rfl, hd, hs⟩

/-! ### The configuration never changes -/

@[simp] theorem Instance.irqUpdate_cfg (x : Instance) : x.irqUpdate.cfg = x.cfg := by
  rw [Instance.irqUpdate_eq]

@[simp] theorem Instance.setFlag_cfg (x : Instance) (t : Timer) : (x.setFlag t).cfg = x.cfg := by
  rw [Instance.setFlag_eq]

@[simp] theorem Instance.resetFlag_cfg (x : Instance) (t : Timer) (data : Byte) : (x.resetFlag t data).cfg = x.cfg := by
  unfold Instance.resetFlag
  split
  · rw [Instance.clearFlag_eq]
  · rfl

@[simp] theorem Instance.loadTimer_cfg (x : Instance) (t : Timer) (load : Bool) : (x.loadTimer t load).cfg = x.cfg := by
  rw [Instance.loadTimer_eq]

@[simp] theorem Instance.overflow_cfg (x : Instance) (t : Timer) (cnt : Int) : (x.overflow t cnt).cfg = x.cfg := by
  rw [Instance.overflow_eq]

@[simp] theorem Instance.csmKey_cfg (x : Instance) : x.csmKey.cfg = x.cfg := rfl

@[simp] theorem Instance.timerAStep_cfg (x : Instance) : x.timerAStep.cfg = x.cfg := by
  rcases x.timerAStep_cases with ⟨_, h⟩ | ⟨_, _, h⟩ | ⟨_, _, h⟩ <;> rw [h]
  split <;> simp

@[simp] theorem Instance.timerBStep_cfg (n : Nat) (x : Instance) : (x.timerBStep n).cfg = x.cfg := by
  rcases x.timerBStep_cases n with ⟨_, h⟩ | ⟨_, _, h⟩ | ⟨_, _, h⟩ <;> rw [h]
  simp

@[simp] theorem Instance.egTick_cfg (x : Instance) : x.egTick.cfg = x.cfg := rfl

@[simp] theorem Instance.egTicks_cfg (n : Nat) (x : Instance) : (Instance.egTicks n x).cfg = x.cfg := by
  induction n generalizing x with
  | zero => rfl
  | succ n ih => exact ih _

@[simp] theorem Instance.egClock_cfg (x : Instance) : x.egClock.cfg = x.cfg := by
  simp [Instance.egClock]

@[simp] theorem Instance.prepared_cfg (x : Instance) : x.prepared.cfg = x.cfg := rfl

@[simp] theorem Instance.chanCalc_cfg (x : Instance) : x.chanCalc.cfg = x.cfg := rfl

@[simp] theorem Instance.sampleStep_cfg (x : Instance) : x.sampleStep.cfg = x.cfg := by
  simp [Instance.sampleStep]

@[simp] theorem Instance.applyWrite_cfg (x : Instance) (i : Instr) : (x.applyWrite i).cfg = x.cfg := by
  cases i <;> simp only [Instance.applyWrite] <;> try rfl
  · unfold Instance.writeLfoCtrl; split <;> rfl
  · unfold Instance.writeModeTimer Instance.setMode
    simp only [Instance.loadTimer_cfg, Instance.resetFlag_cfg]
    split <;> rfl
  · unfold Instance.writeKeyOnOff; dsimp only; split <;> rfl
  · unfold Instance.writePanAmsPms; split <;> rfl

@[simp] theorem Instance.write_cfg (x : Instance) (a : BitVec 9) (data : Byte) : (x.write a data).cfg = x.cfg := by
  simp [Instance.write]

@[simp] theorem Instance.writes_cfg (x : Instance) (l : List (BitVec 9 × Byte)) : (x.writes l).cfg = x.cfg := by
  induction l generalizing x with
  | nil => rfl
  | cons w l ih => exact (ih _).trans (by simp)

@[simp] theorem Instance.reset_cfg (x : Instance) : x.reset.cfg = x.cfg := by
  simp [Instance.reset]

end Sys2Proof.Machine
end

