-- ==== Sys2Proof/Laws/Invariant.lean ====
section
/-! SUPPORT. The parts of the machine keep their invariants: operators, channels, the chip record, an instance. -/

namespace Sys2Proof.Machine

/-! ### Operators -/

theorem Operator.initial_inv : Operator.initial.Inv :=
  ⟨by decide, by decide, by decide, by decide⟩

/-- Only the volume, the cached attenuation, the key and the state matter to the invariant. -/
theorem Operator.Inv.of_eq {o p : Operator} (h : o.Inv) (hv : p.volume = o.volume) (ho : p.volOut = o.volOut)
    (hk : p.key = o.key) (hs : p.state = o.state) : p.Inv :=
  ⟨hv ▸ h.volume_le, ho ▸ h.volOut_le, by rw [hk, hs]; exact h.key_iff, by rw [hs, hv]; exact h.off_quiet⟩

theorem Operator.Inv.keyOn {o : Operator} (p : FamilyParams) (h : o.Inv) : (o.keyOn p).Inv := by
  cases hk : o.key
  · rcases o.keyOn_cases p hk with ⟨_, e⟩ | ⟨_, e⟩ <;> rw [e]
    · exact ⟨by simp, h.volOut_le, rfl, by simp⟩
    · exact ⟨h.volume_le, h.volOut_le, rfl, by simp⟩
  · rw [o.keyOn_held p hk]; exact h

theorem Operator.Inv.keyOff {o : Operator} (h : o.Inv) : o.keyOff.Inv := by
  cases hk : o.key
  · rw [o.keyOff_free hk]; exact h
  · rw [o.keyOff_held hk]
    have hs : o.state.pastRel = true := by rw [← h.key_iff, hk]
    refine ⟨h.volume_le, h.volOut_le, ?_, ?_⟩ <;> simp [hs]

theorem Operator.Inv.csmKey {o : Operator} (p : FamilyParams) (h : o.Inv) : (o.csmKey p).Inv := by
  unfold Operator.csmKey; split
  · exact h
  · exact (h.keyOn p).keyOff

theorem Operator.Inv.gate {o : Operator} (p : FamilyParams) (on : Bool) (h : o.Inv) : (o.gate p on).Inv := by
  unfold Operator.gate; split
  · exact h.keyOn p
  · exact h.keyOff

/-- The branch of a state keeps the invariant (44_envelope.md R289, R295, R298). -/
theorem Operator.Inv.egBranch {o : Operator} (p : FamilyParams) (t : BitVec 32) (h : o.Inv) : (o.egBranch p t).Inv := by
  have hv := h.volume_le
  have hk := h.key_iff
  unfold Operator.egBranch
  cases hs : o.state <;> rw [hs] at hk <;> dsimp only
  · exact h
  · rcases o.releaseStep_cases p t hv with e | ⟨v, h1, h2, e⟩ <;> rw [e]
    · exact h
    · refine ⟨h2, h.volOut_le, ?_, ?_⟩ <;> dsimp only
      · rw [hk]; split <;> rfl
      · split
        · intro _; assumption
        · intro c; cases c
  · split
    · obtain ⟨v, h1, h2, ⟨_, e⟩ | ⟨_, e⟩⟩ := o.sustainSsgStep_cases p t hv <;> rw [e]
      · exact ⟨h2, h.volOut_le, by rw [hk, hs], by rw [hs]; intro c; cases c⟩
      · rcases Operator.ssgEvent_cases { o with volume := v } with ⟨_, inv, e'⟩ | ⟨_, inv, e'⟩ <;> rw [e']
        · exact ⟨by simp, h.volOut_le, by rw [hk, hs], by simp⟩
        · refine ⟨h2, h.volOut_le, ?_, ?_⟩ <;> dsimp only
          · rw [hk]; split <;> rfl
          · split <;> intro c <;> cases c
    · obtain ⟨v, h1, h2, e⟩ := o.sustainStep_cases p t hv
      rw [e]
      exact ⟨h2, h.volOut_le, by rw [hk, hs], by rw [hs]; intro c; cases c⟩
  · obtain ⟨v, s, h1, h2, h3, _, e⟩ := o.decayStep_cases p t hv
    rw [e]
    refine ⟨h2, h.volOut_le, ?_, ?_⟩ <;> dsimp only
    · rw [hk]; rcases h3 with rfl | rfl <;> rfl
    · rcases h3 with rfl | rfl <;> intro c <;> cases c
  · rcases o.attackStep_cases p t with e | e | ⟨_, v, _, h2, e⟩ <;> rw [e]
    · exact ⟨by simp, h.volOut_le, by rw [hk]; rfl, by simp⟩
    · exact h
    · exact ⟨by dsimp only; omega, h.volOut_le, by rw [hk, hs], by rw [hs]; intro c; cases c⟩

theorem Operator.Inv.egStep {o : Operator} (p : FamilyParams) (t : BitVec 32) (h : o.Inv) : (o.egStep p t).Inv := by
  have hb := h.egBranch p t
  exact ⟨hb.volume_le, Operator.attenuation_le _ hb.volume_le, hb.key_iff, hb.off_quiet⟩

/-! ### Channels -/

theorem Channel.initial_inv : Channel.initial.Inv :=
  ⟨fun n => by cases n <;> exact Operator.initial_inv, by decide, by decide, by decide⟩

/-- Changing the operators, each keeping its invariant. -/
theorem Channel.Inv.withOps {h : Channel} (hi : h.Inv) {q : Quad Operator} (hq : ∀ n, (q.get n).Inv) :
    ({ h with ops := q }).Inv :=
  ⟨hq, hi.kcode_eq, hi.op1Out0_le, hi.op1Out1_le⟩

theorem Channel.Inv.updOp {h : Channel} (hi : h.Inv) {n : OpNum} {f : Operator → Operator}
    (hf : (f (h.ops.get n)).Inv) : (h.updOp n f).Inv := by
  refine hi.withOps fun m => ?_
  rw [Quad.get_set]
  split
  · exact hf
  · exact hi.ops m

theorem Channel.Inv.markDirty {h : Channel} (hi : h.Inv) : h.markDirty.Inv :=
  ⟨hi.ops, hi.kcode_eq, hi.op1Out0_le, hi.op1Out1_le⟩

theorem Channel.Inv.refresh {h : Channel} (hi : h.Inv) (g : Config) (k : Chip) (c : Chan) : (h.refresh g k c).Inv := by
  unfold Channel.refresh
  split
  · refine ⟨fun n => ?_, hi.kcode_eq, hi.op1Out0_le, hi.op1Out1_le⟩
    rw [Quad.get_tabulate]
    exact (hi.ops n).of_eq rfl rfl rfl rfl
  · exact hi

theorem Channel.Inv.phaseAdvance {h : Channel} (hi : h.Inv) (g : Config) (k : Chip) (c : Chan) :
    (h.phaseAdvance g k c).Inv := by
  refine hi.withOps fun n => ?_
  rw [Quad.get_tabulate]
  exact (hi.ops n).of_eq rfl rfl rfl rfl

theorem Channel.Inv.egStep {h : Channel} (hi : h.Inv) (p : FamilyParams) (t : BitVec 32) : (h.egStep p t).Inv := by
  refine hi.withOps fun n => ?_
  rw [Quad.get_tabulate]
  exact (hi.ops n).egStep p t

/-- TL_BASE is at most 8168 (40_tables.md R144). -/
theorem tlBase_le (i : Nat) : tlBase.getD i 0 ≤ 8168 := by
  by_cases h : i < tlBase.length
  · rw [List.getD_eq_getElem _ _ h]
    have : ∀ v ∈ tlBase, v ≤ 8168 := by decide +kernel
    exact this _ (List.getElem_mem h)
  · rw [List.getD_eq_default _ _ (by omega)]; omega

/-- The range of `TL` (40_tables.md R144). -/
theorem tlLookup_range (p : Nat) : -8168 ≤ tlLookup p ∧ tlLookup p ≤ 8168 := by
  unfold tlLookup
  split
  · omega
  · dsimp only
    have h1 := tlBase_le (p / 2 % 256)
    have h2 : tlBase.getD (p / 2 % 256) 0 >>> (p / 512) ≤ tlBase.getD (p / 2 % 256) 0 := by
      rw [Nat.shiftRight_eq_div_pow]; exact Nat.div_le_self _ _
    generalize tlBase.getD (p / 2 % 256) 0 >>> (p / 512) = v at h2
    split <;> omega

/-- An operator's sample lies in the range of `TL` (46_channel_mix.md R362). -/
theorem Channel.opSample_range (lfoAm : Nat) (h : Channel) (n : OpNum) (offset : Int) :
    -8168 ≤ h.opSample lfoAm n offset ∧ h.opSample lfoAm n offset ≤ 8168 := by
  unfold Channel.opSample
  dsimp only
  split
  · exact tlLookup_range _
  · omega

theorem Channel.Inv.afterCalc {h : Channel} (hi : h.Inv) (lfoAm : Nat) : (h.afterCalc lfoAm).Inv :=
  ⟨hi.ops, hi.kcode_eq, hi.op1Out1_le, h.opSample_range lfoAm .op1 h.feedback⟩

/-! ### The chip record -/

theorem Chip.cleared_inv : ({ Chip.cleared with mode := 0x30 }).Inv :=
  ⟨fun e => by cases e <;> decide, by decide, by decide, by decide, by decide, by decide, by decide, by decide⟩

theorem lfoTriangle_le (pos : Nat) (h : pos < 128) : lfoTriangle pos ≤ 126 := by
  unfold lfoTriangle; split <;> omega

theorem Chip.Inv.lfoAdvance {k : Chip} (h : k.Inv) : k.lfoAdvance.Inv := by
  have hp : ∀ c, lfoPosition c < 128 := fun c => Nat.mod_lt _ (by omega)
  unfold Chip.lfoAdvance
  split
  · exact ⟨h.sl3_kcode, h.taCnt_nonneg, h.tbCnt_nonneg, h.status_bits, h.irq_eq, h.egTimer_lt,
      lfoTriangle_le _ (hp _), by have := hp (k.lfoCnt + BitVec.ofNat 32 k.lfoInc); dsimp only; omega⟩
  · exact ⟨h.sl3_kcode, h.taCnt_nonneg, h.tbCnt_nonneg, h.status_bits, h.irq_eq, h.egTimer_lt, by simp, by simp⟩

/-- Changing a timer's counter to one that is not negative. -/
theorem Chip.Inv.setCount {k : Chip} (h : k.Inv) (t : Timer) {v : Int} (hv : 0 ≤ v) : (k.setCount t v).Inv := by
  cases t
  · exact ⟨h.sl3_kcode, hv, h.tbCnt_nonneg, h.status_bits, h.irq_eq, h.egTimer_lt, h.lfoAm_le, h.lfoPm_le⟩
  · exact ⟨h.sl3_kcode, h.taCnt_nonneg, hv, h.status_bits, h.irq_eq, h.egTimer_lt, h.lfoAm_le, h.lfoPm_le⟩

theorem Chip.Inv.setSl3 {k : Chip} (h : k.Inv) (e : Slot3) {f : Slot3Freq} (hf : f.kcode = keycode f.blk f.fnum) :
    (k.setSl3 e f).Inv := by
  refine ⟨fun d => ?_, ?_, ?_, ?_, ?_, ?_, ?_, ?_⟩
  · have := h.sl3_kcode d
    cases e <;> cases d <;> first | exact hf | exact this
  all_goals cases e <;> first
    | exact h.taCnt_nonneg | exact h.tbCnt_nonneg | exact h.status_bits | exact h.irq_eq | exact h.egTimer_lt
    | exact h.lfoAm_le | exact h.lfoPm_le

/-! ### An instance -/

/-- The invariant looks at the events and the state of HOST_POST nowhere. -/
theorem Instance.Inv.of_eq {x y : Instance} (h : x.Inv) (hcfg : y.cfg = x.cfg) (hch : y.chans = x.chans)
    (hchip : y.chip = x.chip) (hreg : y.reg = x.reg) : y.Inv := by
  obtain ⟨a, b, c, d, e, f, g⟩ := h
  refine ⟨by rw [hcfg]; exact a, by rw [hcfg]; exact b, ?_, by rw [hchip]; exact d, by rw [hreg]; exact e,
    by rw [hreg, hcfg]; exact f, ?_⟩
  · unfold Instance.ch; rw [hch]; exact c
  · unfold Instance.ch Instance.live; rw [hch, hcfg]; exact g

theorem Instance.Inv.withChip {x : Instance} (h : x.Inv) {k : Chip} (hk : k.Inv) : ({ x with chip := k }).Inv :=
  ⟨h.freq_pos, h.params_ok, h.chans, hk, h.reg_wf, h.reg_mapped, h.absent⟩

theorem Instance.Inv.store {x : Instance} (h : x.Inv) {a : BitVec 9} {data : Byte}
    (hm : mapped x.cfg.family.six x.cfg.family.hasLfoPan (a.getLsbD 8) (a.extractLsb' 0 8) = true) :
    (x.store a data).Inv := by
  refine ⟨h.freq_pos, h.params_ok, h.chans, h.chip, Memory.write_wf h.reg_wf, fun n hn => ?_, h.absent⟩
  rw [Instance.store_reg, Memory.read_write h.reg_wf] at hn
  by_cases e : n = a.toNat
  · exact ⟨a, e, hm⟩
  · rw [if_neg e] at hn
    exact h.reg_mapped n hn

theorem Instance.Inv.updCh {x : Instance} (h : x.Inv) {c : Chan} (hl : x.live c = true) {f : Channel → Channel}
    (hf : (f (x.ch c)).Inv) : (x.updCh c f).Inv := by
  refine ⟨h.freq_pos, h.params_ok, fun d => ?_, h.chip, h.reg_wf, h.reg_mapped, fun d hd => ?_⟩
  · rw [Instance.ch_updCh]; split
    · exact hf
    · exact h.chans d
  · rw [Instance.ch_updCh, if_neg (by rintro rfl; rw [show (x.updCh d f).live d = x.live d from rfl, hl] at hd; cases hd)]
    exact h.absent d hd

theorem Instance.Inv.mapLive {x : Instance} (h : x.Inv) {f : Chan → Channel → Channel}
    (hf : ∀ c, (x.ch c).Inv → (f c (x.ch c)).Inv) : (x.mapLive f).Inv := by
  refine ⟨h.freq_pos, h.params_ok, fun d => ?_, h.chip, h.reg_wf, h.reg_mapped, fun d hd => ?_⟩
  · rw [Instance.ch_mapLive]; split
    · exact hf d (h.chans d)
    · exact h.chans d
  · rw [Instance.ch_mapLive, if_neg (by rw [show x.live d = false from hd]; simp)]
    exact h.absent d hd

theorem Instance.live_ch2 (x : Instance) : x.live .ch2 = true := rfl

/-- The status of a flag set or cleared keeps its upper bits 0, and the level is reported. -/
theorem Chip.Inv.withStatus {k : Chip} (h : k.Inv) {b : Byte} (hb : b &&& 0xFC = 0) :
    ({ k with status := b, irq := b &&& irqMask != 0 }).Inv :=
  ⟨h.sl3_kcode, h.taCnt_nonneg, h.tbCnt_nonneg, hb, rfl, h.egTimer_lt, h.lfoAm_le, h.lfoPm_le⟩

theorem status_or (b : Byte) (t : Timer) (h : b &&& 0xFC = 0) : (b ||| flagBit t) &&& 0xFC = 0 := by
  rw [BitVec.and_or_distrib_right, h]; cases t <;> rfl

theorem status_and (b m : Byte) (h : b &&& 0xFC = 0) : (b &&& m) &&& 0xFC = 0 := by
  rw [BitVec.and_assoc, BitVec.and_comm m, ← BitVec.and_assoc, h]; simp

theorem Instance.Inv.setFlag {x : Instance} (h : x.Inv) (t : Timer) : (x.setFlag t).Inv := by
  rw [Instance.setFlag_eq]
  exact (h.withChip (h.chip.withStatus (status_or _ t h.chip.status_bits))).of_eq rfl rfl rfl rfl

theorem Instance.Inv.clearFlag {x : Instance} (h : x.Inv) (t : Timer) : (x.clearFlag t).Inv := by
  rw [Instance.clearFlag_eq]
  exact (h.withChip (h.chip.withStatus (status_and _ _ h.chip.status_bits))).of_eq rfl rfl rfl rfl

theorem Instance.Inv.resetFlag {x : Instance} (h : x.Inv) (t : Timer) (data : Byte) : (x.resetFlag t data).Inv := by
  unfold Instance.resetFlag; split
  · exact h.clearFlag t
  · exact h

theorem loadedCount_nonneg (load : Bool) (count : Int) (period : Nat) (h : 0 ≤ count) :
    0 ≤ loadedCount load count period := by
  unfold loadedCount; split
  · split <;> omega
  · omega

theorem Chip.Inv.count_nonneg {k : Chip} (h : k.Inv) (t : Timer) : 0 ≤ k.count t := by
  cases t
  · exact h.taCnt_nonneg
  · exact h.tbCnt_nonneg

theorem Instance.Inv.loadTimer {x : Instance} (h : x.Inv) (t : Timer) (load : Bool) : (x.loadTimer t load).Inv := by
  rw [Instance.loadTimer_eq]
  exact (h.withChip (h.chip.setCount t (loadedCount_nonneg _ _ _ (h.chip.count_nonneg t)))).of_eq rfl rfl rfl rfl

theorem Instance.Inv.overflow {x : Instance} (h : x.Inv) (t : Timer) (cnt : Int) : (x.overflow t cnt).Inv := by
  have hp : 0 < x.chip.periodUnits t := by
    have := x.chip.period_pos t
    unfold Chip.periodUnits; omega
  rw [Instance.overflow_eq]
  dsimp only
  have hy : (if x.chip.flagEnabled t then x.setFlag t else x).Inv := by
    split
    · exact h.setFlag t
    · exact h
  exact (h.withChip (hy.chip.setCount t (reloaded_pos cnt _ hp).le)).of_eq rfl rfl rfl rfl

theorem Instance.Inv.csmKey {x : Instance} (h : x.Inv) : x.csmKey.Inv := by
  refine h.updCh x.live_ch2 ((h.chans .ch2).withOps fun n => ?_)
  rw [Quad.get_tabulate]
  exact ((h.chans .ch2).ops n).csmKey _

theorem Instance.Inv.timerAStep {x : Instance} (h : x.Inv) : x.timerAStep.Inv := by
  rcases x.timerAStep_cases with ⟨_, e⟩ | ⟨_, hp, e⟩ | ⟨_, _, e⟩ <;> rw [e]
  · exact h
  · exact h.withChip (h.chip.setCount .a hp.le)
  · split
    · exact (h.overflow .a _).csmKey
    · exact h.overflow .a _

theorem Instance.Inv.timerBStep {x : Instance} (h : x.Inv) (n : Nat) : (x.timerBStep n).Inv := by
  rcases x.timerBStep_cases n with ⟨_, e⟩ | ⟨_, hp, e⟩ | ⟨_, _, e⟩ <;> rw [e]
  · exact h
  · exact h.withChip (h.chip.setCount .b hp.le)
  · exact h.overflow .b _

theorem Instance.Inv.egTick {x : Instance} (h : x.Inv) : x.egTick.Inv := by
  have hk : ({ x.chip with egCnt := x.chip.egCnt + 1 }).Inv :=
    ⟨h.chip.sl3_kcode, h.chip.taCnt_nonneg, h.chip.tbCnt_nonneg, h.chip.status_bits, h.chip.irq_eq, h.chip.egTimer_lt,
      h.chip.lfoAm_le, h.chip.lfoPm_le⟩
  exact (h.withChip hk).mapLive fun c hc => hc.egStep _ _

theorem Instance.Inv.egTicks {x : Instance} (h : x.Inv) (n : Nat) : (Instance.egTicks n x).Inv := by
  induction n generalizing x with
  | zero => exact h
  | succ n ih => exact ih h.egTick

theorem Instance.Inv.egClock {x : Instance} (h : x.Inv) : x.egClock.Inv := by
  refine Instance.Inv.egTicks (h.withChip ?_) _
  exact ⟨h.chip.sl3_kcode, h.chip.taCnt_nonneg, h.chip.tbCnt_nonneg, h.chip.status_bits, h.chip.irq_eq,
    Nat.mod_lt _ (by decide), h.chip.lfoAm_le, h.chip.lfoPm_le⟩

theorem Instance.Inv.sampleStep {x : Instance} (h : x.Inv) : x.sampleStep.Inv := by
  have h1 : x.refresh.Inv := h.mapLive fun c hc => hc.refresh _ _ _
  have h2 : x.prepared.Inv := h1.withChip h1.chip.lfoAdvance
  have h3 : x.prepared.chanCalc.Inv := h2.mapLive fun c hc => (hc.afterCalc _).phaseAdvance _ _ _
  exact h3.egClock.timerAStep

theorem Instance.Inv.mixSteps {x : Instance} (h : x.Inv) (vp lb : Int) (n : Nat) (buf : List Sample) :
    (Instance.mixSteps vp lb n x buf).1.Inv := by
  induction n generalizing x buf with
  | zero => exact h
  | succ n ih =>
    match buf with
    | [] => exact h
    | [_] => exact h
    | bl :: br :: buf =>
      have h1 : (x.mixStep vp lb bl br).1.Inv := h.sampleStep.of_eq rfl rfl rfl rfl
      exact ih h1 buf

/-! ### Register writes -/

/-- The address of an operator register of a channel that exists is mapped (30_encoding.md R106, R107). -/
theorem mapped_operatorAddr (six pan : Bool) (c : Chan) (n : OpNum) (g : BitVec 4) (hc : c.present six = true)
    (hg : 3 ≤ g.toNat ∧ g.toNat ≤ 9) :
    mapped six pan ((operatorAddr g c n).getLsbD 8) ((operatorAddr g c n).extractLsb' 0 8) = true := by
  revert g
  refine bitVec_forall ?_
  revert hc
  revert six pan
  cases c <;> cases n <;> decide +kernel

/-- The addresses of the channel registers of a channel that exists are mapped (30_encoding.md R107). -/
theorem mapped_channelAddr (six pan : Bool) (c : Chan) (top : BitVec 6) (hc : c.present six = true)
    (ht : top = 0x28 ∨ top = 0x29 ∨ top = 0x2C ∨ (top = 0x2D ∧ pan = true)) :
    mapped six pan ((channelAddr top c).getLsbD 8) ((channelAddr top c).extractLsb' 0 8) = true := by
  revert top
  refine bitVec_forall ?_
  revert hc
  revert six pan
  cases c <;> decide +kernel

/-- The addresses of the 3-slot registers are mapped (30_encoding.md R107). -/
theorem mapped_slot3Addr (six pan : Bool) (k : Slot3) (top : BitVec 6) (ht : top = 0x2A ∨ top = 0x2B) :
    mapped six pan ((slot3Addr top k).getLsbD 8) ((slot3Addr top k).extractLsb' 0 8) = true := by
  rcases ht with rfl | rfl <;> revert six pan <;> cases k <;> decide

/-- The global registers are mapped, 0x22 with the LFO (30_encoding.md R105, R107). -/
theorem mapped_global (six pan : Bool) (a : BitVec 9)
    (ha : a ∈ [0x024, 0x025, 0x026, 0x027, 0x028] ∨ (a = 0x022 ∧ pan = true)) :
    mapped six pan (a.getLsbD 8) (a.extractLsb' 0 8) = true := by
  revert a
  refine bitVec_forall ?_
  revert six pan
  decide +kernel

/-- The channel a register write reaches, if it reaches one. -/
def writeChannelOf : Instr → Option Chan
  | .dtMul c _ _ => some c
  | .tl c _ _ => some c
  | .ksAr c _ _ => some c
  | .amD1r c _ _ => some c
  | .d2r c _ _ => some c
  | .slRr c _ _ => some c
  | .ssgEg c _ _ => some c
  | .fnumLo c _ => some c
  | .fnumHiBlk c _ => some c
  | .fbAlgo c _ => some c
  | .panAmsPms c _ => some c
  | _ => none

theorem Instance.Inv.setMode {x : Instance} (h : x.Inv) (data : Byte) : (x.setMode data).Inv := by
  have hc : ∀ y : Instance, y.Inv → ({ y with chip := { y.chip with mode := data } }).Inv := fun y hy =>
    hy.withChip ⟨hy.chip.sl3_kcode, hy.chip.taCnt_nonneg, hy.chip.tbCnt_nonneg, hy.chip.status_bits, hy.chip.irq_eq,
      hy.chip.egTimer_lt, hy.chip.lfoAm_le, hy.chip.lfoPm_le⟩
  unfold Instance.setMode
  dsimp only
  split
  · exact hc _ (h.updCh x.live_ch2 (h.chans .ch2).markDirty)
  · exact hc _ h

/-- A channel selected by a key write exists (41_global_regs.md R185). -/
theorem keyChannel_present {six : Bool} {data : Byte} {c : Chan} (h : keyChannel six data = some c) :
    c.present six = true := by
  unfold keyChannel Chan.ofBankChs at h
  cases six
  · split at h <;> first | (cases h; first | rfl | simp_all) | cases h
  · cases c <;> rfl

/-- A change of an operator's register fields keeps a channel's invariant. -/
theorem Channel.Inv.registers {h : Channel} (hi : h.Inv) {n : OpNum} {f : Operator → Operator}
    (hf : ∀ o, (f o).volume = o.volume ∧ (f o).volOut = o.volOut ∧ (f o).key = o.key ∧ (f o).state = o.state) :
    (h.updOp n f).Inv :=
  hi.updOp ((hi.ops n).of_eq (hf _).1 (hf _).2.1 (hf _).2.2.1 (hf _).2.2.2)

/-- Every register write to channels that exist keeps the invariant. -/
theorem Instance.Inv.applyWrite {x : Instance} (h : x.Inv) (i : Instr)
    (hl : ∀ c, writeChannelOf i = some c → x.live c = true) : (x.applyWrite i).Inv := by
  have st : ∀ {c : Chan} (n : OpNum) (g : BitVec 4) (data : Byte), x.live c = true → 3 ≤ g.toNat ∧ g.toNat ≤ 9 →
      (x.store (operatorAddr g c n) data).Inv := fun n g data hc hg =>
    h.store (mapped_operatorAddr _ _ _ n g hc hg)
  have chip : ∀ y : Instance, y.Inv → ∀ k : Chip, (∀ e, k.sl3 e = y.chip.sl3 e) → k.taCnt = y.chip.taCnt →
      k.tbCnt = y.chip.tbCnt → k.status = y.chip.status → k.irq = y.chip.irq → k.egTimer = y.chip.egTimer →
      k.lfoAm = y.chip.lfoAm → k.lfoPm = y.chip.lfoPm → ({ y with chip := k }).Inv := by
    intro y hy k e1 e2 e3 e4 e5 e6 e7 e8
    refine hy.withChip ⟨fun e => ?_, ?_, ?_, ?_, ?_, ?_, ?_, ?_⟩
    · rw [e1]; exact hy.chip.sl3_kcode e
    · rw [e2]; exact hy.chip.taCnt_nonneg
    · rw [e3]; exact hy.chip.tbCnt_nonneg
    · rw [e4]; exact hy.chip.status_bits
    · unfold Chip.level; rw [e5, e4]; exact hy.chip.irq_eq
    · rw [e6]; exact hy.chip.egTimer_lt
    · rw [e7]; exact hy.chip.lfoAm_le
    · rw [e8]; exact hy.chip.lfoPm_le
  cases i with
  | lfoCtrl data =>
    simp only [Instance.applyWrite, Instance.writeLfoCtrl]
    split
    · rename_i hp
      exact chip _ (h.store (mapped_global _ _ _ (.inr ⟨rfl, hp⟩))) _ (fun e => by cases e <;> rfl) rfl rfl rfl rfl rfl rfl
        rfl
    · exact h
  | timerAHi data =>
    exact chip _ (h.store (mapped_global _ _ _ (.inl (by decide)))) _ (fun e => by cases e <;> rfl) rfl rfl rfl rfl rfl
      rfl rfl
  | timerALo data =>
    exact chip _ (h.store (mapped_global _ _ _ (.inl (by decide)))) _ (fun e => by cases e <;> rfl) rfl rfl rfl rfl rfl
      rfl rfl
  | timerB data =>
    exact chip _ (h.store (mapped_global _ _ _ (.inl (by decide)))) _ (fun e => by cases e <;> rfl) rfl rfl rfl rfl rfl
      rfl rfl
  | modeTimer data =>
    exact (((((h.store (mapped_global _ _ 0x027 (.inl (by decide)))).setMode data).resetFlag .b data).resetFlag .a
      data).loadTimer .b _).loadTimer .a _
  | keyOnOff data =>
    have hs := h.store (data := data) (mapped_global x.cfg.family.six x.cfg.family.hasLfoPan 0x028 (.inl (by decide)))
    simp only [Instance.applyWrite, Instance.writeKeyOnOff]
    split
    · exact hs
    · rename_i c hc
      refine hs.updCh (keyChannel_present hc) ((hs.chans c).withOps fun n => ?_)
      rw [Quad.get_tabulate]
      exact ((hs.chans c).ops n).gate _ _
  | dtMul c n data =>
    have hs := st n 3 data (hl c rfl) (by decide)
    simp only [Instance.applyWrite, Instance.writeDtMul]
    refine hs.updCh (hl c rfl) (Channel.Inv.markDirty ?_)
    exact (hs.chans c).registers fun o => ⟨rfl, rfl, rfl, rfl⟩
  | tl c n data =>
    have hs := st n 4 data (hl c rfl) (by decide)
    simp only [Instance.applyWrite, Instance.writeTl, Instance.updOp]
    refine hs.updCh (hl c rfl) ?_
    exact (hs.chans c).registers fun o => ⟨rfl, rfl, rfl, rfl⟩
  | ksAr c n data =>
    have hs := st n 5 data (hl c rfl) (by decide)
    simp only [Instance.applyWrite, Instance.writeKsAr]
    refine hs.updCh (hl c rfl) ?_
    split
    · refine Channel.Inv.markDirty ?_
      exact (hs.chans c).registers fun o => ⟨rfl, rfl, rfl, rfl⟩
    · exact (hs.chans c).registers fun o => ⟨rfl, rfl, rfl, rfl⟩
  | amD1r c n data =>
    have hs := st n 6 data (hl c rfl) (by decide)
    simp only [Instance.applyWrite, Instance.writeAmD1r, Instance.updOp]
    refine hs.updCh (hl c rfl) ?_
    exact (hs.chans c).registers fun o => ⟨rfl, rfl, rfl, rfl⟩
  | d2r c n data =>
    have hs := st n 7 data (hl c rfl) (by decide)
    simp only [Instance.applyWrite, Instance.writeD2r, Instance.updOp]
    refine hs.updCh (hl c rfl) ?_
    exact (hs.chans c).registers fun o => ⟨rfl, rfl, rfl, rfl⟩
  | slRr c n data =>
    have hs := st n 8 data (hl c rfl) (by decide)
    simp only [Instance.applyWrite, Instance.writeSlRr, Instance.updOp]
    refine hs.updCh (hl c rfl) ?_
    exact (hs.chans c).registers fun o => ⟨rfl, rfl, rfl, rfl⟩
  | ssgEg c n data =>
    have hs := st n 9 data (hl c rfl) (by decide)
    simp only [Instance.applyWrite, Instance.writeSsgEg, Instance.updOp]
    refine hs.updCh (hl c rfl) ?_
    exact (hs.chans c).registers fun o => ⟨rfl, rfl, rfl, rfl⟩
  | fnumLo c data =>
    have hs := h.store (data := data) (mapped_channelAddr _ x.cfg.family.hasLfoPan c 0x28 (hl c rfl) (.inl rfl))
    simp only [Instance.applyWrite, Instance.writeFnumLo]
    refine hs.updCh (hl c rfl) ?_
    exact ⟨(hs.chans c).ops, rfl, (hs.chans c).op1Out0_le, (hs.chans c).op1Out1_le⟩
  | fnumHiBlk c data =>
    exact chip _ (h.store (mapped_channelAddr _ _ c 0x29 (hl c rfl) (.inr (.inl rfl)))) _ (fun e => by cases e <;> rfl) rfl
      rfl rfl rfl rfl rfl rfl
  | sl3FnumLo k data =>
    have hs := h.store (data := data) (mapped_slot3Addr x.cfg.family.six x.cfg.family.hasLfoPan k 0x2A (.inl rfl))
    exact (hs.withChip (hs.chip.setSl3 k rfl)).updCh x.live_ch2 (hs.chans .ch2).markDirty
  | sl3FnumHiBlk k data =>
    exact chip _ (h.store (mapped_slot3Addr _ _ k 0x2B (.inr rfl))) _ (fun e => by cases e <;> rfl) rfl rfl rfl rfl rfl rfl
      rfl
  | fbAlgo c data =>
    have hs := h.store (data := data)
      (mapped_channelAddr _ x.cfg.family.hasLfoPan c 0x2C (hl c rfl) (.inr (.inr (.inl rfl))))
    simp only [Instance.applyWrite, Instance.writeFbAlgo]
    refine hs.updCh (hl c rfl) ?_
    exact ⟨(hs.chans c).ops, (hs.chans c).kcode_eq, (hs.chans c).op1Out0_le, (hs.chans c).op1Out1_le⟩
  | panAmsPms c data =>
    simp only [Instance.applyWrite, Instance.writePanAmsPms]
    split
    · rename_i hp
      have hs := h.store (data := data) (mapped_channelAddr _ _ c 0x2D (hl c rfl) (.inr (.inr (.inr ⟨rfl, hp⟩))))
      refine hs.updCh (hl c rfl) ?_
      exact ⟨(hs.chans c).ops, (hs.chans c).kcode_eq, (hs.chans c).op1Out0_le, (hs.chans c).op1Out1_le⟩
    · exact h
  | ignored _ _ _ => exact h
  | construct _ _ _ _ _ _ => exact h
  | reset => exact h
  | generate _ _ _ _ => exact h
  | readStatus _ => exact h
  | dump => exact h
  | restore _ => exact h

end Sys2Proof.Machine
end

