-- ==== Sys2Proof/Laws/Writes.lean ====
section
/-! SUPPORT. What the normal write path does: which shadow byte it stores, the channels it reaches, what it leaves alone,
and what RESET leaves. -/

namespace Sys2Proof.Machine

/-- A decoded write reaches only channels the family has. -/
theorem decodeRegister_channel (six pan bank : Bool) (addr data : Byte) (h : bank = true → six = true) (c : Chan)
    (hc : writeChannelOf (decodeRegister pan bank addr data) = some c) : c.present six = true := by
  rw [decodeRegister_withData] at hc
  have hw := (decodeRegister_address six pan bank addr h).1
  revert hc hw
  cases decodeRegister pan bank addr 0 <;> intro hc hw <;> cases hc <;> simp_all [Instr.wf]

/-- The addresses of the family's space (20_memory.md R80). -/
def InSpace (f : Family) (a : BitVec 9) : Prop :=
  a.getLsbD 8 = true → f.six = true

theorem Instance.Inv.write {x : Instance} (h : x.Inv) (a : BitVec 9) (data : Byte) (ha : InSpace x.cfg.family a) :
    (x.write a data).Inv :=
  h.applyWrite _ fun c hc => decodeRegister_channel _ _ _ _ _ ha c hc

theorem Instance.Inv.writes {x : Instance} (h : x.Inv) (l : List (BitVec 9 × Byte))
    (hl : ∀ w ∈ l, InSpace x.cfg.family w.1) : (x.writes l).Inv := by
  induction l generalizing x with
  | nil => exact h
  | cons w l ih =>
    refine ih (h.write w.1 w.2 (hl w (by simp))) fun v hv => ?_
    rw [Instance.write_cfg]; exact hl v (by simp [hv])

/-! ### The shadow -/

@[simp] theorem Instance.resetFlag_reg (x : Instance) (t : Timer) (data : Byte) : (x.resetFlag t data).reg = x.reg := by
  unfold Instance.resetFlag
  split
  · rw [Instance.clearFlag_eq]
  · rfl

@[simp] theorem Instance.loadTimer_reg (x : Instance) (t : Timer) (load : Bool) : (x.loadTimer t load).reg = x.reg := by
  rw [Instance.loadTimer_eq]

@[simp] theorem Instance.setMode_reg (x : Instance) (data : Byte) : (x.setMode data).reg = x.reg := by
  unfold Instance.setMode; dsimp only; split <;> rfl

/-- A well-formed register write stores its byte at its address; an ignored one stores nothing (10_state.md R60). -/
theorem Instance.applyWrite_reg (x : Instance) (i : Instr) (h : i.wf x.cfg.family.six x.cfg.family.hasLfoPan = true) :
    (x.applyWrite i).reg =
      if isIgnored i then x.reg
      else match i.addressData with
        | some (a, data) => x.reg.write a.toNat data
        | none => x.reg := by
  cases i <;> try rfl
  · have hp : x.cfg.family.hasLfoPan = true := h
    simp only [Instance.applyWrite, Instance.writeLfoCtrl, hp, if_true]; rfl
  · simp only [Instance.applyWrite, Instance.writeModeTimer, Instance.loadTimer_reg, Instance.resetFlag_reg,
      Instance.setMode_reg]; rfl
  · simp only [Instance.applyWrite, Instance.writeKeyOnOff]; split <;> rfl
  · have hp : x.cfg.family.hasLfoPan = true := by
      simp only [Instr.wf, Bool.and_eq_true] at h; exact h.1
    simp only [Instance.applyWrite, Instance.writePanAmsPms, hp, if_true]; rfl

/-- What an address decodes to is ignored exactly when the address is not mapped (30_encoding.md R107, R108). -/
theorem isIgnored_decodeRegister (six pan bank : Bool) (addr data : Byte) (h : bank = true → six = true) :
    isIgnored (decodeRegister pan bank addr data) = !mapped six pan bank addr := by
  rw [decodeRegister_withData]
  have e : isIgnored (decodeRegister pan bank addr 0) = !mapped six pan bank addr := by
    revert addr
    refine bitVec_forall ?_
    revert six pan bank
    decide +kernel
  rw [← e]
  cases decodeRegister pan bank addr 0 <;> rfl

/-- A decoded instruction with its data byte encodes back to the address and the byte. -/
theorem decodeRegister_addressData (six pan bank : Bool) (addr data : Byte) (h : bank = true → six = true) :
    (decodeRegister pan bank addr data).wf six pan = true
      ∧ (decodeRegister pan bank addr data).addressData = some (BitVec.ofBool bank ++ addr, data) := by
  rw [decodeRegister_withData]
  obtain ⟨h1, h2⟩ := decodeRegister_address six pan bank addr h
  revert h1 h2
  cases decodeRegister pan bank addr 0 <;> intro h1 h2 <;> try cases h2
  all_goals
    simp only [Instr.addressData, Option.some.injEq, Prod.mk.injEq] at h2
    exact ⟨h1, by simp only [Instr.withData, Instr.addressData, h2.1]⟩

/-- A 9-bit address is its bank and its byte. -/
theorem address_split (a : BitVec 9) : BitVec.ofBool (a.getLsbD 8) ++ a.extractLsb' 0 8 = a := by
  revert a
  exact bitVec_forall (by decide +kernel)

/-- Whether an address is mapped on a family (30_encoding.md R107). -/
def mappedAt (f : Family) (a : BitVec 9) : Bool :=
  mapped f.six f.hasLfoPan (a.getLsbD 8) (a.extractLsb' 0 8)

/-- The shadow after a write: the byte stored at a mapped address, nothing elsewhere. -/
theorem Instance.write_reg (x : Instance) (a : BitVec 9) (data : Byte) (ha : InSpace x.cfg.family a) :
    (x.write a data).reg = if mappedAt x.cfg.family a then x.reg.write a.toNat data else x.reg := by
  obtain ⟨h1, h2⟩ := decodeRegister_addressData x.cfg.family.six x.cfg.family.hasLfoPan (a.getLsbD 8)
    (a.extractLsb' 0 8) data ha
  unfold Instance.write Instance.decodeAt
  rw [Instance.applyWrite_reg _ _ h1, isIgnored_decodeRegister _ _ _ _ _ ha, h2, address_split]
  unfold mappedAt
  cases mapped x.cfg.family.six x.cfg.family.hasLfoPan (a.getLsbD 8) (a.extractLsb' 0 8) <;> rfl

/-- The shadow after a list of writes. -/
def storedAll (f : Family) (m : Memory) (l : List (BitVec 9 × Byte)) : Memory :=
  l.foldl (fun m w => if mappedAt f w.1 then m.write w.1.toNat w.2 else m) m

theorem Instance.writes_reg (x : Instance) (l : List (BitVec 9 × Byte)) (hl : ∀ w ∈ l, InSpace x.cfg.family w.1) :
    (x.writes l).reg = storedAll x.cfg.family x.reg l := by
  induction l generalizing x with
  | nil => rfl
  | cons w l ih =>
    have h1 := ih (x.write w.1 w.2) fun v hv => by rw [Instance.write_cfg]; exact hl v (by simp [hv])
    rw [Instance.write_cfg, Instance.write_reg _ _ _ (hl w (by simp))] at h1
    exact h1

/-! ### What no write changes -/

@[simp] theorem Instance.applyWrite_post (x : Instance) (i : Instr) :
    (x.applyWrite i).postL = x.postL ∧ (x.applyWrite i).postR = x.postR := by
  have hf : ∀ (y : Instance) (t : Timer) (data : Byte),
      (y.resetFlag t data).postL = y.postL ∧ (y.resetFlag t data).postR = y.postR := by
    intro y t data
    unfold Instance.resetFlag; split
    · rw [Instance.clearFlag_eq]; exact ⟨rfl, rfl⟩
    · exact ⟨rfl, rfl⟩
  have hl : ∀ (y : Instance) (t : Timer) (b : Bool),
      (y.loadTimer t b).postL = y.postL ∧ (y.loadTimer t b).postR = y.postR := by
    intro y t b
    rw [Instance.loadTimer_eq]; exact ⟨rfl, rfl⟩
  cases i <;> try exact ⟨rfl, rfl⟩
  · simp only [Instance.applyWrite, Instance.writeLfoCtrl]; split <;> exact ⟨rfl, rfl⟩
  · simp only [Instance.applyWrite, Instance.writeModeTimer, hl, hf, Instance.setMode]
    split <;> exact ⟨rfl, rfl⟩
  · simp only [Instance.applyWrite, Instance.writeKeyOnOff]; split <;> exact ⟨rfl, rfl⟩
  · simp only [Instance.applyWrite, Instance.writePanAmsPms]; split <;> exact ⟨rfl, rfl⟩

theorem Instance.writes_post (x : Instance) (l : List (BitVec 9 × Byte)) :
    (x.writes l).postL = x.postL ∧ (x.writes l).postR = x.postR := by
  induction l generalizing x with
  | nil => exact ⟨rfl, rfl⟩
  | cons w l ih =>
    have h := ih (x.write w.1 w.2)
    have h' := x.applyWrite_post (x.decodeAt w.1 w.2)
    exact ⟨h.1.trans h'.1, h.2.trans h'.2⟩

/-! ### RESET -/

/-- The fields are as part 1 of R450 leaves them, before the reset write to 0x27 or after it; with `after`, after it. -/
def Blank (after : Bool) (x : Instance) : Prop :=
  x.chans = Six.fill Channel.initial
    ∧ ((after = false ∧ x.chip = Chip.cleared) ∨ x.chip = { Chip.cleared with mode := 0x30 })

theorem Six.set_fill {α : Type} (a : α) (c : Chan) : (Six.fill a).set c a = Six.fill a := by
  cases c <;> rfl

theorem Blank.updCh {after : Bool} {x : Instance} (h : Blank after x) (c : Chan) (f : Channel → Channel)
    (hf : f Channel.initial = Channel.initial) : Blank after (x.updCh c f) := by
  refine ⟨?_, h.2⟩
  unfold Instance.updCh Instance.ch
  rw [h.1, Six.get_fill, hf]
  exact Six.set_fill _ c

theorem Blank.withChip {after : Bool} {x : Instance} (h : Blank after x) (k : Chip) (hk : k = x.chip) :
    Blank after { x with chip := k } :=
  ⟨h.1, by rw [hk]; exact h.2⟩

/-- The writes of `ResetWrites()` that store what R450 already gave: a byte 0 but for 0x27, and the pan byte 0xC0. -/
def keepsBlank : Instr → Bool
  | .lfoCtrl data => data == 0
  | .timerAHi data => data == 0
  | .timerALo data => data == 0
  | .timerB data => data == 0
  | .modeTimer data => data == 0x30
  | .keyOnOff _ => false
  | .dtMul _ _ data => data == 0
  | .tl _ _ data => data == 0
  | .ksAr _ _ data => data == 0
  | .amD1r _ _ data => data == 0
  | .d2r _ _ data => data == 0
  | .slRr _ _ data => data == 0
  | .ssgEg _ _ data => data == 0
  | .fnumLo _ data => data == 0
  | .fnumHiBlk _ data => data == 0
  | .sl3FnumLo _ data => data == 0
  | .sl3FnumHiBlk _ data => data == 0
  | .fbAlgo _ data => data == 0
  | .panAmsPms _ data => data == 0xC0
  | _ => true

/-- The two flag resets and the two loads of a 0x27 byte, after the mode is stored, where the reported level is the level
of the status (41_global_regs.md R184; 60_exceptions.md R423). -/
theorem Instance.modeActions_eq (x : Instance) (data : Byte) (h : x.chip.irq = x.chip.level) :
    ((((x.resetFlag .b data).resetFlag .a data).loadTimer .b (loadField data .b)).loadTimer .a (loadField data .a)) =
      let status := x.chip.status &&& resetMask data .b &&& resetMask data .a
      { x with
        chip := { x.chip with
          status := status
          irq := status &&& irqMask != 0
          tbCnt := loadedCount (loadField data .b) x.chip.tbCnt (x.chip.period .b)
          taCnt := loadedCount (loadField data .a) x.chip.taCnt (x.chip.period .a) }
        events := x.events ++ transition x.chip.irq (status &&& irqMask != 0)
          ++ loadEvents .b (loadField data .b) x.chip.tbCnt (x.chip.period .b)
          ++ loadEvents .a (loadField data .a) x.chip.taCnt (x.chip.period .a) } := by
  rw [Instance.resetFlag_eq x .b data h, Instance.resetFlag_eq _ .a data rfl, Instance.loadTimer_eq,
    Instance.loadTimer_eq]
  have ht := transition_append x.chip.irq ((x.chip.status &&& resetMask data .b) &&& irqMask != 0)
    ((x.chip.status &&& resetMask data .b &&& resetMask data .a) &&& irqMask != 0) (by
      have h1 := level_and x.chip.status (resetMask data .b)
      have h2 := level_and (x.chip.status &&& resetMask data .b) (resetMask data .a)
      rw [h]
      unfold Chip.level
      revert h1 h2
      generalize (x.chip.status &&& irqMask != 0) = a
      generalize ((x.chip.status &&& resetMask data .b) &&& irqMask != 0) = b
      generalize ((x.chip.status &&& resetMask data .b &&& resetMask data .a) &&& irqMask != 0) = c
      cases a <;> cases b <;> cases c <;> simp)
  simp only [List.append_assoc] at ht ⊢
  rw [← ht]
  simp only [List.append_assoc]
  rfl

/-- A blank instance after the reset write to 0x27 (70_reset_and_hazards.md R453). -/
theorem Blank.modeTimer {after : Bool} {x : Instance} (h : Blank after x) :
    (x.writeModeTimer 0x30).chans = Six.fill Channel.initial
      ∧ (x.writeModeTimer 0x30).chip = { Chip.cleared with mode := 0x30 } := by
  have hs : ∀ {k : Chip}, (after = false ∧ k = Chip.cleared) ∨ k = { Chip.cleared with mode := 0x30 } →
      (k.mode ^^^ (0x30 : Byte)).extractLsb' 6 2 = 0 ∧ { k with mode := 0x30 } = { Chip.cleared with mode := 0x30 } := by
    rintro k (⟨-, rfl⟩ | rfl) <;> decide
  have hm : ((x.store 0x027 0x30).setMode 0x30).chans = Six.fill Channel.initial
      ∧ ((x.store 0x027 0x30).setMode 0x30).chip = { Chip.cleared with mode := 0x30 } := by
    unfold Instance.setMode
    simp only [Instance.store_chip, (hs h.2).1, ne_eq, not_true_eq_false, if_false]
    exact ⟨h.1, (hs h.2).2⟩
  unfold Instance.writeModeTimer
  rw [Instance.modeActions_eq _ _ (by rw [hm.2]; decide)]
  refine ⟨hm.1, ?_⟩
  have h1 : loadField 0x30 .a = false := by decide
  have h2 : loadField 0x30 .b = false := by decide
  have h3 : (Chip.cleared.status &&& resetMask 0x30 .b &&& resetMask 0x30 .a) = 0 := by decide
  dsimp only
  rw [hm.2, h1, h2]
  dsimp only
  rw [h3]
  rfl

theorem Blank.applyWrite {after : Bool} {x : Instance} (h : Blank after x) (i : Instr) (hi : keepsBlank i = true) :
    Blank after (x.applyWrite i) := by
  have hs : ∀ a data, Blank after (x.store a data) := fun _ _ => h
  have hc : ∀ P : Chip → Prop, P Chip.cleared → P { Chip.cleared with mode := 0x30 } → P x.chip := by
    intro P h1 h2
    rcases h.2 with ⟨-, e⟩ | e <;> rw [e] <;> assumption
  cases i <;> simp only [keepsBlank, beq_iff_eq] at hi <;> try subst hi
  · simp only [Instance.applyWrite, Instance.writeLfoCtrl]
    split
    · exact Blank.withChip (hs _ _) _ (hc (fun k => { k with lfoInc := _ } = k) rfl rfl)
    · exact h
  · exact Blank.withChip (hs _ _) _ (hc (fun k => { k with ta := (0 : Byte) ++ k.ta.extractLsb' 0 2 } = k) rfl rfl)
  · exact Blank.withChip (hs _ _) _
      (hc (fun k => { k with ta := k.ta.extractLsb' 2 8 ++ timerALoField 0 } = k) rfl rfl)
  · exact Blank.withChip (hs _ _) _ (hc (fun k => { k with tb := 0 } = k) rfl rfl)
  · exact ⟨(Blank.modeTimer h).1, .inr (Blank.modeTimer h).2⟩
  · cases hi
  · rename_i c n; exact Blank.updCh (hs _ _) c _ (by cases n <;> decide)
  · rename_i c n; exact Blank.updCh (hs _ _) c _ (by cases n <;> decide)
  · rename_i c n; exact Blank.updCh (hs _ _) c _ (by cases n <;> decide)
  · rename_i c n; exact Blank.updCh (hs _ _) c _ (by cases n <;> decide)
  · rename_i c n; exact Blank.updCh (hs _ _) c _ (by cases n <;> decide)
  · rename_i c n; exact Blank.updCh (hs _ _) c _ (by cases n <;> decide)
  · rename_i c n; exact Blank.updCh (hs _ _) c _ (by cases n <;> decide)
  · rename_i c
    exact Blank.updCh (hs _ _) c _ (hc (fun k => ({ Channel.initial with
      fnum := latchFnum k.fnH 0, blk := latchBlk k.fnH, kcode := keycode (latchBlk k.fnH) (latchFnum k.fnH 0)
      dirty := true } : Channel) = Channel.initial) (by decide) (by decide))
  · exact Blank.withChip (hs _ _) _ (hc (fun k => { k with fnH := latchField 0 } = k) rfl rfl)
  · rename_i k
    exact Blank.updCh (Blank.withChip (hs _ _) _ (hc (fun j => j.setSl3 k ⟨latchFnum j.sl3FnH 0, latchBlk j.sl3FnH,
      keycode (latchBlk j.sl3FnH) (latchFnum j.sl3FnH 0)⟩ = j) (by cases k <;> decide) (by cases k <;> decide)))
      .ch2 _ rfl
  · exact Blank.withChip (hs _ _) _ (hc (fun k => { k with sl3FnH := latchField 0 } = k) rfl rfl)
  · rename_i c; exact Blank.updCh (hs _ _) c _ (by decide)
  · rename_i c
    simp only [Instance.applyWrite, Instance.writePanAmsPms]
    split
    · exact Blank.updCh (hs _ _) c _ (by decide)
    · exact h
  all_goals exact h

theorem Blank.writes {after : Bool} {x : Instance} (h : Blank after x) (l : List (BitVec 9 × Byte))
    (hl : ∀ w ∈ l, keepsBlank (x.decodeAt w.1 w.2) = true) :
    Blank after (x.writes l) := by
  induction l generalizing x with
  | nil => exact h
  | cons w l ih =>
    refine ih (h.applyWrite _ (hl w (by simp))) fun v hv => ?_
    have := hl v (by simp [hv])
    unfold Instance.decodeAt at this ⊢
    rw [Instance.write_cfg]
    exact this

theorem storedAll_append (f : Family) (m : Memory) (l k : List (BitVec 9 × Byte)) :
    storedAll f m (l ++ k) = storedAll f (storedAll f m l) k := by
  simp [storedAll]

/-- Writing 0 where a memory reads 0 changes nothing. -/
theorem storedAll_zero (f : Family) (m : Memory) (l : List (BitVec 9 × Byte)) (h : m.wf = true)
    (hl : l.all (fun w => w.2 == 0 && m.read w.1.toNat == 0) = true) : storedAll f m l = m := by
  induction l with
  | nil => rfl
  | cons w l ih =>
    rw [List.all_cons, Bool.and_eq_true] at hl
    have hw : w.2 = 0 ∧ m.read w.1.toNat = 0 := by simpa using hl.1
    have hm : m.write w.1.toNat w.2 = m :=
      Memory.eq_of_read (Memory.write_wf h) h fun n => by
        rw [Memory.read_write h]; split
        · rename_i e; rw [e, hw.1, hw.2]
        · rfl
    have : storedAll f m (w :: l) = storedAll f m l := by
      unfold storedAll
      rw [List.foldl_cons, hm, ite_self]
    rw [this]
    exact ih hl.2

set_option maxRecDepth 100000 in
theorem resetWrites_inSpace (f : Family) : ∀ w ∈ resetWrites f, InSpace f w.1 := by
  have h : (resetWrites f).all (fun w => !w.1.getLsbD 8 || f.six) = true := by cases f <;> decide +kernel
  intro w hw hb
  have := List.all_eq_true.mp h w hw
  rw [hb] at this
  simpa using this

set_option maxRecDepth 100000 in
theorem resetWrites_keepBlank (f : Family) :
    ∀ w ∈ resetWrites f,
      keepsBlank (decodeRegister f.hasLfoPan (w.1.getLsbD 8) (w.1.extractLsb' 0 8) w.2) = true := by
  have h : (resetWrites f).all (fun w =>
      keepsBlank (decodeRegister f.hasLfoPan (w.1.getLsbD 8) (w.1.extractLsb' 0 8) w.2)) = true := by
    cases f <;> decide +kernel
  exact List.all_eq_true.mp h

set_option maxRecDepth 100000 in
/-- The shadow after the reset writes (70_reset_and_hazards.md R454). -/
theorem resetWrites_stored (f : Family) : storedAll f [] (resetWrites f) = regAfterReset f := by
  unfold resetWrites
  rw [storedAll_append, storedAll_append]
  generalize hm : storedAll f [] _ = m
  have hz : m.wf = true ∧ ((List.range 0x83).flatMap fun i => bothBanks f (BitVec.ofNat 9 (0xB2 - i)) 0x00).all
      (fun w => w.2 == 0 && m.read w.1.toNat == 0) = true := by
    subst hm; cases f <;> decide +kernel
  rw [storedAll_zero f m _ hz.1 hz.2]
  subst hm
  cases f <;> decide +kernel

/-- RESET leaves an instance as it was constructed, but for the state HOST_POST keeps (70_reset_and_hazards.md R450 to
R454). -/
theorem Instance.reset_eq (x : Instance) :
    x.reset = { Instance.afterReset x.cfg with postL := x.postL, postR := x.postR } := by
  have h1 := resetWrites_inSpace x.cfg.family
  have h2 := resetWrites_keepBlank x.cfg.family
  have h3 := resetWrites_stored x.cfg.family
  have hr := x.clear.writes_reg (resetWrites x.cfg.family) h1
  have hp := x.clear.writes_post (resetWrites x.cfg.family)
  have hb : Blank true (x.clear.writes (resetWrites x.cfg.family)) := by
    have hsplit : ∃ l k, resetWrites x.cfg.family = l ++ (0x027, 0x30) :: k := ⟨_, _, rfl⟩
    obtain ⟨l, k, e⟩ := hsplit
    rw [e] at h2 ⊢
    have e2 : x.clear.writes (l ++ (0x027, 0x30) :: k) = ((x.clear.writes l).write 0x027 0x30).writes k := by
      simp [Instance.writes]
    have hl : Blank false (x.clear.writes l) :=
      Blank.writes ⟨rfl, .inl ⟨rfl, rfl⟩⟩ _ fun w hw => h2 w (by simp [hw])
    have hw : (x.clear.writes l).write 0x027 0x30 = (x.clear.writes l).writeModeTimer 0x30 := rfl
    rw [e2]
    refine Blank.writes ?_ _ fun w hw => ?_
    · rw [hw]; exact ⟨(Blank.modeTimer hl).1, .inr (Blank.modeTimer hl).2⟩
    · have := h2 w (by simp [hw])
      unfold Instance.decodeAt
      rw [Instance.write_cfg, Instance.writes_cfg]
      exact this
  have hm : (x.clear.writes (resetWrites x.cfg.family)).chip = { Chip.cleared with mode := 0x30 } := by
    rcases hb.2 with ⟨h, -⟩ | h
    · cases h
    · exact h
  refine Instance.ext_ch (Instance.writes_cfg _ _) (fun c => ?_) hm (hr.trans h3) rfl hp.1 hp.2
  unfold Instance.ch
  exact congrArg (fun q => Six.get q c) hb.1

end Sys2Proof.Machine
end

