-- ==== Sys2Proof/Laws/Restore.lean ====
section
/-! SUPPORT. RESTORE: the addresses it walks, its shadow, the invariant. -/

namespace Sys2Proof.Machine

/-- The register space lists exactly the family's addresses (20_memory.md R80). -/
theorem mem_registerSpace (f : Family) (a : BitVec 9) : a ∈ registerSpace f ↔ InSpace f a := by
  unfold registerSpace InSpace
  have hb : a.getLsbD 8 = decide (256 ≤ a.toNat) := by
    revert a; exact bitVec_forall (by decide +kernel)
  rw [hb]
  simp only [List.mem_map, List.mem_range, decide_eq_true_eq]
  have hlt := a.isLt
  constructor
  · rintro ⟨n, hn, rfl⟩ h
    by_contra hs
    simp only [Bool.not_eq_true] at hs
    rw [hs] at hn
    simp only [BitVec.toNat_ofNat] at h
    simp only [Bool.false_eq_true, if_false] at hn
    omega
  · intro h
    refine ⟨a.toNat, ?_, by simp⟩
    split
    · omega
    · rename_i hs
      by_contra hc
      exact hs (h (by omega))

theorem registerSpace_length (f : Family) : (registerSpace f).length = if f.six then 512 else 256 := by
  simp [registerSpace]

/-- The test RESTORE uses is the definition of mapped (30_encoding.md R107). -/
theorem Instance.isMapped_eq (x : Instance) (a : BitVec 9) (h : InSpace x.cfg.family a) :
    x.isMapped a = mappedAt x.cfg.family a := by
  unfold Instance.isMapped Instance.decodeAt mappedAt
  rw [isIgnored_decodeRegister _ _ _ _ _ h]
  simp

/-- Storing bytes at a list of addresses, one after another. -/
theorem storeAll_read (l : List (BitVec 9)) (bytes : List Byte) (x : Instance) (h : x.reg.wf = true) (n : Nat) :
    (l.foldl (fun y a => y.store a (byteAt bytes a)) x).reg.wf = true
      ∧ (l.foldl (fun y a => y.store a (byteAt bytes a)) x).reg.read n =
        if ∃ a ∈ l, n = a.toNat then bytes.getD n 0 else x.reg.read n := by
  induction l generalizing x with
  | nil => exact ⟨h, by simp⟩
  | cons a l ih =>
    obtain ⟨h1, h2⟩ := ih (x.store a (byteAt bytes a)) (Memory.write_wf h)
    refine ⟨h1, ?_⟩
    rw [List.foldl_cons, h2, Instance.store_reg, Memory.read_write h]
    by_cases e : ∃ b ∈ l, n = b.toNat
    · obtain ⟨b, hb, e⟩ := e
      rw [if_pos ⟨b, hb, e⟩, if_pos ⟨b, by simp [hb], e⟩]
    · rw [if_neg e]
      by_cases e2 : n = a.toNat
      · rw [if_pos e2, if_pos ⟨a, by simp, e2⟩, e2]; rfl
      · rw [if_neg e2, if_neg (by
          rintro ⟨b, hb, e3⟩
          rcases List.mem_cons.mp hb with rfl | hb
          · exact e2 e3
          · exact e ⟨b, hb, e3⟩)]

/-- Storing bytes changes only the shadow. -/
theorem storeAll_rest (l : List (BitVec 9)) (bytes : List Byte) (x : Instance) :
    l.foldl (fun y a => y.store a (byteAt bytes a)) x =
      { x with reg := (l.foldl (fun y a => y.store a (byteAt bytes a)) x).reg } := by
  induction l generalizing x with
  | nil => rfl
  | cons a l ih =>
    rw [List.foldl_cons, ih]
    rfl

theorem Instance.restoreShadow_rest (x : Instance) (bytes : List Byte) :
    x.restoreShadow bytes = { x with reg := (x.restoreShadow bytes).reg } :=
  storeAll_rest _ _ _

/-- The shadow after the first loop of RESTORE: the bytes at every mapped address, every other as before
(46_channel_mix.md R375). -/
theorem Instance.restoreShadow_read (x : Instance) (bytes : List Byte) (h : x.reg.wf = true) (n : Nat) :
    (x.restoreShadow bytes).reg.wf = true
      ∧ ((∃ a, InSpace x.cfg.family a ∧ mappedAt x.cfg.family a = true ∧ n = a.toNat) →
        (x.restoreShadow bytes).reg.read n = bytes.getD n 0)
      ∧ ((¬∃ a, InSpace x.cfg.family a ∧ mappedAt x.cfg.family a = true ∧ n = a.toNat) →
        (x.restoreShadow bytes).reg.read n = x.reg.read n) := by
  obtain ⟨h1, h2⟩ := storeAll_read ((registerSpace x.cfg.family).filter x.isMapped) bytes x h n
  have hiff : (∃ a ∈ (registerSpace x.cfg.family).filter x.isMapped, n = a.toNat)
      ↔ ∃ a, InSpace x.cfg.family a ∧ mappedAt x.cfg.family a = true ∧ n = a.toNat := by
    constructor
    · rintro ⟨a, ha, e⟩
      rw [List.mem_filter, mem_registerSpace] at ha
      exact ⟨a, ha.1, by rw [← x.isMapped_eq a ha.1]; exact ha.2, e⟩
    · rintro ⟨a, h1, h2, e⟩
      exact ⟨a, by rw [List.mem_filter, mem_registerSpace, x.isMapped_eq a h1]; exact ⟨h1, h2⟩, e⟩
  refine ⟨h1, fun e => ?_, fun e => ?_⟩
  · exact h2.trans (if_pos (hiff.mpr e))
  · exact h2.trans (if_neg fun c => e (hiff.mp c))

/-- The latch address of a low-byte frequency address is in the same bank, and mapped with it. -/
theorem latch_address (a : BitVec 9) (h : isFnumLow a = true) :
    (a + 4).getLsbD 8 = a.getLsbD 8
      ∧ ∀ f : Family, InSpace f a → mappedAt f a = true → mappedAt f (a + 4) = true := by
  have key : ∀ a : BitVec 9, isFnumLow a = true → (a + 4).getLsbD 8 = a.getLsbD 8
      ∧ ∀ six pan : Bool, mapped six pan (a.getLsbD 8) (a.extractLsb' 0 8) = true →
        mapped six pan ((a + 4).getLsbD 8) ((a + 4).extractLsb' 0 8) = true :=
    bitVec_forall (by decide +kernel)
  obtain ⟨h1, h2⟩ := key a h
  exact ⟨h1, fun f _ hm => h2 _ _ hm⟩

/-- Every write RESTORE replays is to a mapped address of the family's space, with the array's byte there. -/
theorem Instance.replay_mem (x : Instance) (bytes : List Byte) (w : BitVec 9 × Byte)
    (hw : w ∈ x.replayed.flatMap (replayAt bytes)) :
    InSpace x.cfg.family w.1 ∧ mappedAt x.cfg.family w.1 = true ∧ w.2 = byteAt bytes w.1 := by
  obtain ⟨a, ha, hw⟩ := List.mem_flatMap.mp hw
  unfold Instance.replayed at ha
  rw [List.mem_filter, mem_registerSpace] at ha
  obtain ⟨hs, hm⟩ := ha
  have hm : mappedAt x.cfg.family a = true := by
    rw [← x.isMapped_eq a hs]
    simp only [Bool.and_eq_true] at hm
    exact hm.1.1
  unfold replayAt at hw
  rw [List.mem_append] at hw
  rcases hw with hw | hw
  · by_cases hl : isFnumLow a = true
    · rw [if_pos hl, List.mem_singleton] at hw
      subst hw
      obtain ⟨h1, h2⟩ := latch_address a hl
      exact ⟨by unfold InSpace; rw [h1]; exact hs, h2 _ hs hm, rfl⟩
    · rw [if_neg hl] at hw; cases hw
  · rw [List.mem_singleton] at hw
    subst hw
    exact ⟨hs, hm, rfl⟩

theorem Instance.Inv.restore {x : Instance} (h : x.Inv) (bytes : List Byte) : (x.restore bytes).Inv := by
  have hs : ∀ l : List (BitVec 9), (∀ a ∈ l, mappedAt x.cfg.family a = true) → ∀ y : Instance, y.Inv →
      y.cfg = x.cfg → (l.foldl (fun y a => y.store a (byteAt bytes a)) y).Inv := by
    intro l hl
    induction l with
    | nil => exact fun y hy _ => hy
    | cons a l ih =>
      intro y hy e
      refine ih (fun b hb => hl b (by simp [hb])) _ (hy.store ?_) e
      rw [e]; exact hl a (by simp)
  have h1 : (x.restoreShadow bytes).Inv := by
    refine hs _ (fun a ha => ?_) x h rfl
    rw [List.mem_filter, mem_registerSpace] at ha
    rw [← x.isMapped_eq a ha.1]; exact ha.2
  refine h1.writes _ fun w hw => ?_
  rw [x.restoreShadow_rest bytes]
  exact (x.replay_mem bytes w hw).1

end Sys2Proof.Machine
end

