-- ==== Sys2Proof/Laws/Exec.lean ====
section
/-! SUPPORT. exec and the normal write path agree: a register write that runs applies its effect to the instance operated
on, and it runs exactly when its channel exists. -/

namespace Sys2Proof.Machine

/-- Whether an instruction is a register write, the ignored one left out. -/
def isWrite : Instr → Bool
  | .ignored _ _ _ => false
  | .construct _ _ _ _ _ _ => false
  | .reset => false
  | .generate _ _ _ _ => false
  | .readStatus _ => false
  | .dump => false
  | .restore _ => false
  | _ => true

/-- A register write that answers a next state went to a channel that exists and applied its effect. -/
theorem exec_write {i : Instr} {s t : State} (hi : isWrite i = true) (h : exec i s = .next t) :
    (∀ c, writeChannelOf i = some c → s.self.live c = true) ∧ t = { s with self := s.self.applyWrite i } := by
  have chan : ∀ {c : Chan} {a : BitVec 9} {f : Instance → Instance}, s.writeChannel c a f = .next t →
      (∀ d, some c = some d → s.self.live d = true) ∧ t = { s with self := f s.self } := by
    intro c a f h
    obtain ⟨hl, e⟩ := State.writeChannel_next h
    exact ⟨fun d hd => by cases hd; exact hl, e⟩
  cases i with
  | lfoCtrl _ => cases h; exact ⟨fun _ hc => (nomatch hc), rfl⟩
  | timerAHi _ => cases h; exact ⟨fun _ hc => (nomatch hc), rfl⟩
  | timerALo _ => cases h; exact ⟨fun _ hc => (nomatch hc), rfl⟩
  | timerB _ => cases h; exact ⟨fun _ hc => (nomatch hc), rfl⟩
  | modeTimer _ => cases h; exact ⟨fun _ hc => (nomatch hc), rfl⟩
  | keyOnOff _ => cases h; exact ⟨fun _ hc => (nomatch hc), rfl⟩
  | dtMul c n data =>
    exact chan (f := fun x => x.writeDtMul c n data) (a := operatorAddr 3 c n) h
  | tl c n data => exact chan (f := fun x => x.writeTl c n data) (a := operatorAddr 4 c n) h
  | ksAr c n data => exact chan (f := fun x => x.writeKsAr c n data) (a := operatorAddr 5 c n) h
  | amD1r c n data => exact chan (f := fun x => x.writeAmD1r c n data) (a := operatorAddr 6 c n) h
  | d2r c n data => exact chan (f := fun x => x.writeD2r c n data) (a := operatorAddr 7 c n) h
  | slRr c n data => exact chan (f := fun x => x.writeSlRr c n data) (a := operatorAddr 8 c n) h
  | ssgEg c n data => exact chan (f := fun x => x.writeSsgEg c n data) (a := operatorAddr 9 c n) h
  | fnumLo c data => exact chan (f := fun x => x.writeFnumLo c data) (a := channelAddr 0x28 c) h
  | fnumHiBlk c data => exact chan (f := fun x => x.writeFnumHiBlk c data) (a := channelAddr 0x29 c) h
  | sl3FnumLo _ _ => cases h; exact ⟨fun _ hc => (nomatch hc), rfl⟩
  | sl3FnumHiBlk _ _ => cases h; exact ⟨fun _ hc => (nomatch hc), rfl⟩
  | fbAlgo c data => exact chan (f := fun x => x.writeFbAlgo c data) (a := channelAddr 0x2C c) h
  | panAmsPms c data => exact chan (f := fun x => x.writePanAmsPms c data) (a := channelAddr 0x2D c) h
  | _ => cases hi

/-- A register write to a channel that exists answers a next state. -/
theorem exec_write_live {i : Instr} {s : State} (hi : isWrite i = true)
    (hl : ∀ c, writeChannelOf i = some c → s.self.live c = true) :
    exec i s = .next { s with self := s.self.applyWrite i } := by
  cases i with
  | dtMul c n data => exact State.writeChannel_live (f := fun x => x.writeDtMul c n data) (hl c rfl)
  | tl c n data => exact State.writeChannel_live (f := fun x => x.writeTl c n data) (hl c rfl)
  | ksAr c n data => exact State.writeChannel_live (f := fun x => x.writeKsAr c n data) (hl c rfl)
  | amD1r c n data => exact State.writeChannel_live (f := fun x => x.writeAmD1r c n data) (hl c rfl)
  | d2r c n data => exact State.writeChannel_live (f := fun x => x.writeD2r c n data) (hl c rfl)
  | slRr c n data => exact State.writeChannel_live (f := fun x => x.writeSlRr c n data) (hl c rfl)
  | ssgEg c n data => exact State.writeChannel_live (f := fun x => x.writeSsgEg c n data) (hl c rfl)
  | fnumLo c data => exact State.writeChannel_live (f := fun x => x.writeFnumLo c data) (hl c rfl)
  | fnumHiBlk c data => exact State.writeChannel_live (f := fun x => x.writeFnumHiBlk c data) (hl c rfl)
  | fbAlgo c data => exact State.writeChannel_live (f := fun x => x.writeFbAlgo c data) (hl c rfl)
  | panAmsPms c data => exact State.writeChannel_live (f := fun x => x.writePanAmsPms c data) (hl c rfl)
  | ignored _ _ _ => cases hi
  | construct _ _ _ _ _ _ => cases hi
  | reset => cases hi
  | generate _ _ _ _ => cases hi
  | readStatus _ => cases hi
  | dump => cases hi
  | restore _ => cases hi
  | _ => rfl

/-- What the other instructions do when they answer a next state: the instance operated on afterwards, and the rest of the
machine. -/
theorem exec_other {i : Instr} {s t : State} (hi : isWrite i = false) (h : exec i s = .next t) :
    (∃ bank addr data, i = .ignored bank addr data ∧ t = s)
      ∨ (∃ f n clock rate a b, i = .construct f n clock rate a b ∧ 0 < n ∧ 0 < clock ∧ 0 < rate
          ∧ t = { s with
            later := s.later ++ List.replicate n (Instance.afterReset (s.newConfig f clock rate)).reset
            result := .handles (List.range' s.instances.length n) })
      ∨ (i = .reset ∧ t = { s with self := s.self.reset })
      ∨ (∃ count vp lb buf, i = .generate count vp lb buf ∧ 0 ≤ count ∧ 2 * count ≤ (buf.length : Int)
          ∧ t = { s with
            self := (Instance.mixSteps vp lb count.toNat s.self buf).1.timerBStep count.toNat
            buf := (Instance.mixSteps vp lb count.toNat s.self buf).2 })
      ∨ (∃ port, i = .readStatus port ∧ t = { s with result := .status s.self.chip.status })
      ∨ (i = .dump ∧ t = { s with result := .bytes s.self.dump })
      ∨ (∃ bytes, i = .restore bytes ∧ bytes.length = (registerSpace s.self.cfg.family).length
          ∧ t = { s with self := s.self.restore bytes }) := by
  cases i with
  | ignored bank addr data =>
    simp only [exec, execIgnored] at h
    split at h
    · cases h
    · cases h; exact .inl ⟨_, _, _, rfl, rfl⟩
  | construct f n clock rate a b =>
    simp only [exec, execConstruct] at h
    split at h
    · cases h
    · cases h
      exact .inr (.inl ⟨_, _, _, _, _, _, rfl, by omega, by omega, by omega, rfl⟩)
  | reset => cases h; exact .inr (.inr (.inl ⟨rfl, rfl⟩))
  | generate count vp lb buf =>
    simp only [exec, execGenerate] at h
    split at h
    · cases h
    · split at h
      · cases h
      · cases h
        exact .inr (.inr (.inr (.inl ⟨_, _, _, _, rfl, by omega, by omega, rfl⟩)))
  | readStatus port =>
    simp only [exec, execReadStatus] at h
    split at h
    · cases h; exact .inr (.inr (.inr (.inr (.inl ⟨_, rfl, rfl⟩))))
    · cases h
  | dump => cases h; exact .inr (.inr (.inr (.inr (.inr (.inl ⟨rfl, rfl⟩)))))
  | restore bytes =>
    simp only [exec, execRestore] at h
    split at h
    · cases h; exact .inr (.inr (.inr (.inr (.inr (.inr ⟨_, rfl, by assumption, rfl⟩)))))
    · cases h
  | _ => cases hi

/-- A freshly reset instance of a configuration in range keeps the invariant. -/
theorem Instance.afterReset_inv (cfg : Config) (h1 : 0 < cfg.freqNum ∧ 0 < cfg.freqDen) (h2 : paramsOk cfg.params) :
    (Instance.afterReset cfg).Inv := by
  have hm : ∀ f : Family, ∀ w ∈ regAfterReset f, w.1 < 512
      ∧ mapped f.six f.hasLfoPan ((BitVec.ofNat 9 w.1).getLsbD 8) ((BitVec.ofNat 9 w.1).extractLsb' 0 8) = true := by
    intro f; cases f <;> decide
  have hr : ∀ (m : Memory) n, m.read n ≠ 0 → ∃ w ∈ m, n = w.1 := by
    intro m n h
    induction m with
    | nil => exact absurd rfl h
    | cons c m ih =>
      obtain ⟨a, b⟩ := c
      unfold Memory.read at h
      by_cases e : n = a
      · exact ⟨(a, b), by simp, e⟩
      · rw [if_neg e] at h
        obtain ⟨w, hw, e⟩ := ih h
        exact ⟨w, by simp [hw], e⟩
  refine ⟨h1, h2, fun c => ?_, Chip.cleared_inv, regAfterReset_wf _, fun n hn => ?_, fun c _ => ?_⟩
  · cases c <;> exact Channel.initial_inv
  · obtain ⟨w, hw, rfl⟩ := hr _ _ hn
    obtain ⟨h3, h4⟩ := hm _ w hw
    exact ⟨BitVec.ofNat 9 w.1, by simp only [BitVec.toNat_ofNat]; omega, h4⟩
  · cases c <;> rfl

end Sys2Proof.Machine
end

