-- ==== Sys2Proof/Laws/Fields.lean ====
section
/-! SUPPORT. The fields of a data byte and of a latch in numbers: each accessor of Machine/Operands.lean is the quotient and
remainder the statements write. -/

namespace Sys2Proof.Machine

-- The kernel evaluations run one after another, so that they do not share the memory.
set_option Elab.async false

theorem dtField_eq : ∀ d : Byte, dtField d = BitVec.ofNat 3 (d.toNat / 16 % 8) := bitVec_forall (by decide +kernel)
theorem mulField_eq : ∀ d : Byte, mulField d = BitVec.ofNat 4 (d.toNat % 16) := bitVec_forall (by decide +kernel)
theorem tlField_eq : ∀ d : Byte, tlField d = BitVec.ofNat 7 (d.toNat % 128) := bitVec_forall (by decide +kernel)
theorem ksField_eq : ∀ d : Byte, ksField d = BitVec.ofNat 2 (d.toNat / 64) := bitVec_forall (by decide +kernel)
theorem arField_eq : ∀ d : Byte, arField d = BitVec.ofNat 5 (d.toNat % 32) := bitVec_forall (by decide +kernel)
theorem amField_eq : ∀ d : Byte, amField d = bitOf d 7 := bitVec_forall (by decide +kernel)
theorem d1rField_eq : ∀ d : Byte, d1rField d = BitVec.ofNat 5 (d.toNat % 32) := bitVec_forall (by decide +kernel)
theorem d2rField_eq : ∀ d : Byte, d2rField d = BitVec.ofNat 5 (d.toNat % 32) := bitVec_forall (by decide +kernel)
theorem slField_eq : ∀ d : Byte, slField d = BitVec.ofNat 4 (d.toNat / 16) := bitVec_forall (by decide +kernel)
theorem rrField_eq : ∀ d : Byte, rrField d = BitVec.ofNat 4 (d.toNat % 16) := bitVec_forall (by decide +kernel)
theorem ssgField_eq : ∀ d : Byte, ssgField d = BitVec.ofNat 4 (d.toNat % 16) := bitVec_forall (by decide +kernel)
theorem latchField_eq : ∀ d : Byte, latchField d = BitVec.ofNat 6 (d.toNat % 64) := bitVec_forall (by decide +kernel)
theorem fbField_eq : ∀ d : Byte, fbField d = BitVec.ofNat 3 (d.toNat / 8 % 8) := bitVec_forall (by decide +kernel)
theorem algoField_eq : ∀ d : Byte, algoField d = BitVec.ofNat 3 (d.toNat % 8) := bitVec_forall (by decide +kernel)
theorem panLField_eq : ∀ d : Byte, panLField d = bitOf d 7 := bitVec_forall (by decide +kernel)
theorem panRField_eq : ∀ d : Byte, panRField d = bitOf d 6 := bitVec_forall (by decide +kernel)
theorem amsField_eq : ∀ d : Byte, amsField d = BitVec.ofNat 2 (d.toNat / 16 % 4) := bitVec_forall (by decide +kernel)
theorem pmsField_eq : ∀ d : Byte, pmsField d = BitVec.ofNat 3 (d.toNat % 8) := bitVec_forall (by decide +kernel)
theorem lfoEnableField_eq : ∀ d : Byte, lfoEnableField d = bitOf d 3 := bitVec_forall (by decide +kernel)
theorem lfoSpeedField_eq : ∀ d : Byte, lfoSpeedField d = BitVec.ofNat 3 (d.toNat % 8) := bitVec_forall (by decide +kernel)
theorem keyHighField_eq : ∀ d : Byte, keyHighField d = bitOf d 2 := bitVec_forall (by decide +kernel)
theorem keyLowField_toNat : ∀ d : Byte, (keyLowField d).toNat = d.toNat % 4 := bitVec_forall (by decide +kernel)

theorem keyGateField_eq (n : OpNum) : ∀ d : Byte, keyGateField d n = bitOf d (3 + opNumber n) := by
  cases n <;> exact bitVec_forall (by decide +kernel)

theorem loadField_a : ∀ d : Byte, loadField d .a = bitOf d 0 := bitVec_forall (by decide +kernel)
theorem loadField_b : ∀ d : Byte, loadField d .b = bitOf d 1 := bitVec_forall (by decide +kernel)
theorem resetField_a : ∀ d : Byte, resetField d .a = bitOf d 4 := bitVec_forall (by decide +kernel)
theorem resetField_b : ∀ d : Byte, resetField d .b = bitOf d 5 := bitVec_forall (by decide +kernel)
theorem irqMask_eq : ∀ d : Byte, (d &&& irqMask != 0) = (d.toNat % 4 != 0) := bitVec_forall (by decide +kernel)

/-- The block of a frequency latch (10_state.md R50). -/
theorem latchBlk_toNat : ∀ l : BitVec 6, (latchBlk l).toNat = l.toNat / 8 := bitVec_forall (by decide +kernel)

/-- The keycode in numbers (40_tables.md R158). -/
theorem keycode_toNat (b : BitVec 3) (f : BitVec 11) :
    (keycode b f).toNat
      = b.toNat * 4 + [0, 0, 0, 0, 0, 0, 0, 1, 2, 3, 3, 3, 3, 3, 3, 3].getD (f.toNat / 128) 0 := by
  have h : ∀ (b : BitVec 3) (h : BitVec 4), (b ++ fkTable h).toNat
      = b.toNat * 4 + [0, 0, 0, 0, 0, 0, 0, 1, 2, 3, 3, 3, 3, 3, 3, 3].getD h.toNat 0 := by
    refine fun b => bitVec_forall ?_
    revert b
    exact bitVec_forall (by decide +kernel)
  have e : (f.extractLsb' 7 4).toNat = f.toNat / 128 := by
    simp only [BitVec.extractLsb'_toNat, Nat.shiftRight_eq_div_pow]
    omega
  rw [← e]
  exact h b _

/-- The samples per LFO step of a speed (40_tables.md R165). -/
theorem lfoSps_eq : ∀ k : BitVec 3, lfoSps k = [108, 77, 71, 67, 62, 44, 8, 5].getD k.toNat 0 :=
  bitVec_forall (by decide +kernel)

end Sys2Proof.Machine
end

