-- ==== Sys2Proof/Laws/PerInstr.lean ====
section
/-! SUPPORT. One lemma for each instruction: its command word carries the bits of its row of the opcode table. -/

namespace Sys2Proof

/-- A row whose mask covers only the address is decided by the address. -/
theorem command_and (address amask apat : BitVec 9) (data : Byte) (h : address &&& amask = apat) :
    (address ++ data : CommandWord) &&& (amask ++ (0 : Byte)) = apat ++ (0 : Byte) := by
  subst h
  ext i hi
  simp only [BitVec.getElem_and, BitVec.getElem_append]
  split <;> simp

end Sys2Proof

namespace Sys2Proof.Laws.TableRow

/-- The command word of an instruction, masked by its row of the opcode table, is the row's pattern. A host operation
has neither. -/
def Statement (i : Instr) : Prop :=
  ∀ w r, encode i = some w → i.row = some r → w &&& r.mask = r.pattern

/-- The statement of an instruction whose address, masked, is its row's pattern. -/
theorem of_address {i : Instr} {address amask apat : BitVec 9} {data : Byte}
    (ha : i.addressData = some (address, data)) (hr : i.row = some ⟨apat ++ (0 : Byte), amask ++ (0 : Byte)⟩)
    (h : address &&& amask = apat) : Statement i := by
  intro w r hw hr'
  rw [encode, ha] at hw
  rw [hr] at hr'
  cases hw
  cases hr'
  exact command_and address amask apat data h

theorem lfoCtrl (data : Byte) : Statement (.lfoCtrl data) :=
  of_address (amask := 0x1FF) (apat := 0x022) rfl rfl rfl

theorem timerAHi (data : Byte) : Statement (.timerAHi data) :=
  of_address (amask := 0x1FF) (apat := 0x024) rfl rfl rfl

theorem timerALo (data : Byte) : Statement (.timerALo data) :=
  of_address (amask := 0x1FF) (apat := 0x025) rfl rfl rfl

theorem timerB (data : Byte) : Statement (.timerB data) :=
  of_address (amask := 0x1FF) (apat := 0x026) rfl rfl rfl

theorem modeTimer (data : Byte) : Statement (.modeTimer data) :=
  of_address (amask := 0x1FF) (apat := 0x027) rfl rfl rfl

theorem keyOnOff (data : Byte) : Statement (.keyOnOff data) :=
  of_address (amask := 0x1FF) (apat := 0x028) rfl rfl rfl

theorem dtMul (c : Chan) (n : OpNum) (data : Byte) : Statement (.dtMul c n data) :=
  of_address (amask := 0x0F0) (apat := 0x030) rfl rfl (by cases c <;> cases n <;> rfl)

theorem tl (c : Chan) (n : OpNum) (data : Byte) : Statement (.tl c n data) :=
  of_address (amask := 0x0F0) (apat := 0x040) rfl rfl (by cases c <;> cases n <;> rfl)

theorem ksAr (c : Chan) (n : OpNum) (data : Byte) : Statement (.ksAr c n data) :=
  of_address (amask := 0x0F0) (apat := 0x050) rfl rfl (by cases c <;> cases n <;> rfl)

theorem amD1r (c : Chan) (n : OpNum) (data : Byte) : Statement (.amD1r c n data) :=
  of_address (amask := 0x0F0) (apat := 0x060) rfl rfl (by cases c <;> cases n <;> rfl)

theorem d2r (c : Chan) (n : OpNum) (data : Byte) : Statement (.d2r c n data) :=
  of_address (amask := 0x0F0) (apat := 0x070) rfl rfl (by cases c <;> cases n <;> rfl)

theorem slRr (c : Chan) (n : OpNum) (data : Byte) : Statement (.slRr c n data) :=
  of_address (amask := 0x0F0) (apat := 0x080) rfl rfl (by cases c <;> cases n <;> rfl)

theorem ssgEg (c : Chan) (n : OpNum) (data : Byte) : Statement (.ssgEg c n data) :=
  of_address (amask := 0x0F0) (apat := 0x090) rfl rfl (by cases c <;> cases n <;> rfl)

theorem fnumLo (c : Chan) (data : Byte) : Statement (.fnumLo c data) :=
  of_address (amask := 0x0FC) (apat := 0x0A0) rfl rfl (by cases c <;> rfl)

theorem fnumHiBlk (c : Chan) (data : Byte) : Statement (.fnumHiBlk c data) :=
  of_address (amask := 0x0FC) (apat := 0x0A4) rfl rfl (by cases c <;> rfl)

theorem sl3FnumLo (k : Slot3) (data : Byte) : Statement (.sl3FnumLo k data) :=
  of_address (amask := 0x1FC) (apat := 0x0A8) rfl rfl (by cases k <;> rfl)

theorem sl3FnumHiBlk (k : Slot3) (data : Byte) : Statement (.sl3FnumHiBlk k data) :=
  of_address (amask := 0x1FC) (apat := 0x0AC) rfl rfl (by cases k <;> rfl)

theorem fbAlgo (c : Chan) (data : Byte) : Statement (.fbAlgo c data) :=
  of_address (amask := 0x0FC) (apat := 0x0B0) rfl rfl (by cases c <;> rfl)

theorem panAmsPms (c : Chan) (data : Byte) : Statement (.panAmsPms c data) :=
  of_address (amask := 0x0FC) (apat := 0x0B4) rfl rfl (by cases c <;> rfl)

theorem ignored (bank : Bool) (addr data : Byte) : Statement (.ignored bank addr data) :=
  of_address (address := BitVec.ofBool bank ++ addr) (amask := 0x000) (apat := 0x000) rfl rfl (by simp)

theorem construct (family : Family) (chipCount clockHz sampleRateHz : Nat) (timerCallback irqCallback : Bool) : Statement (.construct family chipCount clockHz sampleRateHz timerCallback irqCallback) :=
  fun _ _ h _ => by cases h

theorem reset : Statement .reset :=
  fun _ _ h _ => by cases h

theorem generate (count volumePercent loudnessBoost : Int) (buf : List Sample) : Statement (.generate count volumePercent loudnessBoost buf) :=
  fun _ _ h _ => by cases h

theorem readStatus (port : Int) : Statement (.readStatus port) :=
  fun _ _ h _ => by cases h

theorem dump : Statement .dump :=
  fun _ _ h _ => by cases h

theorem restore (bytes : List Byte) : Statement (.restore bytes) :=
  fun _ _ h _ => by cases h

end Sys2Proof.Laws.TableRow
end

