-- ==== Sys2Proof/Tests/Slice0.lean ====
section
/-! SUPPORT. Tests of the model. Expected values are the spec's: the words are written from 30_encoding.md R100 to R108, the
results are those of 95_test_vectors.md or of the examples of 41 to 46, as each test says. -/

namespace Sys2Proof.Tests

-- The kernel evaluations run one after another, so that they do not share the memory.
set_option Elab.async false

open Sys2Proof Sys2Proof.Machine

/-! ### Helpers -/

/-- The state a step answers with, if it answers one. -/
def nextOf : Host.Outcome State Fault Refusal → Option State
  | .next t => some t
  | _ => none

/-- The refusal a step answers with. -/
def refusalOf : Host.Outcome State Fault Refusal → Option Refusal
  | .refused r => some r
  | _ => none

/-- The state after an instruction; the state before if it stops. -/
def after (i : Instr) (s : State) : State :=
  (nextOf (exec i s)).getD s

/-- The machine with another chip record. -/
def withChip (f : Chip → Chip) : State :=
  { State.reset with self := { State.reset.self with chip := f State.reset.self.chip } }

/-- The machine with an instance of another configuration, just reset. -/
def withConfig (f : Config → Config) : State :=
  { State.reset with self := Instance.afterReset (f testConfig) }

/-- A three-channel machine. -/
def onYm2203 : State :=
  withConfig fun g => { g with family := .ym2203 }

/-- A machine of two instances, turned to the first. -/
def twoInstances : State :=
  { State.reset with later := [Instance.afterReset { testConfig with family := .ym2203 }] }

/-- A host operation waiting on the instance operated on. -/
def waiting (s : State) (call : Call) : State :=
  s.withCall call

/-- An operator with the register fields of 95_test_vectors.md part 4: `ks = 0`, `ksrVal = 2`, `rr = 15`. -/
def operator (state : EgState) (volume : Nat) (ar d1r d2r : BitVec 5) (sl ssg : BitVec 4) : Operator :=
  { Operator.initial with
    ksrVal := 2, rr := 15, ar := ar, d1r := d1r, d2r := d2r, sl := sl, ssg := ssg, state := state, volume := volume
    key := state.pastRel }

/-- The machine with operator 1 of channel 0 replaced. -/
def withOperator (o : Operator) : State :=
  { State.reset with self := State.reset.self.updOp .ch0 .op1 fun _ => o }

/-! ### Well-formedness: an ill-formed term for each check -/

theorem test_wf_refuses_upper_channel :
    (Instr.tl .ch3 .op1 0).wf false true = false ∧ (Instr.fbAlgo .ch5 0).wf false true = false := by decide
theorem test_wf_refuses_missing_lfo :
    (Instr.lfoCtrl 0).wf true false = false ∧ (Instr.panAmsPms .ch0 0).wf true false = false := by decide
theorem test_wf_refuses_ignored_at_a_mapped_address : (Instr.ignored false 0xB4 0).wf true true = false := by decide
theorem test_wf_refuses_ignored_in_a_missing_bank : (Instr.ignored true 0x00 0).wf false true = false := by decide
theorem test_wf_refuses_empty_construction :
    (Instr.construct .ym2612 0 8000000 44100 true true).wf true true = false
      ∧ (Instr.construct .ym2612 1 0 44100 true true).wf true true = false
      ∧ (Instr.construct .ym2612 1 8000000 0 true true).wf true true = false := by decide
theorem test_wf_refuses_negative_count : (Instr.generate (-1) 100 0 []).wf true true = false := by decide
theorem test_wf_refuses_short_buffer : (Instr.generate 2 100 0 [0, 0, 0]).wf true true = false := by decide
theorem test_wf_refuses_port_4 :
    (Instr.readStatus 4).wf true true = false ∧ (Instr.readStatus (-1)).wf true true = false := by decide
theorem test_wf_refuses_restore_length :
    (Instr.restore (List.replicate 256 0)).wf true true = false := by decide +kernel

/-! ### Decoding: a word for every constructor, from the encodings of 30_encoding.md -/

/-- What a word decodes to on YM2612. -/
def word (w : CommandWord) : Option Instr :=
  match decodeCommand .ym2612 w with
  | .ok i => some i
  | .error _ => none

theorem test_decode_lfoCtrl : word 0b0_00100010_00001011 = some (.lfoCtrl 0x0B) := by decide
theorem test_decode_timerAHi : word 0b0_00100100_11111111 = some (.timerAHi 0xFF) := by decide
theorem test_decode_timerALo : word 0b0_00100101_00000111 = some (.timerALo 0x07) := by decide
theorem test_decode_timerB : word 0b0_00100110_11110000 = some (.timerB 0xF0) := by decide
theorem test_decode_modeTimer : word 0b0_00100111_00010101 = some (.modeTimer 0x15) := by decide
theorem test_decode_keyOnOff : word 0b0_00101000_11110110 = some (.keyOnOff 0xF6) := by decide
theorem test_decode_dtMul : word 0b0_0011_00_01_01110101 = some (.dtMul .ch1 .op1 0x75) := by decide
theorem test_decode_tl : word 0b0_0100_10_00_11111111 = some (.tl .ch0 .op2 0xFF) := by decide
theorem test_decode_ksAr : word 0b0_0101_01_00_11011111 = some (.ksAr .ch0 .op3 0xDF) := by decide
theorem test_decode_amD1r : word 0b1_0110_11_10_10011111 = some (.amD1r .ch5 .op4 0x9F) := by decide
theorem test_decode_d2r : word 0b0_0111_00_00_11111111 = some (.d2r .ch0 .op1 0xFF) := by decide
theorem test_decode_slRr : word 0b1_1000_00_00_10100101 = some (.slRr .ch3 .op1 0xA5) := by decide
theorem test_decode_ssgEg : word 0b0_1001_00_00_00011101 = some (.ssgEg .ch0 .op1 0x1D) := by decide
theorem test_decode_fnumLo : word 0b1_101000_01_01101001 = some (.fnumLo .ch4 0x69) := by decide
theorem test_decode_fnumHiBlk : word 0b0_101001_00_00100010 = some (.fnumHiBlk .ch0 0x22) := by decide
theorem test_decode_sl3FnumLo : word 0b0_101010_01_00000000 = some (.sl3FnumLo .k1 0x00) := by decide
theorem test_decode_sl3FnumHiBlk : word 0b0_101011_10_00001100 = some (.sl3FnumHiBlk .k2 0x0C) := by decide
theorem test_decode_fbAlgo : word 0b0_101100_00_00111101 = some (.fbAlgo .ch0 0x3D) := by decide
theorem test_decode_panAmsPms : word 0b1_101101_10_11110111 = some (.panAmsPms .ch5 0xF7) := by decide
theorem test_decode_ignored :
    word 0b0_00110011_01110001 = some (.ignored false 0x33 0x71)
      ∧ word 0b1_00100111_00010101 = some (.ignored true 0x27 0x15)
      ∧ word 0b1_10101000_00010010 = some (.ignored true 0xA8 0x12) := by decide
theorem test_decode_table_word :
    decodeTableWord 24 0x0220B = some (.lfoCtrl 0x0B) ∧ decodeTableWord 24 0x20000 = none
      ∧ decodeTableWord 8 3 = some (.readStatus 3) := by decide
/-- 30_encoding.md R113: `keyon 4, 3` and `timera 1020`. -/
theorem test_pseudo_instructions :
    (AsmLine.keyon .ch4 3).expand = [.writeRegister 0x28 0x35]
      ∧ (AsmLine.timera 1020).expand = [.writeRegister 0x24 0xFF, .writeRegister 0x25 0x00] := by decide

/-! ### Tables (95_test_vectors.md V-T1) -/

theorem test_sine_table :
    [0, 1, 127, 128, 255, 256, 511, 512, 767, 768, 1023].map (fun k => sinWave (BitVec.ofNat 10 k))
      = [4274, 3462, 258, 254, 0, 0, 4274, 4275, 1, 1, 4275] := by decide +kernel
theorem test_level_table :
    [0, 1, 2, 510, 511, 512, 6654, 6655, 6656].map tlLookup = [8168, -8168, 8148, 4096, -4096, 4084, 1, -1, 0] := by
  decide +kernel
theorem test_operator_output :
    [0, 128, 256, 384, 512, 640, 768, 896, 1023].map (opOut 0) = [25, 5792, 8168, 5760, -25, -5792, -8168, -5760, -25]
      ∧ [32, 64, 100, 256, 831, 832, 1016].map (fun e => opOut e 256) = [5776, 4084, 2766, 510, 1, 0, 0] := by
  decide +kernel
theorem test_pm_table :
    (List.range 16).map (pmTab 127 7) = [0, 0, 63, 94, 127, 127, 158, 190, 190, 158, 127, 127, 94, 63, 0, 0]
      ∧ (List.range 16).map (pmTab 0x40 4) = [0, 0, 4, 8, 8, 8, 12, 16, 16, 12, 8, 8, 8, 4, 0, 0] := by
  decide +kernel

/-! ### One step of each instruction -/

/-- 95_test_vectors.md V-R1. -/
theorem test_lfoCtrl : (after (.lfoCtrl 0x0B) State.reset).self.chip.lfoInc = 250406 := by decide +kernel
theorem test_lfoCtrl_off :
    (after (.lfoCtrl 0x07) (withChip fun k => { k with lfoInc := 9 })).self.chip.lfoInc = 0 := by decide +kernel
theorem test_timerAHi : (after (.timerAHi 0xFF) State.reset).self.chip.ta = 0x3FC := by decide +kernel
theorem test_timerALo : (after (.timerALo 0x07) (withChip fun k => { k with ta := 0x3FC })).self.chip.ta = 0x3FF := by
  decide +kernel
theorem test_timerB : (after (.timerB 0xF0) State.reset).self.chip.tb = 240 := by decide +kernel
/-- V-I7: the load of both timers. -/
theorem test_modeTimer :
    let t := after (.modeTimer 0x0F) (withChip fun k => { k with ta := 1020, tb := 255 })
    t.self.events = [.timerReload .b 16, .timerReload .a 4] ∧ t.self.chip.taCnt = 16384 ∧ t.self.chip.tbCnt = 65536 := by
  decide +kernel
/-- V-I2: the flag is reset while timer A runs on. -/
theorem test_modeTimer_flag_reset :
    let t := after (.modeTimer 0x15) (withChip fun k => { k with mode := 5, taCnt := 16384, status := 1, irq := true })
    t.self.chip.status = 0 ∧ t.self.events = [.irqLevel false] ∧ t.self.chip.taCnt = 16384 := by decide +kernel
/-- V-R1: all four operators of channel 5. -/
theorem test_keyOnOff :
    let t := after (.keyOnOff 0xF6) State.reset
    [OpNum.op1, .op2, .op3, .op4].map (fun n => ((t.self.op .ch5 n).state, (t.self.op .ch5 n).volume))
      = List.replicate 4 (EgState.att, 1023) := by decide +kernel
/-- V-R4: on three channels bit 2 selects no upper channel. -/
theorem test_keyOnOff_three_channels :
    let t := after (.keyOnOff 0xF6) onYm2203
    (t.self.op .ch2 .op4).state = .att ∧ (t.self.op .ch5 .op4).state = .off ∧ t.self.shadow 0x28 = 0xF6 := by
  decide +kernel
/-- V-R2. -/
theorem test_dtMul :
    let t := after (.dtMul .ch1 .op1 0x75) State.reset
    (t.self.op .ch1 .op1).dt = 7 ∧ (t.self.op .ch1 .op1).mul2 = 10 := by decide +kernel
theorem test_dtMul_half : ((after (.dtMul .ch1 .op4 0x00) State.reset).self.op .ch1 .op4).mul2 = 1 := by decide +kernel
theorem test_tl : ((after (.tl .ch0 .op2 0xFF) State.reset).self.op .ch0 .op2).tl = 127 := by decide +kernel
theorem test_ksAr :
    let t := after (.ksAr .ch0 .op3 0xDF) State.reset
    (t.self.op .ch0 .op3).ks = 3 ∧ (t.self.op .ch0 .op3).ar = 31 := by decide +kernel
theorem test_amD1r :
    let t := after (.amD1r .ch0 .op1 0x9F) State.reset
    (t.self.op .ch0 .op1).am = true ∧ (t.self.op .ch0 .op1).d1r = 31 := by decide +kernel
theorem test_d2r : ((after (.d2r .ch0 .op1 0xFF) State.reset).self.op .ch0 .op1).d2r = 31 := by decide +kernel
theorem test_slRr :
    let t := after (.slRr .ch0 .op1 0xA5) State.reset
    (t.self.op .ch0 .op1).sl = 10 ∧ (t.self.op .ch0 .op1).rr = 5 := by decide +kernel
theorem test_ssgEg : ((after (.ssgEg .ch0 .op1 0x1D) State.reset).self.op .ch0 .op1).ssg = 13 := by decide +kernel
/-- V-R3: the latch is used and reused. -/
theorem test_fnumLo :
    let t := after (.fnumLo .ch1 0xFF) (withChip fun k => { k with fnH := 0x3F })
    (t.self.ch .ch1).fnum = 2047 ∧ (t.self.ch .ch1).blk = 7 ∧ (t.self.ch .ch1).kcode = 31 := by decide +kernel
theorem test_fnumLo_latch_reused :
    let t := after (.fnumLo .ch2 0x00) (withChip fun k => { k with fnH := 0x3F })
    (t.self.ch .ch2).fnum = 1792 ∧ (t.self.ch .ch2).blk = 7 ∧ t.self.chip.fnH = 0x3F := by decide +kernel
theorem test_fnumHiBlk : (after (.fnumHiBlk .ch1 0xFF) State.reset).self.chip.fnH = 0x3F := by decide +kernel
/-- The example of R242: latch 0x1A and byte 0x00 to 0xA9. -/
theorem test_sl3FnumLo :
    (after (.sl3FnumLo .k1 0x00) (withChip fun k => { k with sl3FnH := 0x1A })).self.chip.sl3 .k1 = ⟨0x200, 3, 12⟩ := by
  decide +kernel
theorem test_sl3FnumHiBlk : (after (.sl3FnumHiBlk .k1 0x1A) State.reset).self.chip.sl3FnH = 0x1A := by decide +kernel
theorem test_fbAlgo :
    let t := after (.fbAlgo .ch0 0x3D) State.reset
    (t.self.ch .ch0).algo = 5 ∧ (t.self.ch .ch0).fb = 7 ∧ (t.self.ch .ch0).fbShift = 13 := by decide +kernel
theorem test_panAmsPms :
    let h := (after (.panAmsPms .ch0 0x35) State.reset).self.ch .ch0
    h.panL = false ∧ h.panR = false ∧ h.ams = 3 ∧ h.pms = 5 := by decide +kernel
theorem test_panAmsPms_ym2203 : nextOf (exec (.panAmsPms .ch0 0x35) onYm2203) = some onYm2203 := by decide +kernel
theorem test_ignored : nextOf (exec (.ignored false 0x33 0x55) State.reset) = some State.reset := by decide +kernel
/-- 40_tables.md R167: 8 MHz at 44.1 kHz with the prescaler 144. -/
theorem test_construct :
    let t := after (.construct .ym2608 2 8000000 44100 true false) State.reset
    t.result = .handles [1, 2] ∧ t.instances.length = 3
      ∧ (t.later.map fun x => (x.cfg.freqNum, x.cfg.freqDen)) = List.replicate 2 (8000000, 44100 * 144) := by
  decide +kernel
/-- V-S1: RESET makes the state the model starts from. -/
theorem test_reset :
    nextOf (exec .reset (withOperator (operator .att 5 20 3 4 5 8))) = some State.reset := by decide +kernel
/-- V-P4, and the rest of the buffer stays. -/
theorem test_generate : (after (.generate 2 100 0 [1, -2, 3, 4, 5]) State.reset).buf = [1, -2, 3, 4, 5] := by
  decide +kernel
/-- V-I1, sample 4. -/
theorem test_generate_timer_a :
    let t := after (.generate 1 100 0 [0, 0]) (withChip fun k => { k with mode := 5, ta := 1020, taCnt := 4096 })
    t.self.chip.status = 1 ∧ t.self.events = [.irqLevel true, .timerReload .a 4] ∧ t.self.chip.taCnt = 16384 := by
  decide +kernel
theorem test_readStatus :
    (after (.readStatus 3) (withChip fun k => { k with status := 1 })).result = .status 1
      ∧ refusalOf (exec (.readStatus 4) State.reset) = some (.portOutOfRange 4) := by decide +kernel
/-- V-S1 on YM2203. -/
theorem test_dump :
    (after .dump onYm2203).result
      = .bytes (List.replicate 0x27 0 ++ [0x30] ++ List.replicate 0xD8 0) := by decide +kernel
/-- V-S2 on YM2203: restoring the reset dump changes nothing but the dirty markers, set already. -/
theorem test_restore :
    nextOf (exec (.restore (List.replicate 0x27 0 ++ [0x30] ++ List.replicate 0xD8 0)) onYm2203) = some onYm2203 := by
  decide +kernel
theorem test_restore_length :
    refusalOf (exec (.restore [0]) State.reset) = some (.restoreLength 1) := by decide +kernel

/-! ### Envelope, phase and LFO (95_test_vectors.md parts 4 to 6) -/

/-- V-E2: the attack of `ar = 26` at ticks 1 and 2, from 1023. -/
theorem test_attack :
    let o := (operator .att 1023 26 0 0 0 0).egStep testParams 1
    o.volume = 767 ∧ (o.egStep testParams 2).volume = 671 := by decide +kernel
/-- V-E4: the decay of `d1r = 28` at ticks 1 and 2, and the release of `rr = 15` at tick 21. -/
theorem test_decay_release :
    (let o := (operator .dec 0 31 28 26 2 0).egStep testParams 1
     o.volume = 8 ∧ (o.egStep testParams 2).volume = 12)
      ∧ ((operator .rel 94 31 28 26 2 0).egStep testParams 21).volume = 102 := by decide +kernel
/-- V-E-SSG, shapes 0xB and 0xE at tick 26. -/
theorem test_ssg :
    ((operator .sus 800 31 31 31 1 0xB).egStep testParams 26).volOut = 0
      ∧ ((operator .sus 800 31 31 31 1 0xE).egStep testParams 26).state = .att
      ∧ ((operator .sus 800 31 31 31 1 0xE).egStep testParams 26).volume = 832 := by decide +kernel
/-- V-F1: detune 7, a negative detune that wraps. -/
theorem test_increments :
    let x := (State.reset.self.updOp .ch0 .op1 fun o => { o with dt := 7, mul := 1 }).updCh .ch0 fun h =>
      { h with fnum := 1, blk := 0 }
    (x.refresh.op .ch0 .op1).incr = 131070 := by decide +kernel
/-- V-L1, sample 32. -/
theorem test_lfo :
    let k := ({ Chip.cleared with lfoInc := 2097152, lfoCnt := 65011712 }).lfoAdvance
    k.lfoAm = 8 ∧ k.lfoPm = 1 := by decide +kernel

/-! ### Witnesses: for each statement with hypotheses, inputs that meet them together, each clause at its boundary -/

theorem test_witness_ChannelAndOperatorSelection :
    (0x30 ≤ (0x33 : Byte).toNat ∧ (0x33 : Byte).toNat % 4 = 3) ∧ (0xFF : Byte).toNat % 4 = 3
      ∧ (0x30 ≤ (0x30 : Byte).toNat ∧ (0x30 : Byte).toNat % 4 ≠ 3 ∧ (0x30 : Byte).toNat ≤ 0x9F)
      ∧ ((0x9E : Byte).toNat % 4 ≠ 3 ∧ (0x9E : Byte).toNat ≤ 0x9F)
      ∧ ((0xA0 : Byte).toNat % 4 ≠ 3 ∧ (0xA0 : Byte).toNat / 4 = 0x28) ∧ (0xA6 : Byte).toNat / 4 = 0x29
      ∧ (0xB2 : Byte).toNat / 4 = 0x2C ∧ (0xB6 : Byte).toNat / 4 = 0x2D := by decide
theorem test_witness_DecodeOfEncodeIsTheInstruction :
    (Instr.tl .ch2 .op4 0x7F).wf Family.ym2203.six Family.ym2203.hasLfoPan = true
      ∧ (Instr.panAmsPms .ch5 0xFF).wf Family.ym2612.six Family.ym2612.hasLfoPan = true
      ∧ (Instr.ignored false 0xB4 0).wf Family.ym2203.six Family.ym2203.hasLfoPan = true
      ∧ (Instr.generate 1 100 0 [0, 0]).wf true true = true ∧ (Instr.readStatus 3).wf true true = true
      ∧ (Instr.restore (List.replicate 256 0)).wf Family.ym2203.six false = true := by decide +kernel
theorem test_witness_EncodeOfDecodeIsTheWord :
    decodeCommand .ym2612 0x1B6FF = .ok (.panAmsPms .ch5 0xFF)
      ∧ decodeCommand .ym2203 0x0FFFF = .ok (.ignored false 0xFF 0xFF) := ⟨rfl, rfl⟩
theorem test_witness_EveryCommandWordIsMappedOrIgnored :
    ((0x1FFFF : CommandWord).getLsbD 16 = true → Family.ym2612.six = true) ∧ State.reset.self.cfg.family = .ym2612
      ∧ ((0x0FFFF : CommandWord).getLsbD 16 = true → Family.ym2203.six = true)
      ∧ onYm2203.self.cfg.family = .ym2203 := by decide
theorem test_witness_TableRowsPickOneInstruction :
    decodeCommand .ym2612 0x03871 = .ok (.dtMul .ch0 .op2 0x71) ∧ isIgnored (.dtMul .ch0 .op2 0x71) = false
      ∧ isIgnored (.lfoCtrl 0) = false ∧ (Instr.lfoCtrl 0).row = some ⟨0x02200, 0x1FF00⟩
      ∧ (Instr.dtMul .ch5 .op1 0).row = some ⟨0x03000, 0x0F000⟩ := ⟨rfl, rfl, rfl, rfl, rfl⟩
theorem test_witness_IgnoredWritesChangeNothing :
    (true = true → Family.ym2608.six = true) ∧ (false = true → Family.ym2203.six = true)
      ∧ State.reset.self.cfg.family = .ym2612 ∧ decodeRegister true true 0x2F 0 = .ignored true 0x2F 0
      ∧ decodeRegister false false 0xB6 0 = .ignored false 0xB6 0 ∧ decodeRegister true false 0xB6 0 = .panAmsPms .ch2 0 := by
  decide
theorem test_witness_RegisterWritesAreMaskedAndBounded :
    (∀ a ∈ [(-1 : Int), 0, 511, 512], (waiting State.reset (.writeRegister a 300)).pending
        = ⟨(waiting State.reset (.writeRegister a 300)).handle, .writeRegister a 300⟩ :: [])
      ∧ (waiting onYm2203 (.writeRegister 256 (-1))).pending = ⟨0, .writeRegister 256 (-1)⟩ :: []
      ∧ onYm2203.self.cfg.family.six = false := by decide
theorem test_witness_StepRunsTheDecodedInstruction :
    (waiting twoInstances .dump).pending = ⟨0, .dump⟩ :: [] ∧ 0 < (waiting twoInstances .dump).instances.length
      ∧ decodeCall .ym2612 .dump = .ok .dump ∧ decodeCall .ym2612 (.writeRegister 511 0) = .ok (.ignored true 0xFF 0)
      ∧ ({ twoInstances with pending := [⟨2, .dump⟩] } : State).pending = ⟨2, .dump⟩ :: []
      ∧ twoInstances.instances.length ≤ 2 := ⟨rfl, by decide, rfl, rfl, rfl, by decide⟩
theorem test_witness_NothingHappensBetweenOperations : State.reset.pending = [] ∧ 0 ≤ State.reset.self.chip.tbCnt := by
  decide
theorem test_witness_MeaninglessOperationsAreRefused :
    (∀ a ∈ [(-1 : Int), 512], ¬(0 ≤ a ∧ a < (if State.reset.self.cfg.family.six then 512 else 256)))
      ∧ (¬(0 ≤ (256 : Int) ∧ (256 : Int) < (if onYm2203.self.cfg.family.six then 512 else 256)))
      ∧ (waiting onYm2203 (.writeRegister 256 0)).pending = ⟨0, .writeRegister 256 0⟩ :: []
      ∧ (((-1 : Int) < 0 ∨ (([] : List Sample).length : Int) < 2 * (-1)) ∧ ([0] : List Sample).length < 2)
      ∧ ((-1 : Int) < 0 ∨ (3 : Int) < -1) ∧ ((4 : Int) < 0 ∨ (3 : Int) < 4)
      ∧ ((List.replicate 511 0 : List Byte).length ≠ (if State.reset.self.cfg.family.six then 512 else 256)) := by
  decide +kernel
theorem test_witness_OperandsTheFamilyLacksAreRefused :
    onYm2203.self.live .ch3 = false ∧ onYm2203.self.live .ch5 = false ∧ onYm2203.self.cfg.family.six = false
      ∧ Instr.tl .ch3 .op1 0 ∈ [Instr.dtMul .ch3 .op1 0, .tl .ch3 .op1 0] := by decide
theorem test_witness_InstancesDoNotInteract :
    (∃ t, step { twoInstances with pending := [⟨1, .writeRegister 0x22 0⟩] } = .next t)
      ∧ 0 < twoInstances.instances.length ∧ (0 : Nat) ≠ 1
      ∧ twoInstances.self = State.reset.self ∧ ∃ t, exec .dump twoInstances = .next t :=
  ⟨⟨_, rfl⟩, by decide, by decide, rfl, ⟨_, rfl⟩⟩

/-- A state that meets the invariant and has an operation waiting. -/
theorem waiting_inv : (waiting onYm2203 .dump).Inv := by
  refine ⟨fun x hx => ?_, fun f => ?_⟩
  · obtain rfl : x = Instance.afterReset { testConfig with family := .ym2203 } := by
      simpa [waiting, State.withCall, State.instances, onYm2203, withConfig, State.reset] using hx
    exact Instance.afterReset_inv _ (by decide) ⟨by decide, by decide⟩
  · cases f <;> exact ⟨by decide, by decide⟩

theorem test_witness_StepKeepsTheInvariant :
    (waiting onYm2203 .dump).Inv ∧ ∃ t, step (waiting onYm2203 .dump) = .next t := ⟨waiting_inv, _, rfl⟩
theorem test_witness_ResetMeetsTheInvariant :
    0 < testConfig.freqNum ∧ 0 < testConfig.freqDen ∧ 1 ≤ testConfig.params.relMul ∧ 1 ≤ testConfig.params.relMulSsg := by
  decide

theorem test_witness_LfoCtrlWrite :
    State.reset.self.reg.wf = true ∧ State.reset.self.cfg.family.hasLfoPan = true
      ∧ onYm2203.self.reg.wf = true ∧ onYm2203.self.cfg.family.hasLfoPan = false := by decide
theorem test_witness_TimerPeriodWrites : State.reset.self.reg.wf = true := by decide
theorem test_witness_ModeTimerWrite :
    (let s := withChip fun k => { k with status := 3, irq := true, taCnt := 1, tbCnt := 1 }
     s.self.reg.wf = true ∧ s.self.chip.irq = s.self.chip.level)
      ∧ State.reset.self.chip.irq = State.reset.self.chip.level := by decide
theorem test_witness_KeyOnOffWrite :
    State.reset.self.reg.wf = true ∧ (0x13 : Byte).toNat % 4 = 3 ∧ (0xF6 : Byte).toNat % 4 ≠ 3
      ∧ chanIndex .ch5 = (0xF6 : Byte).toNat % 4
        + (if bitOf 0xF6 2 && State.reset.self.cfg.family.six then 3 else 0)
      ∧ chanIndex .ch2 = (0xF6 : Byte).toNat % 4 + (if bitOf 0xF6 2 && onYm2203.self.cfg.family.six then 3 else 0) := by
  decide

/-- The hypotheses of a write to a channel: its first and last channel, and the last one of three. -/
theorem channel_write_hypotheses :
    (State.reset.self.live .ch0 = true ∧ State.reset.self.live .ch5 = true ∧ State.reset.self.reg.wf = true)
      ∧ onYm2203.self.live .ch2 = true ∧ onYm2203.self.reg.wf = true := by decide

theorem test_witness_DetuneMultiplierWrite :
    (State.reset.self.live .ch5 = true ∧ State.reset.self.reg.wf = true) ∧ (0 : BitVec 3).toNat < 4
      ∧ (3 : BitVec 3).toNat < 4 := ⟨channel_write_hypotheses.1.2, by decide, by decide⟩
theorem test_witness_TotalLevelWrite : State.reset.self.live .ch5 = true ∧ State.reset.self.reg.wf = true :=
  channel_write_hypotheses.1.2
theorem test_witness_KeyScaleAttackWrite : onYm2203.self.live .ch2 = true ∧ onYm2203.self.reg.wf = true :=
  channel_write_hypotheses.2
theorem test_witness_DecayAndReleaseWrites : State.reset.self.live .ch5 = true ∧ State.reset.self.reg.wf = true :=
  channel_write_hypotheses.1.2
theorem test_witness_SsgEgWrite : onYm2203.self.live .ch2 = true ∧ onYm2203.self.reg.wf = true :=
  channel_write_hypotheses.2
theorem test_witness_FrequencyLowWrite : State.reset.self.live .ch5 = true ∧ State.reset.self.reg.wf = true :=
  channel_write_hypotheses.1.2
theorem test_witness_FrequencyHighWrite : onYm2203.self.live .ch2 = true ∧ onYm2203.self.reg.wf = true :=
  channel_write_hypotheses.2
theorem test_witness_Slot3FrequencyWrites : State.reset.self.reg.wf = true := channel_write_hypotheses.1.2.2
theorem test_witness_FeedbackAlgorithmWrite : State.reset.self.live .ch5 = true ∧ State.reset.self.reg.wf = true :=
  channel_write_hypotheses.1.2
theorem test_witness_PanDepthWrite :
    (State.reset.self.live .ch5 = true ∧ State.reset.self.reg.wf = true ∧ State.reset.self.cfg.family.hasLfoPan = true)
      ∧ onYm2203.self.live .ch2 = true ∧ onYm2203.self.reg.wf = true
      ∧ onYm2203.self.cfg.family.hasLfoPan = false := by decide
theorem test_witness_ConstructMakesResetInstances : 0 < 1 ∧ 0 < 8000000 ∧ 0 < 44100 := by decide
theorem test_witness_GenerateAddsClippedSamples :
    (0 : Int) ≤ 0 ∧ (0 : Int) ≤ 1 ∧ 2 * (1 : Int) ≤ (([7, 8, 9] : List Sample).length : Int)
      ∧ 0 < (1 : Int).toNat ∧ ([7, 8, 9] : List Sample)[2 * 0]? = some 7 ∧ ([7, 8, 9] : List Sample)[2 * 0 + 1]? = some 8
      ∧ 2 * (1 : Int).toNat ≤ 2 ∧ State.reset.self.cfg.post = .identity := by decide
/-- GENERATE answers a next state for a count and a buffer in range. -/
theorem exists_generate {count v l : Int} {buf : List Sample} {s : State} (h0 : ¬count < 0)
    (h1 : ¬(buf.length : Int) < 2 * count) : ∃ t, exec (.generate count v l buf) s = .next t := by
  refine ⟨?_, ?_⟩
  rotate_left
  · simp only [exec, execGenerate]
    rw [if_neg h0, if_neg h1]

theorem test_witness_GenerateFrame :
    (∃ t, exec (.generate 1 100 0 [0, 0]) onYm2203 = .next t) ∧ onYm2203.self.live .ch3 = false :=
  ⟨exists_generate (by decide) (by decide), by decide⟩
theorem test_witness_ReadStatusReturnsTheFlags :
    (0 : Int) ≤ 0 ∧ (3 : Int) ≤ 3 ∧ (waiting onYm2203 .dump).Inv := ⟨by decide, by decide, waiting_inv⟩
theorem test_witness_DumpReturnsTheShadow :
    (waiting onYm2203 .dump).Inv ∧ (0x33 : BitVec 9).toNat < 256 ∧ (0xFF : BitVec 9).toNat < 256
      ∧ mapped false false ((0xFF : BitVec 9).getLsbD 8) ((0xFF : BitVec 9).extractLsb' 0 8) = false :=
  ⟨waiting_inv, by decide, by decide, by decide⟩
/-- RESTORE answers a next state for an array of the right length. -/
theorem exists_restore {bytes : List Byte} {s : State} (h : bytes.length = (registerSpace s.self.cfg.family).length) :
    ∃ t, exec (.restore bytes) s = .next t := ⟨_, if_pos h⟩

theorem test_witness_RestoreTakesTheShadow :
    (State.reset.self.reg.wf = true
        ∧ (List.replicate 512 0 : List Byte).length = (if State.reset.self.cfg.family.six then 512 else 256))
      ∧ (onYm2203.self.reg.wf = true
        ∧ (List.replicate 256 0 : List Byte).length = (if onYm2203.self.cfg.family.six then 512 else 256))
      ∧ (∀ a : BitVec 9, 512 ≠ a.toNat) ∧ onYm2203.self.live .ch3 = false :=
  ⟨by decide +kernel, by decide +kernel, fun a => by omega, by decide⟩
theorem test_witness_RestoreSetsTheRegisterFields :
    State.reset.self.chip.irq = State.reset.self.chip.level ∧ State.reset.self.live .ch5 = true
      ∧ ∃ t, exec (.restore (List.replicate 512 0)) State.reset = .next t :=
  ⟨by decide, by decide, exists_restore (by decide +kernel)⟩

theorem test_witness_EveryTickStepsEveryOperator :
    Operator.initial.state = .off ∧ onYm2203.self.live .ch2 = true ∧ onYm2203.self.live .ch3 = false := by decide
theorem test_witness_AttackStep :
    (operator .att 1023 31 0 0 0 0).state = .att ∧ (operator .att 1023 31 0 0 0 0).volume ≤ 1023
      ∧ 94 ≤ idx 31 0 ∧ idx 30 1 < 94 ∧ ¬gateOpen (idx 20 2) 1
      ∧ (gateOpen (idx 26 2) 27 ∧ (1 : Int) + (-((1 : Int) + 1) * tickIncrement testParams (idx 26 2) 27) / 16 ≤ 0)
      ∧ (gateOpen (idx 26 2) 1 ∧ (0 : Int) < 1023 + (-((1023 : Int) + 1) * tickIncrement testParams (idx 26 2) 1) / 16)
      ∧ 1 ≤ tickIncrement testParams (idx 26 2) 1 := by
  unfold gateOpen; decide +kernel
theorem test_witness_DecayAndSustainSteps :
    ((operator .dec 1023 31 28 26 15 8).state = .dec ∧ gateOpen (idx 28 2) 1 ∧ ¬gateOpen (idx 20 2) 1)
      ∧ (operator .sus 0 31 28 26 2 7).state = .sus ∧ (operator .sus 0 31 28 26 2 7).ssg.toNat < 8 := by
  unfold gateOpen; decide +kernel
theorem test_witness_SsgSustainStep :
    (operator .sus 799 31 31 31 1 8).state = .sus ∧ 8 ≤ (operator .sus 799 31 31 31 1 8).ssg.toNat
      ∧ 799 + 4 * tickIncrement testParams (idx 31 2) 1 = 831 ∧ 800 + 4 * tickIncrement testParams (idx 31 2) 1 = 832
      ∧ (8 : BitVec 4).toNat % 2 = 0 ∧ (15 : BitVec 4).toNat % 2 = 1 := by decide +kernel
theorem test_witness_ReleaseStep :
    (operator .rel 1022 0 0 0 0 0).state = .rel ∧ gateOpen (idx (2 * 15 + 1) 2) 1 ∧ ¬gateOpen (idx (2 * 2 + 1) 2) 1
      ∧ 1023 ≤ min 1023 (1022 + 1 * tickIncrement testParams (idx (2 * 15 + 1) 2) 1) := by
  unfold gateOpen; decide +kernel
theorem test_witness_OutputAttenuation :
    (operator .sus 1023 0 0 0 0 15).volume ≤ 1023 ∧ isGenerate (.keyOnOff 0xF0) = false ∧ Instr.keyOnOff 0xF0 ≠ .reset
      ∧ ∃ t, exec (.keyOnOff 0xF0) State.reset = .next t := ⟨by decide, rfl, by decide, _, rfl⟩
theorem test_witness_VolumeIsMonotone :
    (operator .sus 800 31 31 31 1 8).volume ≤ 1023 ∧ (operator .att 1023 0 0 0 0 0).state = .att
      ∧ (operator .sus 800 31 31 31 1 8).state ≠ .att
      ∧ ((operator .sus 800 31 31 31 1 8).egStep testParams 1).state = .att := by decide +kernel
theorem test_witness_StateTransitions :
    ((operator .sus 800 31 31 31 1 8).egStep testParams 1).state ≠ (operator .sus 800 31 31 31 1 8).state
      ∧ (operator .rel 5 0 0 0 0 0).Inv ∧ ((operator .rel 5 0 0 0 0 0).keyOn testParams).state ≠ .rel
      ∧ (operator .att 5 0 0 0 0 0).Inv ∧ (operator .att 5 0 0 0 0 0).keyOff.state ≠ .att
      ∧ (isGenerate (.keyOnOff 0xF0) = false ∧ Instr.keyOnOff 0xF0 ≠ .reset
        ∧ ∃ t, exec (.keyOnOff 0xF0) State.reset = .next t
          ∧ (t.self.op .ch0 .op1).state ≠ (State.reset.self.op .ch0 .op1).state) :=
  ⟨by decide +kernel, ⟨by decide, by decide, by decide, by decide⟩, by decide +kernel,
    ⟨by decide, by decide, by decide, by decide⟩, by decide +kernel, rfl, by decide, _, rfl, by decide +kernel⟩
theorem test_witness_RefreshComputesTheIncrements :
    State.reset.self.live .ch2 = true ∧ (State.reset.self.ch .ch2).dirty = true
      ∧ (withChip fun k => { k with mode := 0x40 }).self.chip.mode.toNat = 64
      ∧ onYm2203.self.live .ch3 = false ∧ { Channel.initial with dirty := false }.dirty = false := by decide
theorem test_witness_RefreshDependsOnRegistersOnly :
    let h := Channel.initial
    let m := Channel.initial.updOp .op1 fun o => { o with phase := 5, volume := 7 }
    (h.dirty = true ∧ m.dirty = true ∧ SameChannelRegisters h m)
      ∧ (∀ n, SameOperatorRegisters (h.ops.get n) (m.ops.get n))
      ∧ ({ Chip.cleared with egCnt := 9 }).mode = Chip.cleared.mode
      ∧ ∀ e, ({ Chip.cleared with egCnt := 9 }).sl3 e = Chip.cleared.sl3 e :=
  ⟨⟨rfl, rfl, ⟨rfl, rfl, rfl, rfl, rfl, rfl, rfl, rfl, rfl⟩⟩,
    fun n => by cases n <;> exact ⟨rfl, rfl, rfl, rfl, rfl, rfl, rfl, rfl, rfl, rfl, rfl⟩, rfl,
    fun e => by cases e <;> rfl⟩
theorem test_witness_PhaseAdvance : State.reset.self.live .ch5 = true ∧ onYm2203.self.live .ch2 = true := by decide
theorem test_witness_LfoAdvance : { Chip.cleared with lfoInc := 1 }.lfoInc ≠ 0 ∧ Chip.cleared.lfoInc = 0 := by decide
theorem test_witness_PmOffsetProperties :
    0 < 16 ∧ 15 < 16 ∧ 31 ∈ [0, 1, 14, 15, 16, 17, 30, 31] ∧ 31 < 32 ∧ pmOffset ⟨617, 4, 16⟩ 7 2 ≠ 0 := by
  decide +kernel
theorem test_witness_AlgorithmRouting :
    State.reset.self.live .ch0 = true
      ∧ ∀ a ∈ List.range 8, { Channel.initial with algo := BitVec.ofNat 3 a }.algo.toNat = a := by decide
theorem test_witness_QuietOperatorsAreSilent :
    832 ≤ 832 ∧ (-8168 : Int) ≤ { Channel.initial with op1Out1 := -8168 }.op1Out1
      ∧ { Channel.initial with op1Out1 := 8168 }.op1Out1 ≤ (8168 : Int) := by decide

/-- An instance whose channel 0 is set up as 46_channel_mix.md R378 says. -/
def isolated : Instance :=
  { State.reset.self with
    chans := State.reset.self.chans.set .ch0
      { Channel.initial with algo := 7, fb := 7, ops := Quad.fill { Operator.initial with tl := 127, volOut := 1016 } } }

theorem test_witness_AlgorithmIsolation :
    isolated.live .ch0 = true ∧ (isolated.ch .ch0).algo.toNat = 7
      ∧ ∀ n, n ≠ .op1 → (isolated.op .ch0 n).tl = 127 ∧ 1016 ≤ (isolated.op .ch0 n).volOut :=
  ⟨by decide, by decide, fun n _ => by cases n <;> decide⟩
theorem test_witness_SampleStepOrder :
    (withChip fun k => { k with egTimer := 196607 }).self.chip.egTimer < 196608
      ∧ 196608 ≤ (withChip fun k => { k with egTimer := 196608 }).self.chip.egTimer := by decide +kernel
theorem test_witness_EnvelopeClock :
    State.reset.self.chip.egTimer < 196608
      ∧ 0 < State.reset.self.cfg.freqDen ∧ State.reset.self.cfg.freqNum ≤ 3 * State.reset.self.cfg.freqDen
      ∧ State.reset.self.cfg.freqNum = State.reset.self.cfg.freqDen ∧ State.reset.self.chip.egTimer = 0 := by
  decide +kernel
theorem test_witness_SilenceAfterReset :
    State.reset.self.cfg.post = .identity
      ∧ (∃ t, execAll (.reset :: [.keyOnOff 0x0F, .tl .ch0 .op1 0, .modeTimer 0x80, .generate 0 100 0 []]) State.reset
        = some t)
      ∧ (∀ i ∈ [Instr.keyOnOff 0x0F, .tl .ch0 .op1 0, .modeTimer 0x80, .generate 0 100 0 []], canKeyOn i = false)
      ∧ (0 : Int) ≤ 1 ∧ 2 * (1 : Int) ≤ (([1, 2] : List Sample).length : Int) :=
  ⟨rfl, Option.isSome_iff_exists.mp (by decide +kernel), by decide, by decide, by decide⟩
theorem test_witness_SplittingKeepsTheSamples :
    ([1, 2] : List Sample).length = 2 * 1 ∧ ([] : List Sample).length = 2 * 0 := by decide
theorem test_witness_TimerSteps :
    (State.reset.self.chip.irq = State.reset.self.chip.level ∧ State.reset.self.chip.taCnt = 0
        ∧ State.reset.self.chip.tbCnt = 0)
      ∧ timesFreqBase State.reset.self.cfg 4096 = 4096 ∧ timesFreqBase State.reset.self.cfg (4096 * 40) = 163840
      ∧ (4097 : Int) ≠ 0 ∧ (0 : Int) < 4097 - 4096 ∧ (4096 : Int) - 4096 ≤ 0 ∧ (1 : Int) - 163840 ≤ 0
      ∧ bitOf 0x80 7 = true ∧ bitOf 0x7F 7 = false := by decide +kernel
theorem test_witness_TimerATiming :
    let s := withChip fun k => { k with ta := 1020, taCnt := 16384 }
    0 < 16384 ∧ s.self.chip.taCnt = (16384 : Nat) ∧ 0 < timesFreqBase s.self.cfg 4096
      ∧ 16384 = (1024 - s.self.chip.ta.toNat) * 4096 ∧ s.self.cfg.freqNum = s.self.cfg.freqDen := by decide +kernel
theorem test_witness_IrqEventsAreTransitions :
    (let s := withChip fun k => { k with status := 1, irq := true }
     s.self.chip.irq = s.self.chip.level ∧ Instr.modeTimer 0x10 ≠ .reset
       ∧ ∃ t, exec (.modeTimer 0x10) s = .next t) := ⟨by decide, by decide, _, rfl⟩

end Sys2Proof.Tests
end

section
/-! PROOFS. Splitting a GENERATE (00_scope.md R15). Two runs are compared after what timer B decides has been erased from
both: no sample step reads it, so a sample step of the erased record is the erased sample step, and `TimerBStep` itself
erases to nothing. -/

namespace Sys2Proof.Machine

/-! ### Erasing what timer B decides -/

/-- The chip record without timer B's counter, its flag and the IRQ level. -/
def Chip.eraseTimerB (k : Chip) : Chip :=
  { k with tbCnt := 0, status := k.status &&& flagBit .a, irq := false }

/-- The record without what timer B decides: its part of the chip record and the events. -/
def Instance.eraseTimerB (x : Instance) : Instance :=
  { x with chip := x.chip.eraseTimerB, events := [] }

@[simp] theorem Instance.eraseTimerB_cfg (x : Instance) : x.eraseTimerB.cfg = x.cfg := rfl

@[simp] theorem Instance.eraseTimerB_chans (x : Instance) : x.eraseTimerB.chans = x.chans := rfl

@[simp] theorem Instance.eraseTimerB_chip (x : Instance) : x.eraseTimerB.chip = x.chip.eraseTimerB := rfl

@[simp] theorem Instance.eraseTimerB_reg (x : Instance) : x.eraseTimerB.reg = x.reg := rfl

@[simp] theorem Instance.eraseTimerB_postL (x : Instance) : x.eraseTimerB.postL = x.postL := rfl

@[simp] theorem Instance.eraseTimerB_postR (x : Instance) : x.eraseTimerB.postR = x.postR := rfl

@[simp] theorem Chip.eraseTimerB_eraseTimerB (k : Chip) : k.eraseTimerB.eraseTimerB = k.eraseTimerB := by
  simp [Chip.eraseTimerB, BitVec.and_assoc]

@[simp] theorem Instance.eraseTimerB_eraseTimerB (x : Instance) : x.eraseTimerB.eraseTimerB = x.eraseTimerB := by
  simp [Instance.eraseTimerB]

/-- Records that agree once erased agree in everything but timer B's counter and flag, the IRQ level and the events. -/
theorem Instance.same_of_eraseTimerB_eq {x y : Instance} (h : x.eraseTimerB = y.eraseTimerB) :
    y.chans = x.chans ∧ y.reg = x.reg ∧ SameOutside x y
      ∧ y.chip.status.toNat % 2 = x.chip.status.toNat % 2
      ∧ { y.chip with tbCnt := x.chip.tbCnt, status := x.chip.status, irq := x.chip.irq } = x.chip := by
  have hchip : y.chip.eraseTimerB = x.chip.eraseTimerB := by simpa using congrArg Instance.chip h.symm
  have hflag : y.chip.status &&& flagBit .a = x.chip.status &&& flagBit .a := congrArg Chip.status hchip
  refine ⟨by simpa using congrArg Instance.chans h.symm, by simpa using congrArg Instance.reg h.symm,
    ⟨by simpa using congrArg Instance.cfg h.symm, by simpa using congrArg Instance.postL h.symm,
      by simpa using congrArg Instance.postR h.symm⟩, ?_, ?_⟩
  · simpa [flagBit, Nat.and_one_is_mod] using congrArg BitVec.toNat hflag
  · exact congrArg (fun k : Chip =>
      { k with tbCnt := x.chip.tbCnt, status := x.chip.status, irq := x.chip.irq }) hchip

/-! ### No sample step reads what timer B decides -/

theorem Chip.lfoAdvance_eraseTimerB (k : Chip) : k.eraseTimerB.lfoAdvance = k.lfoAdvance.eraseTimerB := by
  unfold Chip.lfoAdvance
  by_cases h : k.lfoInc = 0
  · simp [Chip.eraseTimerB, h]
  · simp [Chip.eraseTimerB, h]

theorem Instance.prepared_eraseTimerB (x : Instance) : x.eraseTimerB.prepared = x.prepared.eraseTimerB :=
  congrArg (fun k => { x.eraseTimerB.refresh with chip := k }) x.chip.lfoAdvance_eraseTimerB

theorem Instance.chanCalc_eraseTimerB (x : Instance) : x.eraseTimerB.chanCalc = x.chanCalc.eraseTimerB := rfl

theorem Instance.egTicks_eraseTimerB (n : Nat) (x : Instance) :
    Instance.egTicks n x.eraseTimerB = (Instance.egTicks n x).eraseTimerB := by
  induction n generalizing x with
  | zero => rfl
  | succ n ih => exact ih x.egTick

theorem Instance.egClock_eraseTimerB (x : Instance) : x.eraseTimerB.egClock = x.egClock.eraseTimerB :=
  Instance.egTicks_eraseTimerB ((x.chip.egTimer + egAdd x.cfg) / egOvf)
    { x with chip := { x.chip with egTimer := (x.chip.egTimer + egAdd x.cfg) % egOvf } }

theorem Instance.csmKey_eraseTimerB (x : Instance) : x.csmKey.eraseTimerB = x.eraseTimerB.csmKey := rfl

/-- Setting timer A's flag does not depend on timer B's (60_exceptions.md R431). -/
theorem Instance.setFlag_a_eraseTimerB (x : Instance) :
    (x.eraseTimerB.setFlag .a).eraseTimerB = (x.setFlag .a).eraseTimerB := by
  have hflag : ((x.chip.status &&& flagBit .a) ||| flagBit .a) &&& flagBit .a
      = (x.chip.status ||| flagBit .a) &&& flagBit .a := by
    rw [BitVec.and_or_distrib_right, BitVec.and_or_distrib_right, BitVec.and_assoc, BitVec.and_self]
  simp only [Instance.setFlag_eq, Instance.eraseTimerB, Chip.eraseTimerB, hflag]

/-- Setting timer B's flag changes only what timer B decides (60_exceptions.md R432). -/
theorem Instance.setFlag_b_eraseTimerB (x : Instance) : (x.setFlag .b).eraseTimerB = x.eraseTimerB := by
  have hflag : (x.chip.status ||| flagBit .b) &&& flagBit .a = x.chip.status &&& flagBit .a := by
    rw [BitVec.and_or_distrib_right, show flagBit .b &&& flagBit .a = 0#8 from rfl, BitVec.or_zero]
  simp only [Instance.setFlag_eq, Instance.eraseTimerB, Chip.eraseTimerB, hflag]

/-- The first half of an overflow: the flag, if it is enabled (60_exceptions.md R431, R432). -/
def Instance.setEnabledFlag (x : Instance) (t : Timer) : Instance :=
  if x.chip.flagEnabled t then x.setFlag t else x

/-- The second half of an overflow but for its event: the reload (60_exceptions.md R431, R432). -/
def Instance.reloadTimer (x : Instance) (t : Timer) (cnt : Int) : Instance :=
  { x with chip := x.chip.setCount t (reloaded cnt (x.chip.periodUnits t)) }

/-- An overflow, once erased, is the two halves. -/
theorem Instance.overflow_eraseTimerB (x : Instance) (t : Timer) (cnt : Int) :
    (x.overflow t cnt).eraseTimerB = ((x.setEnabledFlag t).reloadTimer t cnt).eraseTimerB := rfl

theorem Instance.setEnabledFlag_a_eraseTimerB (x : Instance) :
    (x.eraseTimerB.setEnabledFlag .a).eraseTimerB = (x.setEnabledFlag .a).eraseTimerB := by
  by_cases h : x.chip.flagEnabled .a = true
  · have h' : x.eraseTimerB.chip.flagEnabled .a = true := h
    simp only [Instance.setEnabledFlag, h, h', if_true, Instance.setFlag_a_eraseTimerB]
  · have h' : ¬x.eraseTimerB.chip.flagEnabled .a = true := h
    simp only [Instance.setEnabledFlag, if_neg h, if_neg h', Instance.eraseTimerB_eraseTimerB]

theorem Instance.setEnabledFlag_b_eraseTimerB (x : Instance) :
    (x.setEnabledFlag .b).eraseTimerB = x.eraseTimerB := by
  by_cases h : x.chip.flagEnabled .b = true
  · simp only [Instance.setEnabledFlag, if_pos h, Instance.setFlag_b_eraseTimerB]
  · simp only [Instance.setEnabledFlag, if_neg h]

theorem Instance.reloadTimer_a_eraseTimerB (x : Instance) (cnt : Int) :
    (x.reloadTimer .a cnt).eraseTimerB = x.eraseTimerB.reloadTimer .a cnt := rfl

theorem Instance.reloadTimer_b_eraseTimerB (x : Instance) (cnt : Int) :
    (x.reloadTimer .b cnt).eraseTimerB = x.eraseTimerB := rfl

theorem Instance.overflow_a_eraseTimerB (x : Instance) (cnt : Int) :
    (x.eraseTimerB.overflow .a cnt).eraseTimerB = (x.overflow .a cnt).eraseTimerB := by
  simp only [Instance.overflow_eraseTimerB, Instance.reloadTimer_a_eraseTimerB, Instance.setEnabledFlag_a_eraseTimerB]

theorem Instance.overflow_b_eraseTimerB (x : Instance) (cnt : Int) :
    (x.overflow .b cnt).eraseTimerB = x.eraseTimerB := by
  rw [Instance.overflow_eraseTimerB, Instance.reloadTimer_b_eraseTimerB, Instance.setEnabledFlag_b_eraseTimerB]

/-- `TimerAStep()` does not read what timer B decides (60_exceptions.md R431, R433). -/
theorem Instance.timerAStep_eraseTimerB (x : Instance) :
    x.eraseTimerB.timerAStep.eraseTimerB = x.timerAStep.eraseTimerB := by
  have hcnt : x.eraseTimerB.chip.taCnt = x.chip.taCnt := rfl
  have hcsm : x.eraseTimerB.chip.csm = x.chip.csm := rfl
  have hcases := x.eraseTimerB.timerAStep_cases
  rw [hcnt, hcsm, Instance.eraseTimerB_cfg] at hcases
  rcases x.timerAStep_cases with ⟨h0, h⟩ | ⟨h0, h1, h⟩ | ⟨h0, h1, h⟩
  · obtain ⟨-, h'⟩ := hcases.resolve_right (by omega)
    rw [h, h', Instance.eraseTimerB_eraseTimerB]
  · obtain ⟨-, -, h'⟩ := (hcases.resolve_left (by omega)).resolve_right (by omega)
    rw [h, h']
    exact Instance.eraseTimerB_eraseTimerB
      { x with chip := { x.chip with taCnt := x.chip.taCnt - taStep x.cfg } }
  · obtain ⟨-, -, h'⟩ := (hcases.resolve_left (by omega)).resolve_left (by omega)
    rw [h, h']
    by_cases hon : x.chip.csm = true
    · rw [if_pos hon, if_pos hon, Instance.csmKey_eraseTimerB, Instance.csmKey_eraseTimerB,
        Instance.overflow_a_eraseTimerB]
    · rw [if_neg hon, if_neg hon, Instance.overflow_a_eraseTimerB]

theorem Instance.sampleStep_eraseTimerB (x : Instance) :
    x.eraseTimerB.sampleStep.eraseTimerB = x.sampleStep.eraseTimerB := by
  unfold Instance.sampleStep
  rw [Instance.prepared_eraseTimerB, Instance.chanCalc_eraseTimerB, Instance.egClock_eraseTimerB,
    Instance.timerAStep_eraseTimerB]

theorem Instance.sampleL_eraseTimerB (x : Instance) : x.eraseTimerB.sampleL = x.sampleL := by
  unfold Instance.sampleL
  rw [Instance.prepared_eraseTimerB]
  rfl

theorem Instance.sampleR_eraseTimerB (x : Instance) : x.eraseTimerB.sampleR = x.sampleR := by
  unfold Instance.sampleR
  rw [Instance.prepared_eraseTimerB]
  rfl

/-- `TimerBStep` changes only what timer B decides (60_exceptions.md R432). -/
theorem Instance.timerBStep_eraseTimerB (n : Nat) (x : Instance) : (x.timerBStep n).eraseTimerB = x.eraseTimerB := by
  rcases x.timerBStep_cases n with ⟨-, h⟩ | ⟨-, -, h⟩ | ⟨-, -, h⟩
  · rw [h]
  · rw [h]; rfl
  · rw [h, Instance.overflow_b_eraseTimerB]

/-- A step of the mixing loop does not read what timer B decides (46_channel_mix.md R372). -/
theorem Instance.mixStep_eraseTimerB (vp lb : Int) (x : Instance) (bl br : Sample) :
    (x.eraseTimerB.mixStep vp lb bl br).1.eraseTimerB = (x.mixStep vp lb bl br).1.eraseTimerB
      ∧ (x.eraseTimerB.mixStep vp lb bl br).2 = (x.mixStep vp lb bl br).2 := by
  simp only [Instance.mixStep, Instance.sampleL_eraseTimerB, Instance.sampleR_eraseTimerB, Instance.eraseTimerB_cfg,
    Instance.eraseTimerB_postL, Instance.eraseTimerB_postR, and_true]
  exact congrArg (fun y : Instance => { y with
    postL := (hostPost x.cfg.post .left vp lb x.postL x.sampleL).1
    postR := (hostPost x.cfg.post .right vp lb x.postR x.sampleR).1 }) x.sampleStep_eraseTimerB

/-! ### The loop of GENERATE -/

/-- Records that agree once erased mix the same buffer and agree once erased afterwards. -/
theorem Instance.mixSteps_of_eraseTimerB_eq (vp lb : Int) (n : Nat) {x y : Instance} (buf : List Sample)
    (h : x.eraseTimerB = y.eraseTimerB) :
    (Instance.mixSteps vp lb n x buf).1.eraseTimerB = (Instance.mixSteps vp lb n y buf).1.eraseTimerB
      ∧ (Instance.mixSteps vp lb n x buf).2 = (Instance.mixSteps vp lb n y buf).2 := by
  induction n generalizing x y buf with
  | zero => exact ⟨h, rfl⟩
  | succ n ih =>
    match buf with
    | [] => exact ⟨h, rfl⟩
    | [_] => exact ⟨h, rfl⟩
    | bl :: br :: buf =>
      obtain ⟨hx, hx'⟩ := x.mixStep_eraseTimerB vp lb bl br
      obtain ⟨hy, hy'⟩ := y.mixStep_eraseTimerB vp lb bl br
      have hone : (x.mixStep vp lb bl br).1.eraseTimerB = (y.mixStep vp lb bl br).1.eraseTimerB := by rw [← hx, h, hy]
      have hout : (x.mixStep vp lb bl br).2 = (y.mixStep vp lb bl br).2 := by rw [← hx', h, hy']
      obtain ⟨hrest, hbuf⟩ := ih buf hone
      simp only [Instance.mixSteps, hout, hbuf]
      exact ⟨hrest, trivial⟩

/-- The loop over two buffers is the loop over the first, then the loop over the second. -/
theorem Instance.mixSteps_append (vp lb : Int) (m n : Nat) (x : Instance) (b1 b2 : List Sample)
    (h : b1.length = 2 * m) :
    Instance.mixSteps vp lb (m + n) x (b1 ++ b2) =
      ((Instance.mixSteps vp lb n (Instance.mixSteps vp lb m x b1).1 b2).1,
        (Instance.mixSteps vp lb m x b1).2
          ++ (Instance.mixSteps vp lb n (Instance.mixSteps vp lb m x b1).1 b2).2) := by
  induction m generalizing x b1 with
  | zero =>
    obtain rfl : b1 = [] := List.length_eq_zero_iff.mp h
    simp [Instance.mixSteps]
  | succ m ih =>
    match b1, h with
    | [], h => simp at h
    | [_], h => simp only [List.length_cons, List.length_nil] at h; omega
    | bl :: br :: b1, h =>
      have hb : b1.length = 2 * m := by simp only [List.length_cons] at h; omega
      rw [Nat.succ_add]
      simp [Instance.mixSteps, ih _ b1 hb]

/-- A GENERATE whose buffer is long enough runs the loop, then one step of timer B (46_channel_mix.md R372). -/
theorem exec_generate_next (n : Nat) (vp lb : Int) (buf : List Sample) (s : State) (h : 2 * n ≤ buf.length) :
    exec (.generate n vp lb buf) s = .next { s with
      self := (Instance.mixSteps vp lb n s.self buf).1.timerBStep n
      buf := (Instance.mixSteps vp lb n s.self buf).2 } := by
  have h1 : ¬(n : Int) < 0 := by omega
  have h2 : ¬(buf.length : Int) < 2 * n := by omega
  simp only [exec, execGenerate, if_neg h1, if_neg h2, Int.toNat_natCast]

/-- Settles O57: the loop splits at the end of the first buffer, and the step of timer B between the two halves touches
only what no sample step reads. -/
theorem splittingKeepsTheSamples : Obligations.SplittingKeepsTheSamples := by
  intro s m n vp lb b1 b2 h1 h2
  have happ := Instance.mixSteps_append vp lb m n s.self b1 b2 h1
  have hmid := Instance.timerBStep_eraseTimerB m (Instance.mixSteps vp lb m s.self b1).1
  obtain ⟨hself, hbuf⟩ := Instance.mixSteps_of_eraseTimerB_eq vp lb n b2 hmid
  have hlen : 2 * (m + n) ≤ (b1 ++ b2).length := by rw [List.length_append]; omega
  refine ⟨_, _, _, exec_generate_next (m + n) vp lb _ s hlen, exec_generate_next m vp lb b1 s h1.ge,
    exec_generate_next n vp lb b2 _ h2.ge, ?_, ?_⟩
  · dsimp only
    rw [happ, hbuf]
  · apply Instance.same_of_eraseTimerB_eq
    dsimp only
    rw [Instance.timerBStep_eraseTimerB, Instance.timerBStep_eraseTimerB, happ, hself]

end Sys2Proof.Machine
end

section
/-! PROOFS. The host's register write (20_memory.md R86): the address and the value as a command word, the instruction it
decodes to, and that every well-formed instruction runs. -/

namespace Sys2Proof

/-- Every address below 512 is a 9-bit one (20_memory.md R80). -/
theorem exists_address {address : Int} (h : 0 ≤ address ∧ address < 512) : ∃ a : BitVec 9, address = a.toNat :=
  ⟨BitVec.ofNat 9 address.toNat, by rw [BitVec.toNat_ofNat]; omega⟩

/-- The top bit of an address is its bank: it is set from 256 on. -/
theorem address_bank (a : BitVec 9) : a.getLsbD 8 = decide (256 ≤ a.toNat) :=
  BitVec.msb_eq_decide a

/-- The command word sees the value's low 8 bits only (20_memory.md R86). -/
theorem commandWord_emod (address value : Int) : commandWord address (value % 256) = commandWord address value := by
  have hv : BitVec.ofInt 8 (value % 256) = BitVec.ofInt 8 value := by
    apply BitVec.eq_of_toInt_eq
    rw [BitVec.toInt_ofInt, BitVec.toInt_ofInt]
    exact Int.emod_bmod value 256
  rw [commandWord, hv, commandWord]

theorem decodeCall_writeRegister_emod (f : Family) (address value : Int) :
    decodeCall f (.writeRegister address (value % 256)) = decodeCall f (.writeRegister address value) := by
  simp only [decodeCall, commandWord_emod]

/-- Decoding an address and a byte side by side: the address is the family's, or it is rejected by its number. -/
theorem decodeCommand_append (f : Family) (a : BitVec 9) (data : Byte) :
    decodeCommand f (a ++ data) =
      if a.getLsbD 8 && !f.six then .error (.addressOutOfRange a.toNat)
      else .ok (decodeRegister f.hasLfoPan (a.getLsbD 8) (a.extractLsb' 0 8) data) := by
  have hbank : (a ++ data).getLsbD 16 = a.getLsbD 8 := by rw [BitVec.getLsbD_append]; rfl
  have haddr : (a ++ data).extractLsb' 8 8 = a.extractLsb' 0 8 :=
    BitVec.extractLsb'_append_eq_of_le (by decide)
  have hdata : (a ++ data).extractLsb' 0 8 = data :=
    BitVec.extractLsb'_append_eq_right
  rw [decodeCommand, hbank, haddr, hdata]
  split
  next h =>
    have hlt := a.isLt
    simp only [address_bank, Bool.and_eq_true, decide_eq_true_eq] at h
    have hnum : 256 + (a.extractLsb' 0 8).toNat = a.toNat := by
      simp only [BitVec.extractLsb'_toNat, Nat.shiftRight_zero]
      omega
    rw [← hnum]
    rfl
  next => rfl

/-- A register write to a 9-bit address decodes as the address and the value's low 8 bits. -/
theorem decodeCall_writeRegister (f : Family) (a : BitVec 9) (value : Int) :
    decodeCall f (.writeRegister a.toNat value) =
      if a.getLsbD 8 && !f.six then .error (.addressOutOfRange a.toNat)
      else .ok (decodeRegister f.hasLfoPan (a.getLsbD 8) (a.extractLsb' 0 8) (BitVec.ofInt 8 value)) := by
  have hlt := a.isLt
  have ha : BitVec.ofInt 9 a.toNat = a := by simp [BitVec.ofInt_natCast]
  rw [decodeCall, if_pos (by omega), commandWord, ha, decodeCommand_append]

end Sys2Proof

namespace Sys2Proof.Machine

/-- The family's space in numbers (20_memory.md R80). -/
theorem inSpace_iff (f : Family) (a : BitVec 9) : InSpace f a ↔ a.toNat < if f.six then 512 else 256 := by
  have hlt := a.isLt
  unfold InSpace
  rw [address_bank, decide_eq_true_eq]
  cases f.six
  · simp
  · simpa using hlt

/-- A register write to an address of the family's space decodes to a well-formed instruction. -/
theorem decodeCall_writeRegister_inSpace {f : Family} {address : Int} (value : Int)
    (h : 0 ≤ address ∧ address < if f.six then 512 else 256) :
    ∃ i, decodeCall f (.writeRegister address value) = .ok i ∧ i.wf f.six f.hasLfoPan = true := by
  obtain ⟨a, rfl⟩ := exists_address (address := address) ⟨h.1, by split at h <;> omega⟩
  have ha : InSpace f a := (inSpace_iff f a).2 (by exact_mod_cast h.2)
  refine ⟨_, ?_, (decodeRegister_addressData _ _ _ (a.extractLsb' 0 8) (BitVec.ofInt 8 value) ha).1⟩
  rw [decodeCall_writeRegister, if_neg]
  simpa [InSpace] using ha

/-- A register write to any other address is rejected by its number. -/
theorem decodeCall_writeRegister_outside {f : Family} {address : Int} (value : Int)
    (h : ¬(0 ≤ address ∧ address < if f.six then 512 else 256)) :
    decodeCall f (.writeRegister address value) = .error (.addressOutOfRange address) := by
  by_cases hr : 0 ≤ address ∧ address < 512
  · obtain ⟨a, rfl⟩ := exists_address hr
    have ha : ¬InSpace f a := fun hs => h ⟨hr.1, by exact_mod_cast (inSpace_iff f a).1 hs⟩
    rw [decodeCall_writeRegister, if_pos]
    simpa [InSpace] using ha
  · rw [decodeCall, if_neg hr]

/-- A well-formed register write goes to a channel the family has. -/
theorem writeChannelOf_present {i : Instr} {six pan : Bool} {c : Chan} (h : i.wf six pan = true)
    (hc : writeChannelOf i = some c) : c.present six = true := by
  cases i <;> cases hc <;> simp_all [Instr.wf]

/-- Every well-formed instruction of the instance's family answers a next state. -/
theorem exec_next_of_wf {i : Instr} {s : State}
    (h : i.wf s.self.cfg.family.six s.self.cfg.family.hasLfoPan = true) : ∃ t, exec i s = .next t := by
  by_cases hw : isWrite i = true
  · exact ⟨_, exec_write_live hw fun _ hc => writeChannelOf_present h hc⟩
  · cases i with
    | ignored bank addr data =>
      simp only [Instr.wf, Bool.and_eq_true] at h
      obtain ⟨hbank, -⟩ := h
      exact ⟨s, if_neg (by cases bank <;> simp_all)⟩
    | construct f n clock rate a b =>
      simp only [Instr.wf, Bool.and_eq_true, decide_eq_true_eq] at h
      exact ⟨_, if_neg (by omega)⟩
    | reset => exact ⟨_, rfl⟩
    | generate count vp lb buf =>
      simp only [Instr.wf, Bool.and_eq_true, decide_eq_true_eq] at h
      obtain ⟨n, rfl⟩ := Int.eq_ofNat_of_zero_le h.1
      exact ⟨_, exec_generate_next n vp lb buf s (by omega)⟩
    | readStatus port =>
      simp only [Instr.wf, Bool.and_eq_true, decide_eq_true_eq] at h
      exact ⟨_, if_pos h⟩
    | dump => exact ⟨_, rfl⟩
    | restore bytes =>
      simp only [Instr.wf, beq_iff_eq] at h
      exact ⟨_, if_pos (by rw [h, registerSpace_length])⟩
    | _ => exact absurd rfl hw

/-- What a step does with a call on the instance operated on: run the instruction it decodes to, or refuse it. -/
def State.answer (s : State) : Except Reject Instr → Host.Outcome State Fault Refusal
  | .ok i => exec i s
  | .error e => .refused (rejected e)

/-- A step whose next call is on the instance operated on answers what the call decodes to on that instance's family. -/
theorem step_self {s : State} {call : Call} {rest : List Request} (h : s.pending = ⟨s.handle, call⟩ :: rest) :
    step s = { s with pending := rest }.answer (decodeCall s.self.cfg.family call) := by
  have hf : { s with pending := rest }.focus s.handle = some { s with pending := rest } :=
    State.focus_handle { s with pending := rest }
  simp only [step, h, State.take, hf]
  cases decodeCall s.self.cfg.family call <;> rfl

/-- Settles O8: the command word keeps the value's low 8 bits; an address of the family's space decodes to a well-formed
instruction, which runs, and any other address is rejected. -/
theorem registerWritesAreMaskedAndBounded : Obligations.RegisterWritesAreMaskedAndBounded := by
  intro s address value rest hp
  have hstep := step_self hp
  by_cases h : 0 ≤ address ∧ address < (if s.self.cfg.family.six then 512 else 256)
  · rw [if_pos h]
    obtain ⟨i, hi, hwf⟩ := decodeCall_writeRegister_inSpace value h
    refine ⟨?_, ?_⟩
    · rw [hstep, hi]
      exact exec_next_of_wf (s := { s with pending := rest }) hwf
    · rw [hstep, ← decodeCall_writeRegister_emod]
      exact (step_self (s := { s with pending := ⟨s.handle, .writeRegister address (value % 256)⟩ :: rest }) rfl).symm
  · rw [if_neg h, hstep, decodeCall_writeRegister_outside value h]
    rfl

end Sys2Proof.Machine
end

section
/-! PROOFS. Instances do not interact (20_memory.md R93): what an instruction leaves of the other instances, and that it
reads the instance operated on alone. -/

namespace Sys2Proof.Machine

/-- An instruction keeps every other instance at its handle; new ones come after the last. -/
theorem exec_others {i : Instr} {s t : State} (h : exec i s = .next t) :
    t.earlier = s.earlier ∧ s.later <+: t.later := by
  by_cases hi : isWrite i = true
  · obtain ⟨-, rfl⟩ := exec_write hi h
    exact ⟨rfl, List.prefix_rfl⟩
  · rcases exec_other (by simpa using hi) h with ⟨_, _, _, -, rfl⟩ | ⟨_, _, _, _, _, _, -, -, -, -, rfl⟩ | ⟨-, rfl⟩ |
      ⟨_, _, _, _, -, -, -, rfl⟩ | ⟨_, -, rfl⟩ | ⟨-, rfl⟩ | ⟨_, -, -, rfl⟩
    · exact ⟨rfl, List.prefix_rfl⟩
    · exact ⟨rfl, List.prefix_append _ _⟩
    all_goals exact ⟨rfl, List.prefix_rfl⟩

/-- The instances other than the one operated on, by their handles. -/
theorem State.instances_getElem?_of_ne {s t : State} {k : Nat} (he : t.earlier = s.earlier) (hl : s.later <+: t.later)
    (hk : k ≠ s.handle) (hlt : k < s.instances.length) : t.instances[k]? = s.instances[k]? := by
  obtain ⟨added, hl⟩ := hl
  simp only [State.instances, State.handle, List.length_append, List.length_cons] at hk hlt ⊢
  rw [he, ← hl]
  rcases Nat.lt_or_gt_of_ne hk with hlow | hhigh
  · rw [List.getElem?_append_left hlow, List.getElem?_append_left hlow]
  · obtain ⟨j, rfl⟩ := Nat.exists_eq_add_of_lt hhigh
    rw [List.getElem?_append_right (by omega), List.getElem?_append_right (by omega),
      show s.earlier.length + j + 1 - s.earlier.length = j + 1 by omega, List.getElem?_cons_succ,
      List.getElem?_cons_succ, List.getElem?_append_left (by omega)]

/-- An instruction other than a register write runs by the instance operated on alone, and leaves it by itself. -/
theorem exec_other_of_self {i : Instr} {s t u : State} (hi : isWrite i = false) (hs : s.self = u.self)
    (h : exec i s = .next t) : ∃ v, exec i u = .next v ∧ v.self = t.self := by
  cases i with
  | ignored bank addr data =>
    simp only [exec, execIgnored, hs] at h ⊢
    split at h
    · cases h
    · cases h; exact ⟨u, if_neg ‹_›, hs.symm⟩
  | construct f n clock rate a b =>
    simp only [exec, execConstruct] at h ⊢
    split at h
    · cases h
    · cases h; exact ⟨_, if_neg ‹_›, hs.symm⟩
  | reset => cases h; exact ⟨_, rfl, by dsimp only; rw [hs]⟩
  | generate count vp lb buf =>
    simp only [exec, execGenerate, hs] at h ⊢
    split at h
    · cases h
    · split at h
      · cases h
      · cases h; exact ⟨_, (if_neg ‹_›).trans (if_neg ‹_›), rfl⟩
  | readStatus port =>
    simp only [exec, execReadStatus] at h ⊢
    split at h
    · cases h; exact ⟨_, if_pos ‹_›, hs.symm⟩
    · cases h
  | dump => cases h; exact ⟨_, rfl, hs.symm⟩
  | restore bytes =>
    simp only [exec, execRestore, hs] at h ⊢
    split at h
    · cases h; exact ⟨_, if_pos ‹_›, rfl⟩
    · cases h
  | _ => cases hi

/-- An instruction runs, and leaves the instance operated on, by that instance alone. -/
theorem exec_of_self {i : Instr} {s t u : State} (hs : s.self = u.self) (h : exec i s = .next t) :
    ∃ v, exec i u = .next v ∧ v.self = t.self := by
  by_cases hi : isWrite i = true
  · obtain ⟨hl, rfl⟩ := exec_write hi h
    rw [hs] at hl
    exact ⟨_, exec_write_live hi hl, by dsimp only; rw [hs]⟩
  · exact exec_other_of_self (by simpa using hi) hs h

/-- Settles O13: a step turns to its operation's instance, which moves no instance, and runs an instruction there. -/
theorem instancesDoNotInteract : Obligations.InstancesDoNotInteract := by
  refine ⟨fun s u q rest hp hs k hk hlt => ?_, fun _ _ _ _ hs h => exec_of_self hs h⟩
  obtain ⟨t, i, hf, -, hi⟩ := step_next hp hs
  obtain ⟨-, hinst, hhandle, -⟩ := State.focus_some hf
  obtain ⟨he, hl⟩ := exec_others hi
  have hsame : t.instances = s.instances := hinst
  rw [← hsame] at hlt ⊢
  exact State.instances_getElem?_of_ne he hl (hhandle ▸ hk) hlt

end Sys2Proof.Machine
end

section
/-! PROOFS. What an address decodes to (30_encoding.md R102 to R109): its bit fields in numbers, the channel and the
operator it selects, and the ignored addresses. -/

namespace Sys2Proof.Machine

/-! ### The bit fields of an address, in numbers -/

/-- `chs = addr[1:0]` (30_encoding.md R101). -/
theorem toNat_addressChs (addr : Byte) : (addr.extractLsb' 0 2).toNat = addr.toNat % 4 := by
  simp [BitVec.extractLsb'_toNat]

/-- `slot = addr[3:2]` (30_encoding.md R103). -/
theorem toNat_addressSlot (addr : Byte) : (addr.extractLsb' 2 2).toNat = addr.toNat / 4 % 4 := by
  simp [BitVec.extractLsb'_toNat, Nat.shiftRight_eq_div_pow]

/-- `grp = addr[7:4]` (30_encoding.md R101). -/
theorem toNat_addressGroup (addr : Byte) : (addr.extractLsb' 4 4).toNat = addr.toNat / 16 := by
  have hlt := addr.isLt
  rw [BitVec.extractLsb'_toNat, Nat.shiftRight_eq_div_pow]
  omega

/-- `addr[7:2]` selects the channel register (30_encoding.md R107). -/
theorem toNat_addressTop (addr : Byte) : (addr.extractLsb' 2 6).toNat = addr.toNat / 4 := by
  have hlt := addr.isLt
  rw [BitVec.extractLsb'_toNat, Nat.shiftRight_eq_div_pow]
  omega

/-! ### Channel and operator -/

/-- `chs = 3` selects no channel (30_encoding.md R102). -/
theorem ofBankChs_three (bank : Bool) : Chan.ofBankChs bank 3 = none := by
  cases bank <;> rfl

/-- Any other `chs` selects the channel `chs + 3*bank` (30_encoding.md R102). -/
theorem exists_ofBankChs (bank : Bool) {chs : BitVec 2} (h : chs.toNat ≠ 3) :
    ∃ c, Chan.ofBankChs bank chs = some c ∧ chanIndex c = chs.toNat + if bank then 3 else 0 := by
  revert bank chs
  decide

/-- The operator of a slot, by its number (30_encoding.md R103). -/
theorem opNumber_ofSlot (slot : BitVec 2) : opNumber (OpNum.ofSlot slot) = [1, 3, 2, 4].getD slot.toNat 0 := by
  revert slot
  decide

/-! ### The decoder from 0x30 on -/

/-- Without a channel the write is ignored (30_encoding.md R102). -/
theorem decodeRegister_of_noChannel (pan : Bool) {bank : Bool} {addr : Byte} (data : Byte) (hlow : 0x30 ≤ addr.toNat)
    (hc : Chan.ofBankChs bank (addr.extractLsb' 0 2) = none) :
    decodeRegister pan bank addr data = .ignored bank addr data := by
  rw [decodeRegister, if_neg (by omega), hc]

/-- From 0x30 to 0x9F the write is to an operator register (30_encoding.md R101). -/
theorem decodeRegister_operator (pan : Bool) {bank : Bool} {addr : Byte} {c : Chan} (data : Byte)
    (hlow : 0x30 ≤ addr.toNat) (hhigh : addr.toNat ≤ 0x9F)
    (hc : Chan.ofBankChs bank (addr.extractLsb' 0 2) = some c) :
    decodeRegister pan bank addr data =
      decodeOperator bank addr c (OpNum.ofSlot (addr.extractLsb' 2 2)) data := by
  rw [decodeRegister, if_neg (by omega), hc]
  exact if_pos (by omega)

/-- From 0xA0 on the write is to a channel register (30_encoding.md R101). -/
theorem decodeRegister_channelRegister (pan : Bool) {bank : Bool} {addr : Byte} {c : Chan} (data : Byte)
    (hlow : 0xA0 ≤ addr.toNat) (hc : Chan.ofBankChs bank (addr.extractLsb' 0 2) = some c) :
    decodeRegister pan bank addr data = decodeChannel pan bank addr c data := by
  rw [decodeRegister, if_neg (by omega), hc]
  exact if_neg (by omega)

/-- The group selects one of the seven operator registers, in the order of the table (30_encoding.md R106). -/
theorem decodeOperator_group (bank : Bool) {addr : Byte} (c : Chan) (n : OpNum) (data : Byte)
    (hlow : 0x30 ≤ addr.toNat) (hhigh : addr.toNat ≤ 0x9F) :
    ([Instr.dtMul, .tl, .ksAr, .amD1r, .d2r, .slRr, .ssgEg].map fun mk => mk c n data)[addr.toNat / 16 - 3]?
      = some (decodeOperator bank addr c n data) := by
  have hlo : 3 ≤ addr.toNat / 16 := by omega
  have hhi : addr.toNat / 16 ≤ 9 := by omega
  rw [decodeOperator, toNat_addressGroup]
  generalize addr.toNat / 16 = grp at hlo hhi
  interval_cases grp <;> rfl

/-- `addr[7:2]` selects the channel register (30_encoding.md R107). -/
theorem decodeChannel_top (pan bank : Bool) (addr : Byte) (c : Chan) (data : Byte) :
    (addr.toNat / 4 = 0x28 → decodeChannel pan bank addr c data = .fnumLo c data)
      ∧ (addr.toNat / 4 = 0x29 → decodeChannel pan bank addr c data = .fnumHiBlk c data)
      ∧ (addr.toNat / 4 = 0x2C → decodeChannel pan bank addr c data = .fbAlgo c data)
      ∧ (addr.toNat / 4 = 0x2D → pan = true → decodeChannel pan bank addr c data = .panAmsPms c data) := by
  rw [decodeChannel, toNat_addressTop]
  refine ⟨fun h => ?_, fun h => ?_, fun h => ?_, fun h hpan => ?_⟩
  · rw [h]; rfl
  · rw [h]; rfl
  · rw [h]; rfl
  · rw [h, hpan]; rfl

/-- Settles O2: the low two bits select the channel or none; then the slot selects the operator and the group its
register, or `addr[7:2]` selects the channel register. -/
theorem channelAndOperatorSelection : Obligations.ChannelAndOperatorSelection := by
  intro pan bank addr data hlow
  have hchs := toNat_addressChs addr
  refine ⟨fun h3 => ?_, fun h3 hhigh => ?_, fun h3 => ?_⟩
  · apply decodeRegister_of_noChannel _ _ hlow
    rw [BitVec.eq_of_toNat_eq (y := 3) (hchs.trans h3), ofBankChs_three]
  · obtain ⟨c, hc, hidx⟩ := exists_ofBankChs bank (hchs ▸ h3)
    refine ⟨c, OpNum.ofSlot (addr.extractLsb' 2 2), hchs ▸ hidx, ?_, ?_⟩
    · rw [opNumber_ofSlot, toNat_addressSlot]
    · rw [decodeRegister_operator pan data hlow hhigh hc]
      exact decodeOperator_group bank c _ data hlow hhigh
  · obtain ⟨c, hc, hidx⟩ := exists_ofBankChs bank (hchs ▸ h3)
    obtain ⟨hA0, hA4, hB0, hB4⟩ := decodeChannel_top pan bank addr c data
    have hreg (h : 0x28 ≤ addr.toNat / 4) := decodeRegister_channelRegister pan data (by omega) hc
    exact ⟨c, hchs ▸ hidx, fun h => (hreg h.ge).trans (hA0 h), fun h => (hreg (by omega)).trans (hA4 h),
      fun h => (hreg (by omega)).trans (hB0 h), fun h hpan => (hreg (by omega)).trans (hB4 h hpan)⟩

/-! ### Every command word -/

/-- Settles O5: a command word of the family's space decodes to a well-formed instruction, so it runs, and that is
ignored exactly at an address that is not mapped. -/
theorem everyCommandWordIsMappedOrIgnored : Obligations.EveryCommandWordIsMappedOrIgnored := by
  intro f w hspace
  refine ⟨decodeRegister f.hasLfoPan (w.getLsbD 16) (w.extractLsb' 8 8) (w.extractLsb' 0 8), if_neg ?_,
    isIgnored_decodeRegister _ _ _ _ _ hspace, ?_⟩
  · simpa using hspace
  · rintro s rfl
    exact exec_next_of_wf (decodeRegister_addressData _ _ _ _ _ hspace).1

/-! ### The ignored addresses -/

/-- An ignored write is determined by the address and the byte it encodes to. -/
theorem eq_ignored_of_addressData {i : Instr} {bank : Bool} {addr data : Byte} (hi : isIgnored i = true)
    (h : i.addressData = some (BitVec.ofBool bank ++ addr, data)) : i = .ignored bank addr data := by
  cases i with
  | ignored bank' addr' data' =>
    obtain ⟨hword, rfl⟩ := Prod.mk.inj (Option.some.inj h)
    have hbank : BitVec.ofBool bank' = BitVec.ofBool bank := by
      simpa only [BitVec.extractLsb'_append_eq_left] using congrArg (BitVec.extractLsb' 8 1) hword
    have haddr : addr' = addr := by
      simpa only [BitVec.extractLsb'_append_eq_right] using congrArg (BitVec.extractLsb' 0 8) hword
    rw [BitVec.ofBool_eq_iff_eq.mp hbank, haddr]
  | _ => cases hi

/-- The decoder gives the ignored write exactly at the addresses that are not mapped (30_encoding.md R108). -/
theorem decodeRegister_eq_ignored_iff (six pan bank : Bool) (addr data : Byte) (h : bank = true → six = true) :
    decodeRegister pan bank addr data = .ignored bank addr data ↔ mapped six pan bank addr = false := by
  have hign := isIgnored_decodeRegister six pan bank addr data h
  obtain ⟨-, haddr⟩ := decodeRegister_addressData six pan bank addr data h
  constructor
  · intro he
    simpa [he, isIgnored] using hign
  · intro hm
    exact eq_ignored_of_addressData (by rw [hign, hm]; rfl) haddr

/-- An address is unmapped exactly if R108 lists it (30_encoding.md R107, R108). -/
theorem mapped_eq_false_iff (six pan bank : Bool) (addr : Byte) (h : bank = true → six = true) :
    mapped six pan bank addr = false ↔
      addr.toNat ≤ 0x1F
        ∨ addr.toNat = 0x20 ∨ addr.toNat = 0x21 ∨ addr.toNat = 0x23 ∨ (0x29 ≤ addr.toNat ∧ addr.toNat ≤ 0x2F)
        ∨ (bank = true ∧ 0x20 ≤ addr.toNat ∧ addr.toNat ≤ 0x2F)
        ∨ (0x30 ≤ addr.toNat ∧ addr.toNat % 4 = 3)
        ∨ (bank = true ∧ 0xA8 ≤ addr.toNat ∧ addr.toNat ≤ 0xAF)
        ∨ (0xB8 ≤ addr.toNat ∧ addr.toNat ≤ 0xBF)
        ∨ 0xC0 ≤ addr.toNat
        ∨ (pan = false ∧ (0xB4 ≤ addr.toNat ∧ addr.toNat ≤ 0xB6 ∨ addr.toNat = 0x22)) := by
  cases bank with
  | true =>
    have hsix := h rfl
    cases pan <;> simp [mapped, mappedOperator, mappedChannel, hsix] <;> omega
  | false =>
    cases pan <;>
      simp [mapped, mappedGlobal, mappedOperator, mappedChannel, ← BitVec.toNat_inj] <;> omega

/-- An ignored write answers the same state wherever its bank exists (30_encoding.md R108). -/
theorem exec_ignored {bank : Bool} (addr data : Byte) {s : State}
    (h : bank = true → s.self.cfg.family.six = true) : exec (.ignored bank addr data) s = .next s :=
  if_neg (by simpa using h)

/-- Settles O7: the decoder ignores the unmapped addresses, which are those listed, and the ignored write answers the
state itself. -/
theorem ignoredWritesChangeNothing : Obligations.IgnoredWritesChangeNothing := by
  intro f bank addr data hspace
  refine ⟨?_, ?_⟩
  · rw [decodeRegister_eq_ignored_iff f.six _ _ _ _ hspace, mapped_eq_false_iff _ _ _ _ hspace]
  · rintro s rfl
    exact exec_ignored addr data hspace

end Sys2Proof.Machine
end

section
/-! PROOFS. The global register writes 0x22 to 0x28 (41_global_regs.md R180 to R185): the frame that every register
write has, then each write's effect in numbers. -/

namespace Sys2Proof.Machine

/-! ### The frame of a register write -/

/-- Replacing `self` leaves the machine around it. -/
theorem sameAround_self (s : State) (x : Instance) : SameAround s { s with self := x } :=
  ⟨rfl, rfl, rfl, rfl, rfl, rfl, rfl⟩

/-- A register write changes neither the configuration nor what HOST_POST keeps. -/
theorem Instance.applyWrite_sameOutside (x : Instance) (i : Instr) : SameOutside x (x.applyWrite i) :=
  ⟨x.applyWrite_cfg i, (x.applyWrite_post i).1, (x.applyWrite_post i).2⟩

/-- A well-formed register write stores its byte at its address (10_state.md R60). -/
theorem Instance.applyWrite_storedAt {x : Instance} {i : Instr} {a : BitVec 9} {data : Byte}
    (hreg : x.reg.wf = true) (hi : isWrite i = true)
    (hwf : i.wf x.cfg.family.six x.cfg.family.hasLfoPan = true) (ha : i.addressData = some (a, data)) :
    StoredAt x (x.applyWrite i) a data := by
  have hign : isIgnored i = false := by
    cases i with
    | ignored _ _ _ => cases hi
    | _ => rfl
  have hstore : (x.applyWrite i).reg = x.reg.write a.toNat data := by
    simp [Instance.applyWrite_reg x i hwf, hign, ha]
  refine ⟨?_, fun n hn => ?_⟩
  · rw [hstore, Memory.read_write hreg, if_pos rfl]
  · rw [hstore, Memory.read_write hreg, if_neg hn]

/-- A well-formed register write runs, applies its effect, stores its byte and leaves alone what no write changes. -/
theorem exec_write_framed {i : Instr} {s : State} {a : BitVec 9} {data : Byte} (hreg : s.self.reg.wf = true)
    (hi : isWrite i = true) (hwf : i.wf s.self.cfg.family.six s.self.cfg.family.hasLfoPan = true)
    (ha : i.addressData = some (a, data)) :
    ∃ t, exec i s = .next t ∧ t.self = s.self.applyWrite i ∧ SameAround s t ∧ SameOutside s.self t.self
      ∧ StoredAt s.self t.self a data :=
  ⟨_, exec_write_live hi fun _ hc => writeChannelOf_present hwf hc, rfl, sameAround_self s _,
    s.self.applyWrite_sameOutside i, Instance.applyWrite_storedAt hreg hi hwf ha⟩

/-! ### LFO_CTRL -/

/-- The LFO step of the speed field, in numbers (40_tables.md R160). -/
theorem lfoStep_speedField (g : Config) (data : Byte) :
    lfoStep g (lfoSpeedField data) =
      16777216 * g.freqNum / (g.freqDen * [108, 77, 71, 67, 62, 44, 8, 5].getD (data.toNat % 8) 0) := by
  have hspeed : (lfoSpeedField data).toNat = data.toNat % 8 := by
    rw [lfoSpeedField_eq, BitVec.toNat_ofNat]
    omega
  rw [lfoStep, lfoSps_eq, hspeed]

/-- Without the LFO the write to 0x22 does nothing (30_encoding.md R108). -/
theorem Instance.writeLfoCtrl_of_noLfo {x : Instance} (data : Byte) (h : x.cfg.family.hasLfoPan = false) :
    x.writeLfoCtrl data = x := by
  simp [Instance.writeLfoCtrl, h]

/-- With it, the write stores the byte and the LFO step (41_global_regs.md R180). -/
theorem Instance.writeLfoCtrl_of_lfo {x : Instance} (data : Byte) (h : x.cfg.family.hasLfoPan = true) :
    x.writeLfoCtrl data = { x.store 0x022 data with
      chip := { x.chip with
        lfoInc := if lfoEnableField data then lfoStep x.cfg (lfoSpeedField data) else 0 } } :=
  if_pos h

/-- Settles O16: with the LFO only the shadow byte and the LFO step change; without it the write does nothing. -/
theorem lfoCtrlWrite : Obligations.LfoCtrlWrite := by
  intro s data hreg
  by_cases hlfo : s.self.cfg.family.hasLfoPan = true
  · obtain ⟨t, hexec, hself, haround, houtside, hstored⟩ := exec_write_framed (i := .lfoCtrl data) hreg rfl hlfo rfl
    rw [Instance.applyWrite, Instance.writeLfoCtrl_of_lfo data hlfo, lfoEnableField_eq, lfoStep_speedField] at hself
    refine ⟨t, hexec, ?_⟩
    rw [if_pos hlfo]
    exact ⟨haround, ⟨houtside, by rw [hself]; rfl, by rw [hself]; rfl⟩, hstored, by rw [hself]⟩
  · refine ⟨_, exec_write_live (i := .lfoCtrl data) rfl nofun, ?_⟩
    rw [if_neg hlfo, Instance.applyWrite, Instance.writeLfoCtrl_of_noLfo data (by simpa using hlfo)]

/-! ### Timer periods -/

/-- The period with its high bits from the byte, in numbers (41_global_regs.md R181). -/
theorem timerA_high_eq (data : Byte) (ta : BitVec 10) :
    data ++ ta.extractLsb' 0 2 = BitVec.ofNat 10 (data.toNat * 4 + ta.toNat % 4) := by
  have hlow : (ta.extractLsb' 0 2).toNat = ta.toNat % 4 := by
    rw [BitVec.extractLsb'_toNat, Nat.shiftRight_zero]
  apply BitVec.eq_of_toNat_eq
  rw [BitVec.toNat_append, ← Nat.shiftLeft_add_eq_or_of_lt (BitVec.isLt _), hlow, BitVec.toNat_ofNat,
    Nat.shiftLeft_eq]
  omega

/-- The period with its low bits from the byte, in numbers (41_global_regs.md R182). -/
theorem timerA_low_eq (data : Byte) (ta : BitVec 10) :
    ta.extractLsb' 2 8 ++ timerALoField data = BitVec.ofNat 10 (ta.toNat / 4 * 4 + data.toNat % 4) := by
  have hhigh : (ta.extractLsb' 2 8).toNat = ta.toNat / 4 := by
    rw [BitVec.extractLsb'_toNat, Nat.shiftRight_eq_div_pow]
    omega
  have hlow : (timerALoField data).toNat = data.toNat % 4 := by
    rw [timerALoField, BitVec.extractLsb'_toNat, Nat.shiftRight_zero]
  apply BitVec.eq_of_toNat_eq
  rw [BitVec.toNat_append, ← Nat.shiftLeft_add_eq_or_of_lt (BitVec.isLt _), hhigh, hlow, BitVec.toNat_ofNat,
    Nat.shiftLeft_eq]
  omega

/-- Settles O17: each of the three stores its byte and its bits of the period, in numbers by `timerA_high_eq` and
`timerA_low_eq`. -/
theorem timerPeriodWrites : Obligations.TimerPeriodWrites := by
  intro s data hreg
  refine ⟨?_, ?_, ?_⟩
  · obtain ⟨t, hexec, hself, haround, houtside, hstored⟩ := exec_write_framed (i := .timerAHi data) hreg rfl rfl rfl
    refine ⟨t, hexec, haround, ⟨houtside, by rw [hself]; rfl, by rw [hself]; rfl⟩, hstored, ?_⟩
    rw [hself, ← timerA_high_eq]; rfl
  · obtain ⟨t, hexec, hself, haround, houtside, hstored⟩ := exec_write_framed (i := .timerALo data) hreg rfl rfl rfl
    refine ⟨t, hexec, haround, ⟨houtside, by rw [hself]; rfl, by rw [hself]; rfl⟩, hstored, ?_⟩
    rw [hself, ← timerA_low_eq]; rfl
  · obtain ⟨t, hexec, hself, haround, houtside, hstored⟩ := exec_write_framed (i := .timerB data) hreg rfl rfl rfl
    refine ⟨t, hexec, haround, ⟨houtside, by rw [hself]; rfl, by rw [hself]; rfl⟩, hstored, ?_⟩
    rw [hself]; rfl

/-! ### MODE_TIMER -/

/-- Bits 7 and 6 of two bytes differ exactly if their quotients by 64 do. -/
theorem topBits_xor_ne_zero_iff (m d : Byte) : (m ^^^ d).extractLsb' 6 2 ≠ 0 ↔ m.toNat / 64 ≠ d.toNat / 64 := by
  have htop : ∀ b : Byte, (b.extractLsb' 6 2).toNat = b.toNat / 64 := fun b => by
    rw [BitVec.extractLsb'_toNat, Nat.shiftRight_eq_div_pow]
    omega
  rw [BitVec.extractLsb'_xor, not_iff_not, ← htop, ← htop, BitVec.toNat_inj]
  exact BitVec.xor_eq_zero_iff

@[simp] theorem Instance.setMode_chip (x : Instance) (data : Byte) :
    (x.setMode data).chip = { x.chip with mode := data } := by
  unfold Instance.setMode; dsimp only; split <;> rfl

@[simp] theorem Instance.setMode_events (x : Instance) (data : Byte) : (x.setMode data).events = x.events := by
  unfold Instance.setMode; dsimp only; split <;> rfl

/-- Storing the mode keeps the reported level the status's: neither is touched. -/
theorem Instance.setMode_irq {x : Instance} (data : Byte) (h : x.chip.irq = x.chip.level) :
    (x.setMode data).chip.irq = (x.setMode data).chip.level := by
  rw [Instance.setMode_chip]
  exact h

/-- The mode marks channel 2 dirty if its bits 7 and 6 change, and no other channel (41_global_regs.md R184). -/
theorem Instance.ch_setMode (x : Instance) (data : Byte) (c : Chan) :
    (x.setMode data).ch c =
      if c = .ch2 then { x.ch .ch2 with
        dirty := (x.ch .ch2).dirty || x.chip.mode.toNat / 64 != data.toNat / 64 } else x.ch c := by
  have hch : (x.setMode data).ch c =
      (if (x.chip.mode ^^^ data).extractLsb' 6 2 ≠ 0 then x.updCh .ch2 Channel.markDirty else x).ch c := rfl
  simp only [hch, topBits_xor_ne_zero_iff]
  by_cases htop : x.chip.mode.toNat / 64 = data.toNat / 64
  · have heq : (x.chip.mode.toNat / 64 != data.toNat / 64) = false := by rw [htop, bne_self_eq_false]
    rw [if_neg (not_not.mpr htop), heq, Bool.or_false]
    split
    next hc => rw [hc]
    next => rfl
  · have hne : (x.chip.mode.toNat / 64 != data.toNat / 64) = true := bne_iff_ne.mpr htop
    simp [htop, hne, Channel.markDirty]

/-- The mask of timer A's flag reset, by bit 4 of the byte. -/
theorem resetMask_a (data : Byte) : resetMask data .a = if bitOf data 4 then 0xFE else 0xFF := by
  rw [resetMask, resetField_a]; rfl

/-- The mask of timer B's flag reset, by bit 5 of the byte. -/
theorem resetMask_b (data : Byte) : resetMask data .b = if bitOf data 5 then 0xFD else 0xFF := by
  rw [resetMask, resetField_b]; rfl

/-- Settles O18: the mode is stored first, then the flag resets and the loads act on a chip record whose level is the
status's still. -/
theorem modeTimerWrite : Obligations.ModeTimerWrite := by
  intro s data hreg hirq
  obtain ⟨t, hexec, hself, haround, houtside, hstored⟩ := exec_write_framed (i := .modeTimer data) hreg rfl rfl rfl
  have hlevel := Instance.setMode_irq (x := s.self.store 0x027 data) data hirq
  rw [Instance.applyWrite, Instance.writeModeTimer, Instance.modeActions_eq _ data hlevel] at hself
  refine ⟨t, hexec, haround, houtside, hstored, fun d hd => ?_, ?_, ?_, ?_⟩ <;> rw [hself]
  · exact (Instance.ch_setMode _ data d).trans (if_neg hd)
  · exact (Instance.ch_setMode _ data .ch2).trans (if_pos rfl)
  · simp only [Instance.setMode_chip, Instance.store_chip, resetMask_a, resetMask_b, irqMask_eq, loadField_a,
      loadField_b]
    rfl
  · simp only [Instance.setMode_chip, Instance.setMode_events, Instance.store_chip, Instance.store_events, loadField_a,
      loadField_b]
    rfl

/-! ### KEY_ONOFF -/

/-- The rate index of the attack, in numbers (44_envelope.md R276). -/
theorem Operator.index_att (o : Operator) :
    o.index .att = if o.ar.toNat = 0 then o.ksrVal.toNat else 32 + 2 * o.ar.toNat + o.ksrVal.toNat := rfl

/-- The key-on does what R278 of 44_envelope.md says. -/
theorem Operator.keyedOn_keyOn (p : FamilyParams) (o : Operator) : KeyedOn p o (o.keyOn p) := by
  unfold KeyedOn
  split
  next hkey => exact o.keyOn_held p hkey
  next hkey =>
    have hcases := o.keyOn_cases p (by simpa using hkey)
    rw [Operator.index_att] at hcases
    rcases hcases with ⟨hshort, h⟩ | ⟨hlong, h⟩
    · rw [h]; exact ⟨rfl, rfl, rfl, rfl, by rw [if_pos hshort]; exact ⟨rfl, rfl⟩, rfl⟩
    · rw [h]; exact ⟨rfl, rfl, rfl, rfl, by rw [if_neg hlong]; exact ⟨rfl, rfl⟩, rfl⟩

/-- REL is where a key-off leads from every state but OFF (44_envelope.md R279). -/
theorem EgState.afterKeyOff_eq (e : EgState) : (if e.pastRel then .rel else e) = if e = .off then .off else .rel := by
  cases e <;> rfl

/-- The key-off does what R279 of 44_envelope.md says. -/
theorem Operator.keyedOff_keyOff (o : Operator) : KeyedOff o o.keyOff := by
  unfold KeyedOff
  split
  next hkey =>
    rw [o.keyOff_held hkey]
    exact ⟨rfl, o.state.afterKeyOff_eq, by rw [← hkey]⟩
  next hkey => exact o.keyOff_free (by simpa using hkey)

/-- Channel bits 3 select no channel (41_global_regs.md R185). -/
theorem keyChannel_eq_none (six : Bool) {data : Byte} (h : data.toNat % 4 = 3) : keyChannel six data = none := by
  have hlow : keyLowField data = 3 := BitVec.eq_of_toNat_eq ((keyLowField_toNat data).trans h)
  rw [keyChannel, hlow, ofBankChs_three]

/-- A channel is known by its index. -/
theorem chanIndex_injective : Function.Injective chanIndex := by
  intro c d; cases c <;> cases d <;> decide

/-- Other channel bits select the channel of their index, bit 2 counting on six channels only (41_global_regs.md
R185). -/
theorem keyChannel_eq_some {six : Bool} {data : Byte} {c : Chan} (hlow : data.toNat % 4 ≠ 3)
    (hc : chanIndex c = data.toNat % 4 + if bitOf data 2 && six then 3 else 0) : keyChannel six data = some c := by
  rw [← keyLowField_toNat] at hlow hc
  rw [← keyHighField_eq] at hc
  obtain ⟨d, hd, hindex⟩ := exists_ofBankChs (keyHighField data && six) hlow
  rw [keyChannel, hd, chanIndex_injective (hindex.trans hc.symm)]

/-- The four operators of a channel keyed by the gate bits of a byte (41_global_regs.md R185). -/
def Channel.keyGates (p : FamilyParams) (data : Byte) (h : Channel) : Channel :=
  { h with ops := Quad.tabulate fun n => (h.ops.get n).gate p (keyGateField data n) }

/-- A gate bit keys its operator on or off (41_global_regs.md R185). -/
theorem Channel.keyGates_op (p : FamilyParams) (data : Byte) (h : Channel) (n : OpNum) :
    if bitOf data (3 + opNumber n) then KeyedOn p (h.ops.get n) ((h.keyGates p data).ops.get n)
      else KeyedOff (h.ops.get n) ((h.keyGates p data).ops.get n) := by
  rw [← keyGateField_eq]
  simp only [Channel.keyGates, Quad.get_tabulate, Operator.gate]
  split
  · exact (h.ops.get n).keyedOn_keyOn p
  · exact (h.ops.get n).keyedOff_keyOff

theorem Instance.writeKeyOnOff_of_none {x : Instance} {data : Byte} (h : keyChannel x.cfg.family.six data = none) :
    x.writeKeyOnOff data = x.store 0x028 data := by
  simp only [Instance.writeKeyOnOff, h]

theorem Instance.writeKeyOnOff_of_some {x : Instance} {data : Byte} {c : Chan}
    (h : keyChannel x.cfg.family.six data = some c) :
    x.writeKeyOnOff data = (x.store 0x028 data).updCh c (Channel.keyGates x.cfg.params data) := by
  simp only [Instance.writeKeyOnOff, h]
  rfl

/-- A key write changes neither the chip record nor the events. -/
theorem Instance.writeKeyOnOff_frame (x : Instance) (data : Byte) :
    (x.writeKeyOnOff data).chip = x.chip ∧ (x.writeKeyOnOff data).events = x.events := by
  cases h : keyChannel x.cfg.family.six data with
  | none => rw [Instance.writeKeyOnOff_of_none h]; exact ⟨rfl, rfl⟩
  | some c => rw [Instance.writeKeyOnOff_of_some h]; exact ⟨rfl, rfl⟩

/-- Settles O19: the byte is stored, and the selected channel, if there is one, has its operators gated. -/
theorem keyOnOffWrite : Obligations.KeyOnOffWrite := by
  intro s data hreg
  obtain ⟨t, hexec, hself, haround, houtside, hstored⟩ := exec_write_framed (i := .keyOnOff data) hreg rfl rfl rfl
  rw [Instance.applyWrite] at hself
  obtain ⟨hchip, hevents⟩ := s.self.writeKeyOnOff_frame data
  rw [← hself] at hchip hevents
  refine ⟨t, hexec, haround, houtside, hchip, hevents, hstored, fun hnone => ?_, fun c hsome hc => ?_⟩
  · rw [hself, Instance.writeKeyOnOff_of_none (keyChannel_eq_none _ hnone), Instance.store_chans]
  · rw [Instance.writeKeyOnOff_of_some (keyChannel_eq_some hsome hc)] at hself
    have hch : ∀ d, t.self.ch d = if d = c then (s.self.ch c).keyGates s.self.cfg.params data else s.self.ch d :=
      fun d => by rw [hself, Instance.ch_updCh]; rfl
    refine ⟨fun d hd => (hch d).trans (if_neg hd), ?_, fun n => ?_⟩
    · rw [hch, if_pos rfl]; rfl
    · simp only [Instance.op, hch, if_true]
      exact (s.self.ch c).keyGates_op s.self.cfg.params data n

end Sys2Proof.Machine
end

section
/-! PROOFS. The operator register writes 0x30 to 0x9F (42_operator_regs.md R210 to R216). All seven are one operation: a
byte is stored, the fields of one operator are replaced and its channel's dirty marker is set to a value. Its effect and
frame are proved once. -/

namespace Sys2Proof.Machine

/-! ### The shape of an operator register write -/

/-- Store a byte, change operator `n` of channel `c` and give the channel's dirty marker a value. -/
def Instance.writeOperator (x : Instance) (a : BitVec 9) (data : Byte) (c : Chan) (n : OpNum)
    (f : Operator → Operator) (dirty : Bool) : Instance :=
  (x.store a data).updCh c fun h => { h.updOp n f with dirty := dirty }

section
variable (x : Instance) (a : BitVec 9) (data : Byte) (c : Chan) (n : OpNum) (f : Operator → Operator) (dirty : Bool)

theorem Instance.ch_writeOperator :
    (x.writeOperator a data c n f dirty).ch c = { (x.ch c).updOp n f with dirty := dirty } := by
  rw [Instance.writeOperator, Instance.ch_updCh, if_pos rfl, Instance.ch_store]

theorem Instance.ch_writeOperator_of_ne {d : Chan} (hd : d ≠ c) :
    (x.writeOperator a data c n f dirty).ch d = x.ch d := by
  rw [Instance.writeOperator, Instance.ch_updCh, if_neg hd, Instance.ch_store]

theorem Instance.op_writeOperator (m : OpNum) :
    (x.writeOperator a data c n f dirty).op c m = if m = n then f (x.op c n) else x.op c m := by
  rw [Instance.op, Instance.ch_writeOperator]
  exact Quad.get_set ..

theorem Instance.writeOperator_onlyOperator : OnlyOperator x (x.writeOperator a data c n f dirty) c n where
  outside := ⟨rfl, rfl, rfl⟩
  chip := rfl
  events := rfl
  others := fun _ hd => x.ch_writeOperator_of_ne a data c n f dirty hd
  operators := fun m hm => (x.op_writeOperator a data c n f dirty m).trans (if_neg hm)
  own := by rw [Instance.ch_writeOperator]; rfl

end

/-- A register write whose effect is `writeOperator` on a channel the family has: completion, effect and frame. -/
theorem exec_writeOperator {i : Instr} {s : State} {a : BitVec 9} {data : Byte} {c : Chan} {n : OpNum}
    {f : Operator → Operator} {dirty : Bool} (hreg : s.self.reg.wf = true) (hi : isWrite i = true)
    (hwf : i.wf s.self.cfg.family.six s.self.cfg.family.hasLfoPan = true) (ha : i.addressData = some (a, data))
    (heffect : s.self.applyWrite i = s.self.writeOperator a data c n f dirty) :
    ∃ t, exec i s = .next t ∧ SameAround s t ∧ OnlyOperator s.self t.self c n ∧ StoredAt s.self t.self a data
      ∧ (t.self.ch c).dirty = dirty ∧ t.self.op c n = f (s.self.op c n) := by
  obtain ⟨t, hexec, hself, haround, -, hstored⟩ := exec_write_framed hreg hi hwf ha
  rw [heffect] at hself
  refine ⟨t, hexec, haround, ?_, hstored, ?_, ?_⟩ <;> rw [hself]
  · exact s.self.writeOperator_onlyOperator a data c n f dirty
  · rw [Instance.ch_writeOperator]
  · exact (s.self.op_writeOperator a data c n f dirty n).trans (if_pos rfl)

/-! ### Each write's fields in numbers -/

section
variable (x : Instance) (c : Chan) (n : OpNum) (data : Byte)

/-- 42_operator_regs.md R210. -/
theorem Instance.writeDtMul_eq :
    x.writeDtMul c n data = x.writeOperator (operatorAddr 0x3 c n) data c n
      (fun o => { o with dt := BitVec.ofNat 3 (data.toNat / 16 % 8), mul := BitVec.ofNat 4 (data.toNat % 16) })
      true := by
  rw [← dtField_eq, ← mulField_eq]; rfl

/-- 42_operator_regs.md R211. -/
theorem Instance.writeTl_eq :
    x.writeTl c n data = x.writeOperator (operatorAddr 0x4 c n) data c n
      (fun o => { o with tl := BitVec.ofNat 7 (data.toNat % 128) }) (x.ch c).dirty := by
  rw [← tlField_eq]; rfl

/-- The written key-scale selector differs from an old one exactly if the byte's quotient by 64 does. -/
theorem ksField_ne_iff (ks : BitVec 2) : ksField data ≠ ks ↔ data.toNat / 64 ≠ ks.toNat := by
  have hks : (ksField data).toNat = data.toNat / 64 := by
    rw [ksField_eq, BitVec.toNat_ofNat]
    omega
  rw [← hks, Ne, Ne, BitVec.toNat_inj]

/-- 42_operator_regs.md R212: the marker is kept, or set if the selector changes. -/
theorem Instance.writeKsAr_eq :
    x.writeKsAr c n data = x.writeOperator (operatorAddr 0x5 c n) data c n
      (fun o => { o with ks := BitVec.ofNat 2 (data.toNat / 64), ar := BitVec.ofNat 5 (data.toNat % 32) })
      ((x.ch c).dirty || data.toNat / 64 != (x.op c n).ks.toNat) := by
  rw [← ksField_eq, ← arField_eq]
  have hch : ((x.store (operatorAddr 0x5 c n) data).ch c).ops.get n = x.op c n := rfl
  simp only [Instance.writeKsAr, Instance.writeOperator, Instance.updCh, hch, ksField_ne_iff]
  by_cases hks : data.toNat / 64 = (x.op c n).ks.toNat
  · rw [if_neg (not_not.mpr hks), bne_eq_false_iff_eq.mpr hks, Bool.or_false]; rfl
  · rw [if_pos hks, bne_iff_ne.mpr hks, Bool.or_true]; rfl

/-- 42_operator_regs.md R213. -/
theorem Instance.writeAmD1r_eq :
    x.writeAmD1r c n data = x.writeOperator (operatorAddr 0x6 c n) data c n
      (fun o => { o with am := bitOf data 7, d1r := BitVec.ofNat 5 (data.toNat % 32) }) (x.ch c).dirty := by
  rw [← amField_eq, ← d1rField_eq]; rfl

/-- 42_operator_regs.md R214. -/
theorem Instance.writeD2r_eq :
    x.writeD2r c n data = x.writeOperator (operatorAddr 0x7 c n) data c n
      (fun o => { o with d2r := BitVec.ofNat 5 (data.toNat % 32) }) (x.ch c).dirty := by
  rw [← d2rField_eq]; rfl

/-- 42_operator_regs.md R215. -/
theorem Instance.writeSlRr_eq :
    x.writeSlRr c n data = x.writeOperator (operatorAddr 0x8 c n) data c n
      (fun o => { o with sl := BitVec.ofNat 4 (data.toNat / 16), rr := BitVec.ofNat 4 (data.toNat % 16) })
      (x.ch c).dirty := by
  rw [← slField_eq, ← rrField_eq]; rfl

/-- 42_operator_regs.md R216. -/
theorem Instance.writeSsgEg_eq :
    x.writeSsgEg c n data = x.writeOperator (operatorAddr 0x9 c n) data c n
      (fun o => { o with ssg := BitVec.ofNat 4 (data.toNat % 16) }) (x.ch c).dirty := by
  rw [← ssgField_eq]; rfl

end

/-! ### The detune of a field -/

/-- Adding 4 to a detune field below 4 negates the detune (40_tables.md R159). -/
theorem detune_add_four (g : Config) {d : BitVec 3} (kc : BitVec 5) (hd : d.toNat < 4) :
    detune g (d + 4) kc = -detune g d kc := by
  have hsum : (d + 4).toNat = d.toNat + 4 := BitVec.toNat_add_of_lt (by simpa using by omega)
  simp only [detune]
  rw [hsum, Nat.add_mod_right, if_neg (by omega), if_pos hd]

/-- A detune field of 0 detunes nothing: the first row of DT_MAG is 0 (40_tables.md R156). -/
theorem detune_zero (g : Config) (kc : BitVec 5) : detune g 0 kc = 0 := by
  have hrow : (dtMag.getD 0 []).getD kc.toNat 0 = 0 := List.getD_replicate 0 kc.isLt
  change ((scaled g ((dtMag.getD 0 []).getD kc.toNat 0) : Nat) : Int) = 0
  rw [hrow, scaled, Nat.zero_mul, Nat.zero_div, Nat.cast_zero]

/-! ### The obligations -/

/-- Settles O20: the write by `exec_writeOperator`, a field of 4 or more by `detune_add_four`. -/
theorem detuneMultiplierWrite : Obligations.DetuneMultiplierWrite := by
  refine ⟨fun s c n data hlive hreg => ?_, fun _ => rfl, fun g d kc hd => ⟨detune_add_four g kc hd, ?_⟩⟩
  · exact exec_writeOperator (i := .dtMul c n data) hreg rfl hlive rfl (s.self.writeDtMul_eq c n data)
  · have hfour : detune g 4 kc = -detune g 0 kc := detune_add_four g (d := 0) kc (by decide)
    rw [hfour, detune_zero, neg_zero]

/-- Settles O21: only the total level of the one operator is replaced. -/
theorem totalLevelWrite : Obligations.TotalLevelWrite := fun s c n data hlive hreg =>
  exec_writeOperator (i := .tl c n data) hreg rfl hlive rfl (s.self.writeTl_eq c n data)

/-- Settles O22: the marker's value is the one `writeKsAr_eq` gives. -/
theorem keyScaleAttackWrite : Obligations.KeyScaleAttackWrite := fun s c n data hlive hreg =>
  exec_writeOperator (i := .ksAr c n data) hreg rfl hlive rfl (s.self.writeKsAr_eq c n data)

/-- Settles O23: each of the three replaces its fields of the one operator and keeps the marker. -/
theorem decayAndReleaseWrites : Obligations.DecayAndReleaseWrites := fun s c n data hlive hreg =>
  ⟨exec_writeOperator (i := .amD1r c n data) hreg rfl hlive rfl (s.self.writeAmD1r_eq c n data),
    exec_writeOperator (i := .d2r c n data) hreg rfl hlive rfl (s.self.writeD2r_eq c n data),
    exec_writeOperator (i := .slRr c n data) hreg rfl hlive rfl (s.self.writeSlRr_eq c n data)⟩

/-- Settles O24: only the SSG field of the one operator is replaced. -/
theorem ssgEgWrite : Obligations.SsgEgWrite := fun s c n data hlive hreg =>
  exec_writeOperator (i := .ssgEg c n data) hreg rfl hlive rfl (s.self.writeSsgEg_eq c n data)

end Sys2Proof.Machine
end

section
/-! PROOFS. The channel register writes 0xA0 to 0xB6 (43_channel_regs.md R240 to R246). Most have one of two shapes, whose
effect and frame are proved once: a byte is stored and the fields of one channel are replaced, or a byte is stored and the
chip record is replaced. SL3_FNUM_LO does both. -/

namespace Sys2Proof.Machine

/-! ### The shapes of a channel register write -/

/-- Changing a channel but for its operators has the frame of a write to that channel's fields. -/
theorem Instance.updCh_store_onlyChannel (x : Instance) (a : BitVec 9) (data : Byte) (c : Chan) {f : Channel → Channel}
    (hops : (f (x.ch c)).ops = (x.ch c).ops) : OnlyChannel x ((x.store a data).updCh c f) c where
  outside := ⟨rfl, rfl, rfl⟩
  chip := rfl
  events := rfl
  others := fun d hd => (Instance.ch_updCh _ c d f).trans (if_neg hd)
  operators := by rw [Instance.ch_updCh, if_pos rfl, Instance.ch_store, hops]

/-- A register write that stores its byte and changes the fields of a channel: completion, effect and frame. -/
theorem exec_writeChannelFields {i : Instr} {s : State} {a : BitVec 9} {data : Byte} {c : Chan} {f : Channel → Channel}
    (hreg : s.self.reg.wf = true) (hi : isWrite i = true)
    (hwf : i.wf s.self.cfg.family.six s.self.cfg.family.hasLfoPan = true) (ha : i.addressData = some (a, data))
    (heffect : s.self.applyWrite i = (s.self.store a data).updCh c f)
    (hops : (f (s.self.ch c)).ops = (s.self.ch c).ops) :
    ∃ t, exec i s = .next t ∧ SameAround s t ∧ OnlyChannel s.self t.self c ∧ StoredAt s.self t.self a data
      ∧ t.self.ch c = f (s.self.ch c) := by
  obtain ⟨t, hexec, hself, haround, -, hstored⟩ := exec_write_framed hreg hi hwf ha
  rw [heffect] at hself
  refine ⟨t, hexec, haround, ?_, hstored, ?_⟩ <;> rw [hself]
  · exact s.self.updCh_store_onlyChannel a data c hops
  · exact (Instance.ch_updCh _ c c f).trans (if_pos rfl)

/-- A register write that stores its byte and replaces the chip record: completion, effect and frame. -/
theorem exec_writeChip {i : Instr} {s : State} {a : BitVec 9} {data : Byte} {k : Chip}
    (hreg : s.self.reg.wf = true) (hi : isWrite i = true)
    (hwf : i.wf s.self.cfg.family.six s.self.cfg.family.hasLfoPan = true) (ha : i.addressData = some (a, data))
    (heffect : s.self.applyWrite i = { s.self.store a data with chip := k }) :
    ∃ t, exec i s = .next t ∧ SameAround s t ∧ OnlyChip s.self t.self ∧ StoredAt s.self t.self a data
      ∧ t.self.chip = k := by
  obtain ⟨t, hexec, hself, haround, houtside, hstored⟩ := exec_write_framed hreg hi hwf ha
  rw [heffect] at hself
  exact ⟨t, hexec, haround, ⟨houtside, by rw [hself]; rfl, by rw [hself]; rfl⟩, hstored, by rw [hself]⟩

/-! ### The frequency writes -/

/-- The frequency number of a latch and a low byte (43_channel_regs.md R240, R242). -/
theorem latchFnum_toNat (latch : BitVec 6) (low : Byte) :
    (latchFnum latch low).toNat = latch.toNat % 8 * 256 + low.toNat := by
  have hhigh : (latch.extractLsb' 0 3).toNat = latch.toNat % 8 := by
    rw [BitVec.extractLsb'_toNat, Nat.shiftRight_zero]
  rw [latchFnum, BitVec.toNat_append, ← Nat.shiftLeft_add_eq_or_of_lt low.isLt, hhigh, Nat.shiftLeft_eq]

/-- 43_channel_regs.md R240. -/
theorem Instance.writeFnumLo_eq (x : Instance) (c : Chan) (data : Byte) :
    x.writeFnumLo c data = (x.store (channelAddr 0x28 c) data).updCh c fun h => { h with
      fnum := latchFnum x.chip.fnH data, blk := latchBlk x.chip.fnH
      kcode := keycode (latchBlk x.chip.fnH) (latchFnum x.chip.fnH data), dirty := true } := rfl

/-- Settles O25: the channel takes the frequency and the block of the latch, with their keycode. -/
theorem frequencyLowWrite : Obligations.FrequencyLowWrite := by
  refine ⟨fun s c data hlive hreg => ?_, keycode_toNat⟩
  obtain ⟨t, hexec, haround, honly, hstored, hch⟩ :=
    exec_writeChannelFields (i := .fnumLo c data) hreg rfl hlive rfl (s.self.writeFnumLo_eq c data) rfl
  refine ⟨t, hexec, haround, honly, hstored, ?_, ?_, ?_⟩ <;> rw [hch]
  · exact latchFnum_toNat s.self.chip.fnH data
  · exact latchBlk_toNat s.self.chip.fnH

/-- Settles O26: only the latch of the chip record is replaced. -/
theorem frequencyHighWrite : Obligations.FrequencyHighWrite := by
  intro s c data hlive hreg
  rw [← latchField_eq]
  exact exec_writeChip (i := .fnumHiBlk c data) hreg rfl hlive rfl rfl

/-- Replacing a 3-slot entry changes nothing of the chip record but the entries. -/
theorem Chip.setSl3_rest (k : Chip) (e : Slot3) (f : Slot3Freq) :
    { k.setSl3 e f with sl3k0 := k.sl3k0, sl3k1 := k.sl3k1, sl3k2 := k.sl3k2 } = k := by
  cases e <;> rfl

/-- The low-byte write replaces its entry by the latched frequency, with its keycode (43_channel_regs.md R242). -/
theorem Instance.writeSl3FnumLo_chip (x : Instance) (k : Slot3) (data : Byte) :
    (x.writeSl3FnumLo k data).chip = x.chip.setSl3 k ⟨latchFnum x.chip.sl3FnH data, latchBlk x.chip.sl3FnH,
      keycode (latchBlk x.chip.sl3FnH) (latchFnum x.chip.sl3FnH data)⟩ := rfl

/-- It marks channel 2 dirty and leaves the other channels (43_channel_regs.md R242). -/
theorem Instance.ch_writeSl3FnumLo (x : Instance) (k : Slot3) (data : Byte) (c : Chan) :
    (x.writeSl3FnumLo k data).ch c = if c = .ch2 then (x.ch .ch2).markDirty else x.ch c :=
  Instance.ch_updCh ..

theorem Instance.writeSl3FnumLo_events (x : Instance) (k : Slot3) (data : Byte) :
    (x.writeSl3FnumLo k data).events = x.events := rfl

/-- Settles O27: the low byte replaces one entry of the chip record and marks channel 2, the high byte replaces the
3-slot latch. -/
theorem slot3FrequencyWrites : Obligations.Slot3FrequencyWrites := by
  intro s k data hreg
  refine ⟨?_, ?_⟩
  · obtain ⟨t, hexec, hself, haround, houtside, hstored⟩ :=
      exec_write_framed (i := .sl3FnumLo k data) hreg rfl rfl rfl
    rw [Instance.applyWrite] at hself
    have hchip := s.self.writeSl3FnumLo_chip k data
    have hch := s.self.ch_writeSl3FnumLo k data
    have hevents := s.self.writeSl3FnumLo_events k data
    rw [← hself] at hchip hch hevents
    have hentry : ∀ e, t.self.chip.sl3 e = if e = k then _ else s.self.chip.sl3 e := fun e => by
      rw [hchip]; exact Chip.setSl3_sl3 ..
    refine ⟨t, hexec, haround, houtside, hevents, hstored, fun d hd => (hch d).trans (if_neg hd),
      (hch .ch2).trans (if_pos rfl), ?_, ?_, ?_, fun e he => (hentry e).trans (if_neg he), ?_⟩
    · rw [hentry, if_pos rfl]; exact latchFnum_toNat s.self.chip.sl3FnH data
    · rw [hentry, if_pos rfl]; exact latchBlk_toNat s.self.chip.sl3FnH
    · rw [hentry, if_pos rfl]
    · rw [hchip]; exact s.self.chip.setSl3_rest k _
  · rw [← latchField_eq]
    exact exec_writeChip (i := .sl3FnumHiBlk k data) hreg rfl rfl rfl rfl

/-! ### Feedback, algorithm, pan and depths -/

/-- The feedback shift of the channel's feedback (43_channel_regs.md R245). -/
theorem Channel.fbShift_eq (h : Channel) : h.fbShift = if h.fb.toNat = 0 then 0 else h.fb.toNat + 6 := rfl

/-- The feedback field of a byte as a number (43_channel_regs.md R245). -/
theorem fbField_toNat (data : Byte) : (fbField data).toNat = data.toNat / 8 % 8 := by
  rw [fbField_eq, BitVec.toNat_ofNat]
  omega

/-- 43_channel_regs.md R245. -/
theorem Instance.writeFbAlgo_eq (x : Instance) (c : Chan) (data : Byte) :
    x.writeFbAlgo c data = (x.store (channelAddr 0x2C c) data).updCh c fun h => { h with
      algo := BitVec.ofNat 3 (data.toNat % 8), fb := BitVec.ofNat 3 (data.toNat / 8 % 8) } := by
  rw [← algoField_eq, ← fbField_eq]; rfl

/-- Settles O28: the channel takes the algorithm and the feedback, and with it the feedback shift. -/
theorem feedbackAlgorithmWrite : Obligations.FeedbackAlgorithmWrite := by
  intro s c data hlive hreg
  obtain ⟨t, hexec, haround, honly, hstored, hch⟩ :=
    exec_writeChannelFields (i := .fbAlgo c data) hreg rfl hlive rfl (s.self.writeFbAlgo_eq c data) rfl
  refine ⟨t, hexec, haround, honly, hstored, hch, ?_⟩
  rw [hch, Channel.fbShift_eq, ← fbField_eq, fbField_toNat]

/-- With pan the write stores the byte and the channel's pan bits and depths (43_channel_regs.md R246). -/
theorem Instance.writePanAmsPms_of_pan {x : Instance} (c : Chan) (data : Byte) (h : x.cfg.family.hasLfoPan = true) :
    x.writePanAmsPms c data = (x.store (channelAddr 0x2D c) data).updCh c fun k => { k with
      panL := bitOf data 7, panR := bitOf data 6
      ams := BitVec.ofNat 2 (data.toNat / 16 % 4), pms := BitVec.ofNat 3 (data.toNat % 8) } := by
  rw [← panLField_eq, ← panRField_eq, ← amsField_eq, ← pmsField_eq]
  exact if_pos h

/-- Without it the write does nothing (30_encoding.md R108). -/
theorem Instance.writePanAmsPms_of_noPan {x : Instance} (c : Chan) (data : Byte)
    (h : ¬x.cfg.family.hasLfoPan = true) : x.writePanAmsPms c data = x :=
  if_neg h

/-- Settles O29: with pan the write changes the fields of the one channel; without it it runs and does nothing. -/
theorem panDepthWrite : Obligations.PanDepthWrite := by
  intro s c data hlive hreg
  by_cases hpan : s.self.cfg.family.hasLfoPan = true
  · have hwf : (Instr.panAmsPms c data).wf s.self.cfg.family.six s.self.cfg.family.hasLfoPan = true :=
      Bool.and_eq_true_iff.mpr ⟨hpan, hlive⟩
    obtain ⟨t, hexec, heffect⟩ :=
      exec_writeChannelFields hreg rfl hwf rfl (Instance.writePanAmsPms_of_pan c data hpan) rfl
    exact ⟨t, hexec, by rwa [if_pos hpan]⟩
  · refine ⟨_, exec_write_live (i := .panAmsPms c data) rfl fun d hd => by cases hd; exact hlive, ?_⟩
    rw [if_neg hpan, Instance.applyWrite, Instance.writePanAmsPms_of_noPan c data hpan]

end Sys2Proof.Machine
end

section
/-! PROOFS. The envelope generator (44_envelope.md): the gate, the increment and the SSG bits in numbers, the equation
of each state's step, and the running state of an operator, which a register write leaves. -/

namespace Sys2Proof.Machine

/-! ### The rules' numbers -/

theorem egGate_iff (i : Nat) (t : BitVec 32) : egGate i t = true ↔ gateOpen i t := by
  rw [egGate, gateOpen, beq_iff_eq, Nat.one_shiftLeft]

theorem egIncrement_eq (p : FamilyParams) (i : Nat) (t : BitVec 32) : egIncrement p i t = tickIncrement p i t := by
  rw [egIncrement, tickIncrement, Nat.shiftRight_eq_div_pow]

/-- The multiplier of SSG-EG in numbers (00_scope.md R5). -/
theorem ssgMulValue_eq (p : FamilyParams) : ssgMulValue p = if p.ssgMul = .four then 4 else 6 := by
  unfold ssgMulValue; cases p.ssgMul <;> rfl

/-! ### The SSG bits in numbers (10_state.md R32) -/

theorem Operator.ssgOn_iff (o : Operator) : o.ssgOn = true ↔ 8 ≤ o.ssg.toNat := by
  have hbit : o.ssgOn = decide (8 ≤ o.ssg.toNat) := BitVec.msb_eq_decide o.ssg
  rw [hbit, decide_eq_true_iff]

theorem Operator.ssgHold_iff (o : Operator) : o.ssgHold = true ↔ o.ssg.toNat % 2 = 1 := by
  rw [Operator.ssgHold, BitVec.getLsbD, Nat.testBit_eq_decide_div_mod_eq, decide_eq_true_iff, pow_zero, Nat.div_one]

theorem Operator.ssgAlternate_iff (o : Operator) : o.ssgAlternate = true ↔ o.ssg.toNat / 2 % 2 = 1 := by
  rw [Operator.ssgAlternate, BitVec.getLsbD, Nat.testBit_eq_decide_div_mod_eq, decide_eq_true_iff, pow_one]

/-! ### From a state's branch to the step -/

section
variable {p : FamilyParams} {t : BitVec 32} {o : Operator}

theorem Operator.egBranch_off (h : o.state = .off) : o.egBranch p t = o := by
  simp only [Operator.egBranch, h]

theorem Operator.egBranch_rel (h : o.state = .rel) : o.egBranch p t = o.releaseStep p t := by
  simp only [Operator.egBranch, h]

theorem Operator.egBranch_dec (h : o.state = .dec) : o.egBranch p t = o.decayStep p t := by
  simp only [Operator.egBranch, h]

theorem Operator.egBranch_att (h : o.state = .att) : o.egBranch p t = o.attackStep p t := by
  simp only [Operator.egBranch, h]

theorem Operator.egBranch_sus (h : o.state = .sus) (hssg : o.ssg.toNat < 8) :
    o.egBranch p t = o.sustainStep p t := by
  have hoff : ¬o.ssgOn = true := fun hon => absurd (o.ssgOn_iff.mp hon) (by omega)
  simp only [Operator.egBranch, h, if_neg hoff]

theorem Operator.egBranch_susSsg (h : o.state = .sus) (hssg : 8 ≤ o.ssg.toNat) :
    o.egBranch p t = o.sustainSsgStep p t := by
  simp only [Operator.egBranch, h, if_pos (o.ssgOn_iff.mpr hssg)]

/-- A step is its branch and the cached attenuation of the result (44_envelope.md R280, R291). -/
theorem Operator.egStep_eq {q : Operator} (h : o.egBranch p t = q) :
    o.egStep p t = { q with volOut := q.attenuation } := by
  rw [Operator.egStep, h]

/-- A step whose branch changes only the volume and the state changes nothing else but the cached attenuation. -/
theorem Operator.egStep_of_branch {v : Nat} {s : EgState}
    (h : o.egBranch p t = { o with volume := v, state := s }) :
    SameButEnvelope o (o.egStep p t) ∧ (o.egStep p t).volume = v ∧ (o.egStep p t).state = s := by
  rw [Operator.egStep_eq h]
  exact ⟨rfl, rfl, rfl⟩

end

/-! ### Every tick steps every operator -/

/-- A channel after a tick (44_envelope.md R270). -/
theorem Instance.ch_egTick (x : Instance) (c : Chan) :
    x.egTick.ch c = if x.live c then (x.ch c).egStep x.cfg.params (x.chip.egCnt + 1) else x.ch c :=
  Instance.ch_mapLive ..

/-- An operator after a tick (44_envelope.md R270). -/
theorem Instance.op_egTick (x : Instance) (c : Chan) (n : OpNum) :
    x.egTick.op c n = if x.live c then (x.op c n).egStep x.cfg.params (x.chip.egCnt + 1) else x.op c n := by
  simp only [Instance.op, Instance.ch_egTick]
  split
  · rw [Channel.egStep_ops, Quad.get_tabulate]
  · rfl

/-- Settles O38: the tick maps the live channels, a channel's step its operators; the branch of OFF is the identity. -/
theorem everyTickStepsEveryOperator : Obligations.EveryTickStepsEveryOperator := by
  refine ⟨fun x => ⟨rfl, ⟨rfl, rfl, rfl⟩, rfl, rfl, fun c => ?_, x.op_egTick⟩, fun p t o hoff => ?_⟩
  · rw [Instance.ch_egTick]
    split <;> rfl
  · rw [Operator.egStep_eq (Operator.egBranch_off hoff)]

/-! ### The attack -/

/-- The volume an open gate gives in ATT before the clamp at 0 (44_envelope.md R281). -/
def Operator.attackLevel (p : FamilyParams) (t : BitVec 32) (o : Operator) : Int :=
  o.volume + (-((o.volume : Int) + 1) * tickIncrement p (o.index .att) t) / 16

section
variable {p : FamilyParams} {t : BitVec 32} {o : Operator}

/-- A nonzero increment lowers the volume: the quotient of a negative number is negative (44_envelope.md R281). -/
theorem Operator.attackLevel_lt (hinc : 1 ≤ tickIncrement p (o.index .att) t) : o.attackLevel p t < o.volume := by
  have hneg : -((o.volume : Int) + 1) * tickIncrement p (o.index .att) t < 0 :=
    Int.mul_neg_of_neg_of_pos (by omega) (by omega)
  have hquot := Int.ediv_neg_of_neg_of_pos hneg (show (0 : Int) < 16 by decide)
  unfold Operator.attackLevel
  omega

/-- From index 94 on the attack ends at once, gate or not (44_envelope.md R282). -/
theorem Operator.attackStep_infinite (hi : 94 ≤ o.index .att) :
    o.attackStep p t = { o with volume := 0, state := .dec } :=
  if_pos hi

theorem Operator.attackStep_closed (hi : o.index .att < 94) (hgate : ¬gateOpen (o.index .att) t) :
    o.attackStep p t = o :=
  (if_neg (Nat.not_le.mpr hi)).trans (if_neg (mt (egGate_iff _ t).mp hgate))

theorem Operator.attackStep_open (hi : o.index .att < 94) (hgate : gateOpen (o.index .att) t) :
    o.attackStep p t =
      if o.attackLevel p t ≤ 0 then { o with volume := 0, state := .dec }
      else { o with volume := (o.attackLevel p t).toNat } := by
  rw [Operator.attackLevel, ← egIncrement_eq]
  exact (if_neg (Nat.not_le.mpr hi)).trans (if_pos ((egGate_iff _ t).mpr hgate))

end

/-- Settles O39: the branches of the attack step, with `attackLevel_lt` for a nonzero increment. -/
theorem attackStep : Obligations.AttackStep := by
  intro p t o hatt _ i v
  have hstep := fun {v s} (h : o.attackStep p t = { o with volume := v, state := s }) =>
    Operator.egStep_of_branch ((Operator.egBranch_att hatt).trans h)
  have hends (hi : i < 94) (hgate : gateOpen i t) (hv : v ≤ 0) :=
    hstep ((Operator.attackStep_open hi hgate).trans (if_pos hv))
  have hfalls (hi : i < 94) (hgate : gateOpen i t) (hv : 0 < v) :=
    hstep ((Operator.attackStep_open hi hgate).trans (if_neg (Int.not_le.mpr hv)))
  refine ⟨?_, fun hi => (hstep (Operator.attackStep_infinite hi)).2, fun hi hgate => ?_,
    fun hi hgate hv => (hends hi hgate hv).2, fun hi hgate hv => ?_, fun hi hgate hinc hpos => ?_⟩
  · rcases o.attackStep_cases p t with h | h | ⟨_, _, _, _, h⟩
    · exact (hstep h).1
    · exact (hstep h).1
    · exact (hstep h).1
  · obtain ⟨-, hvol, hstate⟩ := hstep (Operator.attackStep_closed hi hgate)
    exact ⟨hvol, hstate.trans hatt⟩
  · obtain ⟨-, hvol, hstate⟩ := hfalls hi hgate hv
    exact ⟨by rw [hvol]; exact Int.toNat_of_nonneg (Int.le_of_lt hv), hstate.trans hatt⟩
  · have hlt : v < o.volume := Operator.attackLevel_lt hinc
    rcases Int.lt_or_le 0 v with hv | hv
    · obtain ⟨-, hvol, -⟩ := hfalls hi hgate hv
      rw [hvol]
      exact (Int.toNat_lt (Int.le_of_lt hv)).mpr hlt
    · obtain ⟨-, hvol, -⟩ := hends hi hgate hv
      omega

/-! ### The volume that an open gate raises -/

/-- The volume after the gate of an index: raised when it is open, else kept (44_envelope.md R277, R283). -/
def gatedRaise (i : Nat) (t : BitVec 32) (volume amount : Nat) : Nat :=
  if egGate i t then raise volume amount else volume

theorem gatedRaise_open {i : Nat} {t : BitVec 32} (h : gateOpen i t) (volume amount : Nat) :
    gatedRaise i t volume amount = min 1023 (volume + amount) :=
  if_pos ((egGate_iff i t).mpr h)

theorem gatedRaise_closed {i : Nat} {t : BitVec 32} (h : ¬gateOpen i t) (volume amount : Nat) :
    gatedRaise i t volume amount = volume :=
  if_neg (mt (egGate_iff i t).mp h)

theorem gatedRaise_eq (i : Nat) (t : BitVec 32) (volume amount : Nat) :
    gatedRaise i t volume amount =
      if t.toNat % 2 ^ egShift i = 0 then min 1023 (volume + amount) else volume := by
  split
  next h => exact gatedRaise_open h volume amount
  next h => exact gatedRaise_closed h volume amount

/-! ### Decay and sustain -/

/-- The decay adds the increment, times the multiplier with SSG-EG on, and compares with the sustain level
(44_envelope.md R283). -/
theorem Operator.decayStep_eq (p : FamilyParams) (t : BitVec 32) (o : Operator) :
    o.decayStep p t =
      let i := o.index .dec
      let m := if 8 ≤ o.ssg.toNat then (if p.ssgMul = .four then 4 else 6) else 1
      let v := gatedRaise i t o.volume (m * tickIncrement p i t)
      { o with volume := v, state := if slAtt o.sl ≤ v then .sus else .dec } := by
  simp only [← ssgMulValue_eq, ← o.ssgOn_iff, ← egIncrement_eq]
  rfl

/-- The sustain without SSG-EG adds the increment and stays (44_envelope.md R284). -/
theorem Operator.sustainStep_eq (p : FamilyParams) (t : BitVec 32) (o : Operator) :
    o.sustainStep p t =
      { o with volume := gatedRaise (o.index .sus) t o.volume (tickIncrement p (o.index .sus) t) } := by
  rw [← egIncrement_eq]
  simp only [Operator.sustainStep, gatedRaise]
  split <;> rfl

/-- Settles O40: the equations of the two steps, at an open and at a closed gate. -/
theorem decayAndSustainSteps : Obligations.DecayAndSustainSteps := by
  refine fun p t o => ⟨fun hdec => ?_, fun hsus hssg => ?_⟩
  · obtain ⟨hframe, hvol, hstate⟩ :=
      Operator.egStep_of_branch ((Operator.egBranch_dec hdec).trans (o.decayStep_eq p t))
    refine ⟨hframe, fun hgate => hvol.trans (gatedRaise_open hgate _ _),
      fun hgate => hvol.trans (gatedRaise_closed hgate _ _), ?_⟩
    rw [hstate, hvol]
    rfl
  · obtain ⟨hframe, hvol, hstate⟩ :=
      Operator.egStep_of_branch ((Operator.egBranch_sus hsus hssg).trans (o.sustainStep_eq p t))
    exact ⟨hframe, fun hgate => hvol.trans (gatedRaise_open hgate _ _),
      fun hgate => hvol.trans (gatedRaise_closed hgate _ _), hstate.trans hsus⟩

/-! ### Sustain with SSG-EG -/

/-- The hold (44_envelope.md R286). -/
theorem Operator.ssgEvent_hold {o : Operator} (h : o.ssg.toNat % 2 = 1) :
    o.ssgEvent = { o with
      ssgInv := if o.ssgSwapped = false ∧ o.ssg.toNat / 2 % 2 = 1 then !o.ssgInv else o.ssgInv
      ssgSwapped := true, volume := 1023 } := by
  rw [Operator.ssgEvent, if_pos (o.ssgHold_iff.mpr h)]
  simp only [Bool.and_eq_true, Bool.not_eq_true', o.ssgAlternate_iff]

/-- The loop (44_envelope.md R286). -/
theorem Operator.ssgEvent_loop {o : Operator} (h : ¬o.ssg.toNat % 2 = 1) :
    o.ssgEvent = { o with
      phase := 0, ssgInv := if o.ssg.toNat / 2 % 2 = 1 then !o.ssgInv else o.ssgInv
      state := if o.sl.toNat = 0 then .sus else .att } := by
  have hsl : o.sl = 0 ↔ o.sl.toNat = 0 := BitVec.toNat_inj.symm
  rw [Operator.ssgEvent, if_neg (mt o.ssgHold_iff.mp h)]
  simp only [o.ssgAlternate_iff, hsl]

/-- The sustain with SSG-EG adds the increment times the multiplier; the SSG event follows from 832 on (44_envelope.md
R285). -/
theorem Operator.sustainSsgStep_eq (p : FamilyParams) (t : BitVec 32) (o : Operator) :
    o.sustainSsgStep p t =
      let i := o.index .sus
      let v :=
        if t.toNat % 2 ^ egShift i = 0 then
          min 1023 (o.volume + (if p.ssgMul = .four then 4 else 6) * tickIncrement p i t)
        else o.volume
      if v < 832 then { o with volume := v } else { o with volume := v }.ssgEvent := by
  simp only [← gatedRaise_eq, ← ssgMulValue_eq, ← egIncrement_eq, ← Nat.not_le, ite_not]
  rfl

/-- Settles O41: below 832 only the volume changes; from 832 on the SSG event holds or loops. -/
theorem ssgSustainStep : Obligations.SsgSustainStep := by
  intro p t o hsus hssg i v o'
  have hbranch : o.egBranch p t = if v < 832 then { o with volume := v } else { o with volume := v }.ssgEvent :=
    (Operator.egBranch_susSsg hsus hssg).trans (o.sustainSsgStep_eq p t)
  split
  next hlow =>
    obtain ⟨hframe, hvol, hstate⟩ := Operator.egStep_of_branch (hbranch.trans (if_pos hlow))
    exact ⟨hvol, hstate.trans hsus, hframe⟩
  next hhigh =>
    rw [if_neg hhigh] at hbranch
    split
    next hhold =>
      have hstep : o' = _ :=
        Operator.egStep_eq (hbranch.trans (Operator.ssgEvent_hold (o := { o with volume := v }) hhold))
      rw [hstep]
      exact ⟨rfl, hsus, rfl, rfl, rfl⟩
    next hloop =>
      have hstep : o' = _ :=
        Operator.egStep_eq (hbranch.trans (Operator.ssgEvent_loop (o := { o with volume := v }) hloop))
      rw [hstep]
      exact ⟨rfl, rfl, rfl, rfl, rfl⟩

/-! ### Release -/

theorem relMulValue_ssgOn (p : FamilyParams) (o : Operator) :
    relMulValue p o.ssgOn = if 8 ≤ o.ssg.toNat then p.relMulSsg else p.relMul := by
  simp only [relMulValue, o.ssgOn_iff]

theorem Operator.releaseStep_closed {p : FamilyParams} {t : BitVec 32} {o : Operator}
    (hgate : ¬gateOpen (o.index .rel) t) : o.releaseStep p t = o :=
  if_neg (mt (egGate_iff _ t).mp hgate)

/-- An open gate raises the volume, and OFF follows at 1023 (44_envelope.md R288). -/
theorem Operator.releaseStep_open {p : FamilyParams} {t : BitVec 32} {o : Operator}
    (hgate : gateOpen (o.index .rel) t) :
    o.releaseStep p t =
      let v := min 1023 (o.volume
        + (if 8 ≤ o.ssg.toNat then p.relMulSsg else p.relMul) * tickIncrement p (o.index .rel) t)
      { o with volume := v, state := if 1023 ≤ v then .off else .rel } := by
  rw [← relMulValue_ssgOn, ← egIncrement_eq]
  exact if_pos ((egGate_iff _ t).mpr hgate)

/-- Settles O42: the release step at an open and at a closed gate. -/
theorem releaseStep : Obligations.ReleaseStep := by
  intro p t o hrel i v
  have hstep := fun {v s} (h : o.releaseStep p t = { o with volume := v, state := s }) =>
    Operator.egStep_of_branch ((Operator.egBranch_rel hrel).trans h)
  have hopen (hgate : gateOpen i t) := hstep (Operator.releaseStep_open hgate)
  have hclosed (hgate : ¬gateOpen i t) := hstep (Operator.releaseStep_closed hgate)
  refine ⟨?_, fun hgate => (hopen hgate).2, fun hgate => ?_⟩
  · by_cases hgate : gateOpen i t
    · exact (hopen hgate).1
    · exact (hclosed hgate).1
  · obtain ⟨-, hvol, hstate⟩ := hclosed hgate
    exact ⟨hvol, hstate.trans hrel⟩

/-! ### The cached attenuation -/

/-- Inverting the ten bits of a volume in range subtracts it from 1023 (44_envelope.md R291). -/
theorem volume_xor {v : Nat} (h : v ≤ 1023) : v ^^^ 0x3FF = 1023 - v := by
  have hxor : BitVec.ofNat 10 v ^^^ BitVec.allOnes 10 = ~~~BitVec.ofNat 10 v := BitVec.xor_allOnes
  have hnat := congrArg BitVec.toNat hxor
  rw [BitVec.toNat_xor, BitVec.toNat_not, BitVec.toNat_ofNat, Nat.mod_eq_of_lt (by omega)] at hnat
  exact hnat

theorem EgState.pastRel_iff (e : EgState) : e.pastRel = true ↔ e = .att ∨ e = .dec ∨ e = .sus := by
  cases e <;> decide

/-- The attenuation of a volume in range, in numbers (44_envelope.md R291). -/
theorem Operator.attenuation_eq {o : Operator} (h : o.volume ≤ 1023) :
    (o.attenuation : Int) =
      (if 8 ≤ o.ssg.toNat ∧ o.ssgInv = true ∧ (o.state = .att ∨ o.state = .dec ∨ o.state = .sus)
        then 1023 - (o.volume : Int) else o.volume) + 8 * o.tl.toNat := by
  simp only [Operator.attenuation, Bool.and_eq_true, o.ssgOn_iff, o.state.pastRel_iff, volume_xor h, and_assoc]
  split <;> omega

/-- The branch of a state keeps the volume in range (44_envelope.md R295). -/
theorem Operator.egBranch_volume_le {o : Operator} (p : FamilyParams) (t : BitVec 32) (h : o.volume ≤ 1023) :
    (o.egBranch p t).volume ≤ 1023 := by
  cases hs : o.state with
  | off => rw [Operator.egBranch_off hs]; exact h
  | rel =>
    rw [Operator.egBranch_rel hs]
    rcases o.releaseStep_cases p t h with e | ⟨v, -, hv, e⟩ <;> rw [e]
    · exact h
    · exact hv
  | sus =>
    rcases Nat.lt_or_ge o.ssg.toNat 8 with hssg | hssg
    · rw [Operator.egBranch_sus hs hssg]
      obtain ⟨v, -, hv, e⟩ := o.sustainStep_cases p t h
      rw [e]
      exact hv
    · rw [Operator.egBranch_susSsg hs hssg]
      obtain ⟨v, -, hv, ⟨-, e⟩ | ⟨-, e⟩⟩ := o.sustainSsgStep_cases p t h <;> rw [e]
      · exact hv
      · rcases Operator.ssgEvent_cases { o with volume := v } with ⟨-, _, e'⟩ | ⟨-, _, e'⟩ <;> rw [e']
        exact hv
  | dec =>
    rw [Operator.egBranch_dec hs]
    obtain ⟨v, _, -, hv, -, -, e⟩ := o.decayStep_cases p t h
    rw [e]
    exact hv
  | att =>
    rw [Operator.egBranch_att hs]
    rcases o.attackStep_cases p t with e | e | ⟨-, v, -, hv, e⟩ <;> rw [e]
    · exact Nat.zero_le _
    · exact h
    · exact hv.trans h

/-! ### The running state of an operator under a register write -/

theorem SameOperatorMotion.refl (o : Operator) : SameOperatorMotion o o :=
  ⟨rfl, rfl, rfl, rfl, rfl, rfl, rfl, rfl, rfl⟩

/-- The operators of two instances have the same running state. -/
def SameMotion (x y : Instance) : Prop :=
  ∀ c n, SameOperatorMotion (x.op c n) (y.op c n)

theorem SameMotion.of_chans {x y : Instance} (h : y.chans = x.chans) : SameMotion x y := fun c n => by
  rw [Instance.op, Instance.op, Instance.ch, Instance.ch, h]
  exact SameOperatorMotion.refl _

theorem SameMotion.of_ops {x y : Instance} (h : ∀ c, (y.ch c).ops = (x.ch c).ops) : SameMotion x y := fun c n => by
  rw [Instance.op, Instance.op, h]
  exact SameOperatorMotion.refl _

theorem SameMotion.updCh {x : Instance} {c : Chan} {f : Channel → Channel} (h : (f (x.ch c)).ops = (x.ch c).ops) :
    SameMotion x (x.updCh c f) :=
  SameMotion.of_ops fun d => by
    rw [Instance.ch_updCh]
    split
    next hd => rw [h, hd]
    next => rfl

/-- The frame of an operator write, and that it leaves the running state of its operator. -/
theorem SameMotion.of_onlyOperator {x y : Instance} {c : Chan} {n : OpNum} (h : OnlyOperator x y c n)
    (hop : SameOperatorMotion (x.op c n) (y.op c n)) : SameMotion x y := fun d m => by
  by_cases hd : d = c
  · subst hd
    by_cases hm : m = n
    · exact hm ▸ hop
    · rw [h.operators m hm]; exact SameOperatorMotion.refl _
  · rw [Instance.op, Instance.op, h.others d hd]; exact SameOperatorMotion.refl _

theorem Instance.resetFlag_chans (x : Instance) (t : Timer) (data : Byte) : (x.resetFlag t data).chans = x.chans := by
  unfold Instance.resetFlag
  split
  · rw [Instance.clearFlag_eq]
  · rfl

theorem Instance.loadTimer_chans (x : Instance) (t : Timer) (load : Bool) : (x.loadTimer t load).chans = x.chans := by
  rw [Instance.loadTimer_eq]

/-- A write to 0x27 changes no operator (41_global_regs.md R184). -/
theorem Instance.ops_writeModeTimer (x : Instance) (data : Byte) (c : Chan) :
    ((x.writeModeTimer data).ch c).ops = (x.ch c).ops := by
  have hch : (x.writeModeTimer data).ch c = ((x.store 0x027 data).setMode data).ch c := by
    rw [Instance.ch, Instance.ch, Instance.writeModeTimer, Instance.loadTimer_chans, Instance.loadTimer_chans,
      Instance.resetFlag_chans, Instance.resetFlag_chans]
  rw [hch, Instance.ch_setMode]
  split
  next hc => rw [hc]; rfl
  next => rfl

/-- An operator write whose fields are registers leaves the running state; of such fields `hf` is found by `rfl`. -/
theorem SameMotion.writeOperator (x : Instance) (a : BitVec 9) (data : Byte) (c : Chan) (n : OpNum)
    {f : Operator → Operator} (dirty : Bool)
    (hf : SameOperatorMotion (x.op c n) (f (x.op c n)) := by exact ⟨rfl, rfl, rfl, rfl, rfl, rfl, rfl, rfl, rfl⟩) :
    SameMotion x (x.writeOperator a data c n f dirty) :=
  SameMotion.of_onlyOperator (x.writeOperator_onlyOperator a data c n f dirty)
    (by rw [Instance.op_writeOperator, if_pos rfl]; exact hf)

/-- The running state of an operator changes by no register write but KEY_ONOFF (41 to 43). -/
theorem Instance.applyWrite_sameMotion (x : Instance) {i : Instr} (h : ∀ data, i ≠ .keyOnOff data) :
    SameMotion x (x.applyWrite i) := by
  cases i with
  | lfoCtrl data =>
    refine SameMotion.of_chans ?_
    simp only [Instance.applyWrite, Instance.writeLfoCtrl]
    split <;> rfl
  | timerAHi data => exact SameMotion.of_chans rfl
  | timerALo data => exact SameMotion.of_chans rfl
  | timerB data => exact SameMotion.of_chans rfl
  | modeTimer data => exact SameMotion.of_ops (x.ops_writeModeTimer data)
  | keyOnOff data => exact absurd rfl (h data)
  | dtMul c n data =>
    rw [Instance.applyWrite, Instance.writeDtMul_eq]
    exact SameMotion.writeOperator x _ data c n _
  | tl c n data =>
    rw [Instance.applyWrite, Instance.writeTl_eq]
    exact SameMotion.writeOperator x _ data c n _
  | ksAr c n data =>
    rw [Instance.applyWrite, Instance.writeKsAr_eq]
    exact SameMotion.writeOperator x _ data c n _
  | amD1r c n data =>
    rw [Instance.applyWrite, Instance.writeAmD1r_eq]
    exact SameMotion.writeOperator x _ data c n _
  | d2r c n data =>
    rw [Instance.applyWrite, Instance.writeD2r_eq]
    exact SameMotion.writeOperator x _ data c n _
  | slRr c n data =>
    rw [Instance.applyWrite, Instance.writeSlRr_eq]
    exact SameMotion.writeOperator x _ data c n _
  | ssgEg c n data =>
    rw [Instance.applyWrite, Instance.writeSsgEg_eq]
    exact SameMotion.writeOperator x _ data c n _
  | fnumLo c data => exact SameMotion.updCh (x := x.store (channelAddr 0x28 c) data) rfl
  | fnumHiBlk c data => exact SameMotion.of_chans rfl
  | sl3FnumLo k data =>
    exact SameMotion.of_ops fun c => by
      rw [Instance.applyWrite, Instance.ch_writeSl3FnumLo]
      split
      next hc => rw [hc]; rfl
      next => rfl
  | sl3FnumHiBlk k data => exact SameMotion.of_chans rfl
  | fbAlgo c data => exact SameMotion.updCh (x := x.store (channelAddr 0x2C c) data) rfl
  | panAmsPms c data =>
    simp only [Instance.applyWrite, Instance.writePanAmsPms]
    split
    · exact SameMotion.updCh (x := x.store (channelAddr 0x2D c) data) rfl
    · exact SameMotion.of_chans rfl
  | _ => exact SameMotion.of_chans rfl

/-- A key write leaves an operator, keys it on or keys it off (41_global_regs.md R185). -/
theorem Instance.op_writeKeyOnOff (x : Instance) (data : Byte) (c : Chan) (n : OpNum) :
    (x.writeKeyOnOff data).op c n = x.op c n
      ∨ (x.writeKeyOnOff data).op c n = (x.op c n).keyOn x.cfg.params
      ∨ (x.writeKeyOnOff data).op c n = (x.op c n).keyOff := by
  cases h : keyChannel x.cfg.family.six data with
  | none => rw [Instance.writeKeyOnOff_of_none h]; exact .inl rfl
  | some d =>
    rw [Instance.writeKeyOnOff_of_some h, Instance.op, Instance.ch_updCh]
    split
    next hc =>
      subst hc
      simp only [Channel.keyGates, Quad.get_tabulate, Operator.gate]
      split
      · exact .inr (.inl rfl)
      · exact .inr (.inr rfl)
    next => exact .inl rfl

/-! ### No other instruction computes the cached attenuation -/

theorem Operator.keyOn_volOut (p : FamilyParams) (o : Operator) : (o.keyOn p).volOut = o.volOut := by
  cases hkey : o.key
  · rcases o.keyOn_cases p hkey with ⟨-, e⟩ | ⟨-, e⟩ <;> rw [e]
  · rw [o.keyOn_held p hkey]

theorem Operator.keyOff_volOut (o : Operator) : o.keyOff.volOut = o.volOut := by
  cases hkey : o.key
  · rw [o.keyOff_free hkey]
  · rw [o.keyOff_held hkey]

theorem Instance.applyWrite_volOut (x : Instance) (i : Instr) (c : Chan) (n : OpNum) :
    ((x.applyWrite i).op c n).volOut = (x.op c n).volOut := by
  by_cases h : ∃ data, i = .keyOnOff data
  · obtain ⟨data, rfl⟩ := h
    rw [Instance.applyWrite]
    rcases x.op_writeKeyOnOff data c n with e | e | e <;> rw [e]
    · exact Operator.keyOn_volOut ..
    · exact Operator.keyOff_volOut _
  · exact (x.applyWrite_sameMotion (fun data e => h ⟨data, e⟩) c n).volOut

theorem Instance.writes_volOut (x : Instance) (l : List (BitVec 9 × Byte)) (c : Chan) (n : OpNum) :
    ((x.writes l).op c n).volOut = (x.op c n).volOut := by
  induction l generalizing x with
  | nil => rfl
  | cons w l ih => exact (ih (x.write w.1 w.2)).trans (x.applyWrite_volOut _ c n)

theorem Instance.restore_volOut (x : Instance) (bytes : List Byte) (c : Chan) (n : OpNum) :
    ((x.restore bytes).op c n).volOut = (x.op c n).volOut := by
  rw [Instance.restore, Instance.writes_volOut, Instance.restoreShadow_rest]
  rfl

/-- Every instruction but GENERATE and RESET leaves the cached attenuation (44_envelope.md R291). -/
theorem exec_volOut {i : Instr} {s t : State} (hgen : isGenerate i = false) (hreset : i ≠ .reset)
    (h : exec i s = .next t) (c : Chan) (n : OpNum) : (t.self.op c n).volOut = (s.self.op c n).volOut := by
  by_cases hi : isWrite i = true
  · obtain ⟨-, rfl⟩ := exec_write hi h
    exact s.self.applyWrite_volOut i c n
  · rcases exec_other (by simpa using hi) h with ⟨_, _, _, -, rfl⟩ | ⟨_, _, _, _, _, _, -, -, -, -, rfl⟩ |
      ⟨hr, -⟩ | ⟨_, _, _, _, rfl, -⟩ | ⟨_, -, rfl⟩ | ⟨-, rfl⟩ | ⟨bytes, -, -, rfl⟩
    · rfl
    · rfl
    · exact absurd hr hreset
    · cases hgen
    · rfl
    · rfl
    · exact s.self.restore_volOut bytes c n

/-- Settles O43: the step caches the attenuation of its branch's result, whose volume is in range; `exec_volOut` is the
second half. -/
theorem outputAttenuation : Obligations.OutputAttenuation :=
  ⟨fun p t _ hv => Operator.attenuation_eq (Operator.egBranch_volume_le p t hv),
    fun _ _ _ c n hgen hreset h => exec_volOut hgen hreset h c n⟩

end Sys2Proof.Machine
end

section
/-! PROOFS. The phase generator and the LFO (45_phase_lfo.md): the increment as an integer quotient, the frequency an
operator uses and its PM offset in numbers, and what the refresh and the phase advance leave unchanged. -/

namespace Sys2Proof.Machine

/-! ### The LFO -/

theorem lfoPosition_lt (cnt : BitVec 32) : lfoPosition cnt < 128 :=
  Nat.mod_lt _ (by decide)

/-- The position is a quotient of the counter (45_phase_lfo.md R330). -/
theorem lfoPosition_eq (cnt : BitVec 32) : lfoPosition cnt = cnt.toNat / 16777216 % 128 := by
  rw [lfoPosition, Nat.shiftRight_eq_div_pow]

/-- With a step the counter advances and both outputs are those of its new position (45_phase_lfo.md R330). -/
theorem Chip.lfoAdvance_of_step {k : Chip} (h : k.lfoInc ≠ 0) {cnt : BitVec 32}
    (hcnt : k.lfoCnt + BitVec.ofNat 32 k.lfoInc = cnt) :
    k.lfoAdvance =
      { k with lfoCnt := cnt, lfoAm := lfoTriangle (lfoPosition cnt), lfoPm := lfoPosition cnt / 4 } := by
  subst hcnt
  exact if_pos h

/-- Settles O49: the new counter is the sum mod 2^32; the position below 128 bounds both outputs. -/
theorem lfoAdvance : Obligations.LfoAdvance := by
  refine fun k => ⟨fun hstep => ?_, fun hstop => if_neg (not_not.mpr hstop)⟩
  have hcnt : k.lfoCnt + BitVec.ofNat 32 k.lfoInc = BitVec.ofNat 32 ((k.lfoCnt.toNat + k.lfoInc) % 4294967296) := by
    apply BitVec.eq_of_toNat_eq
    simp
  generalize hn : (k.lfoCnt.toNat + k.lfoInc) % 4294967296 = n at hcnt
  have hpos : lfoPosition (BitVec.ofNat 32 n) = n / 16777216 % 128 := by
    rw [lfoPosition_eq, BitVec.toNat_ofNat]
    omega
  have hlt := lfoPosition_lt (BitVec.ofNat 32 n)
  rw [Chip.lfoAdvance_of_step hstep hcnt]
  refine ⟨?_, lfoTriangle_le _ hlt, Nat.le_of_lt_succ (Nat.div_lt_of_lt_mul hlt)⟩
  rw [hpos]
  rfl

/-! ### The increment -/

/-- Scaling by FREQBASE is monotone (40_tables.md R167). -/
theorem scaled_le_scaled (g : Config) {m n : Nat} (h : m ≤ n) : scaled g m ≤ scaled g n :=
  Nat.div_le_div_right (Nat.mul_le_mul_right _ h)

/-- No entry of DT_MAG is above its last one (40_tables.md R156). -/
theorem dtMag_le (kc : BitVec 5) (d : BitVec 3) : (dtMag.getD (d.toNat % 4) []).getD kc.toNat 0 ≤ 22 := by
  revert d
  refine bitVec_forall ?_
  revert kc
  exact bitVec_forall (by decide +kernel)

/-- A negative detune is smaller than FN_MAX (40_tables.md R157, R159). -/
theorem neg_fnMax_le_detune (g : Config) (d : BitVec 3) (kc : BitVec 5) : -(fnMax g : Int) ≤ detune g d kc := by
  have hmag : scaled g ((dtMag.getD (d.toNat % 4) []).getD kc.toNat 0) ≤ fnMax g :=
    scaled_le_scaled g ((dtMag_le kc d).trans (by decide))
  simp only [detune]
  split <;> omega

/-- The overflow correction leaves no negative increment (45_phase_lfo.md R328). -/
theorem detuned_nonneg (g : Config) (d : BitVec 3) (fc : Nat) (kc : BitVec 5) : 0 ≤ detuned g d fc kc := by
  have hdetune := neg_fnMax_le_detune g d kc
  simp only [detuned]
  split <;> omega

/-- The increment as an integer (45_phase_lfo.md R328). -/
theorem Operator.cast_increment (g : Config) (o : Operator) (fc : Nat) (kc : BitVec 5) :
    (o.increment g fc kc : Int) = detuned g o.dt fc kc * o.mul2 / 2 :=
  Int.toNat_of_nonneg (Int.ediv_nonneg (mul_nonneg (detuned_nonneg ..) (Int.natCast_nonneg _)) (by decide))

/-! ### The frequency an operator uses -/

/-- Bits 7 and 6 of the mode as a bound (10_state.md R51). -/
theorem Chip.slot3Active_iff (k : Chip) : k.slot3Active = true ↔ 64 ≤ k.mode.toNat := by
  have htop : (k.mode.extractLsb' 6 2).toNat = k.mode.toNat / 64 := by
    rw [BitVec.extractLsb'_toNat, Nat.shiftRight_eq_div_pow]
    omega
  rw [Chip.slot3Active, bne_iff_ne, ne_eq, ← BitVec.toNat_inj, htop, BitVec.ofNat_eq_ofNat, BitVec.toNat_zero]
  omega

/-- A 3-slot entry as a frequency (45_phase_lfo.md R326). -/
def Slot3Freq.toFreq (q : Slot3Freq) : Freq := ⟨q.fnum, q.blk, q.kcode⟩

/-- The entry of each of the operators 1 to 3 of channel 2 in 3-slot mode, and the channel's frequency otherwise
(45_phase_lfo.md R326). -/
theorem Chip.freq_eq (k : Chip) (c : Chan) (h : Channel) (n : OpNum) {own : Prop} [Decidable own]
    (hown : own ↔ c = .ch2 ∧ 64 ≤ k.mode.toNat) :
    k.freq c h n = Slot3Freq.toFreq
      (if own ∧ n = .op1 then k.sl3k1
        else if own ∧ n = .op2 then k.sl3k2
        else if own ∧ n = .op3 then k.sl3k0
        else ⟨h.fnum, h.blk, h.kcode⟩) := by
  have hactive : (c = .ch2 && k.slot3Active) = decide own := by
    rw [← k.slot3Active_iff] at hown
    simp [hown]
  by_cases h3 : own <;> cases n <;> simp [Chip.freq, slot3Entry, Chip.sl3, Slot3Freq.toFreq, hactive, h3]

/-- The block-shifted base increment as a quotient (45_phase_lfo.md R327). -/
theorem fnTable_shiftRight (g : Config) (i n : Nat) : fnTable g i >>> n = timesFreqBase g (i * 32) / 2 ^ n :=
  Nat.shiftRight_eq_div_pow ..

/-! ### The refresh -/

theorem Instance.ch_refresh (x : Instance) (c : Chan) :
    x.refresh.ch c = if x.live c then (x.ch c).refresh x.cfg x.chip c else x.ch c :=
  Instance.ch_mapLive ..

theorem Channel.refresh_of_dirty {h : Channel} (hdirty : h.dirty = true) (g : Config) (k : Chip) (c : Chan) :
    h.refresh g k c =
      { h with ops := Quad.tabulate fun n => (h.ops.get n).refresh g (k.freq c h n), dirty := false } :=
  if_pos hdirty

theorem Channel.refresh_of_clean {h : Channel} (hclean : h.dirty = false) (g : Config) (k : Chip) (c : Chan) :
    h.refresh g k c = h :=
  if_neg (by rw [hclean]; decide)

/-- The key-scale value as a quotient (44_envelope.md R272). -/
theorem keyScale_toNat (kc : BitVec 5) (ks : BitVec 2) : (keyScale kc ks).toNat = kc.toNat / 2 ^ (3 - ks.toNat) := by
  rw [keyScale, BitVec.toNat_ushiftRight, Nat.shiftRight_eq_div_pow]

/-- Settles O46: a dirty channel is mapped by `Operator.refresh` with the frequency of `Chip.freq_eq`. -/
theorem refreshComputesTheIncrements : Obligations.RefreshComputesTheIncrements := by
  refine fun x c => ⟨fun hlive hdirty => ?_, fun hkeep => ?_⟩
  · have hch := (x.ch_refresh c).trans (if_pos hlive)
    rw [Channel.refresh_of_dirty hdirty] at hch
    refine ⟨?_, by rw [hch], fun n => ?_⟩
    · rw [hch, ← hdirty]
    · have hop : x.refresh.op c n = (x.op c n).refresh x.cfg (x.chip.freq c (x.ch c) n) := by
        rw [Instance.op, hch, Quad.get_tabulate, Instance.op]
      dsimp only
      rw [hop, Chip.freq_eq _ _ _ _ Iff.rfl, ← fnTable_shiftRight, ← keyScale_toNat]
      exact ⟨Operator.cast_increment .., rfl, rfl⟩
  · rw [Instance.ch_refresh]
    rcases hkeep with habsent | hclean
    · rw [habsent]
      rfl
    · rw [Channel.refresh_of_clean hclean, ite_self]

/-! ### The phase modulation in numbers -/

/-- The PM row of a frequency is its number without the low four bits (45_phase_lfo.md R334). -/
theorem pmOffset_eq (q : Freq) (pms : BitVec 3) (lfoPm : Nat) :
    pmOffset q pms lfoPm = pmTab (BitVec.ofNat 7 (q.fnum.toNat / 16)) pms lfoPm := by
  rw [pmOffset, BitVec.extractLsb', Nat.shiftRight_eq_div_pow]

/-- The block of an offset frequency: bits 14 to 12 (45_phase_lfo.md R334). -/
theorem ofInt_block_toNat (v : Int) : ((BitVec.ofInt 15 v).extractLsb' 12 3).toNat = (v / 4096 % 8).toNat := by
  rw [BitVec.extractLsb'_toNat, BitVec.toNat_ofInt, Nat.shiftRight_eq_div_pow]
  omega

/-- The frequency number of an offset frequency: bits 11 to 0 (45_phase_lfo.md R334). -/
theorem ofInt_fnum_toNat (v : Int) : ((BitVec.ofInt 15 v).extractLsb' 0 12).toNat = (v % 4096).toNat := by
  rw [BitVec.extractLsb'_toNat, BitVec.toNat_ofInt, Nat.shiftRight_eq_div_pow]
  omega

/-- FKTABLE in numbers (40_tables.md R158). -/
theorem fkTable_toNat :
    ∀ h : BitVec 4, (fkTable h).toNat = [0, 0, 0, 0, 0, 0, 0, 1, 2, 3, 3, 3, 3, 3, 3, 3].getD h.toNat 0 :=
  bitVec_forall (by decide)

/-- The keycode of a block and the four bits FKTABLE looks at, in numbers (45_phase_lfo.md R334). -/
theorem block_append_fkTable (b : BitVec 3) (h : BitVec 4) :
    b ++ fkTable h =
      BitVec.ofNat 5 (b.toNat * 4 + [0, 0, 0, 0, 0, 0, 0, 1, 2, 3, 3, 3, 3, 3, 3, 3].getD h.toNat 0) := by
  apply BitVec.eq_of_toNat_eq
  rw [← fkTable_toNat, BitVec.toNat_append, ← Nat.shiftLeft_add_eq_or_of_lt (fkTable h).isLt, Nat.shiftLeft_eq,
    BitVec.toNat_ofNat]
  omega

/-- The top four bits of a 12-bit frequency number (45_phase_lfo.md R334). -/
theorem fnum_top_toNat (f : BitVec 12) : (f.extractLsb' 8 4).toNat = f.toNat / 256 := by
  rw [BitVec.extractLsb'_toNat, Nat.shiftRight_eq_div_pow]
  omega

section
variable {g : Config} {q : Freq} {pms : BitVec 3} {lfoPm : Nat} {o : Operator}

/-- Without a PM depth or offset the phase advances by the cached increment (45_phase_lfo.md R333, R334). -/
theorem Operator.stepIncrement_cached (h : pms = 0 ∨ pmOffset q pms lfoPm = 0) :
    o.stepIncrement g q pms lfoPm = o.incr := by
  rcases h with hdepth | hoff
  · exact if_neg (not_not.mpr hdepth)
  · have hcached : o.pmIncrement g q pms lfoPm = o.incr := if_pos hoff
    rw [Operator.stepIncrement, hcached, ite_self]

/-- With both it advances by the increment of the offset frequency `v` (45_phase_lfo.md R334). -/
theorem Operator.stepIncrement_modulated (hdepth : pms ≠ 0) (hoff : pmOffset q pms lfoPm ≠ 0) {v : Int}
    (hv : 2 * (q.blk.toNat * 2048 + q.fnum.toNat : Nat) + pmOffset q pms lfoPm = v) :
    o.stepIncrement g q pms lfoPm =
      o.increment g (timesFreqBase g ((v % 4096).toNat * 32) / 2 ^ (7 - (v / 4096 % 8).toNat))
        (BitVec.ofNat 5 ((v / 4096 % 8).toNat * 4
          + [0, 0, 0, 0, 0, 0, 0, 1, 2, 3, 3, 3, 3, 3, 3, 3].getD ((v % 4096).toNat / 256) 0)) := by
  have hfreq : pmFrequency q (pmOffset q pms lfoPm) = BitVec.ofInt 15 v := by
    rw [pmFrequency, ← hv]
    push_cast
    rfl
  rw [Operator.stepIncrement, if_pos hdepth, Operator.pmIncrement, if_neg hoff, hfreq]
  dsimp only
  rw [block_append_fkTable, fnum_top_toNat, ofInt_block_toNat, ofInt_fnum_toNat, fnTable_shiftRight]

end

/-! ### The phase advance -/

/-- The phase advance as an integer sum mod 2^20 (45_phase_lfo.md R333). -/
theorem Operator.cast_phase_advance (inc : Nat) (o : Operator) :
    ((o.advance inc).phase.toNat : Int) = (o.phase.toNat + inc) % 1048576 := by
  rw [Operator.advance_phase, BitVec.toNat_add, BitVec.toNat_ofNat]
  omega

/-- An operator after its channel's evaluation, which before the advance leaves operators, depth and frequency
(45_phase_lfo.md R333). -/
theorem Instance.op_chanCalc {x : Instance} {c : Chan} (hlive : x.live c = true) (n : OpNum) :
    x.chanCalc.op c n =
      (x.op c n).advance ((x.op c n).stepIncrement x.cfg (x.chip.freq c (x.ch c) n) (x.ch c).pms x.chip.lfoPm) := by
  have hch : x.chanCalc.ch c = ((x.ch c).afterCalc x.chip.lfoAm).phaseAdvance x.cfg x.chip c :=
    (Instance.ch_mapLive ..).trans (if_pos hlive)
  rw [Instance.op, hch, Channel.phaseAdvance_ops, Quad.get_tabulate]
  rfl

/-- Settles O48: the operator advances by `stepIncrement`, the cached increment or that of the offset frequency. -/
theorem phaseAdvance : Obligations.PhaseAdvance := by
  intro x c n hlive
  dsimp only
  rw [Instance.op_chanCalc hlive, ← pmOffset_eq, Operator.cast_phase_advance]
  refine ⟨?_, rfl⟩
  congr 2
  split
  next hcached => rw [Operator.stepIncrement_cached hcached]
  next hmod =>
    obtain ⟨hdepth, hoff⟩ := not_or.mp hmod
    rw [Operator.stepIncrement_modulated hdepth hoff rfl]
    exact Operator.cast_increment ..

end Sys2Proof.Machine
end

section
/-! PROOFS. The channels' mix (46_channel_mix.md): the routing of the eight algorithms, the sample step in its order and
the sums of its two sides, the loop of GENERATE over its buffer; and the two operations that only return a value,
READ_STATUS and DUMP. -/

namespace Sys2Proof.Machine

/-! ### READ_STATUS and DUMP -/

/-- The instance operated on keeps its invariant under the machine's. -/
theorem State.Inv.self {s : State} (h : s.Inv) : s.self.Inv :=
  h.instances s.self (List.mem_append_right _ List.mem_cons_self)

/-- A status byte without its upper six bits, as a bound (10_state.md R53). -/
theorem status_toNat_lt : ∀ b : Byte, b &&& 0xFC = 0 → b.toNat < 4 :=
  bitVec_forall (by decide +kernel)

/-- Settles O34: the port test succeeds; the bound is the invariant's clause on the status bits. -/
theorem readStatusReturnsTheFlags : Obligations.ReadStatusReturnsTheFlags :=
  fun _ _ hlo hhi => ⟨if_pos ⟨hlo, hhi⟩, fun hinv => status_toNat_lt _ hinv.self.chip.status_bits⟩

theorem Instance.dump_length (x : Instance) : x.dump.length = if x.cfg.family.six then 512 else 256 := by
  rw [Instance.dump, List.length_map, registerSpace_length]

/-- Byte `n` of a dump is the shadow byte of address `n` (46_channel_mix.md R374). -/
theorem Instance.getElem?_dump (x : Instance) {n : Nat} (hn : n < x.dump.length) :
    x.dump[n]? = some (x.reg.read n) := by
  have hspace : n < if x.cfg.family.six then 512 else 256 := x.dump_length ▸ hn
  have hwidth : n < 2 ^ 9 := by split at hspace <;> omega
  have haddr : (BitVec.ofNat 9 n).toNat = n := BitVec.toNat_ofNat .. ▸ Nat.mod_eq_of_lt hwidth
  simp only [Instance.dump, registerSpace, List.map_map, List.getElem?_map, List.getElem?_range hspace,
    Option.map_some, Function.comp_apply, Instance.shadow, haddr]

/-- Under the invariant the shadow holds 0 at an unmapped address (10_state.md R60). -/
theorem Instance.Inv.read_unmapped {x : Instance} (h : x.Inv) {a : BitVec 9}
    (ha : mapped x.cfg.family.six x.cfg.family.hasLfoPan (a.getLsbD 8) (a.extractLsb' 0 8) = false) :
    x.reg.read a.toNat = 0 := by
  by_contra hne
  obtain ⟨b, hab, hb⟩ := h.reg_mapped _ hne
  obtain rfl := BitVec.eq_of_toNat_eq hab
  exact absurd hb (ha ▸ Bool.false_ne_true)

/-- Settles O35: a dump lists the shadow over the register space, which holds 0 where nothing is mapped. -/
theorem dumpReturnsTheShadow : Obligations.DumpReturnsTheShadow :=
  fun s => ⟨s.self.dump, rfl, s.self.dump_length, fun _ => s.self.getElem?_dump, fun hinv _ hlt hunmapped => by
    rw [s.self.getElem?_dump hlt, hinv.self.read_unmapped hunmapped]⟩

/-! ### The routing of a channel -/

/-- The sine index is a quotient of the phase (45_phase_lfo.md R320). -/
theorem sineIndex_eq (phase : BitVec 20) : sineIndex phase = (phase.toNat / 1024 : Nat) := by
  rw [sineIndex, BitVec.extractLsb'_toNat, Nat.shiftRight_eq_div_pow]
  omega

/-- The envelope input in numbers (46_channel_mix.md R360). -/
theorem Channel.envInput_eq (lfoAm : Nat) (h : Channel) (n : OpNum) :
    h.envInput lfoAm n =
      (h.ops.get n).volOut + if (h.ops.get n).am then lfoAm / 2 ^ amsShift h.ams else 0 := by
  rw [Channel.envInput, Nat.shiftRight_eq_div_pow]

/-- An operator's sample in numbers (46_channel_mix.md R362, R364). -/
theorem Channel.opSample_eq_heardSample (lfoAm : Nat) (h : Channel) (n : OpNum) (offset : Int) :
    h.opSample lfoAm n offset = heardSample lfoAm h n offset := by
  simp only [Channel.opSample, heardSample, Channel.envInput_eq, sineIndex_eq, envQuiet, opOut, ← not_lt, ite_not]

/-- Operator 1's feedback in numbers (46_channel_mix.md R363). -/
theorem Channel.feedback_eq (h : Channel) :
    h.feedback =
      if h.fb.toNat = 0 then 0 else (h.op1Out0 + h.op1Out1) * 2 ^ (h.fb.toNat + 6) / 65536 := by
  by_cases hfb : h.fb.toNat = 0 <;> simp [Channel.feedback, Channel.fbShift, asr, hfb]

/-- A live channel after its evaluation (46_channel_mix.md R366, R367). -/
theorem Instance.ch_chanCalc {x : Instance} {c : Chan} (hlive : x.live c = true) :
    x.chanCalc.ch c = ((x.ch c).afterCalc x.chip.lfoAm).phaseAdvance x.cfg x.chip c :=
  (Instance.ch_mapLive ..).trans (if_pos hlive)

theorem Instance.get_outputs (x : Instance) (c : Chan) :
    x.outputs.get c = if x.live c then (x.ch c).output x.chip.lfoAm else 0 :=
  Six.get_tabulate ..

/-- A channel's evaluation along its row of the routing table, in numbers (46_channel_mix.md R366). -/
theorem Channel.accumulate_of_route {h : Channel} {r : Route} (hr : route h.algo = r) (lfoAm : Nat) :
    h.accumulate lfoAm =
      let a1 := ((Accs.mk 0 0 0 0 0).set r.memc h.memValue).routeOp1 r.op1 h.op1Out1
      let a2 := a1.add r.op3 (heardSample lfoAm h .op3 (a1.m2 / 2))
      let a3 := a2.add r.op2 (heardSample lfoAm h .op2 (a2.c1 / 2))
      a3.add .out (heardSample lfoAm h .op4 (a3.c2 / 2)) := by
  simp only [Channel.accumulate, hr, Channel.opSample_eq_heardSample, asr, pow_one]

/-- Settles O51: each algorithm is its row of the routing table, along which operators 1, 3, 2 and 4 are added up. -/
theorem algorithmRouting : Obligations.AlgorithmRouting := by
  intro x c hlive
  have hout : x.outputs.get c = ((x.ch c).accumulate x.chip.lfoAm).out :=
    (x.get_outputs c).trans (if_pos hlive)
  have hmem : (((x.ch c).afterCalc x.chip.lfoAm).phaseAdvance x.cfg x.chip c).memValue =
      ((x.ch c).accumulate x.chip.lfoAm).mem := rfl
  have hnewest : ((x.ch c).afterCalc x.chip.lfoAm).op1Out1 =
      heardSample x.chip.lfoAm (x.ch c) .op1
        (if (x.ch c).fb.toNat = 0 then 0
        else ((x.ch c).op1Out0 + (x.ch c).op1Out1) * 2 ^ ((x.ch c).fb.toNat + 6) / 65536) := by
    rw [Channel.afterCalc_op1Out1, Channel.opSample_eq_heardSample, Channel.feedback_eq]
  dsimp only
  rw [hout, Instance.ch_chanCalc hlive, hmem]
  refine ⟨fun ha => ?_, fun ha => ?_, fun ha => ?_, fun ha => ?_, fun ha => ?_, fun ha => ?_, fun ha => ?_,
    fun ha => ?_, rfl, hnewest, rfl⟩
  all_goals
    rw [Channel.accumulate_of_route (by rw [route, ha])]
    simp [Accs.routeOp1, Accs.add, Accs.get, Accs.set]

/-! ### The sample step -/

/-- A sum over the channels a selection and a condition pick is that over the selection alone, where the others have
nothing to add (46_channel_mix.md R370). -/
theorem sumOver_eq_sum_filter (sel on : Chan → Bool) (out : Six Int) (hoff : ∀ c, on c = false → out.get c = 0) :
    sumOver sel out =
      (([Chan.ch0, .ch1, .ch2, .ch3, .ch4, .ch5].filter fun c => on c && sel c).map out.get).sum := by
  have hsum (l : List Chan) : ((l.filter fun c => on c && sel c).map out.get).sum =
      (l.map fun c => if sel c then out.get c else 0).sum := by
    induction l with
    | nil => rfl
    | cons c l ih =>
      cases hon : on c <;> cases hsel : sel c <;> simp [hon, hsel, ih, hoff]
  rw [hsum]
  simp [sumOver, Six.get, add_assoc]

/-- The envelope accumulator set to a value (10_state.md R54). -/
def Instance.setEgTimer (x : Instance) (timer : Nat) : Instance :=
  { x with chip := { x.chip with egTimer := timer } }

theorem Instance.setEgTimer_self (x : Instance) : x.setEgTimer x.chip.egTimer = x := rfl

/-- A tick neither reads nor changes the accumulator (46_channel_mix.md R370). -/
theorem Instance.egTick_setEgTimer (x : Instance) (timer : Nat) :
    (x.setEgTimer timer).egTick = x.egTick.setEgTimer timer := rfl

/-- The ticks an accumulator holds, and the remainder left in it (46_channel_mix.md R370). -/
def Instance.takeTicks (x : Instance) : Instance :=
  Instance.egTicks (x.chip.egTimer / egOvf) (x.setEgTimer (x.chip.egTimer % egOvf))

theorem Instance.takeTicks_setEgTimer (x : Instance) (timer : Nat) :
    (x.setEgTimer timer).takeTicks = Instance.egTicks (timer / egOvf) (x.setEgTimer (timer % egOvf)) := rfl

/-- The envelope clock is its ticks after EG_ADD is added (46_channel_mix.md R370). -/
theorem Instance.egClock_eq_takeTicks (x : Instance) :
    x.egClock = (x.setEgTimer (x.chip.egTimer + egAdd x.cfg)).takeTicks := rfl

/-- Below EG_OVF the loop ends (46_channel_mix.md R370). -/
theorem Instance.takeTicks_of_lt {x : Instance} (h : x.chip.egTimer < egOvf) : x.takeTicks = x := by
  rw [Instance.takeTicks, Nat.div_eq_of_lt h, Nat.mod_eq_of_lt h, Instance.setEgTimer_self]
  rfl

/-- From EG_OVF on the loop subtracts it and ticks (46_channel_mix.md R370). -/
theorem Instance.takeTicks_of_le {x : Instance} (h : egOvf ≤ x.chip.egTimer) :
    x.takeTicks = (x.setEgTimer (x.chip.egTimer - egOvf)).egTick.takeTicks := by
  have hpos : 0 < egOvf := by decide
  rw [Instance.egTick_setEgTimer, Instance.takeTicks_setEgTimer, Instance.takeTicks, Nat.div_eq_sub_div hpos h,
    Nat.mod_eq_sub_mod h, Instance.egTicks, Instance.egTick_setEgTimer]

/-- Settles O54: the order is the model's own, with the loop of the envelope clock as `takeTicks`; a channel that does
not exist has the output 0, so a side may sum the channels that do. -/
theorem sampleStepOrder : Obligations.SampleStepOrder := by
  have hsilent (x : Instance) (c : Chan) (hoff : x.live c = false) : x.prepared.outputs.get c = 0 :=
    (Instance.get_outputs ..).trans (if_neg (ne_true_of_eq_false hoff))
  refine ⟨fun x => ⟨?_, sumOver_eq_sum_filter _ _ _ (hsilent x), sumOver_eq_sum_filter _ _ _ (hsilent x)⟩,
    fun _ => Instance.takeTicks_of_lt, fun _ => Instance.takeTicks_of_le⟩
  rw [Instance.sampleStep, Instance.egClock_eq_takeTicks]
  rfl

/-! ### The loop of GENERATE -/

theorem Instance.egTicks_sameOutside (n : Nat) (x : Instance) : SameOutside x (Instance.egTicks n x) := by
  induction n generalizing x with
  | zero => exact ⟨rfl, rfl, rfl⟩
  | succ n ih =>
    obtain ⟨hcfg, hl, hr⟩ := ih x.egTick
    exact ⟨hcfg, hl, hr⟩

theorem Instance.timerAStep_sameOutside (x : Instance) : SameOutside x x.timerAStep := by
  rcases x.timerAStep_cases with ⟨-, h⟩ | ⟨-, -, h⟩ | ⟨-, -, h⟩ <;> rw [h]
  · exact ⟨rfl, rfl, rfl⟩
  · exact ⟨rfl, rfl, rfl⟩
  · rw [Instance.overflow_eq]
    split <;> exact ⟨rfl, rfl, rfl⟩

/-- A sample step leaves the configuration and what HOST_POST keeps (46_channel_mix.md R370). -/
theorem Instance.sampleStep_sameOutside (x : Instance) : SameOutside x x.sampleStep := by
  obtain ⟨hcfg, hl, hr⟩ := x.prepared.chanCalc.egClock.timerAStep_sameOutside
  obtain ⟨hcfg', hl', hr'⟩ := Instance.egTicks_sameOutside _ { x.prepared.chanCalc with
    chip := { x.prepared.chanCalc.chip with
      egTimer := (x.prepared.chanCalc.chip.egTimer + egAdd x.cfg) % egOvf } }
  exact ⟨hcfg.trans hcfg', hl.trans hl', hr.trans hr'⟩

/-- With the identity HOST_POST a step of the loop is the sample step (46_channel_mix.md R376). -/
theorem mixedInstance_identity {x : Instance} (h : x.cfg.post = .identity) (vp lb : Int) :
    mixedInstance vp lb x = x.sampleStep := by
  obtain ⟨-, hl, hr⟩ := x.sampleStep_sameOutside
  simp only [mixedInstance, Instance.mixStep, h, hostPost, ← hl, ← hr]

section
variable (vp lb : Int) {n : Nat} {x : Instance} {buf : List Sample}

/-- A round of the loop, in the terms of the rule (46_channel_mix.md R372, R376). -/
theorem Instance.mixSteps_cons (n : Nat) (x : Instance) (bl br : Sample) (buf : List Sample) :
    Instance.mixSteps vp lb (n + 1) x (bl :: br :: buf) =
      ((Instance.mixSteps vp lb n (mixedInstance vp lb x) buf).1,
        addClipped bl (mixedValue vp lb x .left) :: addClipped br (mixedValue vp lb x .right)
          :: (Instance.mixSteps vp lb n (mixedInstance vp lb x) buf).2) :=
  rfl

/-- A buffer for one more round starts with a pair. -/
theorem exists_pair_of_le (h : 2 * (n + 1) ≤ buf.length) :
    ∃ bl br rest, buf = bl :: br :: rest ∧ 2 * n ≤ rest.length := by
  match buf, h with
  | bl :: br :: rest, h => exact ⟨bl, br, rest, rfl, by simp only [List.length_cons] at h; omega⟩
  | [_], h => simp only [List.length_singleton] at h; omega

/-- The loop takes the instance through its sample steps (46_channel_mix.md R372). -/
theorem Instance.mixSteps_fst (h : 2 * n ≤ buf.length) :
    (Instance.mixSteps vp lb n x buf).1 = iterate (mixedInstance vp lb) n x := by
  induction n generalizing x buf with
  | zero => rfl
  | succ n ih =>
    obtain ⟨bl, br, rest, rfl, hrest⟩ := exists_pair_of_le h
    exact ih hrest

theorem Instance.length_mixSteps (h : 2 * n ≤ buf.length) :
    (Instance.mixSteps vp lb n x buf).2.length = buf.length := by
  induction n generalizing x buf with
  | zero => rfl
  | succ n ih =>
    obtain ⟨bl, br, rest, rfl, hrest⟩ := exists_pair_of_le h
    rw [Instance.mixSteps_cons, List.length_cons, List.length_cons, ih hrest, List.length_cons, List.length_cons]

/-- The pair of each round holds the two values of its sample step, added and clipped (46_channel_mix.md R372, R376). -/
theorem Instance.getElem?_mixSteps_pair (h : 2 * n ≤ buf.length) {k : Nat} (hk : k < n) :
    (Instance.mixSteps vp lb n x buf).2[2 * k]? =
        buf[2 * k]?.map (addClipped · (mixedValue vp lb (iterate (mixedInstance vp lb) k x) .left))
      ∧ (Instance.mixSteps vp lb n x buf).2[2 * k + 1]? =
        buf[2 * k + 1]?.map (addClipped · (mixedValue vp lb (iterate (mixedInstance vp lb) k x) .right)) := by
  induction n generalizing x buf k with
  | zero => exact absurd hk k.not_lt_zero
  | succ n ih =>
    obtain ⟨bl, br, rest, rfl, hrest⟩ := exists_pair_of_le h
    rw [Instance.mixSteps_cons]
    cases k with
    | zero => exact ⟨rfl, rfl⟩
    | succ k => exact ih hrest (Nat.lt_of_succ_lt_succ hk)

/-- The loop leaves the buffer past its rounds (46_channel_mix.md R372). -/
theorem Instance.getElem?_mixSteps_rest (h : 2 * n ≤ buf.length) {k : Nat} (hk : 2 * n ≤ k) :
    (Instance.mixSteps vp lb n x buf).2[k]? = buf[k]? := by
  induction n generalizing x buf k with
  | zero => rfl
  | succ n ih =>
    obtain ⟨bl, br, rest, rfl, hrest⟩ := exists_pair_of_le h
    obtain ⟨k, rfl⟩ := Nat.exists_eq_add_of_le' (show 2 ≤ k by omega)
    exact ih hrest (Nat.le_of_add_le_add_right hk)

end

/-- Settles O32: the loop runs one pair a round, by the lemmas on its instance and its buffer. -/
theorem generateAddsClippedSamples : Obligations.GenerateAddsClippedSamples := by
  refine ⟨fun s count vp lb buf h0 hbuf => ?_, fun vp lb x hpost => ⟨mixedInstance_identity hpost vp lb, ?_, ?_⟩⟩
  · lift count to Nat using h0
    have hlen : 2 * count ≤ buf.length := by omega
    rw [Int.toNat_natCast]
    refine ⟨_, exec_generate_next count vp lb buf s hlen, rfl, ?_, Instance.length_mixSteps vp lb hlen,
      fun k b hk hb => ?_, fun k b hk hb => ?_, fun k => Instance.getElem?_mixSteps_rest vp lb hlen⟩
    · rw [← Instance.mixSteps_fst vp lb hlen]
    · rw [(Instance.getElem?_mixSteps_pair vp lb hlen hk).1, hb]
      rfl
    · rw [(Instance.getElem?_mixSteps_pair vp lb hlen hk).2, hb]
      rfl
  · simp only [mixedValue, hpost, hostPost]
  · simp only [mixedValue, hpost, hostPost]

end Sys2Proof.Machine
end

section
/-! PROOFS. What has no meaning and what has no effect (60_exceptions.md R410, R444): the operations that are refused, and
the step and the GENERATE that leave the block as it is. -/

namespace Sys2Proof.Machine

/-! ### Refusals -/

/-- A negative count, or a buffer shorter than twice the count, is refused (60_exceptions.md R410). -/
theorem exec_generate_refused {count : Int} (vp lb : Int) {buf : List Sample} (s : State)
    (h : count < 0 ∨ (buf.length : Int) < 2 * count) : ∃ r, exec (.generate count vp lb buf) s = .refused r := by
  by_cases hneg : count < 0
  · exact ⟨.negativeCount count, if_pos hneg⟩
  · exact ⟨.bufferTooShort count buf.length, (if_neg hneg).trans (if_pos (h.resolve_left hneg))⟩

/-- A port outside 0..3 is refused (60_exceptions.md R410). -/
theorem exec_readStatus_refused {port : Int} (s : State) (h : port < 0 ∨ 3 < port) :
    exec (.readStatus port) s = .refused (.portOutOfRange port) :=
  if_neg (by omega)

/-- An array of another length than the family's space is refused (60_exceptions.md R410). -/
theorem exec_restore_refused {bytes : List Byte} {s : State}
    (h : bytes.length ≠ if s.self.cfg.family.six then 512 else 256) :
    exec (.restore bytes) s = .refused (.restoreLength bytes.length) :=
  if_neg (by rwa [registerSpace_length])

/-- A construction succeeds or is refused (60_exceptions.md R410). -/
theorem exec_construct_cases (f : Family) (n clock rate : Nat) (a b : Bool) (s : State) :
    (∃ t, exec (.construct f n clock rate a b) s = .next t)
      ∨ exec (.construct f n clock rate a b) s = .refused .constructFailed := by
  by_cases h : n = 0 ∨ clock = 0 ∨ rate = 0
  · exact .inr (if_pos h)
  · exact .inl ⟨_, if_neg h⟩

/-- Settles O11: each clause is the refusal of its operation; the register write is refused where it is called, by its
decoding. -/
theorem meaninglessOperationsAreRefused : Obligations.MeaninglessOperationsAreRefused := by
  refine ⟨fun s address value rest hp hout => ?_, fun s _ vp lb _ h => exec_generate_refused vp lb s h,
    fun s _ h => exec_readStatus_refused s h, fun _ _ h => exec_restore_refused h,
    fun s f n clock rate a b => exec_construct_cases f n clock rate a b s⟩
  rw [step_self hp, decodeCall_writeRegister_outside value hout]
  rfl

/-! ### Nothing happens -/

/-- No sample step passed: timer B keeps a counter that is not negative (60_exceptions.md R432). -/
theorem Instance.timerBStep_zero {x : Instance} (h : 0 ≤ x.chip.tbCnt) : x.timerBStep 0 = x := by
  have hstep : tbStep x.cfg 0 = 0 := by rw [tbStep, Nat.mul_zero, scaled, Nat.zero_mul, Nat.zero_div]
  rcases x.timerBStep_cases 0 with ⟨-, e⟩ | ⟨-, -, e⟩ | ⟨hne, hle, -⟩
  · exact e
  · rw [e, hstep, Int.natCast_zero, Int.sub_zero]
  · rw [hstep] at hle
    omega

theorem Instance.mixSteps_zero (vp lb : Int) (x : Instance) (buf : List Sample) :
    Instance.mixSteps vp lb 0 x buf = (x, buf) :=
  rfl

/-- Settles O10: with nothing pending the step is idle; the loop of no rounds and timer B's step over none of them change
nothing. -/
theorem nothingHappensBetweenOperations : Obligations.NothingHappensBetweenOperations := by
  refine ⟨fun _ => step_idle, fun s vp lb buf htb => ?_⟩
  rw [← Int.natCast_zero, exec_generate_next 0 vp lb buf s (Nat.zero_le _), Instance.mixSteps_zero,
    Instance.timerBStep_zero htb]

end Sys2Proof.Machine
end

section
/-! PROOFS. Timers A and B (60_exceptions.md R430 to R433): an overflow in numbers where the reported level is the
status's, and the CSM key events that follow one of timer A. -/

namespace Sys2Proof.Machine

/-- A bit of a byte, read from the vector or from its number. -/
theorem getLsbD_eq_bitOf (data : Byte) (k : Nat) : data.getLsbD k = bitOf data k :=
  Nat.testBit_eq_decide_div_mod_eq

/-- The IRQ level a status asks for, in numbers (60_exceptions.md R420). -/
theorem statusLevel_eq (status : Byte) : (status &&& irqMask != 0) = decide (status.toNat % 4 ≠ 0) := by
  rw [irqMask_eq, bne, beq_eq_decide, decide_not]

/-- The status after a timer's flag is set, if it is enabled (60_exceptions.md R431, R432). -/
def Chip.flagged (k : Chip) (t : Timer) : Byte :=
  if k.flagEnabled t then k.status ||| flagBit t else k.status

/-- The first half of an overflow where the reported level is the status's: the level follows the flag, with the event of
a transition (60_exceptions.md R421, R431, R432). -/
theorem Instance.setEnabledFlag_eq {x : Instance} (t : Timer) (h : x.chip.irq = x.chip.level) :
    x.setEnabledFlag t = { x with
      chip := { x.chip with status := x.chip.flagged t, irq := x.chip.flagged t &&& irqMask != 0 }
      events := x.events ++ transition x.chip.irq (x.chip.flagged t &&& irqMask != 0) } := by
  unfold Instance.setEnabledFlag Chip.flagged
  split
  · exact x.setFlag_eq t
  · have hlevel : (x.chip.status &&& irqMask != 0) = x.chip.irq := h.symm
    rw [hlevel, transition_self, List.append_nil]

/-- An overflow is its two halves and the event of the reload (60_exceptions.md R431, R432). -/
theorem Instance.overflow_eq_reloadTimer (x : Instance) (t : Timer) (cnt : Int) :
    x.overflow t cnt = ((x.setEnabledFlag t).reloadTimer t cnt).emit
      (.timerReload t ((x.setEnabledFlag t).chip.period t)) :=
  rfl

/-- An overflow changes no channel. -/
theorem Instance.overflow_chans (x : Instance) (t : Timer) (cnt : Int) : (x.overflow t cnt).chans = x.chans := by
  rw [Instance.overflow_eq]

/-- An overflow where the reported level is the status's, in numbers (60_exceptions.md R431, R432). -/
theorem Instance.overflow_overflowed {x : Instance} (t : Timer) (cnt : Int) (h : x.chip.irq = x.chip.level) :
    Overflowed x (x.overflow t cnt) t (x.chip.flagEnabled t) (flagBit t) (x.chip.period t) cnt := by
  rw [Instance.overflow_eq_reloadTimer, Instance.setEnabledFlag_eq t h]
  cases t <;> exact
    { status := rfl
      irq := statusLevel_eq _
      count := rfl
      events := rfl
      chip := rfl
      reg := rfl
      outside := ⟨rfl, rfl, rfl⟩ }

/-- CSM touches nothing that an overflow decides (60_exceptions.md R433). -/
theorem Overflowed.csmKey {x y : Instance} {t : Timer} {enabled : Bool} {flag : Byte} {period : Nat} {cnt : Int}
    (h : Overflowed x y t enabled flag period cnt) : Overflowed x y.csmKey t enabled flag period cnt :=
  ⟨h.status, h.irq, h.count, h.events, h.chip, h.reg,
    ⟨h.outside.cfg, h.outside.postL, h.outside.postR⟩⟩

theorem Operator.csmKeyed_csmKey (p : FamilyParams) (o : Operator) : CsmKeyed p o (o.csmKey p) := by
  unfold CsmKeyed Operator.csmKey
  split
  · rfl
  · exact ⟨o.keyOn p, o.keyedOn_keyOn p, (o.keyOn p).keyedOff_keyOff⟩

/-- CSM keys the operators of channel 2 and changes nothing else of the channels (60_exceptions.md R433). -/
theorem Instance.csmKey_chans (x : Instance) :
    SameOtherChannels x x.csmKey .ch2 ∧ SameOwnFields (x.ch .ch2) (x.csmKey.ch .ch2)
      ∧ ∀ m, CsmKeyed x.cfg.params (x.op .ch2 m) (x.csmKey.op .ch2 m) := by
  have hch : ∀ d, x.csmKey.ch d = if d = .ch2 then
      { x.ch .ch2 with ops := Quad.tabulate fun n => (x.op .ch2 n).csmKey x.cfg.params } else x.ch d :=
    fun d => Instance.ch_updCh ..
  refine ⟨fun d hd => (hch d).trans (if_neg hd), ?_, fun m => ?_⟩
  · rw [hch, if_pos rfl]; rfl
  · rw [Instance.op, Instance.op, hch, if_pos rfl, Quad.get_tabulate]
    exact Operator.csmKeyed_csmKey ..

/-! ### The steps -/

theorem Instance.timerAStep_running {x : Instance} (h0 : x.chip.taCnt ≠ 0) (hpos : 0 < x.chip.taCnt - taStep x.cfg) :
    x.timerAStep = { x with chip := { x.chip with taCnt := x.chip.taCnt - taStep x.cfg } } := by
  rcases x.timerAStep_cases with ⟨h, -⟩ | ⟨-, -, e⟩ | ⟨-, h, -⟩
  · exact absurd h h0
  · exact e
  · exact absurd hpos h.not_gt

theorem Instance.timerAStep_overflow {x : Instance} (h0 : x.chip.taCnt ≠ 0) (hle : x.chip.taCnt - taStep x.cfg ≤ 0) :
    x.timerAStep =
      if x.chip.csm then (x.overflow .a (x.chip.taCnt - taStep x.cfg)).csmKey
      else x.overflow .a (x.chip.taCnt - taStep x.cfg) := by
  rcases x.timerAStep_cases with ⟨h, -⟩ | ⟨-, h, -⟩ | ⟨-, -, e⟩
  · exact absurd h h0
  · exact absurd hle h.not_ge
  · exact e

theorem Instance.timerBStep_running {n : Nat} {x : Instance} (h0 : x.chip.tbCnt ≠ 0)
    (hpos : 0 < x.chip.tbCnt - tbStep x.cfg n) :
    x.timerBStep n = { x with chip := { x.chip with tbCnt := x.chip.tbCnt - tbStep x.cfg n } } := by
  rcases x.timerBStep_cases n with ⟨h, -⟩ | ⟨-, -, e⟩ | ⟨-, h, -⟩
  · exact absurd h h0
  · exact e
  · exact absurd hpos h.not_gt

theorem Instance.timerBStep_overflow {n : Nat} {x : Instance} (h0 : x.chip.tbCnt ≠ 0)
    (hle : x.chip.tbCnt - tbStep x.cfg n ≤ 0) : x.timerBStep n = x.overflow .b (x.chip.tbCnt - tbStep x.cfg n) := by
  rcases x.timerBStep_cases n with ⟨h, -⟩ | ⟨-, h, -⟩ | ⟨-, -, e⟩
  · exact absurd h h0
  · exact absurd hle h.not_ge
  · exact e

/-- CSM keys the operators as they were before the overflow of timer A (60_exceptions.md R431, R433). -/
theorem Instance.overflow_csmKey_chans (x : Instance) (cnt : Int) :
    SameOtherChannels x (x.overflow .a cnt).csmKey .ch2
      ∧ SameOwnFields (x.ch .ch2) ((x.overflow .a cnt).csmKey.ch .ch2)
      ∧ ∀ m, CsmKeyed x.cfg.params (x.op .ch2 m) ((x.overflow .a cnt).csmKey.op .ch2 m) := by
  have h := (x.overflow .a cnt).csmKey_chans
  simpa only [SameOtherChannels, Instance.op, Instance.ch, Instance.overflow_chans, Instance.overflow_cfg] using h

/-- Settles O58: the cases of each timer's step; an overflow is `overflow_overflowed`, to which CSM adds its key events. -/
theorem timerSteps : Obligations.TimerSteps := by
  intro x n hirq
  have hcsm : x.chip.csm = bitOf x.chip.mode 7 := getLsbD_eq_bitOf ..
  have hena : x.chip.flagEnabled .a = bitOf x.chip.mode 2 := getLsbD_eq_bitOf ..
  have henb : x.chip.flagEnabled .b = bitOf x.chip.mode 3 := getLsbD_eq_bitOf ..
  rw [← hcsm, ← hena, ← henb]
  refine ⟨fun h0 => if_pos h0, ⟨Instance.timerAStep_running, fun h0 hle => ?_⟩, fun h0 => if_pos h0,
    ⟨Instance.timerBStep_running, fun h0 hle => ?_⟩⟩
  · have hover := Instance.overflow_overflowed .a (x.chip.taCnt - taStep x.cfg) hirq
    rw [Instance.timerAStep_overflow h0 hle]
    split
    next hon => exact ⟨hover.csmKey, fun hoff => absurd hon (by simp [hoff]), fun _ => x.overflow_csmKey_chans _⟩
    next hoff => exact ⟨hover, fun _ => x.overflow_chans .a _, fun hon => absurd hon hoff⟩
  · rw [Instance.timerBStep_overflow h0 hle]
    exact ⟨Instance.overflow_overflowed .b _ hirq, x.overflow_chans .b _⟩

end Sys2Proof.Machine
end

section
/-! PROOFS. The IRQ level and its events (60_exceptions.md R421). What holds of the level and the events since a
fixed instance `x` is kept by every shared operation that can touch a flag, hence by every instruction but RESET. -/

namespace Sys2Proof.Machine

/-! ### Lists of events -/

theorem IrqLog.append {a b c : Bool} {l k : List Event} (hl : IrqLog a l b) (hk : IrqLog b k c) : IrqLog a (l ++ k) c := by
  induction l generalizing a with
  | nil => exact (show a = b from hl) ▸ hk
  | cons e l ih =>
    cases e with
    | irqLevel level =>
      obtain ⟨hne, hl⟩ := hl
      exact ⟨hne, ih hl⟩
    | timerReload t period => exact ih (a := a) hl
    | timerStop t => exact ih (a := a) hl

/-- A transition reports the new level if it is another (60_exceptions.md R421). -/
theorem irqLog_transition (a b : Bool) : IrqLog a (transition a b) b := by
  unfold transition
  split
  next h => exact h.symm
  next h => exact ⟨h, rfl⟩

theorem irqLog_loadEvents (a : Bool) (t : Timer) (load : Bool) (count : Int) (period : Nat) :
    IrqLog a (loadEvents t load count period) a := by
  unfold loadEvents
  cases load
  · rw [if_neg Bool.false_ne_true]
    split <;> exact rfl
  · rw [if_pos rfl]
    split <;> exact rfl

/-! ### What the register writes leave -/

/-- The only register write that touches a flag, the level or an event is MODE_TIMER (41 to 43). -/
theorem Instance.applyWrite_flags (x : Instance) {i : Instr} (h : ∀ data, i ≠ .modeTimer data) :
    (x.applyWrite i).chip.status = x.chip.status ∧ (x.applyWrite i).chip.irq = x.chip.irq
      ∧ (x.applyWrite i).events = x.events := by
  cases i with
  | lfoCtrl data =>
    simp only [Instance.applyWrite, Instance.writeLfoCtrl]
    split <;> exact ⟨rfl, rfl, rfl⟩
  | modeTimer data => exact absurd rfl (h data)
  | keyOnOff data =>
    obtain ⟨hchip, hevents⟩ := x.writeKeyOnOff_frame data
    exact ⟨congrArg Chip.status hchip, congrArg Chip.irq hchip, hevents⟩
  | sl3FnumLo k data => exact ⟨Chip.setSl3_status .., Chip.setSl3_irq .., rfl⟩
  | panAmsPms c data =>
    simp only [Instance.applyWrite, Instance.writePanAmsPms]
    split <;> exact ⟨rfl, rfl, rfl⟩
  | _ => exact ⟨rfl, rfl, rfl⟩

/-! ### The level since a fixed instance -/

/-- `y` reports the level of its status, and its events since `x` reported that level on transitions only
(60_exceptions.md R421). -/
structure IrqReported (x y : Instance) : Prop where
  irq_eq : y.chip.irq = y.chip.level
  log : ∃ l, y.events = x.events ++ l ∧ IrqLog x.chip.irq l y.chip.irq

section
variable {x y : Instance}

theorem IrqReported.refl (h : x.chip.irq = x.chip.level) : IrqReported x x :=
  ⟨h, [], (List.append_nil _).symm, rfl⟩

/-- What touches neither flag, level nor event keeps it. -/
theorem IrqReported.of_eq {z : Instance} (h : IrqReported x y) (hstatus : z.chip.status = y.chip.status)
    (hirq : z.chip.irq = y.chip.irq) (hevents : z.events = y.events) : IrqReported x z := by
  obtain ⟨hlevel, l, hl, hlog⟩ := h
  refine ⟨?_, l, hevents.trans hl, hirq ▸ hlog⟩
  rw [hirq, hlevel, Chip.level, Chip.level, hstatus]

/-- More events, which end in a level that is the status's. -/
theorem IrqReported.append {z : Instance} (h : IrqReported x y) {k : List Event} (hevents : z.events = y.events ++ k)
    (hlog : IrqLog y.chip.irq k z.chip.irq) (hirq : z.chip.irq = z.chip.level) : IrqReported x z := by
  obtain ⟨-, l, hl, hlog'⟩ := h
  exact ⟨hirq, l ++ k, by rw [hevents, hl, List.append_assoc], hlog'.append hlog⟩

theorem IrqReported.setFlag (h : IrqReported x y) (t : Timer) : IrqReported x (y.setFlag t) := by
  rw [Instance.setFlag_eq]
  exact h.append rfl (irqLog_transition ..) rfl

theorem IrqReported.clearFlag (h : IrqReported x y) (t : Timer) : IrqReported x (y.clearFlag t) := by
  rw [Instance.clearFlag_eq]
  exact h.append rfl (irqLog_transition ..) rfl

theorem IrqReported.resetFlag (h : IrqReported x y) (t : Timer) (data : Byte) : IrqReported x (y.resetFlag t data) := by
  unfold Instance.resetFlag
  split
  · exact h.clearFlag t
  · exact h

theorem IrqReported.loadTimer (h : IrqReported x y) (t : Timer) (load : Bool) : IrqReported x (y.loadTimer t load) := by
  rw [Instance.loadTimer_eq]
  refine h.append rfl ?_ ?_
  · rw [Chip.setCount_irq]; exact irqLog_loadEvents ..
  · rw [Chip.level, Chip.setCount_irq, Chip.setCount_status]; exact h.irq_eq

theorem IrqReported.setEnabledFlag (h : IrqReported x y) (t : Timer) : IrqReported x (y.setEnabledFlag t) := by
  unfold Instance.setEnabledFlag
  split
  · exact h.setFlag t
  · exact h

theorem IrqReported.reloadTimer (h : IrqReported x y) (t : Timer) (cnt : Int) : IrqReported x (y.reloadTimer t cnt) :=
  h.of_eq (Chip.setCount_status ..) (Chip.setCount_irq ..) rfl

theorem IrqReported.overflow (h : IrqReported x y) (t : Timer) (cnt : Int) : IrqReported x (y.overflow t cnt) := by
  rw [Instance.overflow_eq_reloadTimer]
  have hy := (h.setEnabledFlag t).reloadTimer t cnt
  exact hy.append rfl rfl hy.irq_eq

/-! ### Sample steps -/

theorem IrqReported.timerAStep (h : IrqReported x y) : IrqReported x y.timerAStep := by
  rcases y.timerAStep_cases with ⟨-, e⟩ | ⟨-, -, e⟩ | ⟨-, -, e⟩ <;> rw [e]
  · exact h
  · exact h.of_eq rfl rfl rfl
  · split
    · exact (h.overflow .a _).of_eq rfl rfl rfl
    · exact h.overflow .a _

theorem IrqReported.timerBStep (h : IrqReported x y) (n : Nat) : IrqReported x (y.timerBStep n) := by
  rcases y.timerBStep_cases n with ⟨-, e⟩ | ⟨-, -, e⟩ | ⟨-, -, e⟩ <;> rw [e]
  · exact h
  · exact h.of_eq rfl rfl rfl
  · exact h.overflow .b _

theorem IrqReported.egTicks (h : IrqReported x y) (n : Nat) : IrqReported x (Instance.egTicks n y) := by
  induction n generalizing y with
  | zero => exact h
  | succ n ih => exact ih (y := y.egTick) (h.of_eq rfl rfl rfl)

theorem IrqReported.egClock (h : IrqReported x y) : IrqReported x y.egClock := by
  refine IrqReported.egTicks ?_ _
  exact h.of_eq rfl rfl rfl

/-- A sample step touches the flags by timer A alone (46_channel_mix.md R370). -/
theorem IrqReported.sampleStep (h : IrqReported x y) : IrqReported x y.sampleStep := by
  have hcalc : IrqReported x y.prepared.chanCalc :=
    h.of_eq (Chip.lfoAdvance_status _) (Chip.lfoAdvance_irq _) rfl
  exact hcalc.egClock.timerAStep

theorem IrqReported.mixSteps (h : IrqReported x y) (vp lb : Int) (n : Nat) (buf : List Sample) :
    IrqReported x (Instance.mixSteps vp lb n y buf).1 := by
  induction n generalizing y buf with
  | zero => exact h
  | succ n ih =>
    match buf with
    | [] => exact h
    | [_] => exact h
    | bl :: br :: buf => exact ih (y := (y.mixStep vp lb bl br).1) (h.sampleStep.of_eq rfl rfl rfl) buf

/-! ### Register writes -/

theorem IrqReported.writeModeTimer (h : IrqReported x y) (data : Byte) : IrqReported x (y.writeModeTimer data) := by
  have hmode : IrqReported x ((y.store 0x027 data).setMode data) :=
    h.of_eq (by rw [Instance.setMode_chip]; rfl) (by rw [Instance.setMode_chip]; rfl) (Instance.setMode_events ..)
  exact (((hmode.resetFlag .b data).resetFlag .a data).loadTimer .b _).loadTimer .a _

theorem IrqReported.applyWrite (h : IrqReported x y) (i : Instr) : IrqReported x (y.applyWrite i) := by
  by_cases hmode : ∃ data, i = .modeTimer data
  · obtain ⟨data, rfl⟩ := hmode
    exact h.writeModeTimer data
  · obtain ⟨hstatus, hirq, hevents⟩ := y.applyWrite_flags fun data e => hmode ⟨data, e⟩
    exact h.of_eq hstatus hirq hevents

theorem IrqReported.writes (h : IrqReported x y) (l : List (BitVec 9 × Byte)) : IrqReported x (y.writes l) := by
  induction l generalizing y with
  | nil => exact h
  | cons w l ih => exact ih (y := y.write w.1 w.2) (h.applyWrite _)

theorem IrqReported.restore (h : IrqReported x y) (bytes : List Byte) : IrqReported x (y.restore bytes) := by
  refine IrqReported.writes ?_ _
  rw [Instance.restoreShadow_rest]
  exact h.of_eq rfl rfl rfl

end

/-! ### Instructions -/

/-- Settles O60: the instance the instruction runs on reports its level to begin with, and what the instruction does to it
keeps that. -/
theorem irqEventsAreTransitions : Obligations.IrqEventsAreTransitions := by
  intro i s t hirq hreset h
  have hs := IrqReported.refl hirq
  have ht : IrqReported s.self t.self := by
    by_cases hi : isWrite i = true
    · obtain ⟨-, rfl⟩ := exec_write hi h
      exact hs.applyWrite i
    · rcases exec_other (by simpa using hi) h with ⟨_, _, _, -, rfl⟩ | ⟨_, _, _, _, _, _, -, -, -, -, rfl⟩ |
        ⟨hr, -⟩ | ⟨_, _, _, _, -, -, -, rfl⟩ | ⟨_, -, rfl⟩ | ⟨-, rfl⟩ | ⟨bytes, -, -, rfl⟩
      · exact hs
      · exact hs
      · exact absurd hr hreset
      · exact (hs.mixSteps ..).timerBStep _
      · exact hs
      · exact hs
      · exact hs.restore bytes
  exact ⟨ht.irq_eq, ht.log⟩

end Sys2Proof.Machine
end

section
/-! PROOFS. The decoder and the encoder are inverse to each other (30_encoding.md R100 to R111), and the rows of the opcode
table do not overlap. -/

namespace Sys2Proof

/-! ### Decoding what was encoded -/

/-- An address has its bank as its top bit and its byte below (30_encoding.md R100). -/
theorem bank_append_addr (bank : Bool) (addr : Byte) :
    (BitVec.ofBool bank ++ addr).getLsbD 8 = bank ∧ (BitVec.ofBool bank ++ addr).extractLsb' 0 8 = addr := by
  refine ⟨?_, BitVec.extractLsb'_append_eq_right⟩
  rw [BitVec.getLsbD_append]
  cases bank <;> rfl

/-- The addresses of a channel's registers are in the family's space if the channel is. -/
theorem bank_registerAddr {six : Bool} {c : Chan} (hc : c.present six = true) (g : BitVec 4) (top : BitVec 6) (n : OpNum) :
    ((operatorAddr g c n).getLsbD 8 = true → six = true) ∧ ((channelAddr top c).getLsbD 8 = true → six = true) := by
  have hbank : c.bank = true → six = true := by
    revert hc
    revert six
    cases c <;> decide
  have hop : (operatorAddr g c n).getLsbD 8 = c.bank := by
    simp only [operatorAddr, BitVec.getLsbD_append]
    cases c <;> rfl
  have hch : (channelAddr top c).getLsbD 8 = c.bank := by
    simp only [channelAddr, BitVec.getLsbD_append]
    cases c <;> rfl
  rw [hop, hch]
  exact ⟨hbank, hbank⟩

/-- The decoder reads a well-formed register write back from its address and its byte. -/
theorem decodeRegister_of_addressData {i : Instr} {six pan : Bool} {a : BitVec 9} {data : Byte} (hwf : i.wf six pan = true)
    (ha : i.addressData = some (a, data)) :
    (a.getLsbD 8 = true → six = true) ∧ decodeRegister pan (a.getLsbD 8) (a.extractLsb' 0 8) data = i := by
  have hop {c : Chan} (g : BitVec 4) (n : OpNum) (hc : c.present six = true) := (bank_registerAddr hc g 0 n).1
  have hch {c : Chan} (top : BitVec 6) (hc : c.present six = true) := (bank_registerAddr hc 0 top .op1).2
  cases i with
  | lfoCtrl _ => cases ha; obtain rfl : pan = true := hwf; exact ⟨nofun, rfl⟩
  | timerAHi _ => cases ha; exact ⟨nofun, rfl⟩
  | timerALo _ => cases ha; exact ⟨nofun, rfl⟩
  | timerB _ => cases ha; exact ⟨nofun, rfl⟩
  | modeTimer _ => cases ha; exact ⟨nofun, rfl⟩
  | keyOnOff _ => cases ha; exact ⟨nofun, rfl⟩
  | dtMul c n _ => cases ha; exact ⟨hop 0x3 n hwf, by cases c <;> cases n <;> rfl⟩
  | tl c n _ => cases ha; exact ⟨hop 0x4 n hwf, by cases c <;> cases n <;> rfl⟩
  | ksAr c n _ => cases ha; exact ⟨hop 0x5 n hwf, by cases c <;> cases n <;> rfl⟩
  | amD1r c n _ => cases ha; exact ⟨hop 0x6 n hwf, by cases c <;> cases n <;> rfl⟩
  | d2r c n _ => cases ha; exact ⟨hop 0x7 n hwf, by cases c <;> cases n <;> rfl⟩
  | slRr c n _ => cases ha; exact ⟨hop 0x8 n hwf, by cases c <;> cases n <;> rfl⟩
  | ssgEg c n _ => cases ha; exact ⟨hop 0x9 n hwf, by cases c <;> cases n <;> rfl⟩
  | fnumLo c _ => cases ha; exact ⟨hch 0x28 hwf, by cases c <;> rfl⟩
  | fnumHiBlk c _ => cases ha; exact ⟨hch 0x29 hwf, by cases c <;> rfl⟩
  | sl3FnumLo k _ => cases ha; cases k <;> exact ⟨nofun, rfl⟩
  | sl3FnumHiBlk k _ => cases ha; cases k <;> exact ⟨nofun, rfl⟩
  | fbAlgo c _ => cases ha; exact ⟨hch 0x2C hwf, by cases c <;> rfl⟩
  | panAmsPms c _ =>
    obtain ⟨rfl, hc⟩ := Bool.and_eq_true_iff.mp hwf
    cases ha
    exact ⟨hch 0x2D hc, by cases c <;> rfl⟩
  | ignored bank addr data =>
    cases ha
    obtain ⟨hb, haddr⟩ := bank_append_addr bank addr
    obtain ⟨hspace, hunmapped⟩ := Bool.and_eq_true_iff.mp hwf
    have hspace : bank = true → six = true := fun h => by simpa [h] using hspace
    rw [hb, haddr]
    exact ⟨hspace, (Machine.decodeRegister_eq_ignored_iff six pan bank addr data hspace).mpr (by simpa using hunmapped)⟩
  | _ => cases ha

/-- Settles O3: a register write is read back from its address and its byte; a host operation is its call. -/
theorem decodeOfEncodeIsTheInstruction : Obligations.DecodeOfEncodeIsTheInstruction := by
  intro f i hwf
  cases ha : i.addressData with
  | some p =>
    obtain ⟨a, data⟩ := p
    obtain ⟨hspace, hdecode⟩ := decodeRegister_of_addressData hwf ha
    have hdata : BitVec.ofInt 8 data.toNat = data := by simp [BitVec.ofInt_natCast]
    simp only [encodeCall, ha]
    rw [decodeCall_writeRegister, if_neg (by simpa using hspace), hdata, hdecode]
  | none =>
    cases i with
    | construct _ _ _ _ _ _ => rfl
    | reset => rfl
    | generate _ _ _ _ => rfl
    | readStatus _ => rfl
    | dump => rfl
    | restore _ => rfl
    | _ => cases ha

/-! ### Encoding what was decoded -/

/-- A command word is its bank, its address and its byte side by side (30_encoding.md R100). -/
theorem commandWord_split (w : CommandWord) :
    (BitVec.ofBool (w.getLsbD 16) ++ w.extractLsb' 8 8) ++ w.extractLsb' 0 8 = w := by
  have hbank : BitVec.ofBool (w.getLsbD 16) = w.extractLsb' 16 1 := by
    ext k hk
    obtain rfl : k = 0 := by omega
    simp
  rw [hbank, BitVec.extractLsb'_append_extractLsb'_eq_extractLsb' (show 16 = 8 + 8 from rfl),
    BitVec.extractLsb'_append_extractLsb'_eq_extractLsb' (show 8 = 0 + 8 from rfl), BitVec.extractLsb'_eq_self]

/-- A command word that decodes is of the family's space. -/
theorem decodeCommand_ok {f : Family} {w : CommandWord} {i : Instr} (h : decodeCommand f w = .ok i) :
    (w.getLsbD 16 = true → f.six = true)
      ∧ decodeRegister f.hasLfoPan (w.getLsbD 16) (w.extractLsb' 8 8) (w.extractLsb' 0 8) = i := by
  unfold decodeCommand at h
  dsimp only at h
  split at h
  · cases h
  next hspace => exact ⟨by simpa using hspace, by simpa using h⟩

/-- Settles O4: the decoder's instruction carries the word's address and byte. -/
theorem encodeOfDecodeIsTheWord : Obligations.EncodeOfDecodeIsTheWord := by
  intro f w i h
  obtain ⟨hspace, rfl⟩ := decodeCommand_ok h
  obtain ⟨hwf, ha⟩ := Machine.decodeRegister_addressData f.six f.hasLfoPan (w.getLsbD 16) (w.extractLsb' 8 8)
    (w.extractLsb' 0 8) hspace
  refine ⟨hwf, ?_⟩
  rw [encode, ha]
  exact congrArg some (commandWord_split w)

/-- Settles O1: the decoder evaluates to the instruction written. -/
theorem decodesWordsOfTheSpec : Obligations.DecodesWordsOfTheSpec :=
  ⟨rfl, rfl, rfl, rfl, rfl, rfl, rfl, rfl, rfl, rfl, rfl, rfl, rfl, rfl, rfl⟩

/-! ### The rows of the opcode table -/

/-- The rows of the mapped register writes (30_encoding.md section 2). -/
def mappedRows : List OpcodeRow :=
  [⟨0x02200, 0x1FF00⟩, ⟨0x02400, 0x1FF00⟩, ⟨0x02500, 0x1FF00⟩, ⟨0x02600, 0x1FF00⟩, ⟨0x02700, 0x1FF00⟩,
    ⟨0x02800, 0x1FF00⟩, ⟨0x03000, 0x0F000⟩, ⟨0x04000, 0x0F000⟩, ⟨0x05000, 0x0F000⟩, ⟨0x06000, 0x0F000⟩,
    ⟨0x07000, 0x0F000⟩, ⟨0x08000, 0x0F000⟩, ⟨0x09000, 0x0F000⟩, ⟨0x0A000, 0x0FC00⟩, ⟨0x0A400, 0x0FC00⟩,
    ⟨0x0A800, 0x1FC00⟩, ⟨0x0AC00, 0x1FC00⟩, ⟨0x0B000, 0x0FC00⟩, ⟨0x0B400, 0x0FC00⟩]

theorem row_mem_mappedRows {i : Instr} {r : OpcodeRow} (hi : Machine.isIgnored i = false) (hr : i.row = some r) :
    r ∈ mappedRows := by
  cases i with
  | ignored _ _ _ => cases hi
  | _ => cases hr <;> decide

/-- A register write has a row. -/
theorem row_of_encode {i : Instr} {w : CommandWord} (h : encode i = some w) : ∃ r, i.row = some r := by
  cases i with
  | construct _ _ _ _ _ _ => cases h
  | reset => cases h
  | generate _ _ _ _ => cases h
  | readStatus _ => cases h
  | dump => cases h
  | restore _ => cases h
  | _ => exact ⟨_, rfl⟩

/-- Two rows whose patterns agree where both masks look are the same row. -/
theorem mappedRows_disjoint :
    ∀ r ∈ mappedRows, ∀ r' ∈ mappedRows, r.pattern &&& r'.mask = r'.pattern &&& r.mask → r = r' := by
  decide +kernel

/-- A word that matches two rows matches each where the other looks too, so they are one row. -/
theorem row_unique {w : CommandWord} {r r' : OpcodeRow} (hr : r ∈ mappedRows) (hr' : r' ∈ mappedRows)
    (h : w &&& r.mask = r.pattern) (h' : w &&& r'.mask = r'.pattern) : r = r' := by
  refine mappedRows_disjoint r hr r' hr' ?_
  rw [← h, ← h', BitVec.and_assoc, BitVec.and_assoc, BitVec.and_comm r.mask]

/-- The word of an instruction matches the instruction's row. -/
theorem encode_matches_row (i : Instr) : Laws.TableRow.Statement i := by
  cases i with
  | lfoCtrl data => exact Laws.TableRow.lfoCtrl data
  | timerAHi data => exact Laws.TableRow.timerAHi data
  | timerALo data => exact Laws.TableRow.timerALo data
  | timerB data => exact Laws.TableRow.timerB data
  | modeTimer data => exact Laws.TableRow.modeTimer data
  | keyOnOff data => exact Laws.TableRow.keyOnOff data
  | dtMul c n data => exact Laws.TableRow.dtMul c n data
  | tl c n data => exact Laws.TableRow.tl c n data
  | ksAr c n data => exact Laws.TableRow.ksAr c n data
  | amD1r c n data => exact Laws.TableRow.amD1r c n data
  | d2r c n data => exact Laws.TableRow.d2r c n data
  | slRr c n data => exact Laws.TableRow.slRr c n data
  | ssgEg c n data => exact Laws.TableRow.ssgEg c n data
  | fnumLo c data => exact Laws.TableRow.fnumLo c data
  | fnumHiBlk c data => exact Laws.TableRow.fnumHiBlk c data
  | sl3FnumLo k data => exact Laws.TableRow.sl3FnumLo k data
  | sl3FnumHiBlk k data => exact Laws.TableRow.sl3FnumHiBlk k data
  | fbAlgo c data => exact Laws.TableRow.fbAlgo c data
  | panAmsPms c data => exact Laws.TableRow.panAmsPms c data
  | ignored bank addr data => exact Laws.TableRow.ignored bank addr data
  | _ => exact fun _ _ h _ => by cases h

/-- Settles O6: the word matches its instruction's row, and a mapped row it matches is that one. -/
theorem tableRowsPickOneInstruction : Obligations.TableRowsPickOneInstruction := by
  intro f w i j r hdecode hi hj hr
  obtain ⟨-, hw⟩ := encodeOfDecodeIsTheWord f w i hdecode
  obtain ⟨own, hown⟩ := row_of_encode hw
  refine ⟨fun h => ?_, encode_matches_row i w r hw⟩
  rw [hown, row_unique (row_mem_mappedRows hi hown) (row_mem_mappedRows hj hr) (encode_matches_row i w own hw hown) h]

end Sys2Proof
end

section
/-! PROOFS. The machine: a step runs the decoded instruction of the oldest pending operation, RESET and CONSTRUCT leave
instances as after reset, and every step keeps the invariant (10_state.md, 70_reset_and_hazards.md). -/

namespace Sys2Proof.Machine

/-! ### A step -/

/-- A step on an operation whose handle finds an instance is the decoded instruction there (00_scope.md section 6). -/
theorem step_of_focus {s t : State} {q : Request} {rest : List Request} {i : Instr} (hp : s.pending = q :: rest)
    (hf : { s with pending := rest }.focus q.handle = some t) (hi : decodeCall t.self.cfg.family q.call = .ok i) :
    step s = exec i t := by
  simp only [step, hp, State.take, hf, hi]

/-- A handle past the last one finds no instance. -/
theorem State.focus_eq_none {s : State} {k : Nat} (h : s.instances.length ≤ k) : s.focus k = none := by
  rw [State.focus, List.drop_eq_nil_of_le h]

/-- Settles O9: a handle of an instance turns to it without moving one; the call put in front is on the instance operated
on. -/
theorem stepRunsTheDecodedInstruction : Obligations.StepRunsTheDecodedInstruction := by
  refine ⟨fun s q rest hp => ⟨fun hlt => ?_, fun hle => ?_⟩, fun s call i hi => ?_⟩
  · obtain ⟨t, hf⟩ := State.focus_isSome (s := { s with pending := rest }) hlt
    obtain ⟨hself, hinst, -, -, -, hpending, -⟩ := State.focus_some hf
    exact ⟨t, hf, hself, hinst, hpending, fun i hi => step_of_focus hp hf hi⟩
  · have hf : { s with pending := rest }.focus q.handle = none := State.focus_eq_none hle
    simp only [step, hp, State.take, hf]
  · exact step_of_focus (State.withCall_pending s call) (State.focus_handle s) hi

/-! ### Refusals of exec -/

/-- Settles O12: each register write to a channel tests whether the family has the channel, and fails the test. -/
theorem operandsTheFamilyLacksAreRefused : Obligations.OperandsTheFamilyLacksAreRefused := by
  refine ⟨fun s c n data i habsent hi => ?_, fun s addr data hthree => if_pos (by simp [hthree]),
    fun s f n clock rate a b hzero => if_pos hzero⟩
  simp only [List.mem_cons, List.not_mem_nil, or_false] at hi
  rcases hi with rfl | rfl | rfl | rfl | rfl | rfl | rfl | rfl | rfl | rfl | rfl <;>
    exact ⟨_, rfl, if_neg (ne_true_of_eq_false habsent)⟩

/-! ### RESET and CONSTRUCT -/

/-- The shadow after reset, byte by byte (70_reset_and_hazards.md R454). -/
theorem read_regAfterReset (f : Family) (n : Nat) :
    (regAfterReset f).read n =
      if n = 0x27 then 0x30
      else if f.hasLfoPan = true ∧ (0xB4 ≤ n ∧ n ≤ 0xB6 ∨ f.six = true ∧ 0x1B4 ≤ n ∧ n ≤ 0x1B6) then 0xC0
      else 0 := by
  cases f <;>
    simp only [regAfterReset, Family.hasLfoPan, Family.six, Bool.and_self, Bool.false_eq_true, if_true, if_false,
      List.cons_append, List.nil_append, Memory.read, Memory.unlisted] <;>
    grind

/-- Settles O31: RESET leaves what a construction leaves, by `Instance.reset_eq`. -/
theorem resetFromEveryState : Obligations.ResetFromEveryState := by
  intro s
  have hreset := s.self.reset_eq
  refine ⟨{ s with self := s.self.reset }, rfl, sameAround_self s _, ?_, fun c => ?_, ?_, ?_, fun n => ?_⟩ <;>
    dsimp only <;> rw [hreset]
  · exact ⟨rfl, rfl, rfl⟩
  · exact Six.get_fill Channel.initial c
  · rfl
  · rfl
  · exact read_regAfterReset s.self.cfg.family n

/-- A freshly constructed instance is one just reset (70_reset_and_hazards.md R451). -/
theorem Instance.reset_afterReset (cfg : Config) : (Instance.afterReset cfg).reset = Instance.afterReset cfg := by
  rw [Instance.reset_eq]
  rfl

/-- A construction with positive operands (70_reset_and_hazards.md R451). -/
theorem exec_construct_next (s : State) (f : Family) {n clock rate : Nat} (a b : Bool) (hn : 0 < n) (hclock : 0 < clock)
    (hrate : 0 < rate) :
    exec (.construct f n clock rate a b) s = .next { s with
      later := s.later ++ List.replicate n (Instance.afterReset (s.newConfig f clock rate))
      result := .handles (List.range' s.instances.length n) } := by
  rw [← Instance.reset_afterReset]
  exact if_neg (by omega)

theorem prescale_eq (f : Family) : f.prescale = if f = .ym2203 then 72 else 144 := by
  cases f <;> rfl

/-- Settles O30: the new instances come after the last one, and the handles are their positions. -/
theorem constructMakesResetInstances : Obligations.ConstructMakesResetInstances := by
  intro s f n clock rate a b hn hclock hrate
  refine ⟨_, _, exec_construct_next s f a b hn hclock hrate, rfl, ?_, List.length_range', List.nodup_range', fun h hh => ?_⟩
  · rw [State.newConfig, prescale_eq]
    simp [State.instances]
  · simp only [List.mem_range'_1, State.instances, List.length_append, List.length_cons, List.length_replicate] at hh ⊢
    omega

/-! ### The invariant -/

/-- Settles O15: the one instance of State.reset is a freshly reset one of a configuration in range. -/
theorem resetMeetsTheInvariant : Obligations.ResetMeetsTheInvariant := by
  refine ⟨⟨fun x hx => ?_, fun f => by cases f <;> exact ⟨Nat.le_refl 1, Nat.le_refl 1⟩⟩,
    fun cfg hnum hden hparams => Instance.afterReset_inv cfg ⟨hnum, hden⟩ hparams⟩
  obtain rfl : x = Instance.afterReset testConfig := List.mem_singleton.mp hx
  exact Instance.afterReset_inv _ (by decide) ⟨Nat.le_refl 1, Nat.le_refl 1⟩

/-- Replacing the instance operated on by one that meets the invariant. -/
theorem State.Inv.withSelf {s : State} (h : s.Inv) {x : Instance} (hx : x.Inv) (r : Result) (buf : List Sample) :
    ({ s with self := x, result := r, buf := buf }).Inv := by
  refine ⟨fun y hy => ?_, h.params_ok⟩
  rcases List.mem_append.mp hy with hy | hy
  · exact h.instances y (List.mem_append_left _ hy)
  · rcases List.mem_cons.mp hy with rfl | hy
    · exact hx
    · exact h.instances y (List.mem_append_right _ (List.mem_cons_of_mem _ hy))

/-- The prescaler is positive (40_tables.md R167). -/
theorem prescale_pos (f : Family) : 0 < f.prescale := by
  cases f <;> decide

/-- A reset instance meets the invariant if its configuration is in range (70_reset_and_hazards.md R450). -/
theorem Instance.Inv.reset {x : Instance} (h : x.Inv) : x.reset.Inv := by
  rw [Instance.reset_eq]
  exact (Instance.afterReset_inv x.cfg h.freq_pos h.params_ok).of_eq rfl rfl rfl rfl

/-- Constructed instances meet the invariant, so the machine does that holds them too. -/
theorem State.Inv.construct {s : State} (h : s.Inv) (f : Family) (n : Nat) {clock rate : Nat} (hclock : 0 < clock)
    (hrate : 0 < rate) (r : Result) :
    ({ s with
      later := s.later ++ List.replicate n (Instance.afterReset (s.newConfig f clock rate)).reset
      result := r }).Inv := by
  refine ⟨fun x hx => ?_, h.params_ok⟩
  have hx' : x ∈ s.instances ++ List.replicate n (Instance.afterReset (s.newConfig f clock rate)).reset := by
    simpa [State.instances] using hx
  rcases List.mem_append.mp hx' with hold | hnew
  · exact h.instances x hold
  · rw [(List.mem_replicate.mp hnew).2]
    exact (Instance.afterReset_inv (s.newConfig f clock rate) ⟨hclock, Nat.mul_pos hrate (prescale_pos f)⟩
      (h.params_ok f)).reset

/-- Every instruction keeps the invariant. -/
theorem State.Inv.exec {s t : State} (hs : s.Inv) {i : Instr} (h : exec i s = .next t) : t.Inv := by
  by_cases hi : isWrite i = true
  · obtain ⟨hlive, rfl⟩ := exec_write hi h
    exact hs.withSelf (hs.self.applyWrite i hlive) s.result s.buf
  · rcases exec_other (by simpa using hi) h with ⟨_, _, _, -, rfl⟩ | ⟨f, n, _, _, _, _, -, -, hclock, hrate, rfl⟩ |
      ⟨-, rfl⟩ | ⟨count, vp, lb, buf, -, -, -, rfl⟩ | ⟨_, -, rfl⟩ | ⟨-, rfl⟩ | ⟨bytes, -, -, rfl⟩
    · exact hs
    · exact hs.construct f n hclock hrate _
    · exact hs.withSelf hs.self.reset s.result s.buf
    · exact hs.withSelf ((hs.self.mixSteps vp lb count.toNat buf).timerBStep count.toNat) s.result _
    · exact hs.withSelf hs.self _ s.buf
    · exact hs.withSelf hs.self _ s.buf
    · exact hs.withSelf (hs.self.restore bytes) s.result s.buf

/-- Turning to an instance keeps the invariant: the instances are the same. -/
theorem State.Inv.focus {s t : State} (hs : s.Inv) {k : Nat} (h : s.focus k = some t) : t.Inv := by
  obtain ⟨-, hinst, -, hparams, -⟩ := State.focus_some h
  exact ⟨hinst ▸ hs.instances, hparams ▸ hs.params_ok⟩

/-- Settles O14: an idle step keeps the state; any other turns to an instance and runs an instruction there. -/
theorem stepKeepsTheInvariant : Obligations.StepKeepsTheInvariant := by
  intro s u hs hstep
  cases hp : s.pending with
  | nil =>
    rw [step_idle hp] at hstep
    cases hstep
    exact hs
  | cons q rest =>
    obtain ⟨t, i, hf, -, hexec⟩ := step_next hp hstep
    have hrest : ({ s with pending := rest }).Inv := ⟨hs.instances, hs.params_ok⟩
    exact (hrest.focus hf).exec hexec

end Sys2Proof.Machine
end

section
/-! PROOFS. RESTORE (46_channel_mix.md R375): the addresses it replays, in order, each with the array's byte; what no
replayed write changes; the shadow. -/

namespace Sys2Proof.Machine

/-! ### The addresses RESTORE replays -/

/-- A mapped address is one of the family's space (30_encoding.md R107). -/
theorem inSpace_of_mappedAt {f : Family} {a : BitVec 9} (h : mappedAt f a = true) : InSpace f a := fun hbank => by
  simp only [mappedAt, mapped, hbank, if_true, Bool.and_eq_true] at h
  exact h.1

/-- Whether RESTORE replays an address: it is mapped and not below 0x20 of its bank, nor 0x28 (46_channel_mix.md R375). -/
def isReplayed (f : Family) (a : BitVec 9) : Bool :=
  mappedAt f a && 0x20 ≤ a.toNat % 256 && a.toNat % 256 != 0x28

/-- The addresses RESTORE writes, in order: each replayed address, after its latch if it has one (46_channel_mix.md
R375). -/
def replayAddrs (f : Family) : List (BitVec 9) :=
  ((registerSpace f).filter (isReplayed f)).flatMap fun a => (if isFnumLow a then [a + 4] else []) ++ [a]

/-- The normal write path for a list of addresses, each with the array's byte. -/
def Instance.replay (bytes : List Byte) (l : List (BitVec 9)) (x : Instance) : Instance :=
  l.foldl (fun y a => y.write a (byteAt bytes a)) x

@[simp] theorem Instance.replay_nil (bytes : List Byte) (x : Instance) : x.replay bytes [] = x := rfl

@[simp] theorem Instance.replay_cons (bytes : List Byte) (a : BitVec 9) (l : List (BitVec 9)) (x : Instance) :
    x.replay bytes (a :: l) = (x.write a (byteAt bytes a)).replay bytes l := rfl

@[simp] theorem Instance.replay_append (bytes : List Byte) (l k : List (BitVec 9)) (x : Instance) :
    x.replay bytes (l ++ k) = (x.replay bytes l).replay bytes k :=
  List.foldl_append

/-- RESTORE is its first loop and the replay of those addresses (46_channel_mix.md R375). -/
theorem Instance.restore_eq (x : Instance) (bytes : List Byte) :
    x.restore bytes = (x.restoreShadow bytes).replay bytes (replayAddrs x.cfg.family) := by
  have hlist : x.replayed = (registerSpace x.cfg.family).filter (isReplayed x.cfg.family) :=
    List.filter_congr fun a ha => by rw [x.isMapped_eq a ((mem_registerSpace _ _).mp ha)]; rfl
  have hblock (a : BitVec 9) : replayAt bytes a =
      ((if isFnumLow a then [a + 4] else []) ++ [a]).map fun b => (b, byteAt bytes b) := by
    rw [replayAt]; split <;> rfl
  rw [Instance.restore, Instance.writes, hlist, replayAddrs, Instance.replay, funext hblock, ← List.map_flatMap,
    List.foldl_map]

/-- A latch address is not a key write's (20_memory.md R84). -/
theorem latch_isReplayed {f : Family} {a : BitVec 9} (hlow : isFnumLow a = true) (h : isReplayed f a = true) :
    isReplayed f (a + 4) = true := by
  have hrange : ∀ a : BitVec 9, isFnumLow a = true → 0x20 ≤ (a + 4).toNat % 256 ∧ (a + 4).toNat % 256 ≠ 0x28 :=
    bitVec_forall (by decide +kernel)
  simp only [isReplayed, Bool.and_eq_true, decide_eq_true_eq, bne_iff_ne] at h ⊢
  obtain ⟨⟨hm, -⟩, -⟩ := h
  exact ⟨⟨(latch_address a hlow).2 f (inSpace_of_mappedAt hm) hm, (hrange a hlow).1⟩, (hrange a hlow).2⟩

/-- The addresses RESTORE writes are the replayed ones: a latch is one of them. -/
theorem mem_replayAddrs {f : Family} {a : BitVec 9} : a ∈ replayAddrs f ↔ isReplayed f a = true := by
  rw [replayAddrs, List.mem_flatMap]
  constructor
  · rintro ⟨b, hb, hab⟩
    have hb := (List.mem_filter.mp hb).2
    rcases List.mem_append.mp hab with hab | hab
    · split at hab
      next hlow => exact List.mem_singleton.mp hab ▸ latch_isReplayed hlow hb
      next => cases hab
    · exact List.mem_singleton.mp hab ▸ hb
  · intro h
    have hm : mappedAt f a = true := by
      simp only [isReplayed, Bool.and_eq_true] at h
      exact h.1.1
    exact ⟨a, List.mem_filter.mpr ⟨(mem_registerSpace f a).mpr (inSpace_of_mappedAt hm), h⟩, by simp⟩

/-! ### What a replayed write is -/

/-- A register write that RESTORE may replay: of the family, mapped, with the array's byte, and no key write. -/
structure Replayable (f : Family) (bytes : List Byte) (i : Instr) : Prop where
  wf : i.wf f.six f.hasLfoPan = true
  notIgnored : isIgnored i = false
  byte : ∃ a, i.addressData = some (a, byteAt bytes a) ∧ mappedAt f a = true
  notKey : ∀ data, i ≠ .keyOnOff data

/-- Each address RESTORE writes decodes to such a write. -/
theorem replayable_decodeAt {x : Instance} {a : BitVec 9} (bytes : List Byte) (h : a ∈ replayAddrs x.cfg.family) :
    Replayable x.cfg.family bytes (x.decodeAt a (byteAt bytes a)) := by
  have h := mem_replayAddrs.mp h
  simp only [isReplayed, Bool.and_eq_true, decide_eq_true_eq, bne_iff_ne] at h
  obtain ⟨⟨hm, -⟩, hkey⟩ := h
  have hspace := inSpace_of_mappedAt hm
  obtain ⟨hwf, hbyte⟩ := decodeRegister_addressData x.cfg.family.six x.cfg.family.hasLfoPan (a.getLsbD 8)
    (a.extractLsb' 0 8) (byteAt bytes a) hspace
  rw [address_split] at hbyte
  refine ⟨hwf, ?_, ⟨a, hbyte, hm⟩, fun data hi => ?_⟩
  · rw [Instance.decodeAt, isIgnored_decodeRegister _ _ _ _ _ hspace]
    exact (Bool.not_eq_false' ..).mpr hm
  · rw [Instance.decodeAt] at hi
    rw [hi] at hbyte
    obtain ⟨rfl, -⟩ := Prod.mk.injEq .. ▸ Option.some.inj hbyte
    exact hkey rfl

@[simp] theorem Instance.replay_cfg (x : Instance) (bytes : List Byte) (l : List (BitVec 9)) :
    (x.replay bytes l).cfg = x.cfg := by
  induction l generalizing x with
  | nil => rfl
  | cons a l ih => exact (ih _).trans (x.write_cfg a _)

/-- What every replayable write keeps, a replay keeps. -/
theorem Instance.replay_induction {P : Instance → Prop} {bytes : List Byte} {l : List (BitVec 9)} {x : Instance}
    (hl : ∀ a ∈ l, a ∈ replayAddrs x.cfg.family) (hx : P x)
    (hstep : ∀ y i, y.cfg = x.cfg → Replayable x.cfg.family bytes i → P y → P (y.applyWrite i)) :
    P (x.replay bytes l) := by
  induction l generalizing x with
  | nil => exact hx
  | cons a l ih =>
    have ha := hl a List.mem_cons_self
    have hcfg : (x.write a (byteAt bytes a)).cfg = x.cfg := x.write_cfg a _
    refine ih (x := x.write a (byteAt bytes a)) (fun b hb => ?_) (hstep x _ rfl (replayable_decodeAt bytes ha) hx) ?_
    · rw [hcfg]; exact hl b (List.mem_cons_of_mem a hb)
    · rw [hcfg]; exact hstep

/-! ### What RESTORE leaves unchanged -/

theorem SameOperatorMotion.trans {o p q : Operator} (h : SameOperatorMotion o p) (h' : SameOperatorMotion p q) :
    SameOperatorMotion o q :=
  ⟨h'.phase.trans h.phase, h'.incr.trans h.incr, h'.ksrVal.trans h.ksrVal, h'.state.trans h.state,
    h'.volume.trans h.volume, h'.volOut.trans h.volOut, h'.key.trans h.key, h'.ssgInv.trans h.ssgInv,
    h'.ssgSwapped.trans h.ssgSwapped⟩

/-- A replay leaves the running state of every operator: none of its writes is a key write. -/
theorem Instance.replay_sameMotion {x : Instance} (bytes : List Byte) {l : List (BitVec 9)}
    (hl : ∀ a ∈ l, a ∈ replayAddrs x.cfg.family) : SameMotion x (x.replay bytes l) :=
  Instance.replay_induction hl (fun _ _ => SameOperatorMotion.refl _)
    fun y _ _ hi hy c n => (hy c n).trans (y.applyWrite_sameMotion hi.notKey c n)

/-- RESTORE leaves the running state of every operator (46_channel_mix.md R375). -/
theorem Instance.restore_sameMotion (x : Instance) (bytes : List Byte) : SameMotion x (x.restore bytes) := by
  rw [Instance.restore_eq, Instance.restoreShadow_rest]
  exact Instance.replay_sameMotion (x := { x with reg := (x.restoreShadow bytes).reg }) bytes fun _ ha => ha

end Sys2Proof.Machine
end

section
/-! PROOFS. The envelope's own derivations: the volume is monotone and the states change in one direction only
(44_envelope.md R295 to R297). -/

namespace Sys2Proof.Machine

/-! ### The volume of each state's branch -/

section
variable {p : FamilyParams} {t : BitVec 32} {o : Operator}

/-- The attack never raises the volume (44_envelope.md R296). -/
theorem Operator.egBranch_volume_le_of_att (hs : o.state = .att) : (o.egBranch p t).volume ≤ o.volume := by
  rw [Operator.egBranch_att hs]
  rcases o.attackStep_cases p t with e | e | ⟨-, v, -, hv, e⟩ <;> rw [e]
  · exact Nat.zero_le _
  · exact hv

/-- The sustain never lowers the volume, and loops back to ATT from the quiet threshold on only (44_envelope.md R284 to
R286). -/
theorem Operator.egBranch_of_sus (hs : o.state = .sus) (hv : o.volume ≤ 1023) :
    o.volume ≤ (o.egBranch p t).volume ∧ ((o.egBranch p t).state = .att → 832 ≤ (o.egBranch p t).volume) := by
  rcases Nat.lt_or_ge o.ssg.toNat 8 with hssg | hssg
  · rw [Operator.egBranch_sus hs hssg]
    obtain ⟨v, hle, -, e⟩ := o.sustainStep_cases p t hv
    rw [e]
    exact ⟨hle, fun hatt => absurd (hs.symm.trans hatt) nofun⟩
  · rw [Operator.egBranch_susSsg hs hssg]
    obtain ⟨v, hle, hmax, ⟨-, e⟩ | ⟨hquiet, e⟩⟩ := o.sustainSsgStep_cases p t hv <;> rw [e]
    · exact ⟨hle, fun hatt => absurd (hs.symm.trans hatt) nofun⟩
    · rcases Operator.ssgEvent_cases { o with volume := v } with ⟨-, _, e'⟩ | ⟨-, _, e'⟩ <;> rw [e']
      · exact ⟨hv, fun _ => show 832 ≤ 1023 by decide⟩
      · exact ⟨hle, fun _ => hquiet⟩

/-- No state but ATT lowers the volume (44_envelope.md R296). -/
theorem Operator.le_egBranch_volume (hs : o.state ≠ .att) (hv : o.volume ≤ 1023) :
    o.volume ≤ (o.egBranch p t).volume := by
  cases h : o.state with
  | att => exact absurd h hs
  | sus => exact (Operator.egBranch_of_sus h hv).1
  | off => rw [Operator.egBranch_off h]
  | rel =>
    rw [Operator.egBranch_rel h]
    rcases o.releaseStep_cases p t hv with e | ⟨v, hle, -, e⟩ <;> rw [e]
    exact hle
  | dec =>
    rw [Operator.egBranch_dec h]
    obtain ⟨v, _, hle, -, -, -, e⟩ := o.decayStep_cases p t hv
    rw [e]
    exact hle

end

/-- Settles O44: the step has the volume and the state of its branch. -/
theorem volumeIsMonotone : Obligations.VolumeIsMonotone := fun p t _ hv =>
  ⟨Operator.egBranch_volume_le p t hv, Operator.egBranch_volume_le_of_att, fun hs => Operator.le_egBranch_volume hs hv,
    fun hs => (Operator.egBranch_of_sus hs hv).2⟩

/-! ### The state transitions -/

/-- The decay ends in SUS or stays (44_envelope.md R283). -/
theorem Operator.decayStep_state (p : FamilyParams) (t : BitVec 32) (o : Operator) :
    (o.decayStep p t).state = .sus ∨ (o.decayStep p t).state = .dec :=
  ite_eq_or_eq ..

/-- The sustain with SSG-EG stays or loops to ATT (44_envelope.md R285, R286). -/
theorem Operator.sustainSsgStep_state (p : FamilyParams) (t : BitVec 32) {o : Operator} (hs : o.state = .sus) :
    (o.sustainSsgStep p t).state = .sus ∨ (o.sustainSsgStep p t).state = .att := by
  unfold Operator.sustainSsgStep
  dsimp only
  generalize (if egGate (o.index .sus) t then _ else o.volume) = v
  by_cases hv : ssgQuiet ≤ v
  · rw [if_pos hv]
    rcases Operator.ssgEvent_cases { o with volume := v } with ⟨-, _, e⟩ | ⟨-, _, e⟩ <;> rw [e]
    · exact .inl hs
    · exact ite_eq_or_eq ..
  · rw [if_neg hv]
    exact .inl hs

/-- The release ends in OFF or stays (44_envelope.md R288). -/
theorem Operator.releaseStep_state (p : FamilyParams) (t : BitVec 32) {o : Operator} (hs : o.state = .rel) :
    (o.releaseStep p t).state = .off ∨ (o.releaseStep p t).state = .rel := by
  by_cases hgate : gateOpen (o.index .rel) t
  · rw [Operator.releaseStep_open hgate]
    exact ite_eq_or_eq ..
  · rw [Operator.releaseStep_closed hgate]
    exact .inr hs

/-- A branch keeps the state or takes it one step on (44_envelope.md R297). -/
theorem Operator.egBranch_state (p : FamilyParams) (t : BitVec 32) (o : Operator) :
    (o.egBranch p t).state = o.state
      ∨ (o.state, (o.egBranch p t).state) ∈ [(EgState.att, EgState.dec), (.dec, .sus), (.sus, .att), (.rel, .off)] := by
  cases h : o.state with
  | off => exact .inl (by rw [Operator.egBranch_off h, h])
  | att =>
    rw [Operator.egBranch_att h]
    rcases o.attackStep_cases p t with e | e | ⟨-, v, -, -, e⟩ <;> rw [e]
    · simp
    · exact .inl h
    · exact .inl h
  | dec =>
    rw [Operator.egBranch_dec h]
    rcases o.decayStep_state p t with e | e <;> simp [e]
  | sus =>
    rcases Nat.lt_or_ge o.ssg.toNat 8 with hssg | hssg
    · rw [Operator.egBranch_sus h hssg, Operator.sustainStep_eq]
      exact .inl h
    · rw [Operator.egBranch_susSsg h hssg]
      rcases Operator.sustainSsgStep_state p t h with e | e <;> simp [e]
  | rel =>
    rw [Operator.egBranch_rel h]
    rcases Operator.releaseStep_state p t h with e | e <;> simp [e]

/-- An operator whose key is not held is in REL or OFF (44_envelope.md R298). -/
theorem EgState.of_not_pastRel {e : EgState} (h : e.pastRel = false) : e = .rel ∨ e = .off := by
  cases e <;> simp_all

/-- Settles O45: the branches; the two key events; no other instruction touches the state, by the frames of the register
writes and of RESTORE. -/
theorem stateTransitions : Obligations.StateTransitions := by
  refine ⟨fun p t o => (o.egBranch_state p t).resolve_left, fun p o hinv => ⟨fun hne => ?_, fun hne => ?_⟩,
    fun i s t c n hgen hreset h hne => ?_⟩
  · cases hkey : o.key with
    | true => exact absurd (by rw [o.keyOn_held p hkey]) hne
    | false =>
      have hfree := EgState.of_not_pastRel (hinv.key_iff.symm.trans hkey)
      rcases o.keyOn_cases p hkey with ⟨-, e⟩ | ⟨-, e⟩ <;> rw [e] <;> rcases hfree with hs | hs <;> simp [hs]
  · cases hkey : o.key with
    | false => exact absurd (by rw [o.keyOff_free hkey]) hne
    | true =>
      have hpast := hinv.key_iff.symm.trans hkey
      rw [o.keyOff_held hkey, if_pos hpast]
      rcases o.state.pastRel_iff.mp hpast with hs | hs | hs <;> simp [hs]
  · by_cases hi : isWrite i = true
    · obtain ⟨-, rfl⟩ := exec_write hi h
      by_cases hkey : ∃ data, i = .keyOnOff data
      · obtain ⟨data, rfl⟩ := hkey
        exact ⟨data, rfl, (s.self.op_writeKeyOnOff data c n).resolve_left fun e => hne (congrArg Operator.state e)⟩
      · exact absurd (s.self.applyWrite_sameMotion (fun data e => hkey ⟨data, e⟩) c n).state hne
    · rcases exec_other (by simpa using hi) h with ⟨_, _, _, -, rfl⟩ | ⟨_, _, _, _, _, _, -, -, -, -, rfl⟩ |
        ⟨hr, -⟩ | ⟨_, _, _, _, rfl, -⟩ | ⟨_, -, rfl⟩ | ⟨-, rfl⟩ | ⟨bytes, -, -, rfl⟩
      · exact absurd rfl hne
      · exact absurd rfl hne
      · exact absurd hr hreset
      · cases hgen
      · exact absurd rfl hne
      · exact absurd rfl hne
      · exact absurd (s.self.restore_sameMotion bytes c n).state hne

end Sys2Proof.Machine
end

section
/-! PROOFS. The spec's own derivations on the phase generator and the mix: the refresh depends on registers only
(45_phase_lfo.md R329), the PM table (40_tables.md R164), and quiet operators (40_tables.md R145). -/

namespace Sys2Proof.Machine

/-! ### The refresh -/

/-- The frequency of an operator depends on the mode, the 3-slot entries and the channel's own frequency (45_phase_lfo.md
R326). -/
theorem Chip.freq_congr {k l : Chip} {h m : Channel} (c : Chan) (n : OpNum) (hmode : l.mode = k.mode)
    (hsl3 : ∀ e, l.sl3 e = k.sl3 e) (hreg : SameChannelRegisters h m) : l.freq c m n = k.freq c h n := by
  have hactive : l.slot3Active = k.slot3Active := by simp only [Chip.slot3Active, hmode]
  cases n <;> simp only [Chip.freq, slot3Entry, hactive, hsl3, hreg.fnum, hreg.blk, hreg.kcode]

/-- What the refresh computes for an operator depends on its register fields (45_phase_lfo.md R328). -/
theorem Operator.refresh_congr {o p : Operator} (g : Config) (q : Freq) (h : SameOperatorRegisters o p) :
    (p.refresh g q).incr = (o.refresh g q).incr ∧ (p.refresh g q).ksrVal = (o.refresh g q).ksrVal := by
  simp only [Operator.refresh, Operator.increment, Operator.mul2, h.dt, h.mul, h.ks, and_self]

/-- A refreshed operator refreshed again from the same frequency stays. -/
theorem Operator.refresh_refresh (g : Config) (q : Freq) (o : Operator) :
    (o.refresh g q).refresh g q = o.refresh g q := rfl

/-- Settles O47: the same frequencies and register fields give the same values; the second refresh starts from the same
ones. -/
theorem refreshDependsOnRegistersOnly : Obligations.RefreshDependsOnRegistersOnly := by
  intro g k l c h m hh hm hreg hops hmode hsl3
  rw [Channel.refresh_of_dirty hh, Channel.refresh_of_dirty hm]
  refine ⟨fun n => ?_, ?_⟩
  · simp only [Quad.get_tabulate, Chip.freq_congr c n hmode hsl3 hreg]
    exact Operator.refresh_congr g _ (hops n)
  · rw [Channel.refresh_of_dirty rfl]
    have hfreq (n : OpNum) (q : Quad Operator) : k.freq c { h with ops := q, dirty := true } n = k.freq c h n :=
      Chip.freq_congr c n rfl (fun _ => rfl) ⟨rfl, rfl, rfl, rfl, rfl, rfl, rfl, rfl, rfl⟩
    simp only [Channel.markDirty, hfreq, Quad.get_tabulate, Operator.refresh_refresh]

/-! ### The PM table -/

/-- A sum of seeds is at most 190, and at most twice the frequency number's upper bits times 16 (40_tables.md R164). -/
theorem pmSum_le {s : Nat} (hs : s < 8) (f : BitVec 7) (d : BitVec 3) :
    pmSum f d s ≤ 190 ∧ pmSum f d s ≤ 2 * f.toNat := by
  have key : ∀ f : BitVec 7, ∀ d : BitVec 3, ∀ s < 8, pmSum f d s ≤ 190 ∧ pmSum f d s ≤ 2 * f.toNat :=
    bitVec_forall fun f => bitVec_forall (by revert f; decide +kernel)
  exact key f d s hs

/-- The seeds of the first two steps are 0 (40_tables.md R164). -/
theorem pmSum_start (f : BitVec 7) (d : BitVec 3) : pmSum f d 0 = 0 ∧ pmSum f d 1 = 0 := by
  revert d
  refine bitVec_forall ?_
  revert f
  exact bitVec_forall (by decide +kernel)

/-- Every entry of the PM table is a sum of seeds or its negation (40_tables.md R163). -/
theorem pmTab_cases {t : Nat} (ht : t < 32) (f : BitVec 7) (d : BitVec 3) :
    ∃ s, s < 8 ∧ (pmTab f d t = pmSum f d s ∨ pmTab f d t = -(pmSum f d s : Int)) := by
  unfold pmTab
  split_ifs
  · exact ⟨t, by omega, .inl rfl⟩
  · exact ⟨15 - t, by omega, .inl rfl⟩
  · exact ⟨t - 16, by omega, .inr rfl⟩
  · exact ⟨31 - t, by omega, .inr rfl⟩

/-- The second half of the cycle is the first negated (40_tables.md R163). -/
theorem pmTab_half {t : Nat} (ht : t < 16) (f : BitVec 7) (d : BitVec 3) : pmTab f d (t + 16) = -pmTab f d t := by
  by_cases h : t < 8
  · rw [pmTab, pmTab, if_neg (by omega), if_neg (by omega), if_pos (by omega), if_pos h, Nat.add_sub_cancel]
  · rw [pmTab, pmTab, if_neg (by omega), if_neg (by omega), if_neg (by omega), if_neg h, if_pos ht,
      show 31 - (t + 16) = 15 - t by omega]

/-- An entry of the PM table is within 190 and within twice the row (40_tables.md R164). -/
theorem pmTab_bounds {t : Nat} (ht : t < 32) (f : BitVec 7) (d : BitVec 3) :
    -190 ≤ pmTab f d t ∧ pmTab f d t ≤ 190 ∧ -(2 * f.toNat : Int) ≤ pmTab f d t ∧ pmTab f d t ≤ 2 * f.toNat := by
  obtain ⟨s, hs, e | e⟩ := pmTab_cases ht f d <;>
    obtain ⟨hmax, hrow⟩ := pmSum_le hs f d <;>
    omega

/-- The row of the PM table is the frequency number's upper seven bits (45_phase_lfo.md R334). -/
theorem fnum_row_toNat (f : BitVec 11) : (f.extractLsb' 4 7).toNat = f.toNat / 16 := by
  rw [BitVec.extractLsb'_toNat, Nat.shiftRight_eq_div_pow]
  omega

/-- The largest frequency with the largest offset loses its carry (45_phase_lfo.md R335). -/
theorem pmFrequency_max (kc : BitVec 5) : pmFrequency ⟨2047, 7, kc⟩ 190 = BitVec.ofNat 15 0x0BC := by
  have h : BitVec.ofInt 15 (2 * (((7 : BitVec 3).toNat : Int) * 2048 + (2047 : BitVec 11).toNat) + 190)
      = BitVec.ofNat 15 0x0BC := by decide +kernel
  exact h

/-- Settles O50: every entry is a sum of seeds or its negation, and the sums are bounded by the finite table. -/
theorem pmOffsetProperties : Obligations.PmOffsetProperties := by
  refine ⟨fun f d t ht => by rw [pmTab_half ht, neg_neg], fun f d t ht => ?_, fun f d t ht => ?_,
    fun q pms t ht => ?_, pmFrequency_max⟩
  · obtain ⟨h0, h1⟩ := pmSum_start f d
    simp only [List.mem_cons, List.not_mem_nil, or_false] at ht
    rcases ht with rfl | rfl | rfl | rfl | rfl | rfl | rfl | rfl <;> simp [pmTab, h0, h1]
  · obtain ⟨hlo, hhi, -, -⟩ := pmTab_bounds ht f d
    exact ⟨hlo, hhi⟩
  · obtain ⟨-, hmax, hlo, hhi⟩ := pmTab_bounds ht (q.fnum.extractLsb' 4 7) pms
    rw [fnum_row_toNat] at hlo hhi
    have hf := q.fnum.isLt
    have hb := q.blk.isLt
    unfold pmOffset
    omega

/-! ### Quiet operators -/

/-- From the quiet threshold on the lookup is past its table (40_tables.md R145). -/
theorem opOut_quiet {env : Nat} (h : 832 ≤ env) (i : Int) : opOut env i = 0 :=
  if_pos (show 6656 ≤ env * 8 + sinWave (BitVec.ofInt 10 i) by omega)

/-- A sample in numbers lies in the range of `TL` (46_channel_mix.md R362). -/
theorem heardSample_range (lfoAm : Nat) (h : Channel) (n : OpNum) (offset : Int) :
    -8168 ≤ heardSample lfoAm h n offset ∧ heardSample lfoAm h n offset ≤ 8168 := by
  rw [← Channel.opSample_eq_heardSample]
  exact h.opSample_range lfoAm n offset

/-- Settles O52: under each algorithm the output is a sum of at most four samples, one of them operator 1's previous
output. -/
theorem quietOperatorsAreSilent : Obligations.QuietOperatorsAreSilent := by
  refine ⟨fun env i h => opOut_quiet h i, tlLookup_range, fun x c hlo hhi => ?_⟩
  by_cases hlive : x.live c = true
  · obtain ⟨a0, a1, a2, a3, a4, a5, a6, a7, -⟩ := algorithmRouting x c hlive
    have hs := heardSample_range x.chip.lfoAm (x.ch c)
    have halgo := (x.ch c).algo.isLt
    obtain h | h | h | h | h | h | h | h : (x.ch c).algo.toNat = 0 ∨ (x.ch c).algo.toNat = 1 ∨ (x.ch c).algo.toNat = 2
        ∨ (x.ch c).algo.toNat = 3 ∨ (x.ch c).algo.toNat = 4 ∨ (x.ch c).algo.toNat = 5 ∨ (x.ch c).algo.toNat = 6
        ∨ (x.ch c).algo.toNat = 7 := by omega
    · rw [(a0 h).2]; grind
    · rw [(a1 h).2]; grind
    · rw [(a2 h).2]; grind
    · rw [(a3 h).2]; grind
    · rw [(a4 h).2]; grind
    · rw [(a5 h).2]; grind
    · rw [(a6 h).2]; grind
    · rw [(a7 h).2]; grind
  · rw [Instance.get_outputs, if_neg hlive]
    omega

end Sys2Proof.Machine
end

section
/-! PROOFS. What sample steps leave unchanged: every register field, the shadow, the configuration, the absent channels
and the events before (10_state.md R30, R32, R40; 20_memory.md R81). -/

namespace Sys2Proof.Machine

/-! ### Register fields -/

theorem SameOperatorRegisters.refl (o : Operator) : SameOperatorRegisters o o :=
  ⟨rfl, rfl, rfl, rfl, rfl, rfl, rfl, rfl, rfl, rfl, rfl⟩

theorem SameOperatorRegisters.trans {o p q : Operator} (h : SameOperatorRegisters o p) (h' : SameOperatorRegisters p q) :
    SameOperatorRegisters o q :=
  ⟨h'.dt.trans h.dt, h'.mul.trans h.mul, h'.tl.trans h.tl, h'.ks.trans h.ks, h'.ar.trans h.ar, h'.am.trans h.am,
    h'.d1r.trans h.d1r, h'.d2r.trans h.d2r, h'.sl.trans h.sl, h'.rr.trans h.rr, h'.ssg.trans h.ssg⟩

theorem SameChannelRegisters.refl (h : Channel) : SameChannelRegisters h h :=
  ⟨rfl, rfl, rfl, rfl, rfl, rfl, rfl, rfl, rfl⟩

theorem SameChannelRegisters.trans {h k m : Channel} (h₁ : SameChannelRegisters h k) (h₂ : SameChannelRegisters k m) :
    SameChannelRegisters h m :=
  ⟨h₂.algo.trans h₁.algo, h₂.fb.trans h₁.fb, h₂.fnum.trans h₁.fnum, h₂.blk.trans h₁.blk, h₂.kcode.trans h₁.kcode,
    h₂.pms.trans h₁.pms, h₂.ams.trans h₁.ams, h₂.panL.trans h₁.panL, h₂.panR.trans h₁.panR⟩

theorem SameChipRegisters.refl (k : Chip) : SameChipRegisters k k :=
  ⟨rfl, rfl, fun _ => rfl, rfl, rfl, rfl, rfl⟩

theorem SameChipRegisters.trans {k l m : Chip} (h : SameChipRegisters k l) (h' : SameChipRegisters l m) :
    SameChipRegisters k m :=
  ⟨h'.fnH.trans h.fnH, h'.sl3FnH.trans h.sl3FnH, fun e => (h'.sl3 e).trans (h.sl3 e), h'.mode.trans h.mode,
    h'.ta.trans h.ta, h'.tb.trans h.tb, h'.lfoInc.trans h.lfoInc⟩

/-- A channel and its operators have the same register fields. -/
def SameRegisters (h k : Channel) : Prop :=
  SameChannelRegisters h k ∧ ∀ n, SameOperatorRegisters (h.ops.get n) (k.ops.get n)

theorem SameRegisters.refl (h : Channel) : SameRegisters h h :=
  ⟨SameChannelRegisters.refl h, fun _ => SameOperatorRegisters.refl _⟩

theorem SameRegisters.trans {h k m : Channel} (h₁ : SameRegisters h k) (h₂ : SameRegisters k m) : SameRegisters h m :=
  ⟨h₁.1.trans h₂.1, fun n => (h₁.2 n).trans (h₂.2 n)⟩

/-- Changing the operators of a channel, each keeping its register fields. -/
theorem SameRegisters.withOps (h : Channel) {f : OpNum → Operator}
    (hf : ∀ n, SameOperatorRegisters (h.ops.get n) (f n)) : SameRegisters h { h with ops := Quad.tabulate f } :=
  ⟨⟨rfl, rfl, rfl, rfl, rfl, rfl, rfl, rfl, rfl⟩, fun n => by rw [Quad.get_tabulate]; exact hf n⟩

/-! ### Key events and envelope steps -/

theorem Operator.keyOn_sameRegisters (p : FamilyParams) (o : Operator) : SameOperatorRegisters o (o.keyOn p) := by
  cases hkey : o.key
  · rcases o.keyOn_cases p hkey with ⟨-, e⟩ | ⟨-, e⟩ <;> rw [e] <;>
      exact ⟨rfl, rfl, rfl, rfl, rfl, rfl, rfl, rfl, rfl, rfl, rfl⟩
  · rw [o.keyOn_held p hkey]
    exact SameOperatorRegisters.refl o

theorem Operator.keyOff_sameRegisters (o : Operator) : SameOperatorRegisters o o.keyOff := by
  cases hkey : o.key
  · rw [o.keyOff_free hkey]
    exact SameOperatorRegisters.refl o
  · rw [o.keyOff_held hkey]
    exact ⟨rfl, rfl, rfl, rfl, rfl, rfl, rfl, rfl, rfl, rfl, rfl⟩

theorem Operator.csmKey_sameRegisters (p : FamilyParams) (o : Operator) : SameOperatorRegisters o (o.csmKey p) := by
  unfold Operator.csmKey
  split
  · exact SameOperatorRegisters.refl o
  · exact (o.keyOn_sameRegisters p).trans (o.keyOn p).keyOff_sameRegisters

theorem Operator.egStep_sameRegisters (p : FamilyParams) (t : BitVec 32) (o : Operator) :
    SameOperatorRegisters o (o.egStep p t) := by
  obtain ⟨_, _, _, _, _, _, e⟩ := o.egStep_form p t
  rw [e]
  exact ⟨rfl, rfl, rfl, rfl, rfl, rfl, rfl, rfl, rfl, rfl, rfl⟩

theorem Channel.egStep_sameRegisters (p : FamilyParams) (t : BitVec 32) (h : Channel) :
    SameRegisters h (h.egStep p t) :=
  SameRegisters.withOps h fun n => (h.ops.get n).egStep_sameRegisters p t

theorem Channel.refresh_sameRegisters (g : Config) (k : Chip) (c : Chan) (h : Channel) :
    SameRegisters h (h.refresh g k c) := by
  cases hdirty : h.dirty
  · rw [Channel.refresh_of_clean hdirty]
    exact SameRegisters.refl h
  · rw [Channel.refresh_of_dirty hdirty]
    exact ⟨⟨rfl, rfl, rfl, rfl, rfl, rfl, rfl, rfl, rfl⟩, fun n => by
      rw [Quad.get_tabulate]
      exact ⟨rfl, rfl, rfl, rfl, rfl, rfl, rfl, rfl, rfl, rfl, rfl⟩⟩

theorem Channel.calc_sameRegisters (am : Nat) (g : Config) (k : Chip) (c : Chan) (h : Channel) :
    SameRegisters h ((h.afterCalc am).phaseAdvance g k c) :=
  ⟨⟨rfl, rfl, rfl, rfl, rfl, rfl, rfl, rfl, rfl⟩, fun n => by
    rw [Channel.phaseAdvance_ops, Quad.get_tabulate]
    exact ⟨rfl, rfl, rfl, rfl, rfl, rfl, rfl, rfl, rfl, rfl, rfl⟩⟩

theorem Chip.lfoAdvance_sameRegisters (k : Chip) : SameChipRegisters k k.lfoAdvance :=
  ⟨k.lfoAdvance_fnH, k.lfoAdvance_sl3FnH, fun e => by cases e <;> simp [Chip.sl3], k.lfoAdvance_mode, k.lfoAdvance_ta,
    k.lfoAdvance_tb, k.lfoAdvance_lfoInc⟩

/-! ### The frame -/

/-- `y` has the configuration, the shadow, the register fields, the absent channels and the events of `x`, and perhaps
more events. -/
structure GenerateFramed (x y : Instance) : Prop where
  cfg : y.cfg = x.cfg
  reg : y.reg = x.reg
  chans : ∀ c, SameRegisters (x.ch c) (y.ch c)
  chip : SameChipRegisters x.chip y.chip
  absent : ∀ c, x.live c = false → y.ch c = x.ch c
  events : x.events <+: y.events

section
variable {x y z : Instance}

theorem GenerateFramed.trans (h : GenerateFramed x y) (h' : GenerateFramed y z) : GenerateFramed x z where
  cfg := h'.cfg.trans h.cfg
  reg := h'.reg.trans h.reg
  chans := fun c => (h.chans c).trans (h'.chans c)
  chip := h.chip.trans h'.chip
  absent := fun c hc => (h'.absent c (by rw [Instance.live, h.cfg]; exact hc)).trans (h.absent c hc)
  events := h.events.trans h'.events

/-- A change outside the channels that keeps the chip record's register fields. -/
theorem GenerateFramed.of_chans (hcfg : y.cfg = x.cfg) (hreg : y.reg = x.reg) (hchans : y.chans = x.chans)
    (hchip : SameChipRegisters x.chip y.chip) (hevents : x.events <+: y.events) : GenerateFramed x y where
  cfg := hcfg
  reg := hreg
  chans := fun c => by rw [Instance.ch, Instance.ch, hchans]; exact SameRegisters.refl _
  chip := hchip
  absent := fun c _ => by rw [Instance.ch, Instance.ch, hchans]
  events := hevents

theorem GenerateFramed.refl (x : Instance) : GenerateFramed x x :=
  GenerateFramed.of_chans rfl rfl rfl (SameChipRegisters.refl _) List.prefix_rfl

/-- A change of every channel the family has that keeps their register fields. -/
theorem GenerateFramed.mapLive {f : Chan → Channel → Channel} (hf : ∀ c, SameRegisters (x.ch c) (f c (x.ch c))) :
    GenerateFramed x (x.mapLive f) where
  cfg := rfl
  reg := rfl
  chans := fun c => by
    rw [Instance.ch_mapLive]
    split
    · exact hf c
    · exact SameRegisters.refl _
  chip := SameChipRegisters.refl _
  absent := fun c hc => by rw [Instance.ch_mapLive, if_neg (ne_true_of_eq_false hc)]
  events := List.prefix_rfl

/-! ### Sample steps -/

theorem GenerateFramed.prepared (x : Instance) : GenerateFramed x x.prepared :=
  (GenerateFramed.mapLive fun c => (x.ch c).refresh_sameRegisters x.cfg x.chip c).trans
    (GenerateFramed.of_chans rfl rfl rfl x.chip.lfoAdvance_sameRegisters List.prefix_rfl)

theorem GenerateFramed.chanCalc (x : Instance) : GenerateFramed x x.chanCalc :=
  GenerateFramed.mapLive fun c => (x.ch c).calc_sameRegisters x.chip.lfoAm x.cfg x.chip c

/-- Setting the envelope clock keeps every register field. -/
theorem GenerateFramed.setClock (x : Instance) (timer : Nat) (cnt : BitVec 32) :
    GenerateFramed x { x with chip := { x.chip with egTimer := timer, egCnt := cnt } } :=
  GenerateFramed.of_chans rfl rfl rfl ⟨rfl, rfl, fun e => by cases e <;> rfl, rfl, rfl, rfl, rfl⟩ List.prefix_rfl

theorem GenerateFramed.egTick (x : Instance) : GenerateFramed x x.egTick :=
  (GenerateFramed.setClock x x.chip.egTimer (x.chip.egCnt + 1)).trans
    (GenerateFramed.mapLive (f := fun _ h => h.egStep x.cfg.params (x.chip.egCnt + 1)) fun c =>
      (x.ch c).egStep_sameRegisters _ _)

theorem GenerateFramed.egTicks (n : Nat) (x : Instance) : GenerateFramed x (Instance.egTicks n x) := by
  induction n generalizing x with
  | zero => exact GenerateFramed.refl x
  | succ n ih => exact (GenerateFramed.egTick x).trans (ih x.egTick)

theorem GenerateFramed.egClock (x : Instance) : GenerateFramed x x.egClock :=
  (GenerateFramed.setClock x ((x.chip.egTimer + egAdd x.cfg) % egOvf) x.chip.egCnt).trans (GenerateFramed.egTicks _ _)

/-- Setting a counter, a status and a level keeps the chip record's register fields. -/
theorem SameChipRegisters.timer (k : Chip) (t : Timer) (v : Int) (status : Byte) (irq : Bool) :
    SameChipRegisters k ({ k with status := status, irq := irq }.setCount t v) := by
  cases t <;> exact ⟨rfl, rfl, fun e => by cases e <;> rfl, rfl, rfl, rfl, rfl⟩

theorem GenerateFramed.overflow (x : Instance) (t : Timer) (cnt : Int) : GenerateFramed x (x.overflow t cnt) := by
  rw [Instance.overflow_eq]
  split
  · rw [Instance.setFlag_eq]
    exact GenerateFramed.of_chans rfl rfl rfl (SameChipRegisters.timer ..) ⟨_, (List.append_assoc ..).symm⟩
  · exact GenerateFramed.of_chans rfl rfl rfl (SameChipRegisters.timer x.chip t _ x.chip.status x.chip.irq) ⟨_, rfl⟩

theorem GenerateFramed.csmKey (x : Instance) : GenerateFramed x x.csmKey where
  cfg := rfl
  reg := rfl
  chans := fun c => by
    rw [Instance.csmKey, Instance.ch_updCh]
    split
    next hc => rw [hc]; exact SameRegisters.withOps _ fun n => Operator.csmKey_sameRegisters _ _
    next => exact SameRegisters.refl _
  chip := SameChipRegisters.refl _
  absent := fun c hc => by
    rw [Instance.csmKey, Instance.ch_updCh, if_neg]
    rintro rfl
    exact absurd hc nofun
  events := List.prefix_rfl

theorem GenerateFramed.timerAStep (x : Instance) : GenerateFramed x x.timerAStep := by
  rcases x.timerAStep_cases with ⟨-, e⟩ | ⟨-, -, e⟩ | ⟨-, -, e⟩ <;> rw [e]
  · exact GenerateFramed.refl x
  · exact GenerateFramed.of_chans rfl rfl rfl (SameChipRegisters.timer x.chip .a _ x.chip.status x.chip.irq)
      List.prefix_rfl
  · split
    · exact (GenerateFramed.overflow x .a _).trans (GenerateFramed.csmKey _)
    · exact GenerateFramed.overflow x .a _

theorem GenerateFramed.timerBStep (x : Instance) (n : Nat) : GenerateFramed x (x.timerBStep n) := by
  rcases x.timerBStep_cases n with ⟨-, e⟩ | ⟨-, -, e⟩ | ⟨-, -, e⟩ <;> rw [e]
  · exact GenerateFramed.refl x
  · exact GenerateFramed.of_chans rfl rfl rfl (SameChipRegisters.timer x.chip .b _ x.chip.status x.chip.irq)
      List.prefix_rfl
  · exact GenerateFramed.overflow x .b _

theorem GenerateFramed.sampleStep (x : Instance) : GenerateFramed x x.sampleStep :=
  (((GenerateFramed.prepared x).trans (GenerateFramed.chanCalc _)).trans (GenerateFramed.egClock _)).trans
    (GenerateFramed.timerAStep _)

theorem GenerateFramed.mixSteps (vp lb : Int) (n : Nat) (x : Instance) (buf : List Sample) :
    GenerateFramed x (Instance.mixSteps vp lb n x buf).1 := by
  induction n generalizing x buf with
  | zero => exact GenerateFramed.refl x
  | succ n ih =>
    match buf with
    | [] => exact GenerateFramed.refl x
    | [_] => exact GenerateFramed.refl x
    | bl :: br :: buf =>
      have hstep := GenerateFramed.sampleStep x
      have hone : GenerateFramed x (x.mixStep vp lb bl br).1 :=
        ⟨hstep.cfg, hstep.reg, hstep.chans, hstep.chip, hstep.absent, hstep.events⟩
      exact hone.trans (ih _ buf)

end

/-- Settles O33: the sample steps and timer B's step each keep the frame. -/
theorem generateFrame : Obligations.GenerateFrame := by
  intro s t count vp lb buf h
  have hframe : t = { s with self := t.self, buf := t.buf } ∧ GenerateFramed s.self t.self := by
    rcases exec_other rfl h with ⟨_, _, _, hi, -⟩ | ⟨_, _, _, _, _, _, hi, -⟩ | ⟨hi, -⟩ |
      ⟨_, _, _, _, -, -, -, rfl⟩ | ⟨_, hi, -⟩ | ⟨hi, -⟩ | ⟨_, hi, -⟩
    case inr.inr.inr.inl => exact ⟨rfl, (GenerateFramed.mixSteps ..).trans (GenerateFramed.timerBStep _ _)⟩
    all_goals cases hi
  obtain ⟨hstate, hcfg, hreg, hchans, hchip, habsent, l, hevents⟩ := hframe
  exact ⟨hstate, hcfg, hreg, fun c n => (hchans c).2 n, fun c => (hchans c).1, hchip, habsent, l, hevents.symm⟩

end Sys2Proof.Machine
end

section
/-! PROOFS. Rates in time: the envelope clock (46_channel_mix.md R371) and the overflows of timer A (60_exceptions.md R434),
each by induction over the sample steps. -/

namespace Sys2Proof.Machine

/-! ### Iterated steps -/

theorem iterate_succ_apply {α : Type} (f : α → α) (n : Nat) (a : α) : iterate f (n + 1) a = f (iterate f n a) := by
  induction n generalizing a with
  | zero => rfl
  | succ n ih => exact ih (f a)

/-- What a step keeps, its iterates keep. -/
theorem iterate_induction {α : Type} {P : α → Prop} {f : α → α} (hf : ∀ a, P a → P (f a)) (n : Nat) {a : α} (ha : P a) :
    P (iterate f n a) := by
  induction n generalizing a with
  | zero => exact ha
  | succ n ih => exact ih (hf a ha)

/-! ### The envelope clock -/

/-- An overflow leaves the envelope clock. -/
theorem Instance.overflow_clock (x : Instance) (t : Timer) (cnt : Int) :
    (x.overflow t cnt).chip.egTimer = x.chip.egTimer ∧ (x.overflow t cnt).chip.egCnt = x.chip.egCnt := by
  rw [Instance.overflow_eq]
  split
  · rw [Instance.setFlag_eq]
    exact ⟨Chip.setCount_egTimer .., Chip.setCount_egCnt ..⟩
  · exact ⟨Chip.setCount_egTimer .., Chip.setCount_egCnt ..⟩

/-- A step of timer A leaves the envelope clock. -/
theorem Instance.timerAStep_clock (x : Instance) :
    x.timerAStep.chip.egTimer = x.chip.egTimer ∧ x.timerAStep.chip.egCnt = x.chip.egCnt := by
  rcases x.timerAStep_cases with ⟨-, e⟩ | ⟨-, -, e⟩ | ⟨-, -, e⟩ <;> rw [e]
  · exact ⟨rfl, rfl⟩
  · exact ⟨rfl, rfl⟩
  · split <;> exact x.overflow_clock .a _

/-- Ticks count in the envelope counter and leave the accumulator (46_channel_mix.md R370). -/
theorem Instance.egTicks_clock (n : Nat) (x : Instance) :
    (Instance.egTicks n x).chip = { x.chip with egCnt := x.chip.egCnt + BitVec.ofNat 32 n } := by
  induction n generalizing x with
  | zero => exact congrArg (fun c => { x.chip with egCnt := c }) (BitVec.add_zero _).symm
  | succ n ih =>
    rw [Instance.egTicks, ih, Nat.add_comm n 1, BitVec.ofNat_add, ← BitVec.add_assoc]
    rfl

/-- The envelope clock adds EG_ADD and counts a tick for each EG_OVF (46_channel_mix.md R370). -/
theorem Instance.egClock_chip (x : Instance) :
    x.egClock.chip = { x.chip with
      egTimer := (x.chip.egTimer + egAdd x.cfg) % 196608
      egCnt := x.chip.egCnt + BitVec.ofNat 32 ((x.chip.egTimer + egAdd x.cfg) / 196608) } :=
  Instance.egTicks_clock ..

/-- A sample step moves the envelope clock once (46_channel_mix.md R370). -/
theorem Instance.sampleStep_clock (x : Instance) :
    x.sampleStep.chip.egTimer = (x.chip.egTimer + egAdd x.cfg) % 196608
      ∧ x.sampleStep.chip.egCnt = x.chip.egCnt + BitVec.ofNat 32 ((x.chip.egTimer + egAdd x.cfg) / 196608) := by
  have htimer : x.prepared.chanCalc.chip.egTimer = x.chip.egTimer := x.chip.lfoAdvance_egTimer
  have hcnt : x.prepared.chanCalc.chip.egCnt = x.chip.egCnt := x.chip.lfoAdvance_egCnt
  obtain ⟨h1, h2⟩ := x.prepared.chanCalc.egClock.timerAStep_clock
  rw [Instance.sampleStep, h1, h2, Instance.egClock_chip, htimer, hcnt]
  exact ⟨rfl, rfl⟩

/-- At FREQBASE 1 scaling changes nothing (40_tables.md R165, R166). -/
theorem scaled_one {g : Config} (hden : 0 < g.freqDen) (h : g.freqNum = g.freqDen) (n : Nat) : scaled g n = n := by
  rw [scaled, h, Nat.mul_div_cancel _ hden]

/-- At FREQBASE 1 the ticks of `k` steps are counted from the third of EG_OVF the accumulator stands at. -/
theorem iterate_sampleStep_egCnt {x : Instance} (hden : 0 < x.cfg.freqDen) (hbase : x.cfg.freqNum = x.cfg.freqDen)
    (k : Nat) {j : Nat} (hj : j < 3) (htimer : x.chip.egTimer = 65536 * j) :
    (iterate Instance.sampleStep k x).chip.egCnt = x.chip.egCnt + BitVec.ofNat 32 ((j + k) / 3) := by
  induction k generalizing x j with
  | zero => rw [Nat.add_zero, Nat.div_eq_of_lt hj]; exact (BitVec.add_zero _).symm
  | succ k ih =>
    have hadd : egAdd x.cfg = 65536 := scaled_one hden hbase 65536
    obtain ⟨h1, h2⟩ := x.sampleStep_clock
    rw [htimer, hadd] at h1 h2
    have hnext := ih (x := x.sampleStep) (j := (j + 1) % 3) (by rw [Instance.sampleStep_cfg]; exact hden)
      (by rw [Instance.sampleStep_cfg]; exact hbase) (Nat.mod_lt _ (by decide)) (by rw [h1]; omega)
    rw [iterate, hnext, h2, BitVec.add_assoc, ← BitVec.ofNat_add]
    congr 2
    omega

/-- Settles O55: at FREQBASE at most 3 the accumulator stays below two EG_OVF; at FREQBASE 1 a step adds a third of it. -/
theorem envelopeClock : Obligations.EnvelopeClock := by
  refine ⟨fun x htimer hden hbase => ?_, fun x k hden hbase htimer => ?_⟩
  · have hadd : egAdd x.cfg ≤ 196608 := by
      refine Nat.div_le_of_le_mul ?_
      calc 65536 * x.cfg.freqNum ≤ 65536 * (3 * x.cfg.freqDen) := Nat.mul_le_mul_left _ hbase
        _ = x.cfg.freqDen * 196608 := by omega
    rw [Instance.egClock_chip]
    obtain h | h : (x.chip.egTimer + egAdd x.cfg) / 196608 = 0 ∨ (x.chip.egTimer + egAdd x.cfg) / 196608 = 1 := by
      omega
    · exact .inl (by rw [h]; exact BitVec.add_zero _)
    · exact .inr (by rw [h]; rfl)
  · have hticks := iterate_sampleStep_egCnt hden hbase k (j := 0) (by decide) htimer
    rwa [Nat.zero_add] at hticks

/-! ### Timer A -/

/-- What timer A's step reads but its counter, and what it reports: all as in `x`. -/
structure TimerAKept (x y : Instance) : Prop where
  cfg : y.cfg = x.cfg
  mode : y.chip.mode = x.chip.mode
  ta : y.chip.ta = x.chip.ta
  status : y.chip.status = x.chip.status
  events : y.events = x.events

theorem TimerAKept.trans {x y z : Instance} (h : TimerAKept x y) (h' : TimerAKept y z) : TimerAKept x z :=
  ⟨h'.cfg.trans h.cfg, h'.mode.trans h.mode, h'.ta.trans h.ta, h'.status.trans h.status, h'.events.trans h.events⟩

/-- So is the status an overflow leaves. -/
theorem TimerAKept.flagged {x y : Instance} (h : TimerAKept x y) : y.chip.flagged .a = x.chip.flagged .a := by
  have hena : y.chip.flagEnabled .a = x.chip.flagEnabled .a := congrArg (·.getLsbD 2) h.mode
  rw [Chip.flagged, Chip.flagged, hena, h.status]

/-- A sample step before its step of timer A (46_channel_mix.md R370). -/
def Instance.beforeTimerA (x : Instance) : Instance :=
  x.prepared.chanCalc.egClock

theorem Instance.sampleStep_eq (x : Instance) : x.sampleStep = x.beforeTimerA.timerAStep := rfl

theorem Instance.egTicks_events (n : Nat) (x : Instance) : (Instance.egTicks n x).events = x.events := by
  induction n generalizing x with
  | zero => rfl
  | succ n ih => exact ih x.egTick

/-- Up to there nothing touches timer A. -/
theorem Instance.beforeTimerA_kept (x : Instance) :
    TimerAKept x x.beforeTimerA ∧ x.beforeTimerA.chip.taCnt = x.chip.taCnt := by
  have hchip := x.prepared.chanCalc.egClock_chip
  refine ⟨⟨by rw [Instance.beforeTimerA, Instance.egClock_cfg]; rfl, ?_, ?_, ?_,
    (Instance.egTicks_events _ _).trans rfl⟩, ?_⟩ <;> rw [Instance.beforeTimerA, hchip]
  · exact x.chip.lfoAdvance_mode
  · exact x.chip.lfoAdvance_ta
  · exact x.chip.lfoAdvance_status
  · exact x.chip.lfoAdvance_taCnt

/-- A sample step of a counter that stays positive (60_exceptions.md R430). -/
theorem Instance.sampleStep_running {x : Instance} (h0 : x.chip.taCnt ≠ 0) (hpos : 0 < x.chip.taCnt - taStep x.cfg) :
    TimerAKept x x.sampleStep ∧ x.sampleStep.chip.taCnt = x.chip.taCnt - taStep x.cfg := by
  obtain ⟨hkept, hcnt⟩ := x.beforeTimerA_kept
  rw [← hcnt, ← hkept.cfg] at hpos
  rw [← hcnt] at h0
  rw [Instance.sampleStep_eq, Instance.timerAStep_running h0 hpos]
  exact ⟨hkept.trans ⟨rfl, rfl, rfl, rfl, rfl⟩, by rw [← hcnt, ← hkept.cfg]⟩

/-- As long as the counter lasts the steps only count it down (60_exceptions.md R430, R434). -/
theorem iterate_sampleStep_running {x : Instance} {C : Nat} (hcnt : x.chip.taCnt = C) (k : Nat)
    (hk : k * taStep x.cfg < C) :
    TimerAKept x (iterate Instance.sampleStep k x)
      ∧ (iterate Instance.sampleStep k x).chip.taCnt = C - (k * taStep x.cfg : Nat) := by
  induction k with
  | zero => exact ⟨⟨rfl, rfl, rfl, rfl, rfl⟩, by rw [iterate, hcnt, Nat.zero_mul]; exact (Int.sub_zero _).symm⟩
  | succ k ih =>
    rw [Nat.succ_mul] at hk ⊢
    obtain ⟨hkept, hk'⟩ := ih (by omega)
    have hstep := Instance.sampleStep_running (x := iterate Instance.sampleStep k x) (by rw [hk']; omega)
      (by rw [hk', hkept.cfg]; omega)
    rw [iterate_succ_apply]
    exact ⟨hkept.trans hstep.1, by rw [hstep.2, hk', hkept.cfg]; omega⟩

/-- The first half of an overflow: the flag, and at most the event of a transition (60_exceptions.md R421, R431). -/
theorem Instance.setEnabledFlag_spec (x : Instance) (t : Timer) :
    (x.setEnabledFlag t).chip.status = x.chip.flagged t ∧ (x.setEnabledFlag t).chip.ta = x.chip.ta
      ∧ ∃ was now, (x.setEnabledFlag t).events = x.events ++ transition was now := by
  unfold Instance.setEnabledFlag Chip.flagged
  split
  · rw [Instance.setFlag_eq]
    exact ⟨rfl, rfl, _, _, rfl⟩
  · exact ⟨rfl, rfl, false, false, (List.append_nil _).symm⟩

/-- A transition is no reload, and at most one event. -/
theorem transition_filter_reload (was now : Bool) (t : Timer) (period : Nat) :
    (transition was now).filter (fun e => e = .timerReload t period) = [] ∧ (transition was now).length ≤ 1 := by
  unfold transition
  split
  · exact ⟨rfl, Nat.zero_le 1⟩
  · exact ⟨by simp, Nat.le_refl 1⟩

/-- Timer A's overflow flag after it is set, if it is enabled (60_exceptions.md R431). -/
theorem Chip.flagged_a_iff (k : Chip) :
    (k.flagged .a).toNat % 2 = 1 ↔ bitOf k.mode 2 = true ∨ k.status.toNat % 2 = 1 := by
  have hset : ∀ b : Byte, (b ||| flagBit .a).toNat % 2 = 1 := bitVec_forall (by decide +kernel)
  have hena : k.flagEnabled .a = bitOf k.mode 2 := getLsbD_eq_bitOf ..
  unfold Chip.flagged
  rw [hena]
  split
  next h => simp only [h, hset, true_or]
  next h => simp [h]

/-- A sample step in which the counter runs out: the flag, the reload and its event (60_exceptions.md R431). CSM touches
none of them (R433). -/
theorem Instance.sampleStep_overflow {x : Instance} (h0 : x.chip.taCnt ≠ 0) (hle : x.chip.taCnt - taStep x.cfg ≤ 0) :
    x.sampleStep.chip.taCnt = reloaded (x.chip.taCnt - taStep x.cfg) ((1024 - x.chip.ta.toNat : Nat) * 4096)
      ∧ x.sampleStep.chip.status = x.chip.flagged .a
      ∧ ∃ was now, x.sampleStep.events =
          x.events ++ transition was now ++ [.timerReload .a (1024 - x.chip.ta.toNat)] := by
  obtain ⟨hkept, hcnt⟩ := x.beforeTimerA_kept
  obtain ⟨hstatus, hta, was, now, hevents⟩ := x.beforeTimerA.setEnabledFlag_spec .a
  have hflagged : x.beforeTimerA.chip.flagged .a = x.chip.flagged .a := hkept.flagged
  rw [hkept.ta] at hta
  rw [hflagged] at hstatus
  rw [hkept.events] at hevents
  rw [← hcnt] at h0
  rw [← hcnt, ← hkept.cfg] at hle ⊢
  have hstep : x.sampleStep.chip = (x.beforeTimerA.overflow .a (x.beforeTimerA.chip.taCnt - taStep x.beforeTimerA.cfg)).chip
      ∧ x.sampleStep.events =
        (x.beforeTimerA.overflow .a (x.beforeTimerA.chip.taCnt - taStep x.beforeTimerA.cfg)).events := by
    rw [Instance.sampleStep_eq, Instance.timerAStep_overflow h0 hle]
    split <;> exact ⟨rfl, rfl⟩
  rw [hstep.1, hstep.2, Instance.overflow_eq_reloadTimer, ← hta]
  exact ⟨rfl, hstatus, was, now, congrArg (· ++ _) hevents⟩

/-- The ceiling of a quotient. -/
theorem ceil_div_spec {C d : Nat} (hC : 0 < C) (hd : 0 < d) :
    0 < (C + d - 1) / d ∧ ((C + d - 1) / d - 1) * d < C ∧ C ≤ (C + d - 1) / d * d := by
  have hdiv := Nat.div_add_mod' (C + d - 1) d
  have hmod := Nat.mod_lt (C + d - 1) hd
  have hpos : 0 < (C + d - 1) / d := Nat.div_pos (by omega) hd
  refine ⟨hpos, ?_, by omega⟩
  rw [Nat.sub_mul, Nat.one_mul]
  omega

/-- The steps to the next overflow from a reload that lost less than a step (60_exceptions.md R434). -/
theorem ceil_div_of_reload {C P d : Nat} (hlow : P < C + d) (hhigh : C ≤ P) (hd : 0 < d) :
    (C + d - 1) / d = P / d ∨ (C + d - 1) / d = (P + d - 1) / d := by
  have h1 : P / d ≤ (C + d - 1) / d := Nat.div_le_div_right (by omega)
  have h2 : (C + d - 1) / d ≤ (P + d - 1) / d := Nat.div_le_div_right (by omega)
  have h3 : (P + d - 1) / d ≤ P / d + 1 := by
    rw [← Nat.add_div_right P hd]
    exact Nat.div_le_div_right (by omega)
  omega

/-- Settles O59: the counter lasts for the steps below the ceiling, the step at the ceiling overflows, and what the
reload leaves is the period less than a step short. -/
theorem timerATiming : Obligations.TimerATiming := by
  intro x C hC hcnt hd
  obtain ⟨hK, hbelow, habove⟩ := ceil_div_spec hC hd
  have hP : 0 < (1024 - x.chip.ta.toNat) * 4096 := by
    have := x.chip.ta.isLt
    omega
  have hbase : x.cfg.freqNum = x.cfg.freqDen → timesFreqBase x.cfg 4096 = 4096 := fun h => by
    refine scaled_one (Nat.pos_of_ne_zero fun h0 => ?_) h 4096
    rw [timesFreqBase, h0, Nat.div_zero] at hd
    exact absurd hd (Nat.lt_irrefl 0)
  have hrun := iterate_sampleStep_running hcnt
  have hstep : taStep x.cfg = timesFreqBase x.cfg 4096 := rfl
  rw [hstep] at hrun
  generalize timesFreqBase x.cfg 4096 = d at *
  dsimp only
  generalize hKdef : (C + d - 1) / d = K at *
  obtain ⟨K, rfl⟩ := Nat.exists_eq_succ_of_ne_zero hK.ne'
  rw [Nat.succ_sub_one] at hbelow
  rw [Nat.succ_mul] at habove
  obtain ⟨hkept, hlast⟩ := hrun K hbelow
  have hover := Instance.sampleStep_overflow (x := iterate Instance.sampleStep K x) (by rw [hlast]; omega)
    (by rw [hlast, hkept.cfg, hstep]; omega)
  rw [hlast, hkept.cfg, hstep, hkept.ta, hkept.flagged, hkept.events, ← iterate_succ_apply Instance.sampleStep] at hover
  obtain ⟨hreload, hstatus, was, now, hevents⟩ := hover
  refine ⟨fun k hk => ?_, ⟨transition was now ++ [.timerReload .a (1024 - x.chip.ta.toNat)], ?_, ?_, ?_⟩, ?_, ?_⟩
  · have hk' := (hrun k (Nat.lt_of_le_of_lt (Nat.mul_le_mul_right d (Nat.le_of_lt_succ hk)) hbelow)).1
    exact ⟨hk'.events, hk'.status⟩
  · rw [hevents, List.append_assoc]
  · rw [List.filter_append, (transition_filter_reload ..).1]
    simp
  · rw [List.length_append, List.length_singleton]
    have := (transition_filter_reload was now .a 0).2
    omega
  · rw [hstatus]
    exact x.chip.flagged_a_iff
  · have hexact : C = (1024 - x.chip.ta.toNat) * 4096 → x.cfg.freqNum = x.cfg.freqDen →
        K * d + d = C ∧ K + 1 = 1024 - x.chip.ta.toNat := fun hfull hone => by
      obtain rfl := hbase hone
      omega
    rw [hreload, reloaded]
    by_cases hlate : C - (K * d : Nat) - d + ((1024 - x.chip.ta.toNat : Nat) * 4096 : Int) ≤ 0
    · rw [if_pos hlate]
      exact ⟨_, hP, by push_cast; rfl, .inr rfl, fun hfull hone => ⟨rfl, (hexact hfull hone).2⟩⟩
    · rw [if_neg hlate]
      refine ⟨C + (1024 - x.chip.ta.toNat) * 4096 - (K * d + d), by omega, by omega,
        ceil_div_of_reload (by omega) (by omega) hd, fun hfull hone => ⟨?_, (hexact hfull hone).2⟩⟩
      have hwhole := (hexact hfull hone).1
      omega

end Sys2Proof.Machine
end

section
/-! PROOFS. What a sample step does to one operator and to a channel's history, stage by stage; and a channel whose
operators 2 to 4 are muted (46_channel_mix.md R378). -/

namespace Sys2Proof.Machine

/-! ### An operator through a sample step -/

/-- The refresh changes only what it computes (45_phase_lfo.md R327). -/
theorem Instance.op_prepared (x : Instance) (c : Chan) (n : OpNum) :
    ∃ incr ksr, x.prepared.op c n = { x.op c n with incr := incr, ksrVal := ksr } := by
  have hop : x.prepared.op c n = (x.refresh.ch c).ops.get n := rfl
  rw [hop, Instance.ch_refresh]
  split
  · cases hdirty : (x.ch c).dirty
    · rw [Channel.refresh_of_clean hdirty]
      exact ⟨_, _, rfl⟩
    · rw [Channel.refresh_of_dirty hdirty, Quad.get_tabulate]
      exact ⟨_, _, rfl⟩
  · exact ⟨_, _, rfl⟩

/-- The evaluation changes only the phase (45_phase_lfo.md R333). -/
theorem Instance.op_chanCalc_form (x : Instance) (c : Chan) (n : OpNum) :
    ∃ phase, x.chanCalc.op c n = { x.op c n with phase := phase } := by
  by_cases hlive : x.live c = true
  · rw [Instance.op_chanCalc hlive]
    exact ⟨_, rfl⟩
  · have hch : x.chanCalc.ch c = x.ch c := (Instance.ch_mapLive ..).trans (if_neg hlive)
    rw [Instance.op, hch]
    exact ⟨_, rfl⟩

/-- Timer A's step leaves an operator, or CSM keys it (60_exceptions.md R431, R433). -/
theorem Instance.op_timerAStep (x : Instance) (c : Chan) (n : OpNum) :
    x.timerAStep.op c n = x.op c n
      ∨ (x.chip.taCnt ≠ 0 ∧ x.chip.csm = true ∧ x.timerAStep.op c n = (x.op c n).csmKey x.cfg.params) := by
  rcases x.timerAStep_cases with ⟨-, e⟩ | ⟨-, -, e⟩ | ⟨hrun, -, e⟩ <;> rw [e]
  · exact .inl rfl
  · exact .inl rfl
  · have hover : (x.overflow .a (x.chip.taCnt - taStep x.cfg)).ch c = x.ch c := by
      rw [Instance.ch, Instance.ch, Instance.overflow_chans]
    split
    next hcsm =>
      rw [Instance.op, Instance.csmKey, Instance.ch_updCh, Instance.overflow_cfg]
      split
      next hc =>
        subst hc
        rw [hover, Quad.get_tabulate]
        exact .inr ⟨hrun, hcsm, rfl⟩
      next => rw [hover]; exact .inl rfl
    next => rw [Instance.op, hover]; exact .inl rfl

section
variable {P : Operator → Prop} {x : Instance} {c : Chan} {n : OpNum}

theorem Instance.egTicks_op (hstep : ∀ o t, P o → P (o.egStep x.cfg.params t)) (k : Nat) (h : P (x.op c n)) :
    P ((Instance.egTicks k x).op c n) := by
  induction k generalizing x with
  | zero => exact h
  | succ k ih =>
    refine ih hstep ?_
    rw [Instance.op_egTick]
    split
    · exact hstep _ _ h
    · exact h

theorem Instance.egClock_op (hstep : ∀ o t, P o → P (o.egStep x.cfg.params t)) (h : P (x.op c n)) :
    P (x.egClock.op c n) :=
  Instance.egTicks_op (x := x.setEgTimer ((x.chip.egTimer + egAdd x.cfg) % egOvf)) hstep _ h

/-- What the stages of a sample step keep of an operator, the sample step keeps; the key events of CSM are one only where
it is on and timer A runs. -/
theorem Instance.sampleStep_op (hrefresh : ∀ o incr ksr, P o → P { o with incr := incr, ksrVal := ksr })
    (hphase : ∀ o phase, P o → P { o with phase := phase }) (hstep : ∀ o t, P o → P (o.egStep x.cfg.params t))
    (hcsm : x.chip.taCnt ≠ 0 → x.chip.csm = true → ∀ o, P o → P (o.csmKey x.cfg.params)) (h : P (x.op c n)) :
    P (x.sampleStep.op c n) := by
  obtain ⟨incr, ksr, hprep⟩ := x.op_prepared c n
  obtain ⟨phase, hcalc⟩ := x.prepared.op_chanCalc_form c n
  have hp : P (x.prepared.chanCalc.op c n) := by
    rw [hcalc, hprep]
    exact hphase _ _ (hrefresh _ _ _ h)
  have hclock : P (x.beforeTimerA.op c n) := Instance.egClock_op hstep hp
  obtain ⟨hkept, hcnt⟩ := x.beforeTimerA_kept
  rw [Instance.sampleStep_eq]
  rcases x.beforeTimerA.op_timerAStep c n with e | ⟨hrun, hon, e⟩ <;> rw [e]
  · exact hclock
  · rw [hkept.cfg]
    refine hcsm (hcnt ▸ hrun) ?_ _ hclock
    rw [Chip.csm, hkept.mode] at hon
    exact hon

end

/-! ### The history of a channel -/

/-- The feedback history and the delay of a channel are unchanged (10_state.md R41). -/
structure SameHistory (h k : Channel) : Prop where
  op1Out0 : k.op1Out0 = h.op1Out0
  op1Out1 : k.op1Out1 = h.op1Out1
  memValue : k.memValue = h.memValue

theorem SameHistory.refl (h : Channel) : SameHistory h h := ⟨rfl, rfl, rfl⟩

theorem SameHistory.trans {h k m : Channel} (h₁ : SameHistory h k) (h₂ : SameHistory k m) : SameHistory h m :=
  ⟨h₂.op1Out0.trans h₁.op1Out0, h₂.op1Out1.trans h₁.op1Out1, h₂.memValue.trans h₁.memValue⟩

theorem Instance.prepared_history (x : Instance) (c : Chan) : SameHistory (x.ch c) (x.prepared.ch c) := by
  have hch : x.prepared.ch c = x.refresh.ch c := rfl
  rw [hch, Instance.ch_refresh]
  split
  · cases hdirty : (x.ch c).dirty
    · rw [Channel.refresh_of_clean hdirty]
      exact SameHistory.refl _
    · rw [Channel.refresh_of_dirty hdirty]
      exact ⟨rfl, rfl, rfl⟩
  · exact SameHistory.refl _

theorem Instance.egTicks_history (k : Nat) (x : Instance) (c : Chan) :
    SameHistory (x.ch c) ((Instance.egTicks k x).ch c) := by
  induction k generalizing x with
  | zero => exact SameHistory.refl _
  | succ k ih =>
    refine SameHistory.trans ?_ (ih x.egTick)
    rw [Instance.ch_egTick]
    split <;> exact ⟨rfl, rfl, rfl⟩

theorem Instance.egClock_history (x : Instance) (c : Chan) : SameHistory (x.ch c) (x.egClock.ch c) :=
  Instance.egTicks_history _ (x.setEgTimer ((x.chip.egTimer + egAdd x.cfg) % egOvf)) c

theorem Instance.timerAStep_history (x : Instance) (c : Chan) : SameHistory (x.ch c) (x.timerAStep.ch c) := by
  rcases x.timerAStep_cases with ⟨-, e⟩ | ⟨-, -, e⟩ | ⟨-, -, e⟩ <;> rw [e]
  · exact SameHistory.refl _
  · exact SameHistory.refl _
  · have hover : (x.overflow .a (x.chip.taCnt - taStep x.cfg)).ch c = x.ch c := by
      rw [Instance.ch, Instance.ch, Instance.overflow_chans]
    split
    · rw [Instance.csmKey, Instance.ch_updCh]
      split
      next hc => subst hc; rw [← hover]; exact ⟨rfl, rfl, rfl⟩
      next => rw [hover]; exact SameHistory.refl _
    · rw [hover]
      exact SameHistory.refl _

/-- After its evaluation a channel keeps its history for the rest of the sample step. -/
theorem Instance.sampleStep_history (x : Instance) (c : Chan) :
    SameHistory (x.prepared.chanCalc.ch c) (x.sampleStep.ch c) :=
  (x.prepared.chanCalc.egClock_history c).trans (Instance.timerAStep_history _ c)

/-! ### A muted operator -/

/-- An operator at total level 127 whose cached attenuation is at least that level's. -/
def Muted (o : Operator) : Prop :=
  o.tl = 127 ∧ 1016 ≤ o.volOut

/-- An envelope step leaves an operator muted: the level alone is past the threshold (44_envelope.md R291). -/
theorem Muted.egStep {o : Operator} (h : Muted o) (p : FamilyParams) (t : BitVec 32) : Muted (o.egStep p t) := by
  have htl : (o.egStep p t).tl = 127 := (o.egStep_sameRegisters p t).tl.trans h.1
  have hout : (o.egStep p t).volOut = (o.egBranch p t).attenuation := rfl
  have hbranch : (o.egBranch p t).tl = 127 := htl
  refine ⟨htl, ?_⟩
  rw [hout, Operator.attenuation, hbranch]
  exact Nat.le_add_left 1016 _

theorem Muted.csmKey {o : Operator} (h : Muted o) (p : FamilyParams) : Muted (o.csmKey p) := by
  refine ⟨(o.csmKey_sameRegisters p).tl.trans h.1, ?_⟩
  unfold Operator.csmKey
  split
  · exact h.2
  · rw [Operator.keyOff_volOut, Operator.keyOn_volOut]
    exact h.2

theorem Muted.sampleStep {x : Instance} {c : Chan} {n : OpNum} (h : Muted (x.op c n)) : Muted (x.sampleStep.op c n) :=
  Instance.sampleStep_op (P := Muted) (fun _ _ _ h => h) (fun _ _ h => h) (fun _ t h => h.egStep _ t)
    (fun _ _ _ h => h.csmKey _) h

/-- From the quiet threshold on an operator adds nothing (46_channel_mix.md R364). -/
theorem heardSample_quiet {h : Channel} {n : OpNum} (hq : 832 ≤ (h.ops.get n).volOut) (lfoAm : Nat) (offset : Int) :
    heardSample lfoAm h n offset = 0 :=
  if_pos (Nat.le_add_right_of_le hq)

/-- Settles O53: operators 2 to 4 stay muted, so under algorithm 7 the output is operator 1's newest output, which the
step before left. -/
theorem algorithmIsolation : Obligations.AlgorithmIsolation := by
  intro x c hlive halgo hmuted k
  dsimp only
  rw [iterate_succ_apply]
  have hframe : GenerateFramed x (iterate Instance.sampleStep k x) :=
    iterate_induction (P := GenerateFramed x) (fun y hy => hy.trans (GenerateFramed.sampleStep y)) k
      (GenerateFramed.refl x)
  have hquiet : ∀ n, n ≠ .op1 → Muted ((iterate Instance.sampleStep k x).op c n) := fun n hn =>
    iterate_induction (P := fun y : Instance => Muted (y.op c n)) (fun _ => Muted.sampleStep) k (hmuted n hn)
  generalize iterate Instance.sampleStep k x = w at hframe hquiet
  have hw := hframe.trans (GenerateFramed.prepared w)
  have hz := hframe.trans ((GenerateFramed.sampleStep w).trans (GenerateFramed.prepared w.sampleStep))
  have hlivew : w.prepared.live c = true := by rw [Instance.live, hw.cfg]; exact hlive
  have hlivez : w.sampleStep.prepared.live c = true := by rw [Instance.live, hz.cfg]; exact hlive
  have hheard : ∀ n, n ≠ .op1 → ∀ am off, heardSample am (w.sampleStep.prepared.ch c) n off = 0 := fun n hn am off => by
    obtain ⟨incr, ksr, e⟩ := w.sampleStep.op_prepared c n
    have hn := (hquiet n hn).sampleStep.2
    refine heardSample_quiet ?_ am off
    change 832 ≤ (w.sampleStep.prepared.op c n).volOut
    rw [e]
    exact Nat.le_trans (by decide) hn
  obtain ⟨-, -, -, -, -, -, -, -, -, hnewest, -⟩ := algorithmRouting w.prepared c hlivew
  obtain ⟨-, -, -, -, -, -, -, hout, -⟩ := algorithmRouting w.sampleStep.prepared c hlivez
  obtain ⟨-, hout⟩ := hout (by rw [(hz.chans c).1.algo]; exact halgo)
  rw [hout, hheard .op3 nofun, hheard .op2 nofun, hheard .op4 nofun,
    ((w.sampleStep_history c).trans (w.sampleStep.prepared_history c)).op1Out1, hnewest, (hw.chans c).1.fb]
  simp only [Int.add_zero]

end Sys2Proof.Machine
end

section
/-! PROOFS. The register writes as functions of the records they change (41_global_regs.md, 42_operator_regs.md,
43_channel_regs.md): what each does to the chip record and to a channel, so that a list of writes is a list of such
changes. -/

namespace Sys2Proof.Machine

/-! ### The chip record -/

/-- What a register write but MODE_TIMER does to the chip record. -/
def Instr.onChip (g : Config) (k : Chip) : Instr → Chip
  | .lfoCtrl data =>
    if g.family.hasLfoPan then
      { k with lfoInc := if lfoEnableField data then lfoStep g (lfoSpeedField data) else 0 }
    else k
  | .timerAHi data => { k with ta := data ++ k.ta.extractLsb' 0 2 }
  | .timerALo data => { k with ta := k.ta.extractLsb' 2 8 ++ timerALoField data }
  | .timerB data => { k with tb := data }
  | .fnumHiBlk _ data => { k with fnH := latchField data }
  | .sl3FnumLo e data =>
    k.setSl3 e ⟨latchFnum k.sl3FnH data, latchBlk k.sl3FnH, keycode (latchBlk k.sl3FnH) (latchFnum k.sl3FnH data)⟩
  | .sl3FnumHiBlk _ data => { k with sl3FnH := latchField data }
  | _ => k

theorem Instance.applyWrite_chip (x : Instance) {i : Instr} (h : ∀ data, i ≠ .modeTimer data) :
    (x.applyWrite i).chip = Instr.onChip x.cfg x.chip i := by
  cases i with
  | lfoCtrl data =>
    simp only [Instance.applyWrite, Instance.writeLfoCtrl, Instr.onChip]
    split <;> rfl
  | modeTimer data => exact absurd rfl (h data)
  | keyOnOff data => exact (x.writeKeyOnOff_frame data).1
  | panAmsPms c data =>
    simp only [Instance.applyWrite, Instance.writePanAmsPms]
    split <;> rfl
  | _ => rfl

/-- The part of the chip record that no register write touches: the envelope clock, the LFO's position and outputs. -/
structure SameClocks (k l : Chip) : Prop where
  egTimer : l.egTimer = k.egTimer
  egCnt : l.egCnt = k.egCnt
  lfoCnt : l.lfoCnt = k.lfoCnt
  lfoAm : l.lfoAm = k.lfoAm
  lfoPm : l.lfoPm = k.lfoPm

theorem SameClocks.refl (k : Chip) : SameClocks k k := ⟨rfl, rfl, rfl, rfl, rfl⟩

theorem SameClocks.trans {k l m : Chip} (h : SameClocks k l) (h' : SameClocks l m) : SameClocks k m :=
  ⟨h'.egTimer.trans h.egTimer, h'.egCnt.trans h.egCnt, h'.lfoCnt.trans h.lfoCnt, h'.lfoAm.trans h.lfoAm,
    h'.lfoPm.trans h.lfoPm⟩

theorem Instr.onChip_clocks (g : Config) (k : Chip) (i : Instr) : SameClocks k (Instr.onChip g k i) := by
  cases i with
  | lfoCtrl data =>
    by_cases hpan : g.family.hasLfoPan = true
    · rw [Instr.onChip, if_pos hpan]; exact ⟨rfl, rfl, rfl, rfl, rfl⟩
    · rw [Instr.onChip, if_neg hpan]; exact ⟨rfl, rfl, rfl, rfl, rfl⟩
  | sl3FnumLo e data => cases e <;> exact ⟨rfl, rfl, rfl, rfl, rfl⟩
  | _ => exact ⟨rfl, rfl, rfl, rfl, rfl⟩

/-- What no write but MODE_TIMER touches: the mode, the counters, the status and the level. -/
structure SameModeTimer (k l : Chip) : Prop where
  mode : l.mode = k.mode
  taCnt : l.taCnt = k.taCnt
  tbCnt : l.tbCnt = k.tbCnt
  status : l.status = k.status
  irq : l.irq = k.irq

theorem Instr.onChip_modeTimer (g : Config) (k : Chip) (i : Instr) : SameModeTimer k (Instr.onChip g k i) := by
  cases i with
  | lfoCtrl data =>
    by_cases hpan : g.family.hasLfoPan = true
    · rw [Instr.onChip, if_pos hpan]; exact ⟨rfl, rfl, rfl, rfl, rfl⟩
    · rw [Instr.onChip, if_neg hpan]; exact ⟨rfl, rfl, rfl, rfl, rfl⟩
  | sl3FnumLo e data => cases e <;> exact ⟨rfl, rfl, rfl, rfl, rfl⟩
  | _ => exact ⟨rfl, rfl, rfl, rfl, rfl⟩

/-- A flag reset changes the status and the level only (41_global_regs.md R184). -/
theorem Instance.resetFlag_chip (x : Instance) (t : Timer) (data : Byte) :
    ∃ status irq, (x.resetFlag t data).chip = { x.chip with status := status, irq := irq } := by
  unfold Instance.resetFlag
  split
  · rw [Instance.clearFlag_eq]
    exact ⟨_, _, rfl⟩
  · exact ⟨_, _, rfl⟩

/-- MODE_TIMER stores the mode, changes status, level and timer B's counter, and loads or stops timer A
(41_global_regs.md R184). -/
theorem Instance.writeModeTimer_chip (x : Instance) (data : Byte) :
    ∃ status irq tbCnt, (x.writeModeTimer data).chip = { x.chip with
      mode := data, status := status, irq := irq, tbCnt := tbCnt
      taCnt := loadedCount (loadField data .a) x.chip.taCnt (x.chip.period .a) } := by
  obtain ⟨s1, i1, e1⟩ := ((x.store 0x027 data).setMode data).resetFlag_chip .b data
  obtain ⟨s2, i2, e2⟩ := (((x.store 0x027 data).setMode data).resetFlag .b data).resetFlag_chip .a data
  rw [Instance.writeModeTimer, Instance.loadTimer_eq, Instance.loadTimer_eq, e2, e1, Instance.setMode_chip]
  exact ⟨_, _, _, rfl⟩

theorem Instance.applyWrite_clocks (x : Instance) (i : Instr) : SameClocks x.chip (x.applyWrite i).chip := by
  by_cases h : ∃ data, i = .modeTimer data
  · obtain ⟨data, rfl⟩ := h
    obtain ⟨_, _, _, e⟩ := x.writeModeTimer_chip data
    rw [Instance.applyWrite, e]
    exact ⟨rfl, rfl, rfl, rfl, rfl⟩
  · rw [x.applyWrite_chip fun data e => h ⟨data, e⟩]
    exact Instr.onChip_clocks ..

/-! ### A channel -/

/-- A channel after a write to 0x27: channel 2 may be marked dirty (41_global_regs.md R184). -/
theorem Instance.ch_writeModeTimer (x : Instance) (data : Byte) (c : Chan) :
    (x.writeModeTimer data).ch c =
      if c = .ch2 then { x.ch .ch2 with
        dirty := (x.ch .ch2).dirty || x.chip.mode.toNat / 64 != data.toNat / 64 } else x.ch c := by
  have hch : (x.writeModeTimer data).ch c = ((x.store 0x027 data).setMode data).ch c := by
    rw [Instance.ch, Instance.ch, Instance.writeModeTimer, Instance.loadTimer_chans, Instance.loadTimer_chans,
      Instance.resetFlag_chans, Instance.resetFlag_chans]
  rw [hch, Instance.ch_setMode]
  rfl

/-- What a register write does to an operator's register fields (42_operator_regs.md R210 to R216). -/
def Instr.onOperator (c : Chan) (n : OpNum) (o : Operator) : Instr → Operator
  | .dtMul d m data => if c = d ∧ n = m then { o with dt := dtField data, mul := mulField data } else o
  | .tl d m data => if c = d ∧ n = m then { o with tl := tlField data } else o
  | .ksAr d m data => if c = d ∧ n = m then { o with ks := ksField data, ar := arField data } else o
  | .amD1r d m data => if c = d ∧ n = m then { o with am := amField data, d1r := d1rField data } else o
  | .d2r d m data => if c = d ∧ n = m then { o with d2r := d2rField data } else o
  | .slRr d m data => if c = d ∧ n = m then { o with sl := slField data, rr := rrField data } else o
  | .ssgEg d m data => if c = d ∧ n = m then { o with ssg := ssgField data } else o
  | _ => o

/-- What a register write does to a channel's own fields but the dirty marker (43_channel_regs.md R240 to R246). -/
def Instr.onOwn (pan : Bool) (fnH : BitVec 6) (c : Chan) (h : Channel) : Instr → Channel
  | .fnumLo d data =>
    if c = d then { h with
      fnum := latchFnum fnH data, blk := latchBlk fnH, kcode := keycode (latchBlk fnH) (latchFnum fnH data) }
    else h
  | .fbAlgo d data => if c = d then { h with algo := algoField data, fb := fbField data } else h
  | .panAmsPms d data =>
    if pan ∧ c = d then
      { h with panL := panLField data, panR := panRField data, ams := amsField data, pms := pmsField data }
    else h
  | _ => h

/-- An operator after a write to an operator's fields, of any channel. -/
theorem Instance.op_writeOperator_eq (x : Instance) (a : BitVec 9) (data : Byte) (c d : Chan) (n m : OpNum)
    (f : Operator → Operator) (dirty : Bool) :
    (x.writeOperator a data d m f dirty).op c n = if c = d ∧ n = m then f (x.op c n) else x.op c n := by
  by_cases hc : c = d
  · subst hc
    rw [Instance.op_writeOperator]
    by_cases hn : n = m
    · subst hn; simp
    · simp [hn]
  · rw [Instance.op, Instance.ch_writeOperator_of_ne _ _ _ _ _ _ _ hc, if_neg fun h => hc h.1]
    rfl

/-- A change of a channel's own fields leaves every operator. -/
theorem Instance.op_updCh (x : Instance) (d : Chan) {f : Channel → Channel} (hf : ∀ h, (f h).ops = h.ops) (c : Chan)
    (n : OpNum) : (x.updCh d f).op c n = x.op c n := by
  rw [Instance.op, Instance.op, Instance.ch_updCh]
  split
  next hc => rw [hf, hc]
  next => rfl

/-- An operator after a register write that is no key write. -/
theorem Instance.op_applyWrite (x : Instance) {i : Instr} (h : ∀ data, i ≠ .keyOnOff data) (c : Chan) (n : OpNum) :
    (x.applyWrite i).op c n = Instr.onOperator c n (x.op c n) i := by
  cases i with
  | dtMul d m data =>
    rw [Instance.applyWrite, Instance.writeDtMul_eq, Instance.op_writeOperator_eq, ← dtField_eq, ← mulField_eq]; rfl
  | tl d m data => rw [Instance.applyWrite, Instance.writeTl_eq, Instance.op_writeOperator_eq, ← tlField_eq]; rfl
  | ksAr d m data =>
    rw [Instance.applyWrite, Instance.writeKsAr_eq, Instance.op_writeOperator_eq, ← ksField_eq, ← arField_eq]; rfl
  | amD1r d m data =>
    rw [Instance.applyWrite, Instance.writeAmD1r_eq, Instance.op_writeOperator_eq, ← amField_eq, ← d1rField_eq]; rfl
  | d2r d m data => rw [Instance.applyWrite, Instance.writeD2r_eq, Instance.op_writeOperator_eq, ← d2rField_eq]; rfl
  | slRr d m data =>
    rw [Instance.applyWrite, Instance.writeSlRr_eq, Instance.op_writeOperator_eq, ← slField_eq, ← rrField_eq]; rfl
  | ssgEg d m data => rw [Instance.applyWrite, Instance.writeSsgEg_eq, Instance.op_writeOperator_eq, ← ssgField_eq]; rfl
  | keyOnOff data => exact absurd rfl (h data)
  | modeTimer data => exact congrArg (Quad.get · n) (x.ops_writeModeTimer data c)
  | lfoCtrl data =>
    simp only [Instance.applyWrite, Instance.writeLfoCtrl]
    split <;> rfl
  | fnumLo d data =>
    rw [Instance.applyWrite, Instance.writeFnumLo, Instance.op_updCh]
    · rfl
    · exact fun _ => rfl
  | fbAlgo d data =>
    rw [Instance.applyWrite, Instance.writeFbAlgo, Instance.op_updCh]
    · rfl
    · exact fun _ => rfl
  | sl3FnumLo e data =>
    rw [Instance.applyWrite, Instance.writeSl3FnumLo, Instance.op_updCh]
    · rfl
    · exact fun _ => rfl
  | panAmsPms d data =>
    simp only [Instance.applyWrite, Instance.writePanAmsPms]
    split
    · rw [Instance.op_updCh]
      · rfl
      · exact fun _ => rfl
    · rfl
  | _ => rfl

/-- A channel has the own fields of `h`, and is dirty where `h` is. -/
def OwnFieldsOf (h k : Channel) : Prop :=
  { k with ops := h.ops, dirty := h.dirty } = h ∧ (h.dirty = true → k.dirty = true)

theorem OwnFieldsOf.refl (h : Channel) : OwnFieldsOf h h := ⟨rfl, id⟩

/-- A write to an operator's fields leaves every channel's own fields. -/
theorem Instance.own_writeOperator (x : Instance) (a : BitVec 9) (data : Byte) (c d : Chan) (m : OpNum)
    (f : Operator → Operator) {dirty : Bool} (hdirty : (x.ch d).dirty = true → dirty = true) :
    OwnFieldsOf (x.ch c) ((x.writeOperator a data d m f dirty).ch c) := by
  by_cases hc : c = d
  · subst hc
    rw [Instance.ch_writeOperator]
    exact ⟨rfl, hdirty⟩
  · rw [Instance.ch_writeOperator_of_ne _ _ _ _ _ _ _ hc]
    exact OwnFieldsOf.refl _

/-- A channel's own fields after a register write that is no key write; FNUM_LO marks its channel dirty, and no write
takes a marker back. -/
theorem Instance.own_applyWrite (x : Instance) {i : Instr} (h : ∀ data, i ≠ .keyOnOff data) (c : Chan) :
    OwnFieldsOf (Instr.onOwn x.cfg.family.hasLfoPan x.chip.fnH c (x.ch c) i) ((x.applyWrite i).ch c) := by
  cases i with
  | dtMul d m data => rw [Instance.applyWrite, Instance.writeDtMul_eq]; exact x.own_writeOperator _ _ c d m _ fun _ => rfl
  | tl d m data => rw [Instance.applyWrite, Instance.writeTl_eq]; exact x.own_writeOperator _ _ c d m _ id
  | ksAr d m data =>
    rw [Instance.applyWrite, Instance.writeKsAr_eq]
    exact x.own_writeOperator _ _ c d m _ fun hd => by rw [hd, Bool.true_or]
  | amD1r d m data => rw [Instance.applyWrite, Instance.writeAmD1r_eq]; exact x.own_writeOperator _ _ c d m _ id
  | d2r d m data => rw [Instance.applyWrite, Instance.writeD2r_eq]; exact x.own_writeOperator _ _ c d m _ id
  | slRr d m data => rw [Instance.applyWrite, Instance.writeSlRr_eq]; exact x.own_writeOperator _ _ c d m _ id
  | ssgEg d m data => rw [Instance.applyWrite, Instance.writeSsgEg_eq]; exact x.own_writeOperator _ _ c d m _ id
  | keyOnOff data => exact absurd rfl (h data)
  | lfoCtrl data =>
    simp only [Instance.applyWrite, Instance.writeLfoCtrl]
    split <;> exact OwnFieldsOf.refl _
  | modeTimer data =>
    rw [Instance.applyWrite, Instance.ch_writeModeTimer]
    split
    next hc => subst hc; exact ⟨rfl, fun hd => Bool.or_eq_true_iff.mpr (.inl hd)⟩
    next => exact OwnFieldsOf.refl _
  | fnumLo d data =>
    rw [Instance.applyWrite, Instance.writeFnumLo, Instance.ch_updCh, Instr.onOwn]
    split
    next hc => subst hc; exact ⟨rfl, fun _ => rfl⟩
    next => exact OwnFieldsOf.refl _
  | fbAlgo d data =>
    rw [Instance.applyWrite, Instance.writeFbAlgo, Instance.ch_updCh, Instr.onOwn]
    split
    next hc => subst hc; exact ⟨rfl, id⟩
    next => exact OwnFieldsOf.refl _
  | sl3FnumLo e data =>
    rw [Instance.applyWrite, Instance.ch_writeSl3FnumLo]
    split
    next hc => subst hc; exact ⟨rfl, fun _ => rfl⟩
    next => exact OwnFieldsOf.refl _
  | panAmsPms d data =>
    by_cases hpan : x.cfg.family.hasLfoPan = true
    · simp only [Instance.applyWrite, Instance.writePanAmsPms, Instr.onOwn, hpan, true_and, if_true]
      rw [Instance.ch_updCh]
      split
      next hc => subst hc; exact ⟨rfl, id⟩
      next => exact OwnFieldsOf.refl _
    · simp only [Instance.applyWrite, Instance.writePanAmsPms, Instr.onOwn, hpan]
      exact OwnFieldsOf.refl _
  | _ => exact OwnFieldsOf.refl _

end Sys2Proof.Machine
end

section
/-! PROOFS. RESTORE's shadow and what it does not restore (46_channel_mix.md R375). -/

namespace Sys2Proof.Machine

/-! ### What a replayed write leaves -/

/-- A register write leaves a channel that it does not reach, channel 2 left out. -/
theorem Instance.ch_applyWrite_of_ne (x : Instance) {i : Instr} {c : Chan} (hkey : ∀ data, i ≠ .keyOnOff data)
    (hreach : writeChannelOf i ≠ some c) (htwo : c ≠ .ch2) : (x.applyWrite i).ch c = x.ch c := by
  have hne {d : Chan} (h : some d ≠ some c) : c ≠ d := fun e => h (congrArg some e.symm)
  cases i with
  | dtMul d m data => rw [Instance.applyWrite, Instance.writeDtMul_eq, Instance.ch_writeOperator_of_ne]; exact hne hreach
  | tl d m data => rw [Instance.applyWrite, Instance.writeTl_eq, Instance.ch_writeOperator_of_ne]; exact hne hreach
  | ksAr d m data => rw [Instance.applyWrite, Instance.writeKsAr_eq, Instance.ch_writeOperator_of_ne]; exact hne hreach
  | amD1r d m data => rw [Instance.applyWrite, Instance.writeAmD1r_eq, Instance.ch_writeOperator_of_ne]; exact hne hreach
  | d2r d m data => rw [Instance.applyWrite, Instance.writeD2r_eq, Instance.ch_writeOperator_of_ne]; exact hne hreach
  | slRr d m data => rw [Instance.applyWrite, Instance.writeSlRr_eq, Instance.ch_writeOperator_of_ne]; exact hne hreach
  | ssgEg d m data => rw [Instance.applyWrite, Instance.writeSsgEg_eq, Instance.ch_writeOperator_of_ne]; exact hne hreach
  | fnumLo d data => exact (Instance.ch_updCh ..).trans (if_neg (hne hreach))
  | fbAlgo d data => exact (Instance.ch_updCh ..).trans (if_neg (hne hreach))
  | panAmsPms d data =>
    rw [Instance.applyWrite, Instance.writePanAmsPms]
    split
    · exact (Instance.ch_updCh ..).trans (if_neg (hne hreach))
    · rfl
  | sl3FnumLo e data => exact (x.ch_writeSl3FnumLo e data c).trans (if_neg htwo)
  | modeTimer data => exact (x.ch_writeModeTimer data c).trans (if_neg htwo)
  | keyOnOff data => exact absurd rfl (hkey data)
  | lfoCtrl data =>
    rw [Instance.applyWrite, Instance.writeLfoCtrl]
    split <;> rfl
  | _ => rfl

theorem Instr.onOwn_history (pan : Bool) (fnH : BitVec 6) (c : Chan) (h : Channel) (i : Instr) :
    SameHistory h (Instr.onOwn pan fnH c h i) := by
  cases i with
  | fnumLo d data => rw [Instr.onOwn]; split <;> exact ⟨rfl, rfl, rfl⟩
  | fbAlgo d data => rw [Instr.onOwn]; split <;> exact ⟨rfl, rfl, rfl⟩
  | panAmsPms d data => rw [Instr.onOwn]; split <;> exact ⟨rfl, rfl, rfl⟩
  | _ => exact SameHistory.refl h

theorem OwnFieldsOf.history {h k : Channel} (hk : OwnFieldsOf h k) : SameHistory h k :=
  ⟨(congrArg Channel.op1Out0 hk.1 :), (congrArg Channel.op1Out1 hk.1 :), (congrArg Channel.memValue hk.1 :)⟩

/-- A register write leaves the history of every channel (43_channel_regs.md R245). -/
theorem Instance.applyWrite_history (x : Instance) {i : Instr} (h : ∀ data, i ≠ .keyOnOff data) (c : Chan) :
    SameHistory (x.ch c) ((x.applyWrite i).ch c) :=
  (Instr.onOwn_history ..).trans (x.own_applyWrite h c).history

/-- A shadow that holds the array's bytes at the mapped addresses is left by every replayed write. -/
theorem Instance.applyWrite_reg_of_replayable {y : Instance} {bytes : List Byte} {i : Instr}
    (hi : Replayable y.cfg.family bytes i) (hwf : y.reg.wf = true)
    (hbytes : ∀ a, mappedAt y.cfg.family a = true → y.reg.read a.toNat = byteAt bytes a) :
    (y.applyWrite i).reg = y.reg := by
  obtain ⟨a, ha, hm⟩ := hi.byte
  rw [Instance.applyWrite_reg y i hi.wf, hi.notIgnored, ha, if_neg Bool.false_ne_true]
  dsimp only
  refine Memory.eq_of_read (Memory.write_wf hwf) hwf fun n => ?_
  rw [Memory.read_write hwf]
  split
  next hn => rw [hn, hbytes a hm]
  next => rfl

/-! ### RESTORE -/

/-- The shadow after the first loop, at the mapped addresses and elsewhere (46_channel_mix.md R375). -/
theorem Instance.restoreShadow_mapped (x : Instance) (bytes : List Byte) (hwf : x.reg.wf = true) (a : BitVec 9) :
    (x.restoreShadow bytes).reg.read a.toNat =
      if mappedAt x.cfg.family a then byteAt bytes a else x.reg.read a.toNat := by
  obtain ⟨-, hin, hout⟩ := x.restoreShadow_read bytes hwf a.toNat
  split
  next h => exact hin ⟨a, inSpace_of_mappedAt h, h, rfl⟩
  next h =>
    refine hout fun ⟨b, _, hb, hab⟩ => h ?_
    rwa [BitVec.eq_of_toNat_eq hab]

/-- The replay leaves the shadow as the first loop made it. -/
theorem Instance.restore_reg {x : Instance} (bytes : List Byte) (hwf : x.reg.wf = true) :
    (x.restore bytes).reg = (x.restoreShadow bytes).reg := by
  have hcfg : (x.restoreShadow bytes).cfg = x.cfg := by rw [Instance.restoreShadow_rest]
  rw [Instance.restore_eq, ← hcfg]
  refine Instance.replay_induction (P := fun y => y.reg = (x.restoreShadow bytes).reg) (fun _ ha => ha) rfl
    fun y i hy hi hreg => ?_
  rw [← hy] at hi
  rw [Instance.applyWrite_reg_of_replayable hi, hreg] <;> rw [hreg]
  · exact (x.restoreShadow_read bytes hwf 0).1
  · intro a ha
    rw [x.restoreShadow_mapped bytes hwf, if_pos]
    rwa [hy, hcfg] at ha

/-- What RESTORE keeps of an instance but for its shadow, the replayed writes kept. -/
theorem Instance.restore_induction {P : Instance → Prop} {x : Instance} (bytes : List Byte)
    (hx : P { x with reg := (x.restoreShadow bytes).reg })
    (hstep : ∀ y i, y.cfg = x.cfg → Replayable x.cfg.family bytes i → P y → P (y.applyWrite i)) : P (x.restore bytes) := by
  rw [Instance.restore_eq, Instance.restoreShadow_rest]
  exact Instance.replay_induction (x := { x with reg := (x.restoreShadow bytes).reg }) (fun _ ha => ha) hx hstep

theorem Instance.restore_history (x : Instance) (bytes : List Byte) (c : Chan) :
    SameHistory (x.ch c) ((x.restore bytes).ch c) :=
  Instance.restore_induction (P := fun y => SameHistory (x.ch c) (y.ch c)) bytes (SameHistory.refl _)
    fun y _ _ hi hy => hy.trans (y.applyWrite_history hi.notKey c)

theorem Instance.restore_clocks (x : Instance) (bytes : List Byte) : SameClocks x.chip (x.restore bytes).chip :=
  Instance.restore_induction (P := fun y => SameClocks x.chip y.chip) bytes (SameClocks.refl _)
    fun y i _ _ hy => hy.trans (y.applyWrite_clocks i)

theorem Instance.restore_sameOutside (x : Instance) (bytes : List Byte) : SameOutside x (x.restore bytes) :=
  Instance.restore_induction (P := SameOutside x) bytes ⟨rfl, rfl, rfl⟩ fun y i _ _ hy => by
    obtain ⟨hcfg, hl, hr⟩ := y.applyWrite_sameOutside i
    exact ⟨hcfg.trans hy.cfg, hl.trans hy.postL, hr.trans hy.postR⟩

/-- RESTORE leaves the channels the family does not have: no replayed write reaches one. -/
theorem Instance.restore_absent {x : Instance} (bytes : List Byte) {c : Chan} (hc : x.live c = false) :
    (x.restore bytes).ch c = x.ch c := by
  refine Instance.restore_induction (P := fun y => y.ch c = x.ch c) bytes rfl fun y i _ hi hy => ?_
  rw [y.ch_applyWrite_of_ne hi.notKey (fun hreach => ?_) fun h2 => ?_, hy]
  · exact absurd (writeChannelOf_present hi.wf hreach) (by rw [show c.present x.cfg.family.six = false from hc]; decide)
  · rw [h2] at hc
    exact absurd hc nofun

/-- Settles O36: each part of the frame is kept by every replayed write, and the shadow is that of the first loop. -/
theorem restoreTakesTheShadow : Obligations.RestoreTakesTheShadow := by
  intro s bytes hwf hlen
  obtain ⟨h1, h2, h3, h4, h5⟩ := s.self.restore_clocks bytes
  refine ⟨{ s with self := s.self.restore bytes }, if_pos (by rw [registerSpace_length, hlen]), sameAround_self s _,
    s.self.restore_sameOutside bytes, fun n hn => ?_, fun a => ?_, s.self.restore_sameMotion bytes, fun c => ?_,
    fun c => Instance.restore_absent bytes, h1, h2, h3, h4, h5⟩
  · dsimp only
    rw [Instance.restore_reg bytes hwf]
    exact (s.self.restoreShadow_read bytes hwf n).2.2 fun ⟨a, _, _, e⟩ => hn a e
  · dsimp only
    rw [Instance.restore_reg bytes hwf]
    exact s.self.restoreShadow_mapped bytes hwf a
  · obtain ⟨h1, h2, h3⟩ := s.self.restore_history bytes c
    exact ⟨h1, h2, h3⟩

end Sys2Proof.Machine
end

section
/-! PROOFS. Silence after RESET (46_channel_mix.md R377): an instance no operator of which was keyed on stays silent under
every instruction that keys none on, and adds nothing to a buffer. -/

namespace Sys2Proof.Machine

/-! ### A silent operator -/

/-- An operator that is OFF, as RESET leaves it, but for its register fields and what it computes. -/
structure SilentOperator (o : Operator) : Prop where
  state : o.state = .off
  key : o.key = false
  volume : o.volume = 1023
  volOut : 832 ≤ o.volOut

theorem SilentOperator.egStep {o : Operator} (h : SilentOperator o) (p : FamilyParams) (t : BitVec 32) :
    SilentOperator (o.egStep p t) := by
  rw [Operator.egStep_eq (Operator.egBranch_off h.state)]
  refine ⟨h.state, h.key, h.volume, ?_⟩
  change 832 ≤ o.attenuation
  rw [Operator.attenuation, h.state, EgState.pastRel_off, Bool.and_false, if_neg Bool.false_ne_true, h.volume]
  omega

theorem SilentOperator.of_motion {o p : Operator} (h : SilentOperator o) (hm : SameOperatorMotion o p) :
    SilentOperator p :=
  ⟨hm.state.trans h.state, hm.key.trans h.key, hm.volume.trans h.volume, hm.volOut ▸ h.volOut⟩

/-! ### A silent channel -/

/-- The accumulators at their start. -/
def Accs.zero : Accs := ⟨0, 0, 0, 0, 0⟩

theorem Accs.set_zero (a : Acc) : Accs.zero.set a 0 = Accs.zero := by cases a <;> rfl

theorem Accs.add_zero (a : Acc) : Accs.zero.add a 0 = Accs.zero := by cases a <;> rfl

theorem Accs.routeOp1_zero (d : Option Acc) : Accs.zero.routeOp1 d 0 = Accs.zero := by
  cases d with
  | none => rfl
  | some a => exact Accs.add_zero a

/-- A channel of silent operators with nothing in its history or its delay. -/
structure SilentChannel (h : Channel) : Prop where
  ops : ∀ n, SilentOperator (h.ops.get n)
  op1Out0 : h.op1Out0 = 0
  op1Out1 : h.op1Out1 = 0
  memValue : h.memValue = 0

/-- Whatever the algorithm, such a channel adds up nothing (46_channel_mix.md R366). -/
theorem SilentChannel.accumulate {h : Channel} (hs : SilentChannel h) (lfoAm : Nat) :
    h.accumulate lfoAm = Accs.zero := by
  have hquiet (n : OpNum) (off : Int) : heardSample lfoAm h n off = 0 := heardSample_quiet (hs.ops n).volOut lfoAm off
  have hzero : Accs.mk 0 0 0 0 0 = Accs.zero := rfl
  simp only [Channel.accumulate_of_route rfl, hquiet, hs.memValue, hs.op1Out1, hzero, Accs.set_zero,
    Accs.routeOp1_zero, Accs.add_zero]

/-- Its history and its delay stay empty (46_channel_mix.md R366, R367). -/
theorem SilentChannel.afterCalc {h : Channel} (hs : SilentChannel h) (lfoAm : Nat) :
    (h.afterCalc lfoAm).op1Out0 = 0 ∧ (h.afterCalc lfoAm).op1Out1 = 0 ∧ (h.afterCalc lfoAm).memValue = 0 := by
  refine ⟨hs.op1Out1, ?_, ?_⟩
  · rw [Channel.afterCalc_op1Out1, Channel.opSample_eq_heardSample]
    exact heardSample_quiet (hs.ops .op1).volOut lfoAm _
  · rw [Channel.afterCalc_memValue, hs.accumulate]
    rfl

/-! ### A silent instance -/

/-- An instance no operator of which was keyed on since RESET, and on which CSM keys none on. -/
structure Silent (x : Instance) : Prop where
  post : x.cfg.post = .identity
  chans : ∀ c, SilentChannel (x.ch c)
  csm : x.chip.csm = false ∨ x.chip.taCnt = 0

theorem Silent.reset {x : Instance} (h : x.cfg.post = .identity) : Silent x.reset := by
  rw [Instance.reset_eq]
  refine ⟨h, fun c => ?_, .inr rfl⟩
  have hch : ({ Instance.afterReset x.cfg with postL := x.postL, postR := x.postR } : Instance).ch c = Channel.initial :=
    Six.get_fill ..
  rw [hch]
  refine ⟨fun n => ?_, rfl, rfl, rfl⟩
  have hop : Channel.initial.ops.get n = Operator.initial := Quad.get_fill ..
  rw [hop]
  exact ⟨rfl, rfl, rfl, by decide⟩

section
variable {x : Instance}

/-- The configuration, the channels, the mode and timer A's counter decide it. -/
theorem Silent.of_eq {y : Instance} (h : Silent x) (hcfg : y.cfg = x.cfg) (hchans : y.chans = x.chans)
    (hmode : y.chip.mode = x.chip.mode) (hcnt : y.chip.taCnt = x.chip.taCnt) : Silent y := by
  refine ⟨hcfg ▸ h.post, fun c => ?_, ?_⟩
  · rw [Instance.ch, hchans]; exact h.chans c
  · rw [Chip.csm, hmode, hcnt]; exact h.csm

/-! ### Sample steps -/

theorem Silent.prepared_chans (h : Silent x) (c : Chan) : SilentChannel (x.prepared.ch c) := by
  obtain ⟨h0, h1, hm⟩ := x.prepared_history c
  refine ⟨fun n => ?_, h0.trans (h.chans c).op1Out0, h1.trans (h.chans c).op1Out1, hm.trans (h.chans c).memValue⟩
  obtain ⟨incr, ksr, e⟩ := x.op_prepared c n
  change SilentOperator (x.prepared.op c n)
  rw [e]
  obtain ⟨ha, hb, hc, hd⟩ := (h.chans c).ops n
  exact ⟨ha, hb, hc, hd⟩

/-- Every channel's output is 0. -/
theorem Silent.outputs (h : Silent x) (c : Chan) : x.prepared.outputs.get c = 0 := by
  rw [Instance.get_outputs]
  split
  · rw [Channel.output, (h.prepared_chans c).accumulate]
    rfl
  · rfl

theorem sumOver_zero (sel : Chan → Bool) {out : Six Int} (h : ∀ c, out.get c = 0) : sumOver sel out = 0 := by
  have hs : out = Six.fill 0 := Six.ext_get fun c => (h c).trans (Six.get_fill ..).symm
  rw [hs]
  simp [sumOver, Six.fill]

/-- After its evaluation a channel's history and delay are still empty. -/
theorem Silent.chanCalc_history (h : Silent x) (c : Chan) :
    (x.prepared.chanCalc.ch c).op1Out0 = 0 ∧ (x.prepared.chanCalc.ch c).op1Out1 = 0
      ∧ (x.prepared.chanCalc.ch c).memValue = 0 := by
  have hc := h.prepared_chans c
  by_cases hlive : x.prepared.live c = true
  · rw [Instance.ch_chanCalc hlive]
    exact hc.afterCalc _
  · have hch : x.prepared.chanCalc.ch c = x.prepared.ch c := (Instance.ch_mapLive ..).trans (if_neg hlive)
    rw [hch]
    exact ⟨hc.op1Out0, hc.op1Out1, hc.memValue⟩

/-- A stopped timer A stays stopped (60_exceptions.md R430). -/
theorem Instance.sampleStep_stopped (h : x.chip.taCnt = 0) : x.sampleStep.chip.taCnt = 0 := by
  have hcnt := x.beforeTimerA_kept.2.trans h
  rw [Instance.sampleStep_eq, Instance.timerAStep, if_pos hcnt, hcnt]

theorem Silent.sampleStep (h : Silent x) : Silent x.sampleStep := by
  have hframe := GenerateFramed.sampleStep x
  refine ⟨hframe.cfg ▸ h.post, fun c => ?_, ?_⟩
  · obtain ⟨h0, h1, hm⟩ := x.sampleStep_history c
    obtain ⟨h0', h1', hm'⟩ := h.chanCalc_history c
    refine ⟨fun n => ?_, h0.trans h0', h1.trans h1', hm.trans hm'⟩
    refine Instance.sampleStep_op (P := SilentOperator) (fun _ _ _ ho => ⟨ho.state, ho.key, ho.volume, ho.volOut⟩)
      (fun _ _ ho => ⟨ho.state, ho.key, ho.volume, ho.volOut⟩) (fun _ t ho => ho.egStep _ t) (fun hrun hon => ?_)
      ((h.chans c).ops n)
    rcases h.csm with hoff | hstop
    · exact absurd (hoff.symm.trans hon) Bool.false_ne_true
    · exact absurd hstop hrun
  · rw [Chip.csm, hframe.chip.mode]
    exact h.csm.imp_right Instance.sampleStep_stopped

/-- Adding 0 to a buffer value leaves it (46_channel_mix.md R376). -/
theorem addClipped_zero (b : Sample) : addClipped b 0 = b := by
  have hlo : -32768 ≤ b.toInt := BitVec.le_toInt b
  have hhi : b.toInt < 32768 := BitVec.toInt_lt
  have hclip : clip16 (b.toInt + 0) = b.toInt := by
    unfold clip16
    omega
  rw [addClipped, hclip, BitVec.ofInt_toInt]

theorem Silent.mixedValue (h : Silent x) (vp lb : Int) (side : Side) : mixedValue vp lb x side = 0 := by
  cases side <;> simp only [Machine.mixedValue, h.post, hostPost] <;> exact sumOver_zero _ h.outputs

/-- The loop of GENERATE leaves the instance silent and the buffer as it was. -/
theorem Silent.mixSteps (h : Silent x) (vp lb : Int) {n : Nat} {buf : List Sample} (hbuf : 2 * n ≤ buf.length) :
    Silent (Instance.mixSteps vp lb n x buf).1 ∧ (Instance.mixSteps vp lb n x buf).2 = buf := by
  induction n generalizing x buf with
  | zero => exact ⟨h, rfl⟩
  | succ n ih =>
    obtain ⟨bl, br, rest, rfl, hrest⟩ := exists_pair_of_le hbuf
    rw [Instance.mixSteps_cons, mixedInstance_identity h.post, h.mixedValue, h.mixedValue, addClipped_zero,
      addClipped_zero]
    obtain ⟨hx, hb⟩ := ih h.sampleStep hrest
    exact ⟨hx, by rw [hb]⟩

/-- Timer B's step touches neither the channels nor what CSM looks at (60_exceptions.md R432). -/
theorem Silent.timerBStep (h : Silent x) (n : Nat) : Silent (x.timerBStep n) := by
  rcases x.timerBStep_cases n with ⟨-, e⟩ | ⟨-, -, e⟩ | ⟨-, -, e⟩ <;> rw [e]
  · exact h
  · exact h.of_eq rfl rfl rfl rfl
  · refine h.of_eq (x.overflow_cfg .b _) (x.overflow_chans .b _) (GenerateFramed.overflow x .b _).chip.mode ?_
    rw [Instance.overflow_eq]
    split
    · rw [Instance.setFlag_eq]; rfl
    · rfl

/-! ### Instructions -/

/-- A key write without a gate bit keys no operator on (41_global_regs.md R185). -/
theorem keyGateField_low {data : Byte} (h : data.toNat < 16) (n : OpNum) : keyGateField data n = false := by
  rw [keyGateField_eq, bitOf]
  have hpow : 16 ≤ 2 ^ (3 + opNumber n) := by cases n <;> decide
  rw [Nat.div_eq_of_lt (Nat.lt_of_lt_of_le h hpow)]
  rfl

theorem SilentChannel.keyGates {h : Channel} (hs : SilentChannel h) (p : FamilyParams) {data : Byte}
    (hdata : data.toNat < 16) : SilentChannel (h.keyGates p data) := by
  refine ⟨fun n => ?_, hs.op1Out0, hs.op1Out1, hs.memValue⟩
  have hop : (h.keyGates p data).ops.get n = h.ops.get n := by
    rw [Channel.keyGates, Quad.get_tabulate, Operator.gate, keyGateField_low hdata, if_neg Bool.false_ne_true,
      Operator.keyOff_free _ (hs.ops n).key]
  rw [hop]
  exact hs.ops n

theorem Silent.writeKeyOnOff (h : Silent x) {data : Byte} (hdata : data.toNat < 16) : Silent (x.writeKeyOnOff data) := by
  cases hc : keyChannel x.cfg.family.six data with
  | none => rw [Instance.writeKeyOnOff_of_none hc]; exact h.of_eq rfl rfl rfl rfl
  | some d =>
    rw [Instance.writeKeyOnOff_of_some hc]
    refine ⟨h.post, fun c => ?_, h.csm⟩
    rw [Instance.ch_updCh]
    split
    · exact (h.chans d).keyGates _ hdata
    · exact h.chans c

/-- A mode byte that does not turn CSM on, or stops timer A (41_global_regs.md R184). -/
theorem writeModeTimer_csm (x : Instance) {data : Byte} (h : canKeyOn (.modeTimer data) = false) :
    (x.writeModeTimer data).chip.csm = false ∨ (x.writeModeTimer data).chip.taCnt = 0 := by
  obtain ⟨_, _, _, e⟩ := x.writeModeTimer_chip data
  rw [e]
  rcases (Bool.and_eq_false_iff ..).mp h with h | h
  · exact .inl ((getLsbD_eq_bitOf data 7).trans h)
  · refine .inr ?_
    change loadedCount (loadField data .a) _ _ = 0
    rw [loadField_a, h]
    rfl

/-- A register write that keys no operator on keeps an instance silent. -/
theorem Silent.applyWrite (h : Silent x) {i : Instr} (hi : canKeyOn i = false) : Silent (x.applyWrite i) := by
  by_cases hkey : ∃ data, i = .keyOnOff data
  · obtain ⟨data, rfl⟩ := hkey
    exact h.writeKeyOnOff (Nat.not_le.mp (of_decide_eq_false hi))
  · have hkey : ∀ data, i ≠ .keyOnOff data := fun data e => hkey ⟨data, e⟩
    refine ⟨by rw [Instance.applyWrite_cfg]; exact h.post, fun c => ?_, ?_⟩
    · obtain ⟨h0, h1, hm⟩ := x.applyWrite_history hkey c
      exact ⟨fun n => ((h.chans c).ops n).of_motion (x.applyWrite_sameMotion hkey c n), h0.trans (h.chans c).op1Out0,
        h1.trans (h.chans c).op1Out1, hm.trans (h.chans c).memValue⟩
    · by_cases hmode : ∃ data, i = .modeTimer data
      · obtain ⟨data, rfl⟩ := hmode
        exact writeModeTimer_csm x hi
      · rw [x.applyWrite_chip fun data e => hmode ⟨data, e⟩, Chip.csm, (Instr.onChip_modeTimer ..).mode,
          (Instr.onChip_modeTimer ..).taCnt]
        exact h.csm

/-- A replayed write keys an operator on only where its RESTORE may. -/
theorem canKeyOn_of_replayable {f : Family} {bytes : List Byte} {i : Instr} (hi : Replayable f bytes i)
    (hbytes : canKeyOn (.restore bytes) = false) : canKeyOn i = false := by
  obtain ⟨a, ha, -⟩ := hi.byte
  cases i with
  | modeTimer data =>
    obtain ⟨rfl, rfl⟩ := Prod.mk.injEq .. ▸ Option.some.inj ha
    exact hbytes
  | keyOnOff data => exact absurd rfl (hi.notKey data)
  | restore _ => cases ha
  | _ => rfl

theorem Silent.restore (h : Silent x) {bytes : List Byte} (hbytes : canKeyOn (.restore bytes) = false) :
    Silent (x.restore bytes) :=
  Instance.restore_induction (P := Silent) bytes (h.of_eq rfl rfl rfl rfl)
    fun _ _ _ hi hy => hy.applyWrite (canKeyOn_of_replayable hi hbytes)

end

/-- An instruction that keys no operator on keeps the instance operated on silent. -/
theorem Silent.exec {s t : State} (h : Silent s.self) {i : Instr} (hi : canKeyOn i = false)
    (hexec : exec i s = .next t) : Silent t.self := by
  by_cases hw : isWrite i = true
  · obtain ⟨-, rfl⟩ := exec_write hw hexec
    exact h.applyWrite hi
  · rcases exec_other (by simpa using hw) hexec with ⟨_, _, _, -, rfl⟩ | ⟨_, _, _, _, _, _, -, -, -, -, rfl⟩ |
      ⟨-, rfl⟩ | ⟨count, vp, lb, buf, -, h0, hbuf, rfl⟩ | ⟨_, -, rfl⟩ | ⟨-, rfl⟩ | ⟨bytes, rfl, -, rfl⟩
    · exact h
    · exact h
    · exact Silent.reset h.post
    · exact (h.mixSteps vp lb (by omega)).1.timerBStep _
    · exact h
    · exact h
    · exact h.restore hi

theorem Silent.execAll {s t : State} (h : Silent s.self) {l : List Instr} (hl : ∀ i ∈ l, canKeyOn i = false)
    (hexec : execAll l s = some t) : Silent t.self := by
  induction l generalizing s with
  | nil =>
    obtain rfl := Option.some.inj hexec
    exact h
  | cons i l ih =>
    rw [Machine.execAll] at hexec
    cases hi : Machine.exec i s with
    | next u =>
      rw [hi] at hexec
      exact ih (h.exec (hl i List.mem_cons_self) hi) (fun j hj => hl j (List.mem_cons_of_mem i hj)) hexec
    | _ => rw [hi] at hexec; cases hexec

/-- Settles O56: RESET leaves a silent instance, the instructions keep it silent, and GENERATE adds 0 to every value. -/
theorem silenceAfterReset : Obligations.SilenceAfterReset := by
  intro s t l count vp lb buf hpost hexec hl h0 hbuf
  have ht : Silent t.self := Silent.execAll (s := { s with self := s.self.reset }) (Silent.reset hpost) hl hexec
  lift count to Nat using h0
  have hlen : 2 * count ≤ buf.length := by omega
  exact ⟨_, exec_generate_next count vp lb buf t hlen, (ht.mixSteps vp lb hlen).2⟩

end Sys2Proof.Machine
end

section
/-! PROOFS. The register fields after RESTORE (46_channel_mix.md R375): each record sees the writes of its own registers
only, so its fields are a fold over those few addresses. -/

namespace Sys2Proof.Machine

/-! ### A fold seen through a projection -/

/-- A fold seen through a projection that only some elements change is a fold over those elements. -/
theorem foldl_filter_proj {α β γ : Type} {f : β → α → β} {proj : β → γ} {step : γ → α → γ} {p : α → Bool} {I : β → Prop}
    {l : List α} {x : β} (hx : I x) (hkeep : ∀ y, I y → ∀ a ∈ l, I (f y a))
    (hin : ∀ y, I y → ∀ a ∈ l, p a = true → proj (f y a) = step (proj y) a)
    (hout : ∀ y, I y → ∀ a ∈ l, p a = false → proj (f y a) = proj y) :
    proj (l.foldl f x) = (l.filter p).foldl step (proj x) := by
  induction l generalizing x with
  | nil => rfl
  | cons a l ih =>
    have hmem := List.mem_cons_self (a := a) (l := l)
    rw [List.foldl_cons, ih (hkeep x hx a hmem) (fun y hy b hb => hkeep y hy b (List.mem_cons_of_mem a hb))
      (fun y hy b hb => hin y hy b (List.mem_cons_of_mem a hb)) fun y hy b hb => hout y hy b (List.mem_cons_of_mem a hb)]
    cases hp : p a with
    | true => rw [List.filter_cons_of_pos hp, List.foldl_cons, hin x hx a hmem hp]
    | false => rw [List.filter_cons_of_neg (by rw [hp]; decide), hout x hx a hmem hp]

/-! ### The replay, register by register -/

/-- The addresses RESTORE writes for one replayed address: its latch first, if it has one (46_channel_mix.md R375). -/
def block (a : BitVec 9) : List (BitVec 9) :=
  (if isFnumLow a then [a + 4] else []) ++ [a]

theorem block_of_low {a : BitVec 9} (h : isFnumLow a = true) : block a = [a + 4, a] := by rw [block, if_pos h]; rfl

theorem block_of_not_low {a : BitVec 9} (h : isFnumLow a = false) : block a = [a] := by
  rw [block, if_neg (by rw [h]; decide)]; rfl

/-- A low-byte register and its latch lie among the frequency registers (43_channel_regs.md R240, R242). -/
theorem isFnumLow_range : ∀ a : BitVec 9, isFnumLow a = true →
    0xA0 ≤ a.toNat % 256 ∧ a.toNat % 256 ≤ 0xAA ∧ 0xA4 ≤ (a + 4).toNat % 256 ∧ (a + 4).toNat % 256 ≤ 0xAE :=
  bitVec_forall (by decide +kernel)

/-- The register space is in ascending order (20_memory.md R80). -/
theorem registerSpace_pairwise (f : Family) : (registerSpace f).Pairwise (· < ·) := by
  have hlen : (if f.six then 512 else 256) ≤ 512 := by cases f <;> decide
  refine List.pairwise_map.mpr (List.pairwise_lt_range.imp_of_mem fun {m n} hm hn h => ?_)
  rw [List.mem_range] at hm hn
  rw [BitVec.lt_def, BitVec.toNat_ofNat, BitVec.toNat_ofNat, Nat.mod_eq_of_lt (by omega), Nat.mod_eq_of_lt (by omega)]
  exact h

/-- Of the replayed addresses, those of an ascending list of replayed addresses are that list. -/
theorem filter_isReplayed {f : Family} {l : List (BitVec 9)} (hsorted : l.Pairwise (· < ·))
    (hl : ∀ a ∈ l, isReplayed f a = true) :
    ((registerSpace f).filter (isReplayed f)).filter (fun a => l.contains a) = l := by
  refine (((registerSpace_pairwise f).filter _).filter _).eq_of_mem_iff hsorted fun a => ?_
  simp only [List.mem_filter, List.contains_iff_mem, mem_registerSpace]
  refine ⟨fun h => h.2, fun h => ⟨⟨?_, hl a h⟩, h⟩⟩
  have hm := hl a h
  simp only [isReplayed, Bool.and_eq_true] at hm
  exact inSpace_of_mappedAt hm.1.1

/-- What the replay keeps of an instance: the configuration, and the reported level as the status's. -/
structure Replaying (x y : Instance) : Prop where
  cfg : y.cfg = x.cfg
  irq : y.chip.irq = y.chip.level

theorem Instance.writeModeTimer_irq {y : Instance} (h : y.chip.irq = y.chip.level) (data : Byte) :
    (y.writeModeTimer data).chip.irq = (y.writeModeTimer data).chip.level := by
  rw [Instance.writeModeTimer, Instance.modeActions_eq _ data (Instance.setMode_irq (x := y.store 0x027 data) data h)]
  rfl

theorem Replaying.applyWrite {x y : Instance} (h : Replaying x y) (i : Instr) : Replaying x (y.applyWrite i) := by
  refine ⟨(y.applyWrite_cfg i).trans h.cfg, ?_⟩
  by_cases hmode : ∃ data, i = .modeTimer data
  · obtain ⟨data, rfl⟩ := hmode
    exact Instance.writeModeTimer_irq h.irq data
  · obtain ⟨hstatus, hirq, -⟩ := y.applyWrite_flags fun data e => hmode ⟨data, e⟩
    rw [hirq, h.irq, Chip.level, Chip.level, hstatus]

theorem Replaying.replay {x y : Instance} (h : Replaying x y) (bytes : List Byte) (l : List (BitVec 9)) :
    Replaying x (y.replay bytes l) := by
  induction l generalizing y with
  | nil => exact h
  | cons a l ih => exact ih (h.applyWrite _)

/-- A part of the instance that only the blocks of an ascending list of addresses change: after RESTORE it is a fold over
that list. -/
theorem Instance.restore_proj {γ : Type} {x : Instance} {bytes : List Byte} (hirq : x.chip.irq = x.chip.level)
    (proj : Instance → γ) (step : γ → BitVec 9 → γ) {l : List (BitVec 9)}
    (hreg : proj { x with reg := (x.restoreShadow bytes).reg } = proj x)
    (hsorted : l.Pairwise (· < ·)) (hl : ∀ a ∈ l, isReplayed x.cfg.family a = true)
    (hin : ∀ y, Replaying x y → ∀ a ∈ l, proj (y.replay bytes (block a)) = step (proj y) a)
    (hout : ∀ y, Replaying x y → ∀ a, isReplayed x.cfg.family a = true → a ∉ l →
      proj (y.replay bytes (block a)) = proj y) :
    proj (x.restore bytes) = l.foldl step (proj x) := by
  have hfold : x.restore bytes = ((registerSpace x.cfg.family).filter (isReplayed x.cfg.family)).foldl
      (fun y a => y.replay bytes (block a)) { x with reg := (x.restoreShadow bytes).reg } := by
    rw [Instance.restore_eq, replayAddrs, Instance.replay, List.foldl_flatMap, ← Instance.restoreShadow_rest]
    rfl
  have hx : Replaying x { x with reg := (x.restoreShadow bytes).reg } := ⟨rfl, hirq⟩
  rw [hfold, foldl_filter_proj (p := fun a => l.contains a) hx (fun y hy a _ => hy.replay bytes (block a))
    (fun y hy a _ ha => hin y hy a (List.contains_iff_mem.mp ha))
    (fun y hy a ha hna => hout y hy a (List.mem_filter.mp ha).2 fun h => ?_), filter_isReplayed hsorted hl, hreg]
  rw [List.contains_iff_mem.mpr h] at hna
  exact absurd hna (by decide)

/-- The instruction of an address is the family's, whatever else the instance holds. -/
theorem Replaying.decodeAt {x y : Instance} (h : Replaying x y) (a : BitVec 9) (data : Byte) :
    y.decodeAt a data = x.decodeAt a data := by
  rw [Instance.decodeAt, Instance.decodeAt, h.cfg]

/-- A replayed address decodes to a write to it, of the array's byte (30_encoding.md R100). -/
theorem Instance.addressData_decodeAt (x : Instance) (bytes : List Byte) {a : BitVec 9}
    (ha : isReplayed x.cfg.family a = true) :
    (x.decodeAt a (byteAt bytes a)).addressData = some (a, byteAt bytes a) := by
  have hm : mappedAt x.cfg.family a = true := by
    simp only [isReplayed, Bool.and_eq_true] at ha
    exact ha.1.1
  have h := (decodeRegister_addressData x.cfg.family.six x.cfg.family.hasLfoPan (a.getLsbD 8) (a.extractLsb' 0 8)
    (byteAt bytes a) (inSpace_of_mappedAt hm)).2
  rwa [address_split] at h

end Sys2Proof.Machine
end

section
/-! PROOFS. The register fields of operators and channels after RESTORE (46_channel_mix.md R375). -/

namespace Sys2Proof.Machine

/-! ### Operators -/

/-- The addresses of an operator's registers, in order (30_encoding.md R106). -/
def operatorAddrs (c : Chan) (n : OpNum) : List (BitVec 9) :=
  ([3, 4, 5, 6, 7, 8, 9] : List (BitVec 4)).map fun g => operatorAddr g c n

theorem operatorAddrs_sorted (c : Chan) (n : OpNum) : (operatorAddrs c n).Pairwise (· < ·) := by
  cases c <;> cases n <;> decide +kernel

/-- The registers of an operator the family has are replayed: they are mapped, between 0x30 and 0x9F. -/
theorem operatorAddrs_replayed {f : Family} {c : Chan} (hc : c.present f.six = true) (n : OpNum) {a : BitVec 9}
    (ha : a ∈ operatorAddrs c n) : isReplayed f a = true ∧ a.toNat % 256 < 0xA0 := by
  obtain ⟨g, hg, rfl⟩ := List.mem_map.mp ha
  have hgroup : ∀ g ∈ ([3, 4, 5, 6, 7, 8, 9] : List (BitVec 4)), (3 ≤ g.toNat ∧ g.toNat ≤ 9)
      ∧ 0x30 ≤ (operatorAddr g c n).toNat % 256 ∧ (operatorAddr g c n).toNat % 256 < 0xA0 := by
    cases c <;> cases n <;> decide +kernel
  obtain ⟨hrange, hlo, hhi⟩ := hgroup g hg
  refine ⟨?_, hhi⟩
  rw [isReplayed, mappedAt, mapped_operatorAddr _ _ c n g hc hrange, Bool.true_and, Bool.and_eq_true, decide_eq_true_eq,
    bne_iff_ne]
  omega

/-- A write to no register of an operator leaves its fields. -/
theorem Instr.onOperator_of_not_mem {c : Chan} {n : OpNum} {i : Instr} {a : BitVec 9} {data : Byte} (o : Operator)
    (hi : i.addressData = some (a, data)) (ha : a ∉ operatorAddrs c n) : Instr.onOperator c n o i = o := by
  have hne {g : BitVec 4} {d : Chan} {m : OpNum} {b : Byte} (hg : g ∈ ([3, 4, 5, 6, 7, 8, 9] : List (BitVec 4)))
      (h : some (operatorAddr g d m, b) = some (a, data)) : ¬(c = d ∧ n = m) := by
    rintro ⟨rfl, rfl⟩
    obtain ⟨rfl, -⟩ := Prod.mk.injEq .. ▸ Option.some.inj h
    exact ha (List.mem_map.mpr ⟨g, hg, rfl⟩)
  cases i with
  | dtMul d m b => exact if_neg (hne (by decide) hi)
  | tl d m b => exact if_neg (hne (by decide) hi)
  | ksAr d m b => exact if_neg (hne (by decide) hi)
  | amD1r d m b => exact if_neg (hne (by decide) hi)
  | d2r d m b => exact if_neg (hne (by decide) hi)
  | slRr d m b => exact if_neg (hne (by decide) hi)
  | ssgEg d m b => exact if_neg (hne (by decide) hi)
  | _ => rfl

/-- A replayed write does to an operator what its instruction does. -/
theorem Replaying.op_write {x y : Instance} (h : Replaying x y) {bytes : List Byte} {a : BitVec 9}
    (ha : isReplayed x.cfg.family a = true) (c : Chan) (n : OpNum) :
    (y.write a (byteAt bytes a)).op c n = Instr.onOperator c n (y.op c n) (x.decodeAt a (byteAt bytes a)) := by
  rw [Instance.write, h.decodeAt,
    y.op_applyWrite (replayable_decodeAt (x := x) bytes (mem_replayAddrs.mpr ha)).notKey]

/-- A replayed write to no register of an operator leaves it. -/
theorem Replaying.op_write_of_not_mem {x y : Instance} (h : Replaying x y) {bytes : List Byte} {a : BitVec 9}
    (ha : isReplayed x.cfg.family a = true) {c : Chan} {n : OpNum} (hna : a ∉ operatorAddrs c n) :
    (y.write a (byteAt bytes a)).op c n = y.op c n := by
  rw [h.op_write ha]
  exact Instr.onOperator_of_not_mem _ (x.addressData_decodeAt bytes ha) hna

/-- An operator after RESTORE: the writes to its own registers, in order. -/
theorem Instance.restore_op {x : Instance} (hirq : x.chip.irq = x.chip.level) (bytes : List Byte) {c : Chan} (n : OpNum)
    (hc : x.live c = true) :
    (x.restore bytes).op c n = (operatorAddrs c n).foldl
      (fun o a => Instr.onOperator c n o (x.decodeAt a (byteAt bytes a))) (x.op c n) := by
  refine Instance.restore_proj (x := x) hirq (fun y => y.op c n) _ rfl (operatorAddrs_sorted c n)
    (fun a ha => (operatorAddrs_replayed hc n ha).1) (fun y hy a ha => ?_) (fun y hy a ha hna => ?_)
  · obtain ⟨hrep, hlt⟩ := operatorAddrs_replayed hc n ha
    have hlow : isFnumLow a = false := Bool.eq_false_iff.mpr fun h => absurd (isFnumLow_range a h).1 (by omega)
    rw [block_of_not_low hlow]
    exact hy.op_write hrep c n
  · cases hlow : isFnumLow a with
    | false =>
      rw [block_of_not_low hlow]
      exact hy.op_write_of_not_mem ha hna
    | true =>
      have hlatch : a + 4 ∉ operatorAddrs c n := fun h => by
        have hlt := (operatorAddrs_replayed hc n h).2
        have hge := (isFnumLow_range a hlow).2.2.1
        omega
      rw [block_of_low hlow]
      exact ((hy.applyWrite _).op_write_of_not_mem ha hna).trans
        (hy.op_write_of_not_mem (latch_isReplayed hlow ha) hlatch)

/-- The instruction of a register's address (30_encoding.md R100). -/
theorem Instance.decodeAt_of_addressData (x : Instance) {i : Instr} {a : BitVec 9} {data : Byte}
    (hwf : i.wf x.cfg.family.six x.cfg.family.hasLfoPan = true) (hi : i.addressData = some (a, data)) :
    x.decodeAt a data = i :=
  (decodeRegister_of_addressData hwf hi).2

/-- Every register field of an operator after RESTORE is that of its byte (46_channel_mix.md R375). -/
theorem Instance.restore_op_fields {x : Instance} (hirq : x.chip.irq = x.chip.level) (bytes : List Byte) {c : Chan}
    (n : OpNum) (hc : x.live c = true) :
    let at_ (g : BitVec 4) : Byte := byteAt bytes (operatorAddr g c n)
    (x.restore bytes).op c n = { x.op c n with
      dt := dtField (at_ 3), mul := mulField (at_ 3), tl := tlField (at_ 4), ks := ksField (at_ 5), ar := arField (at_ 5)
      am := amField (at_ 6), d1r := d1rField (at_ 6), d2r := d2rField (at_ 7), sl := slField (at_ 8)
      rr := rrField (at_ 8), ssg := ssgField (at_ 9) } := by
  intro at_
  have hdt := x.decodeAt_of_addressData (i := .dtMul c n (at_ 3)) hc rfl
  have htl := x.decodeAt_of_addressData (i := .tl c n (at_ 4)) hc rfl
  have hks := x.decodeAt_of_addressData (i := .ksAr c n (at_ 5)) hc rfl
  have ham := x.decodeAt_of_addressData (i := .amD1r c n (at_ 6)) hc rfl
  have hd2 := x.decodeAt_of_addressData (i := .d2r c n (at_ 7)) hc rfl
  have hsl := x.decodeAt_of_addressData (i := .slRr c n (at_ 8)) hc rfl
  have hssg := x.decodeAt_of_addressData (i := .ssgEg c n (at_ 9)) hc rfl
  rw [Instance.restore_op hirq bytes n hc]
  simp only [operatorAddrs, List.map_cons, List.map_nil, List.foldl_cons, List.foldl_nil, at_, hdt, htl, hks, ham, hd2,
    hsl, hssg, Instr.onOperator, and_self, if_true]

/-! ### Channels -/

/-- The addresses of a channel's own fields, in order, a high byte not among them (30_encoding.md R107). -/
def ownAddrs (pan : Bool) (c : Chan) : List (BitVec 9) :=
  [channelAddr 0x28 c, channelAddr 0x2C c] ++ if pan then [channelAddr 0x2D c] else []

/-- A channel's own fields but the dirty marker: the operators as in `o`, the marker set. -/
def Channel.ownFields (o : Quad Operator) (h : Channel) : Channel :=
  { h with ops := o, dirty := true }

theorem OwnFieldsOf.ownFields_eq {h k : Channel} (hk : OwnFieldsOf h k) (o : Quad Operator) :
    k.ownFields o = h.ownFields o :=
  (congrArg (Channel.ownFields o) hk.1 :)

theorem Instr.ownFields_onOwn (pan : Bool) (fnH : BitVec 6) (c : Chan) (h : Channel) (i : Instr) (o : Quad Operator) :
    (Instr.onOwn pan fnH c h i).ownFields o = Instr.onOwn pan fnH c (h.ownFields o) i := by
  cases i with
  | fnumLo d data => simp only [Instr.onOwn]; split <;> rfl
  | fbAlgo d data => simp only [Instr.onOwn]; split <;> rfl
  | panAmsPms d data => simp only [Instr.onOwn]; split <;> rfl
  | _ => rfl

theorem Instr.onOwn_dirty (pan : Bool) (fnH : BitVec 6) (c : Chan) (h : Channel) (i : Instr) :
    (Instr.onOwn pan fnH c h i).dirty = h.dirty := by
  cases i with
  | fnumLo d data => simp only [Instr.onOwn]; split <;> rfl
  | fbAlgo d data => simp only [Instr.onOwn]; split <;> rfl
  | panAmsPms d data => simp only [Instr.onOwn]; split <;> rfl
  | _ => rfl

/-- The addresses of a channel's registers, apart from each other (30_encoding.md R107). -/
theorem channelAddr_numbers (c : Chan) :
    (channelAddr 0x28 c < channelAddr 0x2C c ∧ channelAddr 0x2C c < channelAddr 0x2D c)
      ∧ isFnumLow (channelAddr 0x28 c) = true ∧ channelAddr 0x28 c + 4 = channelAddr 0x29 c
      ∧ isFnumLow (channelAddr 0x2C c) = false ∧ isFnumLow (channelAddr 0x2D c) = false := by
  cases c <;> decide

theorem ownAddrs_sorted (pan : Bool) (c : Chan) : (ownAddrs pan c).Pairwise (· < ·) := by
  cases pan <;> cases c <;> decide

/-- The registers of a channel the family has are replayed, and none is a high byte. -/
theorem ownAddrs_replayed {f : Family} {c : Chan} (hc : c.present f.six = true) {a : BitVec 9}
    (ha : a ∈ ownAddrs f.hasLfoPan c) :
    isReplayed f a = true ∧ (a.toNat % 256 < 0xA4 ∨ 0xB0 ≤ a.toNat % 256) := by
  revert a
  revert hc
  cases f <;> cases c <;> decide +kernel

/-- A write to no register of a channel leaves its own fields. -/
theorem Instr.onOwn_of_not_mem {pan : Bool} {fnH : BitVec 6} {c : Chan} {i : Instr} {a : BitVec 9} {data : Byte}
    (h : Channel) (hi : i.addressData = some (a, data)) (ha : a ∉ ownAddrs pan c) : Instr.onOwn pan fnH c h i = h := by
  cases i with
  | fnumLo d b =>
    refine if_neg fun hcd => ha ?_
    cases hi
    rw [hcd]
    exact List.mem_cons_self
  | fbAlgo d b =>
    refine if_neg fun hcd => ha ?_
    cases hi
    rw [hcd]
    exact List.mem_cons_of_mem _ List.mem_cons_self
  | panAmsPms d b =>
    refine if_neg fun ⟨hpan, hcd⟩ => ha ?_
    cases hi
    rw [hcd, hpan]
    exact List.mem_cons_of_mem _ (List.mem_cons_of_mem _ List.mem_cons_self)
  | _ => rfl

/-- A replayed write does to a channel's own fields what its instruction does. -/
theorem Replaying.own_write {x y : Instance} (h : Replaying x y) {bytes : List Byte} {a : BitVec 9}
    (ha : isReplayed x.cfg.family a = true) (c : Chan) (o : Quad Operator) :
    ((y.write a (byteAt bytes a)).ch c).ownFields o =
      Instr.onOwn x.cfg.family.hasLfoPan y.chip.fnH c ((y.ch c).ownFields o) (x.decodeAt a (byteAt bytes a)) := by
  have hkey := (replayable_decodeAt (x := x) bytes (mem_replayAddrs.mpr ha)).notKey
  rw [Instance.write, h.decodeAt, (y.own_applyWrite hkey c).ownFields_eq, Instr.ownFields_onOwn, h.cfg]

/-- A replayed write to no register of a channel leaves its own fields. -/
theorem Replaying.own_write_of_not_mem {x y : Instance} (h : Replaying x y) {bytes : List Byte} {a : BitVec 9}
    (ha : isReplayed x.cfg.family a = true) {c : Chan} (o : Quad Operator)
    (hna : a ∉ ownAddrs x.cfg.family.hasLfoPan c) :
    ((y.write a (byteAt bytes a)).ch c).ownFields o = (y.ch c).ownFields o := by
  rw [h.own_write ha]
  exact Instr.onOwn_of_not_mem _ (x.addressData_decodeAt bytes ha) hna

/-- The replay of a channel's low byte, after its latch: the latch is its own high byte (46_channel_mix.md R375). -/
theorem Replaying.own_fnumBlock {x y : Instance} (h : Replaying x y) (bytes : List Byte) {c : Chan}
    (hc : x.live c = true) (o : Quad Operator) :
    ((y.replay bytes (block (channelAddr 0x28 c))).ch c).ownFields o =
      Instr.onOwn x.cfg.family.hasLfoPan (latchField (byteAt bytes (channelAddr 0x29 c))) c ((y.ch c).ownFields o)
        (x.decodeAt (channelAddr 0x28 c) (byteAt bytes (channelAddr 0x28 c))) := by
  obtain ⟨-, hlow, hlatch, -⟩ := channelAddr_numbers c
  have hrep := (ownAddrs_replayed (f := x.cfg.family) hc (a := channelAddr 0x28 c) List.mem_cons_self).1
  have hwrite : y.write (channelAddr 0x29 c) (byteAt bytes (channelAddr 0x29 c)) =
      y.applyWrite (.fnumHiBlk c (byteAt bytes (channelAddr 0x29 c))) := by
    rw [Instance.write, h.decodeAt, x.decodeAt_of_addressData (i := .fnumHiBlk c _) hc rfl]
  rw [block_of_low hlow, hlatch, Instance.replay_cons, hwrite]
  exact (h.applyWrite _).own_write hrep c o

/-- A channel's own fields after RESTORE: the writes to its own registers, in order, each frequency with its own high
byte. -/
theorem Instance.restore_own {x : Instance} (hirq : x.chip.irq = x.chip.level) (bytes : List Byte) {c : Chan}
    (hc : x.live c = true) (o : Quad Operator) :
    ((x.restore bytes).ch c).ownFields o = (ownAddrs x.cfg.family.hasLfoPan c).foldl
      (fun h a => Instr.onOwn x.cfg.family.hasLfoPan (latchField (byteAt bytes (channelAddr 0x29 c))) c h
        (x.decodeAt a (byteAt bytes a))) ((x.ch c).ownFields o) := by
  obtain ⟨-, -, -, hfb, hpan⟩ := channelAddr_numbers c
  refine Instance.restore_proj (x := x) hirq (fun y => (y.ch c).ownFields o) _ rfl (ownAddrs_sorted _ c)
    (fun a ha => (ownAddrs_replayed hc ha).1) (fun y hy a ha => ?_) (fun y hy a ha hna => ?_)
  · have hrep := (ownAddrs_replayed hc ha).1
    rcases List.mem_append.mp ha with ha | ha
    · rcases List.mem_pair.mp ha with rfl | rfl
      · exact hy.own_fnumBlock bytes hc o
      · rw [block_of_not_low hfb, Instance.replay_cons, Instance.replay_nil, hy.own_write hrep,
          x.decodeAt_of_addressData (i := .fbAlgo c _) hc rfl]
        rfl
    · split at ha
      next hlfo =>
        obtain rfl := List.mem_singleton.mp ha
        rw [block_of_not_low hpan, Instance.replay_cons, Instance.replay_nil, hy.own_write hrep,
          x.decodeAt_of_addressData (i := .panAmsPms c _) (Bool.and_eq_true_iff.mpr ⟨hlfo, hc⟩) rfl]
        rfl
      next => cases ha
  · cases hlow : isFnumLow a with
    | false =>
      rw [block_of_not_low hlow]
      exact hy.own_write_of_not_mem ha o hna
    | true =>
      have hlatch : a + 4 ∉ ownAddrs x.cfg.family.hasLfoPan c := fun h => by
        have hnot := (ownAddrs_replayed hc h).2
        have hrange := (isFnumLow_range a hlow).2.2
        omega
      rw [block_of_low hlow]
      exact ((hy.applyWrite _).own_write_of_not_mem ha o hna).trans
        (hy.own_write_of_not_mem (latch_isReplayed hlow ha) o hlatch)

/-- Every own field of a channel after RESTORE is that of its bytes, the frequency with its own high byte
(46_channel_mix.md R375). -/
theorem Instance.restore_own_fields {x : Instance} (hirq : x.chip.irq = x.chip.level) (bytes : List Byte) {c : Chan}
    (hc : x.live c = true) (o : Quad Operator) :
    let at_ (top : BitVec 6) : Byte := byteAt bytes (channelAddr top c)
    let latch := latchField (at_ 0x29)
    let pan := x.cfg.family.hasLfoPan
    ((x.restore bytes).ch c).ownFields o = { (x.ch c).ownFields o with
      algo := algoField (at_ 0x2C), fb := fbField (at_ 0x2C)
      fnum := latchFnum latch (at_ 0x28), blk := latchBlk latch
      kcode := keycode (latchBlk latch) (latchFnum latch (at_ 0x28))
      pms := if pan then pmsField (at_ 0x2D) else (x.ch c).pms
      ams := if pan then amsField (at_ 0x2D) else (x.ch c).ams
      panL := if pan then panLField (at_ 0x2D) else (x.ch c).panL
      panR := if pan then panRField (at_ 0x2D) else (x.ch c).panR } := by
  intro at_ latch pan
  have hlow := x.decodeAt_of_addressData (i := .fnumLo c (at_ 0x28)) hc rfl
  have hfb := x.decodeAt_of_addressData (i := .fbAlgo c (at_ 0x2C)) hc rfl
  rw [Instance.restore_own hirq bytes hc]
  by_cases hlfo : x.cfg.family.hasLfoPan = true
  · have hpan := x.decodeAt_of_addressData (i := .panAmsPms c (at_ 0x2D)) (Bool.and_eq_true_iff.mpr ⟨hlfo, hc⟩) rfl
    simp only [ownAddrs, hlfo, List.cons_append, List.nil_append, List.foldl_cons, List.foldl_nil, at_, latch, pan, hlow,
      hfb, hpan, Instr.onOwn, and_self, if_true, Channel.ownFields]
  · simp only [ownAddrs, hlfo, List.append_nil, List.foldl_cons, List.foldl_nil, at_, latch, pan, hlow, hfb, Instr.onOwn,
      if_true, if_false, Bool.false_eq_true, Channel.ownFields]

/-- RESTORE marks every channel the family has: it replays its low byte (46_channel_mix.md R375). -/
theorem Instance.restore_dirty (x : Instance) (bytes : List Byte) {c : Chan} (hc : x.live c = true) :
    ((x.restore bytes).ch c).dirty = true := by
  have hrep := (ownAddrs_replayed (f := x.cfg.family) hc (a := channelAddr 0x28 c) List.mem_cons_self).1
  have hwrite (y : Instance) (h : y.cfg = x.cfg) :
      ((y.write (channelAddr 0x28 c) (byteAt bytes (channelAddr 0x28 c))).ch c).dirty = true := by
    rw [Instance.write, Instance.decodeAt_of_addressData (i := .fnumLo c _) y (h ▸ hc) rfl, Instance.applyWrite,
      Instance.writeFnumLo_eq, Instance.ch_updCh, if_pos rfl]
  obtain ⟨pre, post, hsplit⟩ := List.append_of_mem (mem_replayAddrs.mpr hrep)
  have hpost : ∀ a ∈ post, a ∈ replayAddrs x.cfg.family := fun a ha => by
    rw [hsplit]
    exact List.mem_append_right _ (List.mem_cons_of_mem _ ha)
  rw [Instance.restore_eq, hsplit, Instance.replay_append, Instance.replay_cons]
  refine Instance.replay_induction (P := fun y => (y.ch c).dirty = true) ?_ (hwrite _ ?_) fun y i _ hi hy => ?_
  · intro a ha
    rw [Instance.write_cfg, Instance.replay_cfg, Instance.restoreShadow_rest]
    exact hpost a ha
  · rw [Instance.replay_cfg, Instance.restoreShadow_rest]
  · exact (y.own_applyWrite hi.notKey c).2 (by rwa [Instr.onOwn_dirty])

end Sys2Proof.Machine
end

section
/-! PROOFS. The chip record and the events after RESTORE (46_channel_mix.md R375). -/

namespace Sys2Proof.Machine

/-! ### The chip record and the events -/

/-- What MODE_TIMER does to the chip record and the events where the reported level is the status's (41_global_regs.md
R184). -/
def Chip.onMode (k : Chip) (events : List Event) (data : Byte) : Chip × List Event :=
  let status := k.status &&& resetMask data .b &&& resetMask data .a
  ({ k with
    mode := data, status := status, irq := status &&& irqMask != 0
    tbCnt := loadedCount (loadField data .b) k.tbCnt (k.period .b)
    taCnt := loadedCount (loadField data .a) k.taCnt (k.period .a) },
  events ++ transition k.irq (status &&& irqMask != 0) ++ loadEvents .b (loadField data .b) k.tbCnt (k.period .b)
    ++ loadEvents .a (loadField data .a) k.taCnt (k.period .a))

/-- What a register write does to the chip record and the events, where the reported level is the status's. -/
def Instr.onChipEvents (g : Config) (s : Chip × List Event) : Instr → Chip × List Event
  | .modeTimer data => s.1.onMode s.2 data
  | i => (Instr.onChip g s.1 i, s.2)

theorem Instr.onChipEvents_of_ne {i : Instr} (g : Config) (s : Chip × List Event) (h : ∀ data, i ≠ .modeTimer data) :
    Instr.onChipEvents g s i = (Instr.onChip g s.1 i, s.2) := by
  cases i with
  | modeTimer data => exact absurd rfl (h data)
  | _ => rfl

/-- The chip record and the events of an instance. -/
def Instance.chipEvents (x : Instance) : Chip × List Event := (x.chip, x.events)

theorem Instance.chipEvents_writeModeTimer {x : Instance} (hirq : x.chip.irq = x.chip.level) (data : Byte) :
    (x.writeModeTimer data).chipEvents = x.chip.onMode x.events data := by
  rw [Instance.writeModeTimer, Instance.modeActions_eq _ data (Instance.setMode_irq (x := x.store 0x027 data) data hirq),
    Instance.chipEvents, Instance.setMode_chip, Instance.setMode_events]
  rfl

/-- A replayed write does to the chip record and the events what its instruction does. -/
theorem Replaying.chipEvents_write {x y : Instance} (h : Replaying x y) (a : BitVec 9) (data : Byte) :
    (y.write a data).chipEvents = Instr.onChipEvents x.cfg y.chipEvents (x.decodeAt a data) := by
  rw [Instance.write, h.decodeAt, ← h.cfg]
  by_cases hmode : ∃ data', x.decodeAt a data = .modeTimer data'
  · obtain ⟨data', e⟩ := hmode
    rw [e]
    exact Instance.chipEvents_writeModeTimer h.irq data'
  · have hne : ∀ data', x.decodeAt a data ≠ .modeTimer data' := fun data' e => hmode ⟨data', e⟩
    rw [Instr.onChipEvents_of_ne _ _ hne, Instance.chipEvents, y.applyWrite_chip hne, (y.applyWrite_flags hne).2.2]
    rfl

theorem Replaying.chipEvents_replay {x y : Instance} (h : Replaying x y) (bytes : List Byte) (l : List (BitVec 9)) :
    (y.replay bytes l).chipEvents =
      l.foldl (fun s a => Instr.onChipEvents x.cfg s (x.decodeAt a (byteAt bytes a))) y.chipEvents := by
  induction l generalizing y with
  | nil => rfl
  | cons a l ih => exact (ih (h.applyWrite _)).trans (by rw [← Instance.write, h.chipEvents_write, List.foldl_cons])

/-! ### The registers that reach them -/

/-- The global registers the replay writes (46_channel_mix.md R375; 41_global_regs.md). -/
def globalAddrs (f : Family) : List (BitVec 9) :=
  (if f.hasLfoPan then [0x022] else []) ++ [0x024, 0x025, 0x026, 0x027]

/-- The frequency registers, channels and 3-slot, of both banks (30_encoding.md R107). -/
def freqAddrs (f : Family) : List (BitVec 9) :=
  [channelAddr 0x28 .ch0, channelAddr 0x28 .ch1, channelAddr 0x28 .ch2, channelAddr 0x29 .ch0, channelAddr 0x29 .ch1,
    channelAddr 0x29 .ch2, slot3Addr 0x2A .k0, slot3Addr 0x2A .k1, slot3Addr 0x2A .k2, slot3Addr 0x2B .k0,
    slot3Addr 0x2B .k1, slot3Addr 0x2B .k2]
  ++ if f.six then [channelAddr 0x28 .ch3, channelAddr 0x28 .ch4, channelAddr 0x28 .ch5, channelAddr 0x29 .ch3,
    channelAddr 0x29 .ch4, channelAddr 0x29 .ch5] else []

theorem chipAddrs_sorted (f : Family) : (globalAddrs f ++ freqAddrs f).Pairwise (· < ·) := by
  cases f <;> decide

theorem chipAddrs_replayed (f : Family) : ∀ a ∈ globalAddrs f ++ freqAddrs f, isReplayed f a = true := by
  cases f <;> decide +kernel

/-- The other replayed addresses are those of operators, and the channels' own beyond the frequencies. -/
theorem range_of_not_mem_chipAddrs (f : Family) : ∀ a : BitVec 9, isReplayed f a = true →
    a ∉ globalAddrs f ++ freqAddrs f → 0x30 ≤ a.toNat % 256 ∧ (a.toNat % 256 < 0xA0 ∨ 0xB0 ≤ a.toNat % 256) := by
  refine bitVec_forall ?_
  cases f <;> decide +kernel

/-- A write to no global register and no frequency register leaves the chip record and the events. -/
theorem Instr.onChipEvents_of_range {g : Config} {i : Instr} {a : BitVec 9} {data : Byte} (s : Chip × List Event)
    (hi : i.addressData = some (a, data))
    (ha : 0x30 ≤ a.toNat % 256 ∧ (a.toNat % 256 < 0xA0 ∨ 0xB0 ≤ a.toNat % 256)) : Instr.onChipEvents g s i = s := by
  cases i with
  | lfoCtrl _ => cases hi; exact absurd ha (by decide)
  | timerAHi _ => cases hi; exact absurd ha (by decide)
  | timerALo _ => cases hi; exact absurd ha (by decide)
  | timerB _ => cases hi; exact absurd ha (by decide)
  | modeTimer _ => cases hi; exact absurd ha (by decide)
  | fnumHiBlk d _ => cases hi; exact absurd ha (by cases d <;> decide)
  | sl3FnumLo e _ => cases hi; exact absurd ha (by cases e <;> decide)
  | sl3FnumHiBlk e _ => cases hi; exact absurd ha (by cases e <;> decide)
  | _ => rfl

/-- A write of the array's byte, as a change of the chip record and the events. -/
def chipWrite (x : Instance) (bytes : List Byte) (s : Chip × List Event) (a : BitVec 9) : Chip × List Event :=
  Instr.onChipEvents x.cfg s (x.decodeAt a (byteAt bytes a))

/-- The chip record and the events after RESTORE: the writes to the registers that reach them, in order, each latch before
its low byte. -/
theorem Instance.restore_chipEvents {x : Instance} (hirq : x.chip.irq = x.chip.level) (bytes : List Byte) :
    (x.restore bytes).chipEvents =
      ((globalAddrs x.cfg.family ++ freqAddrs x.cfg.family).flatMap block).foldl (chipWrite x bytes) x.chipEvents := by
  rw [List.foldl_flatMap]
  refine Instance.restore_proj (x := x) hirq Instance.chipEvents _ rfl (chipAddrs_sorted _) (chipAddrs_replayed _)
    (fun y hy a _ => hy.chipEvents_replay bytes (block a)) fun y hy a ha hna => ?_
  have hrange := range_of_not_mem_chipAddrs _ a ha hna
  have hlow : isFnumLow a = false := Bool.eq_false_iff.mpr fun h => by
    have hlow := isFnumLow_range a h
    omega
  rw [block_of_not_low hlow, hy.chipEvents_replay]
  exact Instr.onChipEvents_of_range _ (x.addressData_decodeAt bytes ha) hrange

/-! ### Their values -/

/-- A 3-slot entry of a latch byte and a low byte (43_channel_regs.md R242). -/
def entryOf (high low : Byte) : Slot3Freq :=
  let latch := latchField high
  ⟨latchFnum latch low, latchBlk latch, keycode (latchBlk latch) (latchFnum latch low)⟩

section
variable (x : Instance) (bytes : List Byte) (s : Chip × List Event)

/-- A write of the array's byte to a register, by the instruction of its address. -/
theorem chipWrite_of_addressData {i : Instr} {a : BitVec 9}
    (hwf : i.wf x.cfg.family.six x.cfg.family.hasLfoPan = true) (hi : i.addressData = some (a, byteAt bytes a)) :
    chipWrite x bytes s a = Instr.onChipEvents x.cfg s i := by
  rw [chipWrite, x.decodeAt_of_addressData hwf hi]

/-- The writes to the global registers before the mode: LFO and timer periods. -/
theorem chipWrites_global :
    ((globalAddrs x.cfg.family).flatMap block).foldl (chipWrite x bytes) s = Chip.onMode
      { s.1 with
        lfoInc := if x.cfg.family.hasLfoPan then
          (if lfoEnableField (byteAt bytes 0x022) then lfoStep x.cfg (lfoSpeedField (byteAt bytes 0x022)) else 0)
          else s.1.lfoInc
        ta := byteAt bytes 0x024 ++ timerALoField (byteAt bytes 0x025), tb := byteAt bytes 0x026 }
      s.2 (byteAt bytes 0x027) := by
  have hblocks : (globalAddrs x.cfg.family).flatMap block = globalAddrs x.cfg.family := by
    cases x.cfg.family <;> decide
  have htimers (r : Chip × List Event) : [0x024, 0x025, 0x026, 0x027].foldl (chipWrite x bytes) r =
      Chip.onMode { r.1 with
        ta := byteAt bytes 0x024 ++ timerALoField (byteAt bytes 0x025), tb := byteAt bytes 0x026 } r.2
        (byteAt bytes 0x027) := by
    have hta (k : Chip) : (byteAt bytes 0x024 ++ k.ta.extractLsb' 0 2).extractLsb' 2 8 = byteAt bytes 0x024 :=
      BitVec.extractLsb'_append_eq_left
    rw [List.foldl_cons, List.foldl_cons, List.foldl_cons, List.foldl_cons, List.foldl_nil,
      chipWrite_of_addressData x bytes r (i := .timerAHi _) rfl rfl,
      chipWrite_of_addressData x bytes _ (i := .timerALo _) rfl rfl,
      chipWrite_of_addressData x bytes _ (i := .timerB _) rfl rfl,
      chipWrite_of_addressData x bytes _ (i := .modeTimer _) rfl rfl]
    simp only [Instr.onChipEvents, Instr.onChip, hta]
  rw [hblocks, globalAddrs, List.foldl_append, htimers]
  by_cases hlfo : x.cfg.family.hasLfoPan = true
  · rw [if_pos hlfo, if_pos hlfo, List.foldl_cons, List.foldl_nil,
      chipWrite_of_addressData x bytes s (i := .lfoCtrl _) hlfo rfl,
      Instr.onChipEvents_of_ne (i := .lfoCtrl _) _ _ nofun, Instr.onChip, if_pos hlfo]
  · rw [if_neg hlfo, if_neg hlfo]
    rfl

/-- A channel's latch and low byte replace the latch. -/
theorem chipWrites_channel {c : Chan} (hc : x.live c = true) :
    (block (channelAddr 0x28 c)).foldl (chipWrite x bytes) s =
      ({ s.1 with fnH := latchField (byteAt bytes (channelAddr 0x29 c)) }, s.2) := by
  obtain ⟨-, hlow, hlatch, -⟩ := channelAddr_numbers c
  rw [block_of_low hlow, hlatch, List.foldl_cons, List.foldl_cons, List.foldl_nil,
    chipWrite_of_addressData x bytes s (i := .fnumHiBlk c _) hc rfl,
    chipWrite_of_addressData x bytes _ (i := .fnumLo c _) hc rfl]
  rfl

/-- A channel's high byte replaces the latch. -/
theorem chipWrites_channelHigh {c : Chan} (hc : x.live c = true) :
    (block (channelAddr 0x29 c)).foldl (chipWrite x bytes) s =
      ({ s.1 with fnH := latchField (byteAt bytes (channelAddr 0x29 c)) }, s.2) := by
  rw [block_of_not_low (by cases c <;> decide), List.foldl_cons, List.foldl_nil,
    chipWrite_of_addressData x bytes s (i := .fnumHiBlk c _) hc rfl]
  rfl

/-- A 3-slot entry's latch and low byte replace the 3-slot latch and the entry. -/
theorem chipWrites_entry (e : Slot3) :
    (block (slot3Addr 0x2A e)).foldl (chipWrite x bytes) s =
      (Chip.setSl3 { s.1 with sl3FnH := latchField (byteAt bytes (slot3Addr 0x2B e)) } e
        (entryOf (byteAt bytes (slot3Addr 0x2B e)) (byteAt bytes (slot3Addr 0x2A e))), s.2) := by
  have hlatch : block (slot3Addr 0x2A e) = [slot3Addr 0x2B e, slot3Addr 0x2A e] := by cases e <;> decide
  rw [hlatch, List.foldl_cons, List.foldl_cons, List.foldl_nil,
    chipWrite_of_addressData x bytes s (i := .sl3FnumHiBlk e _) rfl rfl,
    chipWrite_of_addressData x bytes _ (i := .sl3FnumLo e _) rfl rfl]
  rfl

/-- An entry's high byte replaces the 3-slot latch. -/
theorem chipWrites_entryHigh (e : Slot3) :
    (block (slot3Addr 0x2B e)).foldl (chipWrite x bytes) s =
      ({ s.1 with sl3FnH := latchField (byteAt bytes (slot3Addr 0x2B e)) }, s.2) := by
  rw [block_of_not_low (by cases e <;> decide), List.foldl_cons, List.foldl_nil,
    chipWrite_of_addressData x bytes s (i := .sl3FnumHiBlk e _) rfl rfl]
  rfl

/-- The frequency registers: each entry takes its own bytes, each latch the last high byte (46_channel_mix.md R375). -/
theorem chipWrites_freq :
    ((freqAddrs x.cfg.family).flatMap block).foldl (chipWrite x bytes) s = ({ s.1 with
      fnH := latchField (if x.cfg.family.six then byteAt bytes 0x1A6 else byteAt bytes 0x0A6)
      sl3FnH := latchField (byteAt bytes 0x0AE)
      sl3k0 := entryOf (byteAt bytes 0x0AC) (byteAt bytes 0x0A8)
      sl3k1 := entryOf (byteAt bytes 0x0AD) (byteAt bytes 0x0A9)
      sl3k2 := entryOf (byteAt bytes 0x0AE) (byteAt bytes 0x0AA) }, s.2) := by
  have h0 : x.live .ch0 = true := rfl
  have h1 : x.live .ch1 = true := rfl
  have h2 : x.live .ch2 = true := rfl
  rw [freqAddrs, List.foldl_flatMap]
  by_cases hsix : x.cfg.family.six = true
  · have h3 : x.live .ch3 = true := hsix
    have h4 : x.live .ch4 = true := hsix
    have h5 : x.live .ch5 = true := hsix
    simp only [hsix, if_true, List.cons_append, List.nil_append, List.foldl_cons, List.foldl_nil, chipWrites_channel,
      chipWrites_channelHigh, chipWrites_entry, chipWrites_entryHigh, h0, h1, h2, h3, h4, h5]
    rfl
  · simp only [hsix, if_false, List.append_nil, Bool.false_eq_true, List.foldl_cons, List.foldl_nil, chipWrites_channel,
      chipWrites_channelHigh, chipWrites_entry, chipWrites_entryHigh, h0, h1, h2]
    rfl

end

end Sys2Proof.Machine
end

section
/-! PROOFS. RESTORE's register fields in the spec's numbers (46_channel_mix.md R375). -/

namespace Sys2Proof.Machine

/-- A number that is cut to a vector's width need not be reduced first. -/
theorem ofNat_mod_of_pow {w m k : Nat} (hk : k = 2 ^ w) : BitVec.ofNat w (m % k) = BitVec.ofNat w m := by
  apply BitVec.eq_of_toNat_eq
  rw [hk, BitVec.toNat_ofNat, BitVec.toNat_ofNat, Nat.mod_mod]

/-- The frequency number of a high and a low byte, in numbers (43_channel_regs.md R240, R242). -/
theorem latchFnum_eq (high low : Byte) :
    latchFnum (latchField high) low = BitVec.ofNat 11 (high.toNat * 256 + low.toNat) := by
  have hlow := low.isLt
  apply BitVec.eq_of_toNat_eq
  rw [latchFnum_toNat, latchField_eq, BitVec.toNat_ofNat, BitVec.toNat_ofNat]
  omega

/-- The block of a high byte, in numbers (43_channel_regs.md R240, R242). -/
theorem latchBlk_eq (high : Byte) : latchBlk (latchField high) = BitVec.ofNat 3 (high.toNat / 8) := by
  apply BitVec.eq_of_toNat_eq
  rw [latchBlk_toNat, latchField_eq, BitVec.toNat_ofNat, BitVec.toNat_ofNat]
  omega

/-- Timer A's period of its two bytes, in numbers (41_global_regs.md R181, R182). -/
theorem timerA_bytes_eq (high low : Byte) :
    high ++ timerALoField low = BitVec.ofNat 10 (high.toNat * 4 + low.toNat % 4) := by
  have hlow : (timerALoField low).toNat = low.toNat % 4 := by
    rw [timerALoField, BitVec.extractLsb'_toNat, Nat.shiftRight_zero]
  have h := high.isLt
  apply BitVec.eq_of_toNat_eq
  rw [BitVec.toNat_append, ← Nat.shiftLeft_add_eq_or_of_lt (BitVec.isLt _), hlow, BitVec.toNat_ofNat, Nat.shiftLeft_eq]
  omega

/-- Settles O37: each record is a fold over the writes of its own registers, whose fields are then put in numbers. -/
theorem restoreSetsTheRegisterFields : Obligations.RestoreSetsTheRegisterFields := by
  intro s t bytes hirq hexec
  have hself : t.self = s.self.restore bytes := by
    obtain ⟨_, _, _, h, -⟩ | ⟨_, _, _, _, _, _, h, -⟩ | ⟨h, -⟩ | ⟨_, _, _, _, h, -⟩ | ⟨_, h, -⟩ | ⟨h, -⟩ | ⟨b, h, -, e⟩ :=
      exec_other rfl hexec
    case inr.inr.inr.inr.inr.inr => rw [e, Instr.restore.inj h]
    all_goals cases h
  have hchip := Instance.restore_chipEvents hirq bytes
  rw [List.flatMap_append, List.foldl_append, chipWrites_global, chipWrites_freq] at hchip
  obtain ⟨hchip, hevents⟩ := Prod.mk.injEq .. ▸ hchip
  rw [hself]
  refine ⟨fun c n hc => ?_, fun c hc => ?_, fun e => ?_, ?_, ?_⟩
  · have h := Instance.restore_op_fields hirq bytes n hc
    simp only [dtField_eq, mulField_eq, tlField_eq, ksField_eq, arField_eq, amField_eq, d1rField_eq, d2rField_eq,
      slField_eq, rrField_eq, ssgField_eq, ofNat_mod_of_pow, Nat.reducePow] at h
    exact h
  · have h := Instance.restore_own_fields hirq bytes hc (s.self.ch c).ops
    have hdirty := s.self.restore_dirty bytes hc
    simp only [algoField_eq, fbField_eq, latchFnum_eq, latchBlk_eq, pmsField_eq, amsField_eq, panLField_eq,
      panRField_eq, ofNat_mod_of_pow, Nat.reducePow] at h
    have hown : { (s.self.restore bytes).ch c with ops := (s.self.ch c).ops } =
        ((s.self.restore bytes).ch c).ownFields (s.self.ch c).ops := by rw [Channel.ownFields, ← hdirty]
    exact hown.trans h
  · rw [hchip]
    simp only [← latchFnum_eq, ← latchBlk_eq]
    cases e <;> rfl
  · rw [hchip]
    simp only [Instance.chipEvents, Chip.onMode, timerA_bytes_eq, latchField_eq, lfoEnableField_eq, lfoSpeedField_eq,
      resetMask_a, resetMask_b, irqMask_eq, loadField_a, loadField_b, ofNat_mod_of_pow, Nat.reducePow]
    rfl
  · rw [hevents, hchip]
    simp only [Instance.chipEvents, Chip.onMode, timerA_bytes_eq, loadField_a, loadField_b]
    rfl

end Sys2Proof.Machine
end
